-- ==== Sys2Proof/Word.lean ====
section
/-! DEFINITION. The word types of the part: octets, words, part time, and the numbers of lines, stations, groups and watches. -/

namespace Sys2Proof

/-- One octet of a message, and every parameter, address or code that is one octet wide (R189). -/
abbrev Octet := BitVec 8

/-- A 16-bit word: status words, order and delivery numbers, group sets, CRCs (R189). -/
abbrev Word := BitVec 16

/-- Part time, 32 bits wide and wrapping (R183). -/
abbrev PartTime := BitVec 32

/-- The four drop lines, 0 to 3. -/
abbrev LineNo := Fin 4

/-- The index of a station entry, 0 to 95 (section 3.1). -/
abbrev StationIx := Fin 96

/-- The sixteen groups (section 5.1). -/
abbrev GroupNo := Fin 16

/-- The number of a watch entry, 0 to 31 (section 6.1). -/
abbrev WatchNo := Fin 32

/-- A count kept in one octet of a message. -/
abbrev octet (n : Nat) : Octet := BitVec.ofNat 8 n

end Sys2Proof
end

