-- ==== Sys2Proof/Config.lean ====
section
/-! DEFINITION. What is fixed for the part: its capacities, the default line parameters, and its one free value. -/

namespace Sys2Proof

namespace Config

/-- 40 order records (R79). -/
def orderRecords : Nat := 40

/-- 4 delivery records (R119). -/
def deliveryRecords : Nat := 4

/-- At most 24 members in a group's list (R105). -/
def membersPerGroup : Nat := 24

/-- 160 buffer blocks (R151). -/
def bufferBlocks : Nat := 160

/-- 32 octets in a block (R151). -/
def blockOctets : Nat := 32

/-- 48 report slots (R155). -/
def reportSlots : Nat := 48

/-- A reservation is granted while fewer than 40 slots are in use (R156). -/
def reservationLimit : Nat := 40

/-- The send window: at most 8 reports sent and unconfirmed (R163). -/
def sendWindow : Nat := 8

/-- The request input queue holds up to 4 frames (R173). -/
def inputQueueFrames : Nat := 4

/-- 4 reply places (R178). -/
def replyPlaces : Nat := 4

/-- 2 notice places (R176). -/
def noticePlaces : Nat := 2

/-- IDENTIFY's values: vendor code, part code (2 octets), revision, and the nine capacities (R184, R194). -/
def identity : List Octet := [0x52, 0x04, 0x16, 1, 4, 96, 16, 24, 32, 40, 4, 160, 48]

/-- FREE VALUE [log 6]. Which goes first when a reply or notice and a report offer reach an idle transmitter in one
step; R181 allows either. Applied to the count of such choices made so far. -/
opaque reportOfferFirst : Nat → Bool

end Config

/-- The eight parameters of a line, each one octet (R25). -/
structure LineParams where
  rate : Octet
  window : Octet
  retryLimit : Octet
  missLimit : Octet
  guard : Octet
  busyDelay : Octet
  cycleFloor : Octet
  holdLimit : Octet
  deriving DecidableEq, Repr

/-- The defaults of R25, which are the values after a reset. -/
def LineParams.default : LineParams :=
  { rate := 2, window := 24, retryLimit := 2, missLimit := 3, guard := 2, busyDelay := 20, cycleFloor := 10, holdLimit := 50 }

/-- The ranges of R25. -/
def LineParams.inRange (p : LineParams) : Bool :=
  p.rate.toNat ≤ 7 && 4 ≤ p.window.toNat && p.retryLimit.toNat ≤ 7 &&
  (1 ≤ p.missLimit.toNat && p.missLimit.toNat ≤ 15) && (1 ≤ p.guard.toNat && p.guard.toNat ≤ 15) &&
  1 ≤ p.busyDelay.toNat

end Sys2Proof
end

