-- ==== Sys2Proof/Syntax.lean ====
section
/-! DEFINITION. The commands of the part: one constructor of `Instr` for each row of spec/opcode_table.json. -/

namespace Sys2Proof

/-- A host frame as the receiver queues it: KIND, TAG and BODY (R175). -/
structure HostFrame where
  kind : Octet
  tag : Octet
  body : List Octet
  deriving DecidableEq, Repr

/-- A character as a drop line's receiver delivers it, with its class (R2). -/
inductive DropChar where
  | breakChar
  | framingError
  | header (address : Octet)
  | body (octet : Octet)
  deriving DecidableEq, Repr

/-- The KINDs of the 28 requests (R194). -/
def requestKinds : List Octet :=
  [0x01, 0x02, 0x03, 0x04, 0x10, 0x11, 0x12, 0x13, 0x20, 0x21, 0x22, 0x23, 0x24, 0x25,
   0x30, 0x31, 0x32, 0x33, 0x40, 0x41, 0x42, 0x43, 0x50, 0x51, 0x52, 0x53, 0x60, 0x61]

/-- The commands. A request carries the TAG and the BODY of its frame, undecoded: a body of the wrong length or with a
reserved octet set is answered too (R179). An event of a drop line carries its line. -/
inductive Instr where
  | identify (tag : Octet) (body : List Octet)
  | partStatus (tag : Octet) (body : List Octet)
  | setLinkRate (tag : Octet) (body : List Octet)
  | restart (tag : Octet) (body : List Octet)
  | lineSet (tag : Octet) (body : List Octet)
  | lineStart (tag : Octet) (body : List Octet)
  | lineStop (tag : Octet) (body : List Octet)
  | lineStatus (tag : Octet) (body : List Octet)
  | stationAdd (tag : Octet) (body : List Octet)
  | stationRemove (tag : Octet) (body : List Octet)
  | stationSuspend (tag : Octet) (body : List Octet)
  | stationResume (tag : Octet) (body : List Octet)
  | stationSet (tag : Octet) (body : List Octet)
  | stationQuery (tag : Octet) (body : List Octet)
  | send (tag : Octet) (body : List Octet)
  | fetch (tag : Octet) (body : List Octet)
  | cancel (tag : Octet) (body : List Octet)
  | orderQuery (tag : Octet) (body : List Octet)
  | memberAdd (tag : Octet) (body : List Octet)
  | memberDrop (tag : Octet) (body : List Octet)
  | groupSend (tag : Octet) (body : List Octet)
  | groupQuery (tag : Octet) (body : List Octet)
  | watchSet (tag : Octet) (body : List Octet)
  | watchClear (tag : Octet) (body : List Octet)
  | watchRearm (tag : Octet) (body : List Octet)
  | watchQuery (tag : Octet) (body : List Octet)
  | reportConfirm (tag : Octet) (body : List Octet)
  | reportResend (tag : Octet) (body : List Octet)
  /-- A frame whose KIND names no request (R192). -/
  | unknownKind (kind tag : Octet) (body : List Octet)
  /-- A character of the host link; `stopMark` says that its stop bit was mark. A break is octet 0 with a space stop bit (R174). -/
  | hostCharacter (octet : Octet) (stopMark : Bool)
  | hostGapTimeout
  | hostFrameSent
  | restartEffect
  | resetAssert
  | resetRelease
  | faultAssert (line : LineNo)
  | faultRelease (line : LineNo)
  | holdExpiry (line : LineNo)
  | lineClearEnd (line : LineNo)
  | dropFrameEnd (line : LineNo)
  | replyCharacter (line : LineNo) (c : DropChar)
  | strayCharacter (line : LineNo) (c : DropChar)
  /-- `receiving` says that a character is being received as the window expires (R16). -/
  | replyWindowExpiry (line : LineNo) (receiving : Bool)
  | replyGapTimeout (line : LineNo)
  | corruptQuietEnd (line : LineNo)
  | busyDelayExpiry (line : LineNo)
  | guardExpiry (line : LineNo)
  | cycleFloorExpiry (line : LineNo)
  deriving DecidableEq, Repr

/-- The frame a request command takes; absent for the events. -/
def Instr.frame : Instr → Option HostFrame
  | .identify tag body => some ⟨0x01, tag, body⟩
  | .partStatus tag body => some ⟨0x02, tag, body⟩
  | .setLinkRate tag body => some ⟨0x03, tag, body⟩
  | .restart tag body => some ⟨0x04, tag, body⟩
  | .lineSet tag body => some ⟨0x10, tag, body⟩
  | .lineStart tag body => some ⟨0x11, tag, body⟩
  | .lineStop tag body => some ⟨0x12, tag, body⟩
  | .lineStatus tag body => some ⟨0x13, tag, body⟩
  | .stationAdd tag body => some ⟨0x20, tag, body⟩
  | .stationRemove tag body => some ⟨0x21, tag, body⟩
  | .stationSuspend tag body => some ⟨0x22, tag, body⟩
  | .stationResume tag body => some ⟨0x23, tag, body⟩
  | .stationSet tag body => some ⟨0x24, tag, body⟩
  | .stationQuery tag body => some ⟨0x25, tag, body⟩
  | .send tag body => some ⟨0x30, tag, body⟩
  | .fetch tag body => some ⟨0x31, tag, body⟩
  | .cancel tag body => some ⟨0x32, tag, body⟩
  | .orderQuery tag body => some ⟨0x33, tag, body⟩
  | .memberAdd tag body => some ⟨0x40, tag, body⟩
  | .memberDrop tag body => some ⟨0x41, tag, body⟩
  | .groupSend tag body => some ⟨0x42, tag, body⟩
  | .groupQuery tag body => some ⟨0x43, tag, body⟩
  | .watchSet tag body => some ⟨0x50, tag, body⟩
  | .watchClear tag body => some ⟨0x51, tag, body⟩
  | .watchRearm tag body => some ⟨0x52, tag, body⟩
  | .watchQuery tag body => some ⟨0x53, tag, body⟩
  | .reportConfirm tag body => some ⟨0x60, tag, body⟩
  | .reportResend tag body => some ⟨0x61, tag, body⟩
  | .unknownKind kind tag body => some ⟨kind, tag, body⟩
  | .hostCharacter _ _ => none
  | .hostGapTimeout => none
  | .hostFrameSent => none
  | .restartEffect => none
  | .resetAssert => none
  | .resetRelease => none
  | .faultAssert _ => none
  | .faultRelease _ => none
  | .holdExpiry _ => none
  | .lineClearEnd _ => none
  | .dropFrameEnd _ => none
  | .replyCharacter _ _ => none
  | .strayCharacter _ _ => none
  | .replyWindowExpiry _ _ => none
  | .replyGapTimeout _ => none
  | .corruptQuietEnd _ => none
  | .busyDelayExpiry _ => none
  | .guardExpiry _ => none
  | .cycleFloorExpiry _ => none

end Sys2Proof
end

