-- ==== Sys2Proof/Decode.lean ====
section
/-! DEFINITION. The table's words: no row of spec/opcode_table.json gives bits, so no word spells a command. -/

namespace Sys2Proof

/-- The command that a word of `nbits` bits spells by the table. Every row of the table has an empty list of fields, so
there is none. -/
def decodeTableWord (nbits w : Nat) : Option Instr :=
  match nbits, w with
  | _, _ => none

end Sys2Proof
end

