-- ==== Sys2Proof/Machine/State.lean ====
section
/-! DEFINITION. The state of the part as plain data, its reasons to stop, and the state after reset. -/

namespace Sys2Proof

namespace Machine

/-! ## Drop lines -/

/-- Why a reply frame is corrupt (R17, R19). -/
inductive CorruptCause where
  | wrongStation
  | gap
  | breakReceived
  | framing
  | mark
  | length
  | check
  | unexpected
  deriving DecidableEq, Repr

/-- The twelve drop frame types (R9, R10, R196); DATA is both an outbound and a reply type. -/
inductive FrameType where
  | poll
  | clear
  | data
  | fetch
  | join
  | leave
  | groupData
  | groupCheck
  | groupRepair
  | status
  | ack
  | nak
  deriving DecidableEq, Repr

/-- A drop frame's content; its octets are those of R5 [log 17]. -/
structure DropFrame where
  address : Octet
  type : FrameType
  bit : Bool
  payload : List Octet
  deriving DecidableEq, Repr

/-- The four NAK reasons (R10). -/
inductive NakReason where
  | refused
  | full
  | missed
  | empty
  deriving DecidableEq, Repr

/-- A well-formed reply frame of a recognised type with the payload length of R10. -/
inductive DropReply where
  | status (word : Word) (dataWaiting restarted : Bool)
  | ack (bit : Bool)
  | nak (reason : NakReason)
  | data (bit : Bool) (payload : List Octet)
  deriving DecidableEq, Repr

/-- The class of an attempt result, with the cause or the reply it carries (R20). -/
inductive AttemptClass where
  | good (reply : DropReply)
  | nakFull
  | corrupt (cause : CorruptCause)
  | noReply
  deriving DecidableEq, Repr

/-- What the receiver hands to its line engine at the end of an attempt (R20). -/
structure AttemptResult where
  outcome : AttemptClass
  heard : Bool
  whollySent : Bool
  endTime : PartTime
  deriving DecidableEq, Repr

/-- The eight states of a line engine (section 2.2). -/
inductive LineState where
  | off
  | starting
  | idle
  | sending
  | awaiting
  | backoff
  | held
  | stopping
  deriving DecidableEq, Repr

/-- Why a line last went OFF (section 2.1). -/
inductive OffCause where
  | none
  | stopped
  | holdExpired
  deriving DecidableEq, Repr

/-- The state of a line's poll cycle (section 2.1). -/
inductive CycleState where
  | running
  | complete
  deriving DecidableEq, Repr

/-- The condition a line report tells of (R52). -/
inductive LineCondition where
  | running
  | held
  | off
  deriving DecidableEq, Repr

/-- The cause of a line report's latest change (R52). -/
inductive LineCause where
  | faultAsserted
  | faultReleased
  | holdExpired
  | stopped
  deriving DecidableEq, Repr

/-- A full line report latch (R52). -/
structure LineLatch where
  condition : LineCondition
  cause : LineCause
  time : PartTime
  changeCount : Nat
  deriving DecidableEq, Repr

/-- The six statistics of a line (R50). -/
structure LineStats where
  transactions : Nat
  retryAttempts : Nat
  corruptFrames : Nat
  noReplyAttempts : Nat
  strayFrames : Nat
  breaks : Nat
  deriving DecidableEq, Repr

/-- All six statistics 0 (R22, R51). -/
def LineStats.zero : LineStats :=
  { transactions := 0, retryAttempts := 0, corruptFrames := 0, noReplyAttempts := 0, strayFrames := 0, breaks := 0 }

/-- The kind of a transaction (R30). -/
inductive TxKind where
  | poll
  | clear
  | send
  | fetch
  | join
  | leave
  | groupData
  | groupCheck
  | groupRepair
  deriving DecidableEq, Repr

/-- A step of a pass: its GROUP DATA frame, or the member at a place of the snapshot (R120). -/
inductive PassStep where
  | groupData
  | member (place : Nat)
  deriving DecidableEq, Repr

/-- The work a transaction carries out (section 2.5): an order and a delivery are named by their numbers (R81). -/
inductive TxWork where
  | pollStep
  | order (number : Word)
  | pass (delivery : Word) (step : PassStep)
  deriving DecidableEq, Repr

/-- The transaction record (section 2.5). `target` is the station address, or the group number for GROUP DATA. -/
structure Transaction where
  kind : TxKind
  work : TxWork
  station : Option StationIx
  target : Octet
  frame : DropFrame
  attemptLimit : Nat
  attemptsUsed : Nat
  heard : Bool
  lastHeard : Option PartTime
  whollySent : Nat
  lastResult : Option AttemptResult
  suspended : Bool
  deriving DecidableEq, Repr

/-- What an AWAITING engine's receiver is doing (R16 to R18). -/
inductive Reception where
  /-- The reply window runs and no frame has been opened. -/
  | window
  /-- The reply window has run out while a character was being received (R16). -/
  | lastCharacter
  /-- A reply frame is open; its octets so far, the header first. -/
  | opened (octets : List Octet)
  /-- The reply was found corrupt; later characters are discarded until the line is quiet (R18). -/
  | discarding (cause : CorruptCause) (heard : Bool)
  deriving DecidableEq, Repr

/-- A line engine (section 2.1). Of a timer it holds whether it runs [log 2]; the three that part time counts have their
milliseconds left beside it (R183) [log 19]. -/
structure LineEngine where
  state : LineState
  params : LineParams
  /-- The FAULT level: asserted or released (section 2.1). -/
  fault : Bool
  tx : Option Transaction
  previousPoll : Bool
  cycleCount : BitVec 16
  /-- 0 at the start of the poll list, else the address of the station last polled (R43, R51). -/
  cursor : Octet
  cycleStart : Option PartTime
  cycleState : CycleState
  /-- No poll cycle has begun since the last LINE START (R47). -/
  cycleAwaited : Bool
  /-- The milliseconds of the cycle floor still ahead, counted from the cycle start (R44) [log 19]. -/
  floorLeft : Nat
  /-- The milliseconds of the busy delay still ahead (R33, R183); 0 while it does not run. -/
  busyLeft : Nat
  /-- The milliseconds of the hold still ahead (R46, R48, R183); 0 while its timer does not run. -/
  holdLeft : Nat
  guardRunning : Bool
  busyRunning : Bool
  floorRunning : Bool
  holdRunning : Bool
  reception : Option Reception
  stats : LineStats
  latch : Option LineLatch
  offCause : OffCause
  deriving DecidableEq, Repr

/-- A line engine after a reset (R22), with the FAULT level its input has. -/
def LineEngine.reset (fault : Bool) : LineEngine :=
  { state := .off, params := LineParams.default, fault := fault, tx := none, previousPoll := false, cycleCount := 0,
    cursor := 0, cycleStart := none, cycleState := .complete, cycleAwaited := false, floorLeft := 0, busyLeft := 0, holdLeft := 0,
    guardRunning := false, busyRunning := false, floorRunning := false, holdRunning := false, reception := none,
    stats := LineStats.zero, latch := none, offCause := .none }

/-! ## Stations -/

/-- The seven states of a station entry (section 3.2). -/
inductive StationState where
  | free
  | probing
  | online
  | resync
  | missing
  | suspended
  | retiring
  deriving DecidableEq, Repr

/-- How often an ONLINE station is polled (R42). -/
inductive PollClass where
  | fast
  | normal
  | slow
  deriving DecidableEq, Repr

/-- Why a station last left ONLINE for RESYNC (section 3.1). -/
inductive ResyncCause where
  | restart
  | doubt
  deriving DecidableEq, Repr

/-- The two presences of a presence report (R58). -/
inductive Presence where
  | up
  | down
  deriving DecidableEq, Repr

/-- A full presence latch (R58). -/
structure PresenceLatch where
  presence : Presence
  changeCount : Nat
  restarted : Bool
  time : PartTime
  deriving DecidableEq, Repr

/-- A station entry (section 3.1). `lapsed` has bit n set when group n is in the lapsed-groups set (R189). -/
structure Station where
  line : LineNo
  address : Octet
  state : StationState
  pollClass : PollClass
  collect : Bool
  missCount : Nat
  sendBit : Bool
  fetchBit : Bool
  lastStatus : Option Word
  lastHeard : Option PartTime
  resyncCause : Option ResyncCause
  lapsed : BitVec 16
  collectDue : Bool
  collectOutstanding : Bool
  latch : Option PresenceLatch
  deriving DecidableEq, Repr

/-- A FREE entry: every field at its cleared value (R54). -/
def Station.cleared : Station :=
  { line := 0, address := 0, state := .free, pollClass := .normal, collect := false, missCount := 0, sendBit := false,
    fetchBit := false, lastStatus := none, lastHeard := none, resyncCause := none, lapsed := 0, collectDue := false,
    collectOutstanding := false, latch := none }

/-- A station as orders, members, watches and reports hold it: index, line and address (R189). -/
structure StationRef where
  index : StationIx
  line : LineNo
  address : Octet
  deriving DecidableEq, Repr

/-! ## Orders -/

/-- The five kinds of order record (R80). -/
inductive OrderKind where
  | send
  | fetch
  | join
  | leave
  | groupPass
  deriving DecidableEq, Repr

/-- Which block made a record (R80). -/
inductive OrderSource where
  | host
  | collect
  | delivery
  deriving DecidableEq, Repr

/-- The two priorities (section 4.1). -/
inductive Priority where
  | normal
  | urgent
  deriving DecidableEq, Repr

/-- The state of an order record (section 4.5). -/
inductive OrderState where
  | queued
  | active
  | done
  deriving DecidableEq, Repr

/-- What a pass does next (R120). -/
inductive PassNext where
  | groupData
  | members
  deriving DecidableEq, Repr

/-- An order record (section 4.1), with the two items the delivery unit keeps for a pass (R120). The attempts used of an
ACTIVE order are its transaction's (R89). -/
structure OrderRecord where
  number : Word
  kind : OrderKind
  source : OrderSource
  priority : Priority
  line : LineNo
  station : Option StationRef
  group : Option GroupNo
  state : OrderState
  cancelFlag : Bool
  length : Nat
  blocks : List Nat
  nextStep : PassNext
  passStep : Option PassStep
  deriving DecidableEq, Repr

/-- How an order ended (R96). -/
inductive OrderOutcome where
  | accepted
  | data
  | empty
  | refused
  | busy
  | corrupt (cause : CorruptCause)
  | noReply
  | cancelled
  | aborted
  | stationDown
  | suspended
  | removed
  | lineStopped
  | lineFault
  deriving DecidableEq, Repr

/-! ## Groups and deliveries -/

/-- The state of a membership in the group table (section 5.1). -/
inductive MemberState where
  | joining
  | active
  | leaving
  | lapsed
  deriving DecidableEq, Repr

/-- A station's place in a group's list (section 5.1). -/
structure Member where
  station : StationRef
  state : MemberState
  deriving DecidableEq, Repr

/-- A group's entry: its list and its sequence number (section 5.1). -/
structure Group where
  members : List Member
  seq : BitVec 4
  deriving DecidableEq, Repr

/-- The state of a member inside one delivery (R119). -/
inductive DeliveryMemberState where
  | waiting
  | checking
  | repairing
  | accepted
  | refused
  | unreached
  | dropped
  | cancelled
  deriving DecidableEq, Repr

/-- A pending fate of a member with a step in flight (R119, R125, R126). -/
inductive Fate where
  | unreached
  | dropped
  deriving DecidableEq, Repr

/-- A member of a delivery's snapshot (R119). -/
structure DeliveryMember where
  station : StationRef
  state : DeliveryMemberState
  attempts : Nat
  repaired : Bool
  fate : Option Fate
  deriving DecidableEq, Repr

/-- A delivery record in use (R119). `roster` is the group's list at acceptance, whose order GROUP QUERY's entries keep
(section 9.3) [log 18]. -/
structure Delivery where
  number : Word
  group : GroupNo
  seq : BitVec 4
  priority : Priority
  cancelling : Bool
  length : Nat
  blocks : List Nat
  excluded : Nat
  outstanding : Nat
  snapshot : List DeliveryMember
  roster : List StationRef
  deriving DecidableEq, Repr

/-- The outcome of a delivery (R130). -/
inductive DeliveryOutcome where
  | complete
  | partly
  | failed
  | cancelled
  deriving DecidableEq, Repr

/-! ## Watches -/

/-- A bit condition of a watch (R137). -/
inductive Condition where
  | ignore
  | low
  | high
  | rise
  | fall
  | change
  deriving DecidableEq, Repr

/-- How a watch joins its conditions (R138). -/
inductive Combine where
  | all
  | any
  deriving DecidableEq, Repr

/-- The state of a watch entry (section 6.1). -/
inductive WatchState where
  | free
  | armed
  | pending
  | spent
  deriving DecidableEq, Repr

/-- The hit fields of a PENDING entry (R139, R140). -/
structure Hit where
  previous : Option Word
  matching : Word
  latest : Word
  repeats : Nat
  time : PartTime
  deriving DecidableEq, Repr

/-- A watch entry (section 6.1); `conditions` is in bit order from bit 0. -/
structure Watch where
  state : WatchState
  station : Option StationRef
  conditions : Vector Condition 16
  combine : Combine
  oneShot : Bool
  hit : Option Hit
  deriving DecidableEq, Repr

/-- A FREE watch entry (R134). -/
def Watch.cleared : Watch :=
  { state := .free, station := none, conditions := Vector.replicate 16 .ignore, combine := .all, oneShot := false,
    hit := none }

/-! ## Reports -/

/-- The cause PART STARTED carries (R168). -/
inductive StartCause where
  | pin
  | request
  deriving DecidableEq, Repr

/-- The items of an ORDER DONE report but its payload, which is in blocks (R94). -/
structure OrderDone where
  number : Word
  kind : OrderKind
  source : OrderSource
  station : Option StationRef
  group : Option GroupNo
  outcome : OrderOutcome
  attempts : Nat
  uncertain : Bool
  lateCancel : Bool
  time : PartTime
  deriving DecidableEq, Repr

/-- The items of a DELIVERY DONE report (R130). -/
structure DeliveryDone where
  number : Word
  group : GroupNo
  seq : BitVec 4
  outcome : DeliveryOutcome
  excluded : Nat
  accepted : Nat
  time : PartTime
  members : List DeliveryMember
  deriving DecidableEq, Repr

/-- What a report tells, as its making rule gave it (R164). -/
inductive ReportItems where
  | partStarted (cause : StartCause) (time : PartTime)
  | orderDone (d : OrderDone)
  | deliveryDone (d : DeliveryDone)
  | stationPresence (station : StationRef) (latch : PresenceLatch) (lapsed : BitVec 16)
  | watchHit (number : WatchNo) (station : Option StationRef) (hit : Hit) (oneShot : Bool)
  | lineEvent (line : LineNo) (latch : LineLatch)
  deriving DecidableEq, Repr

/-- A report of the report list: QUEUED, or SENT (R155). Its payload, if any, is in its blocks (R153). -/
structure Report where
  number : Octet
  items : ReportItems
  blocks : List Nat
  length : Nat
  sent : Bool
  deriving DecidableEq, Repr

/-- A latched source of the pending list (R159). -/
inductive Source where
  | station (index : StationIx)
  | line (number : LineNo)
  | watch (number : WatchNo)
  deriving DecidableEq, Repr

/-! ## Host link -/

/-- The result codes of a reply (R179). -/
inductive ResultCode where
  | ok
  | badFormat
  | unknownKind
  | badValue
  | noSuch
  | state
  | duplicate
  | tableFull
  | noRecord
  | noBuffer
  | reportFull
  | lineOff
  | stationDown
  | groupBusy
  | noDelivery
  deriving DecidableEq, Repr

/-- A reply as it was formed (R172, R179); `rate` is the rate a SET LINK RATE reply brings when it has left (R171). -/
structure Reply where
  kind : Octet
  tag : Octet
  code : ResultCode
  data : List Octet
  rate : Option Octet
  deriving DecidableEq, Repr

/-- Why the receiver discarded a frame (section 8.4). -/
inductive NoticeReason where
  | length
  | gap
  | check
  | overrun
  deriving DecidableEq, Repr

/-- A notice (R176). -/
structure Notice where
  reason : NoticeReason
  tag : Octet
  count : Nat
  deriving DecidableEq, Repr

/-- A frame that waits in the reply queue (R181). -/
inductive WaitingFrame where
  | reply (r : Reply)
  | notice (n : Notice)
  deriving DecidableEq, Repr

/-- The frame in transmission (section 8.6). A report is named by its number; `resent` says that a REPORT RESEND was
taken during its transmission (R166). -/
inductive Transmission where
  | reply (r : Reply)
  | notice (n : Notice)
  | report (number : Octet) (resent : Bool)
  deriving DecidableEq, Repr

/-- The host link receiver with its partial frame (section 8.3): `got` holds KIND, TAG and BODY so far, and `ended` is the part
time at which the last character of the partial frame ended [log 27]. -/
inductive Receiver where
  | hunt
  | length (ended : PartTime)
  | body (len : Octet) (got : List Octet) (ended : PartTime)
  | check (len : Octet) (got : List Octet) (high : Option Octet) (ended : PartTime)
  deriving DecidableEq, Repr

/-! ## The machine -/

/-- The buffer pool's contents: (address, octet) pairs, addresses strictly rising, none equal to the blank octet. -/
abbrev Memory := List Host.Cell

/-- The state of the part (INVENTORY.md, State). -/
structure State where
  /-- The commands that wait, first in, first out. -/
  pending : List Instr
  resetAsserted : Bool
  partTime : PartTime
  engines : Vector LineEngine 4
  stations : Vector Station 96
  /-- The order records in use, in the order of their acceptance. -/
  orders : List OrderRecord
  orderCounter : Word
  groups : Vector Group 16
  /-- The delivery records in use. -/
  deliveries : List Delivery
  watches : Vector Watch 32
  pool : Memory
  /-- The report list: every QUEUED and SENT report, oldest first. -/
  reports : List Report
  /-- The number of RESERVED slots [log 15]. -/
  reserved : Nat
  reportCounter : Octet
  /-- The pending list of latched sources. -/
  sources : List Source
  linkRate : Octet
  rx : Receiver
  inputQueue : List HostFrame
  restarting : Bool
  replyQueue : List WaitingFrame
  tx : Option Transmission
  /-- MODEL'S OWN: how many open choices of the transmitter have been made (R181) [log 6]. -/
  choices : Nat
  deriving DecidableEq, Repr

/-- No command makes the part stop with a fault: the type has no constructor. -/
inductive Fault where
  deriving DecidableEq, Repr

/-- Reasons to refuse a command. -/
inductive Refusal where
  /-- Raised by an arm of `exec` whose command has no meaning yet. Safe: the model stops where the part goes on. -/
  | notModelled (mnemonic : String)
  deriving DecidableEq, Repr

/-- PART STARTED as a reset queues it: report number 0, QUEUED, at part time 0 (R168, R183). -/
def partStarted (cause : StartCause) : Report :=
  { number := 0, items := .partStarted cause 0, blocks := [], length := 0, sent := false }

/-- The part right after the RESET input is released (R188): every block in its reset state, and PART STARTED offered to the
idle transmitter at once. The FAULT inputs are released [log 8]; the pool lists nothing [log 7]. -/
def State.reset : State :=
  { pending := [], resetAsserted := false, partTime := 0,
    engines := Vector.replicate 4 (LineEngine.reset false),
    stations := Vector.replicate 96 Station.cleared,
    orders := [], orderCounter := 1,
    groups := Vector.replicate 16 { members := [], seq := 0 },
    deliveries := [],
    watches := Vector.replicate 32 Watch.cleared,
    pool := [],
    reports := [partStarted .pin], reserved := 0, reportCounter := 1, sources := [],
    linkRate := 2, rx := .hunt, inputQueue := [], restarting := false, replyQueue := [],
    tx := some (.report 0 false), choices := 0 }

end Machine

end Sys2Proof
end

