-- ==== Sys2Proof/Machine/Flags.lean ====
section
/-! DEFINITION. Every flag and counter computation of the part: counters that stop, statistics, flag octets, truth fields, bit conditions of watches. -/

namespace Sys2Proof

namespace Machine

/-- A counter raised by 1 that stops at `top`: miss count (R61), change counts (R53, R58), repeat count (R140), notice
count (R176), statistics (R50). -/
def stepUpTo (top n : Nat) : Nat :=
  min (n + 1) top

/-- A line statistic raised by 1; it stops at 65535 (R50). -/
def statUp (n : Nat) : Nat :=
  stepUpTo 65535 n

/-- The statistics after one attempt result (R20, R50): `retry` says that the attempt was not its transaction's first. -/
def LineStats.attempt (s : LineStats) (c : AttemptClass) (retry : Bool) : LineStats :=
  { s with
    retryAttempts := if retry then statUp s.retryAttempts else s.retryAttempts
    corruptFrames := match c with
      | .corrupt _ => statUp s.corruptFrames
      | _ => s.corruptFrames
    noReplyAttempts := match c with
      | .noReply => statUp s.noReplyAttempts
      | _ => s.noReplyAttempts }

/-- The statistics after a character outside a reply window (R21). -/
def LineStats.stray (s : LineStats) : DropChar → LineStats
  | .breakChar => { s with breaks := statUp s.breaks }
  | .framingError => s
  | .header a => if a = 0 then { s with corruptFrames := statUp s.corruptFrames } else { s with strayFrames := statUp s.strayFrames }
  | .body _ => s

/-- A truth field: 0 for no, 1 for yes (R189). -/
def truth (b : Bool) : Octet :=
  if b then 1 else 0

/-- A truth field read from a request; any value but 0 and 1 is out of range (R190). -/
def truthOf (o : Octet) : Option Bool :=
  if o = 0 then some false else if o = 1 then some true else none

/-- A flag octet with its bits 0 and 1 (R189): sequence bits and collect flags (section 9.3), ORDER DONE's flags (section 9.4). -/
def flagPair (bit0 bit1 : Bool) : Octet :=
  truth bit0 ||| (truth bit1 <<< 1)

/-- The attempts octet: bits 4 to 0 the attempts, bit 7 the repaired flag (R189). -/
def attemptsOctet (attempts : Nat) (repaired : Bool) : Octet :=
  (octet attempts &&& 0x1F) ||| (truth repaired <<< 7)

/-- One bit condition, for the new bit and the old bit, absent when there is no baseline (R137). -/
def Condition.holds : Condition → Option Bool → Bool → Bool
  | .ignore, _, _ => false
  | .low, _, new => !new
  | .high, _, new => new
  | .rise, some old, new => !old && new
  | .fall, some old, new => old && !new
  | .change, some old, new => old != new
  | .rise, none, _ => false
  | .fall, none, _ => false
  | .change, none, _ => false

/-- The bits whose condition is not IGNORE (R138). -/
def Watch.bits (w : Watch) : List (Fin 16) :=
  (List.finRange 16).filter fun b => w.conditions[b] != .ignore

/-- Whether a watch matches a status word against its baseline (R137, R138): with all sixteen conditions IGNORE never. -/
def Watch.matches (w : Watch) (baseline : Option Word) (word : Word) : Bool :=
  let holds := fun b : Fin 16 => w.conditions[b].holds (baseline.map fun o => o.getLsbD b.val) (word.getLsbD b.val)
  match w.combine with
  | .all => !w.bits.isEmpty && w.bits.all holds
  | .any => w.bits.any holds

/-- The UNCERTAIN flag: a SEND that ended with no good result after at least one attempt wholly sent (R95). -/
def uncertainFlag (kind : TxKind) (outcome : OrderOutcome) (whollySent : Nat) : Bool :=
  kind = .send && 0 < whollySent &&
  match outcome with
  | .noReply => true
  | .corrupt _ => true
  | .aborted => true
  | .cancelled => true
  | .lineFault => true
  | _ => false

end Machine

end Sys2Proof
end

