-- ==== Sys2Proof/Machine/Operands.lean ====
section
/-! DEFINITION. Every octet form: code tables, field forms, the CRC, host frames, drop frames, report and notice bodies, and the operands read from request bodies. -/

namespace Sys2Proof

namespace Machine

/-! ## Code tables (R197, R179) -/

/-- Line state codes (R197). -/
def LineState.code : LineState → Octet
  | .off => 0
  | .starting => 1
  | .idle => 2
  | .sending => 3
  | .awaiting => 4
  | .backoff => 5
  | .held => 6
  | .stopping => 7

/-- Off cause codes (R197). -/
def OffCause.code : OffCause → Octet
  | .none => 0
  | .stopped => 1
  | .holdExpired => 2

/-- Cycle state codes (R197). -/
def CycleState.code : CycleState → Octet
  | .running => 1
  | .complete => 2

/-- Transaction kind codes (R197). -/
def TxKind.code : TxKind → Octet
  | .poll => 1
  | .clear => 2
  | .send => 3
  | .fetch => 4
  | .join => 5
  | .leave => 6
  | .groupData => 7
  | .groupCheck => 8
  | .groupRepair => 9

/-- Line condition codes (R197). -/
def LineCondition.code : LineCondition → Octet
  | .running => 1
  | .held => 2
  | .off => 3

/-- Line cause codes (R197). -/
def LineCause.code : LineCause → Octet
  | .faultAsserted => 1
  | .faultReleased => 2
  | .holdExpired => 3
  | .stopped => 4

/-- Station state codes (R197). -/
def StationState.code : StationState → Octet
  | .free => 0
  | .probing => 1
  | .online => 2
  | .resync => 3
  | .missing => 4
  | .suspended => 5
  | .retiring => 6

/-- Poll class codes (R197). -/
def PollClass.code : PollClass → Octet
  | .fast => 0
  | .normal => 1
  | .slow => 2

/-- A poll class read from a request (R197). -/
def pollClassOf (o : Octet) : Option PollClass :=
  if o = 0 then some .fast else if o = 1 then some .normal else if o = 2 then some .slow else none

/-- Resync cause codes (R197). -/
def ResyncCause.code : ResyncCause → Octet
  | .restart => 1
  | .doubt => 2

/-- Presence codes (R197). -/
def Presence.code : Presence → Octet
  | .up => 1
  | .down => 2

/-- Priority codes (R197). -/
def Priority.code : Priority → Octet
  | .normal => 0
  | .urgent => 1

/-- A priority read from a request (R197). -/
def priorityOf (o : Octet) : Option Priority :=
  if o = 0 then some .normal else if o = 1 then some .urgent else none

/-- Order kind codes; a pass is shown to the host only as its delivery (R197, R82). -/
def OrderKind.code : OrderKind → Octet
  | .send => 1
  | .fetch => 2
  | .join => 3
  | .leave => 4
  | .groupPass => 5

/-- The order kind DELIVERY of CANCEL and ORDER QUERY replies (R197). -/
def deliveryKindCode : Octet := 5

/-- Source codes (R197); a pass's source is never sent. -/
def OrderSource.code : OrderSource → Octet
  | .host => 1
  | .collect => 2
  | .delivery => 0xFF

/-- Order state codes; DONE is never seen (R93, R197). -/
def OrderState.code : OrderState → Octet
  | .queued => 1
  | .active => 2
  | .done => 0xFF

/-- The cancel timing AT ONCE or PENDING (R197). -/
def cancelTiming (atOnce : Bool) : Octet :=
  if atOnce then 1 else 2

/-- Order outcome codes (R197). -/
def OrderOutcome.code : OrderOutcome → Octet
  | .accepted => 1
  | .data => 2
  | .empty => 3
  | .refused => 4
  | .busy => 5
  | .corrupt _ => 6
  | .noReply => 7
  | .cancelled => 8
  | .aborted => 9
  | .stationDown => 10
  | .suspended => 11
  | .removed => 12
  | .lineStopped => 13
  | .lineFault => 14

/-- Corrupt cause codes (R197). -/
def CorruptCause.code : CorruptCause → Octet
  | .wrongStation => 1
  | .gap => 2
  | .breakReceived => 3
  | .framing => 4
  | .mark => 5
  | .length => 6
  | .check => 7
  | .unexpected => 8

/-- The corrupt cause of an outcome, absent unless it is CORRUPT (R94). -/
def OrderOutcome.cause : OrderOutcome → Option CorruptCause
  | .corrupt c => some c
  | _ => none

/-- Group member state codes, 1 to 4 (R197). -/
def MemberState.code : MemberState → Octet
  | .joining => 1
  | .active => 2
  | .leaving => 3
  | .lapsed => 4

/-- Delivery member state codes, 1 to 8 (R197). -/
def DeliveryMemberState.code : DeliveryMemberState → Octet
  | .waiting => 1
  | .checking => 2
  | .repairing => 3
  | .accepted => 4
  | .refused => 5
  | .unreached => 6
  | .dropped => 7
  | .cancelled => 8

/-- Delivery outcome codes (R197). -/
def DeliveryOutcome.code : DeliveryOutcome → Octet
  | .complete => 1
  | .partly => 2
  | .failed => 3
  | .cancelled => 4

/-- Watch state codes (R197). -/
def WatchState.code : WatchState → Octet
  | .free => 0
  | .armed => 1
  | .pending => 2
  | .spent => 3

/-- Watch condition codes (R197). -/
def Condition.code : Condition → Octet
  | .ignore => 0
  | .low => 1
  | .high => 2
  | .rise => 3
  | .fall => 4
  | .change => 5

/-- A watch condition read from a request (R197). -/
def conditionOf (o : Octet) : Option Condition :=
  if o = 0 then some .ignore else if o = 1 then some .low else if o = 2 then some .high
  else if o = 3 then some .rise else if o = 4 then some .fall else if o = 5 then some .change else none

/-- Combine mode codes (R197). -/
def Combine.code : Combine → Octet
  | .all => 0
  | .any => 1

/-- A combine mode read from a request (R197). -/
def combineOf (o : Octet) : Option Combine :=
  if o = 0 then some .all else if o = 1 then some .any else none

/-- Notice reason codes (R197). -/
def NoticeReason.code : NoticeReason → Octet
  | .length => 1
  | .gap => 2
  | .check => 3
  | .overrun => 4

/-- Start cause codes (R197). -/
def StartCause.code : StartCause → Octet
  | .pin => 1
  | .request => 2

/-- Result codes (R179). -/
def ResultCode.code : ResultCode → Octet
  | .ok => 0
  | .badFormat => 1
  | .unknownKind => 2
  | .badValue => 3
  | .noSuch => 4
  | .state => 5
  | .duplicate => 6
  | .tableFull => 7
  | .noRecord => 8
  | .noBuffer => 9
  | .reportFull => 10
  | .lineOff => 11
  | .stationDown => 12
  | .groupBusy => 13
  | .noDelivery => 14

/-- Drop frame type codes (R196). -/
def FrameType.code : FrameType → Octet
  | .poll => 1
  | .clear => 2
  | .data => 3
  | .fetch => 4
  | .join => 5
  | .leave => 6
  | .groupData => 7
  | .groupCheck => 8
  | .groupRepair => 9
  | .status => 10
  | .ack => 11
  | .nak => 12

/-! ## Field forms (R189) -/

/-- A field of two octets, high octet first (R189). -/
def wordOctets (w : Word) : List Octet :=
  [w.extractLsb' 8 8, w.extractLsb' 0 8]

/-- A field of four octets, high octet first (R189). -/
def timeOctets (t : PartTime) : List Octet :=
  [t.extractLsb' 24 8, t.extractLsb' 16 8, t.extractLsb' 8 8, t.extractLsb' 0 8]

/-- A word read from two octets, high octet first (R189). -/
def wordOf (high low : Octet) : Word :=
  high ++ low

/-- A count sent as a number of two octets. -/
def countOctets (n : Nat) : List Octet :=
  wordOctets (BitVec.ofNat 16 n)

/-- An optional octet: 0xFF when absent (R189). -/
def optionalOctet (o : Option Octet) : Octet :=
  o.getD 0xFF

/-- An optional word: a presence octet, then the word, 0 when absent (R189). -/
def optionalWord : Option Word → List Octet
  | some w => 1 :: wordOctets w
  | none => [0, 0, 0]

/-- An optional time: a presence octet, then the time, 0 when absent (R189). -/
def optionalTime : Option PartTime → List Octet
  | some t => 1 :: timeOctets t
  | none => [0, 0, 0, 0, 0]

/-- The octet of a line number. -/
def lineOctet (l : LineNo) : Octet := octet l.val

/-- The octet of a group number. -/
def groupOctetOf (g : GroupNo) : Octet := octet g.val

/-- A station identity: index, line, address (R189). -/
def StationRef.octets (r : StationRef) : List Octet :=
  [octet r.index.val, lineOctet r.line, r.address]

/-- A station identity, 0xFF in each octet when absent (section 9.3, ORDER QUERY). -/
def identityOctets : Option StationRef → List Octet
  | some r => r.octets
  | none => [0xFF, 0xFF, 0xFF]

/-! ## Operands read from requests -/

/-- A line named by a request: 0 to 3 (R26, R27, R28, R51). -/
def lineOf (o : Octet) : Option LineNo :=
  if h : o.toNat < 4 then some ⟨o.toNat, h⟩ else none

/-- A station address named by a request: 1 to 239 (R70). -/
def addressOf (o : Octet) : Option Octet :=
  if 1 ≤ o.toNat ∧ o.toNat ≤ 239 then some o else none

/-- A group named by a request: 0 to 15 (R108, R114, R116). -/
def groupOf (o : Octet) : Option GroupNo :=
  if h : o.toNat < 16 then some ⟨o.toNat, h⟩ else none

/-- A watch number named by a request: 0 to 31 (R143 to R145). -/
def watchOf (o : Octet) : Option WatchNo :=
  if h : o.toNat < 32 then some ⟨o.toNat, h⟩ else none

/-- The sixteen conditions of WATCH SET, sent in bit order from bit 15 to bit 0 (R194); absent when one is no code. -/
def conditionsOf (os : List Octet) : Option (Vector Condition 16) :=
  let cs := (os.reverse.map conditionOf)
  if cs.all Option.isSome then some (Vector.ofFn fun b : Fin 16 => (cs[b.val]?.join).getD .ignore) else none

/-- The sixteen condition codes in the order they are sent, bit 15 first (R194). -/
def conditionOctets (cs : Vector Condition 16) : List Octet :=
  (cs.toList.map Condition.code).reverse

/-! ## The CRC (R8) -/

/-- One bit of the CRC register, generator x^16 + x^12 + x^5 + 1 (R8). -/
def crcBit (c : Word) : Word :=
  if c.msb then (c <<< 1) ^^^ 0x1021 else c <<< 1

/-- One octet taken into the CRC, most significant bit first (R8). -/
def crcOctet (c : Word) (o : Octet) : Word :=
  (List.range 8).foldl (fun c _ => crcBit c) (c ^^^ (o.zeroExtend 16 <<< 8))

/-- The CRC of a list of octets; the register starts at all ones (R8). -/
def crc (os : List Octet) : Word :=
  os.foldl crcOctet 0xFFFF

/-! ## Host frames (section 8.2) -/

/-- The octets of a host frame: SOF, LEN, KIND, TAG, BODY and the CRC over LEN to BODY (R172). -/
def frameOctets (f : HostFrame) : List Octet :=
  let inner := octet (f.body.length + 2) :: f.kind :: f.tag :: f.body
  0xD4 :: inner ++ wordOctets (crc inner)

/-- A reply as a host frame: its body is the result code, then the data (R172, R179). -/
def Reply.frame (r : Reply) : HostFrame :=
  { kind := r.kind, tag := r.tag, body := ResultCode.code r.code :: r.data }

/-- A notice as a host frame: mark, reason, count (R193, R195). -/
def Notice.frame (n : Notice) : HostFrame :=
  { kind := 0x7F, tag := n.tag, body := [0xFE, NoticeReason.code n.reason, octet n.count] }

/-- The KIND of a report (R193). -/
def ReportItems.kindOctet : ReportItems → Octet
  | .partStarted _ _ => 0xE0
  | .orderDone _ => 0xE1
  | .deliveryDone _ => 0xE2
  | .stationPresence _ _ _ => 0xE3
  | .watchHit _ _ _ _ => 0xE4
  | .lineEvent _ _ => 0xE5

/-- A report's body after its mark, with the payload its blocks hold (R195). -/
def ReportItems.octets (payload : List Octet) : ReportItems → List Octet
  | .partStarted cause time => StartCause.code cause :: timeOctets time
  | .orderDone d =>
      wordOctets d.number ++ [OrderKind.code d.kind, OrderSource.code d.source] ++ identityOctets d.station ++
      [optionalOctet (d.group.map groupOctetOf), OrderOutcome.code d.outcome,
       optionalOctet ((OrderOutcome.cause d.outcome).map CorruptCause.code), octet d.attempts,
       flagPair d.uncertain d.lateCancel, 0, 0] ++
      timeOctets d.time ++ octet payload.length :: payload
  | .deliveryDone d =>
      wordOctets d.number ++
      [groupOctetOf d.group, d.seq.zeroExtend 8, DeliveryOutcome.code d.outcome, octet d.excluded, octet d.accepted] ++
      timeOctets d.time ++ octet d.members.length ::
      d.members.flatMap fun m =>
        [lineOctet m.station.line, m.station.address, DeliveryMemberState.code m.state, attemptsOctet m.attempts m.repaired]
  | .stationPresence station latch lapsed =>
      StationRef.octets station ++ [Presence.code latch.presence, octet latch.changeCount, truth latch.restarted] ++
      wordOctets lapsed ++ timeOctets latch.time
  | .watchHit number station hit oneShot =>
      octet number.val :: identityOctets station ++ optionalWord hit.previous ++ wordOctets hit.matching ++
      wordOctets hit.latest ++ [octet hit.repeats] ++ timeOctets hit.time ++ [truth oneShot]
  | .lineEvent line latch =>
      [lineOctet line, LineCondition.code latch.condition, LineCause.code latch.cause, octet latch.changeCount] ++
      timeOctets latch.time

/-- A report as a host frame: its TAG is the report number, its body begins with the mark (R172, R193). -/
def Report.frame (r : Report) (payload : List Octet) : HostFrame :=
  { kind := ReportItems.kindOctet r.items, tag := r.number, body := 0xFF :: ReportItems.octets payload r.items }

/-! ## Drop frames (R5, R6, R196) -/

/-- The control octet: the type in bits 7 to 4, the sequence bit in bit 0, 0 elsewhere (R6, R196). -/
def controlOctet (t : FrameType) (bit : Bool) : Octet :=
  (FrameType.code t <<< 4) ||| truth bit

/-- The group octet: group number above, group sequence number below (R7). -/
def groupSeqOctet (g : GroupNo) (seq : BitVec 4) : Octet :=
  (groupOctetOf g <<< 4) ||| seq.zeroExtend 8

/-- The group address of a group (R4). -/
def groupAddress (g : GroupNo) : Octet :=
  0xF0 + groupOctetOf g

/-- The octets of a drop frame: header, control, length, payload, CRC (R5). -/
def DropFrame.octets (f : DropFrame) : List Octet :=
  let inner := f.address :: controlOctet f.type f.bit :: octet f.payload.length :: f.payload
  inner ++ wordOctets (crc inner)

/-- A NAK reason read from its octet (R10, R196). -/
def nakReasonOf (o : Octet) : Option NakReason :=
  if o = 1 then some .refused else if o = 2 then some .full else if o = 3 then some .missed
  else if o = 4 then some .empty else none

/-- A well-formed reply frame's control octet and payload read as a reply of R10; absent when the type is no reply type,
the payload length is not R10's, or a NAK's reason is none of the four (R19). -/
def replyOf (control : Octet) (payload : List Octet) : Option DropReply :=
  let type := control >>> 4
  let bit := control.getLsbD 0
  if type = FrameType.code .status then
    match payload with
    | [high, low, flags] => some (.status (wordOf high low) (flags.getLsbD 0) (flags.getLsbD 1))
    | _ => none
  else if type = FrameType.code .ack then
    match payload with
    | [] => some (.ack bit)
    | _ => none
  else if type = FrameType.code .nak then
    match payload with
    | [reason] => (nakReasonOf reason).map .nak
    | _ => none
  else if type = FrameType.code .data then some (.data bit payload)
  else none

/-- A well-formed reply judged against the frame it answers (R11, R12, R19): good, NAK FULL, or corrupt with cause
UNEXPECTED. `bit` is the sequence bit the frame carried. -/
def judgeReply (kind : TxKind) (bit : Bool) (reply : Option DropReply) : AttemptClass :=
  match kind, reply with
  | .poll, some (.status w d r) => .good (.status w d r)
  | .clear, some (.ack b) => .good (.ack b)
  | .send, some (.ack b) => if b = bit then .good (.ack b) else .corrupt .unexpected
  | .send, some (.nak .refused) => .good (.nak .refused)
  | .send, some (.nak .full) => .nakFull
  | .fetch, some (.data b p) => if b = bit then .good (.data b p) else .corrupt .unexpected
  | .fetch, some (.nak .empty) => .good (.nak .empty)
  | .fetch, some (.nak .full) => .nakFull
  | .join, some (.ack b) => .good (.ack b)
  | .join, some (.nak .refused) => .good (.nak .refused)
  | .leave, some (.ack b) => .good (.ack b)
  | .leave, some (.nak .refused) => .good (.nak .refused)
  | .groupCheck, some (.ack b) => .good (.ack b)
  | .groupCheck, some (.nak .missed) => .good (.nak .missed)
  | .groupCheck, some (.nak .refused) => .good (.nak .refused)
  | .groupCheck, some (.nak .full) => .nakFull
  | .groupRepair, some (.ack b) => .good (.ack b)
  | .groupRepair, some (.nak .refused) => .good (.nak .refused)
  | .groupRepair, some (.nak .full) => .nakFull
  | _, _ => .corrupt .unexpected

/-- What the receiver finds when a character comes while a reply frame is open with the octets `got` (R17): the frame goes
on, is corrupt with a cause, or is complete and well formed. -/
inductive OpenStep where
  | goesOn (octets : List Octet)
  | corrupt (cause : CorruptCause)
  | wellFormed (control : Octet) (payload : List Octet)
  deriving DecidableEq, Repr

/-- The checks of R17 on one more body octet: LENGTH on the third character, CHECK on the last. -/
def openOctets (octets : List Octet) : OpenStep :=
  match octets with
  | header :: control :: len :: rest =>
      if 120 < len.toNat then .corrupt .length
      else if rest.length < len.toNat + 2 then .goesOn octets
      else
        let payload := rest.take len.toNat
        if rest.drop len.toNat = wordOctets (crc (header :: control :: len :: payload)) then .wellFormed control payload
        else .corrupt .check
  | _ => .goesOn octets

/-- A character of an open reply frame, checked in the order of R17's table. -/
def openStep (got : List Octet) : DropChar → OpenStep
  | .breakChar => .corrupt .breakReceived
  | .framingError => .corrupt .framing
  | .header _ => .corrupt .mark
  | .body o => openOctets (got ++ [o])

end Machine

end Sys2Proof
end

