-- ==== Sys2Proof/Machine/Ops.lean ====
section
/-! DEFINITION. The named operations over the state that every family shares: accessors, the buffer pool, the order queues and numbers, the report queue with its draws and latches, and the host link's transmitter and notices. -/

namespace Sys2Proof

namespace Machine

/-! ## Accessors: one home for each table -/

/-- The four lines in order. -/
def allLines : List LineNo := List.finRange 4

/-- The 96 station entries in index order. -/
def allStations : List StationIx := List.finRange 96

/-- The sixteen groups in ascending order. -/
def allGroups : List GroupNo := List.finRange 16

/-- The 32 watch entries in ascending order. -/
def allWatches : List WatchNo := List.finRange 32

/-- The engine of a line. -/
def State.engine (s : State) (l : LineNo) : LineEngine :=
  s.engines[l]

/-- Writes a line's engine. -/
def State.setEngine (s : State) (l : LineNo) (e : LineEngine) : State :=
  { s with engines := s.engines.set l.val e l.isLt }

/-- A station entry. -/
def State.station (s : State) (ix : StationIx) : Station :=
  s.stations[ix]

/-- Writes a station entry. -/
def State.setStation (s : State) (ix : StationIx) (st : Station) : State :=
  { s with stations := s.stations.set ix.val st ix.isLt }

/-- A group's entry. -/
def State.group (s : State) (g : GroupNo) : Group :=
  s.groups[g]

/-- Writes a group's entry. -/
def State.setGroup (s : State) (g : GroupNo) (gr : Group) : State :=
  { s with groups := s.groups.set g.val gr g.isLt }

/-- A watch entry. -/
def State.watch (s : State) (w : WatchNo) : Watch :=
  s.watches[w]

/-- Writes a watch entry. -/
def State.setWatch (s : State) (w : WatchNo) (e : Watch) : State :=
  { s with watches := s.watches.set w.val e w.isLt }

/-- Changes one engine by a function of what it holds. -/
def State.onEngine (s : State) (l : LineNo) (f : LineEngine → LineEngine) : State :=
  s.setEngine l (f (s.engine l))

/-- Changes one station entry by a function of what it holds. -/
def State.onStation (s : State) (ix : StationIx) (f : Station → Station) : State :=
  s.setStation ix (f (s.station ix))

/-! ## The buffer pool (section 7.1) -/

/-- What an octet of the pool that is not listed reads as [log 7]. -/
def blankOctet : Octet := 0

/-- Reads one octet of the pool. -/
def readOctet (m : Memory) (a : Nat) : Octet :=
  match m with
  | [] => blankOctet
  | (b, v) :: rest => if a = b then v else readOctet rest a

/-- Writes one octet of the pool and keeps the canonical form: writing the blank octet removes the entry. -/
def writeOctet (m : Memory) (a : Nat) (v : Octet) : Memory :=
  match m with
  | [] => if v = blankOctet then [] else [(a, v)]
  | (b, w) :: rest =>
      if a < b then if v = blankOctet then (b, w) :: rest else (a, v) :: (b, w) :: rest
      else if a = b then if v = blankOctet then rest else (a, v) :: rest
      else (b, w) :: writeOctet rest a v

/-- The canonical form: addresses strictly rising from `low`, no entry blank. -/
def Memory.wfFrom (low : Nat) : Memory → Bool
  | [] => true
  | (a, v) :: rest => low ≤ a && v != blankOctet && Memory.wfFrom (a + 1) rest

/-- The canonical form of the pool's contents. -/
def Memory.wf (m : Memory) : Bool :=
  Memory.wfFrom 0 m

/-- The addresses of a block list, in order: block b is at 32 b to 32 b + 31 (section 7.1). -/
def blockAddresses (blocks : List Nat) : List Nat :=
  blocks.flatMap fun b => (List.range Config.blockOctets).map fun k => Config.blockOctets * b + k

/-- Writes a payload into a block list, 32 octets to a block and the last block partly filled (R87, R118, R91). -/
def writePayload (m : Memory) (blocks : List Nat) (payload : List Octet) : Memory :=
  ((blockAddresses blocks).zip payload).foldl (fun m p => writeOctet m p.1 p.2) m

/-- Reads the n octets of a payload from a block list (R153). -/
def readPayload (m : Memory) (blocks : List Nat) (n : Nat) : List Octet :=
  ((blockAddresses blocks).take n).map (readOctet m)

/-- The blocks a payload of n octets occupies: ceil(n/32) (R152). -/
def blocksFor (n : Nat) : Nat :=
  (n + 31) / 32

/-- Every block some holder holds: order records, delivery records and report slots (R151). -/
def State.heldBlocks (s : State) : List Nat :=
  s.orders.flatMap OrderRecord.blocks ++ s.deliveries.flatMap Delivery.blocks ++ s.reports.flatMap Report.blocks

/-- The free blocks in ascending order (R151, R152). -/
def State.freeBlocks (s : State) : List Nat :=
  (List.range Config.bufferBlocks).filter fun b => !s.heldBlocks.contains b

/-! ## Order records, numbers and queues (sections 4.1 to 4.3) -/

/-- The number of free order records (R79). -/
def State.freeRecords (s : State) : Nat :=
  Config.orderRecords - s.orders.length

/-- The number of free delivery records (R119). -/
def State.freeDeliveries (s : State) : Nat :=
  Config.deliveryRecords - s.deliveries.length

/-- A record that a number names as an order: any kind but a pass (R82). -/
def OrderRecord.named (r : OrderRecord) (n : Word) : Bool :=
  r.number = n && r.kind != .groupPass

/-- A record that is the pass of delivery n on line l (R120). -/
def OrderRecord.isPass (r : OrderRecord) (n : Word) (l : LineNo) : Bool :=
  r.number = n && r.kind = .groupPass && r.line = l

/-- The order a number names (R82). -/
def State.findOrder (s : State) (n : Word) : Option OrderRecord :=
  s.orders.find? fun r => r.named n

/-- The pass of a delivery on a line (R120). -/
def State.findPass (s : State) (n : Word) (l : LineNo) : Option OrderRecord :=
  s.orders.find? fun r => r.isPass n l

/-- The delivery a number names (R82). -/
def State.findDelivery (s : State) (n : Word) : Option Delivery :=
  s.deliveries.find? fun d => d.number = n

/-- A group's delivery in flight (section 5.1). -/
def State.deliveryOf (s : State) (g : GroupNo) : Option Delivery :=
  s.deliveries.find? fun d => d.group = g

/-- Changes the order a number names. -/
def State.updateOrder (s : State) (n : Word) (f : OrderRecord → OrderRecord) : State :=
  { s with orders := s.orders.map fun r => if r.named n then f r else r }

/-- Changes the pass of a delivery on a line. -/
def State.updatePass (s : State) (n : Word) (l : LineNo) (f : OrderRecord → OrderRecord) : State :=
  { s with orders := s.orders.map fun r => if r.isPass n l then f r else r }

/-- Changes the delivery a number names. -/
def State.updateDelivery (s : State) (n : Word) (f : Delivery → Delivery) : State :=
  { s with deliveries := s.deliveries.map fun d => if d.number = n then f d else d }

/-- Frees the record of an order (R93). -/
def State.removeOrder (s : State) (n : Word) : State :=
  { s with orders := s.orders.eraseP fun r => r.named n }

/-- A queue of a line, oldest first: the records of that line and priority that wait there (R83). The records stand in the
order of their acceptance and a record joins a queue's tail at its acceptance, so the queue is read from that order. A
pass whose step is in flight is counted at its place (R51, R83) [log 14]. -/
def State.queue (s : State) (l : LineNo) (p : Priority) : List OrderRecord :=
  s.orders.filter fun r => r.line = l && r.priority = p && (r.state = .queued || r.kind = .groupPass)

/-- Every number in use, of orders and of deliveries (R81). -/
def State.numbersInUse (s : State) : List Word :=
  s.orders.map OrderRecord.number ++ s.deliveries.map Delivery.number

/-- The number after a number: from 65535 to 1, never to 0 (R81). -/
def nextNumber (n : Word) : Word :=
  if n = 0xFFFF then 1 else n + 1

/-- The first number not in use, from n on; at most 44 are in use, so 45 steps are enough (R81). -/
def searchNumber (used : List Word) : Nat → Word → Word
  | 0, n => n
  | fuel + 1, n => if used.contains n then searchNumber used fuel (nextNumber n) else n

/-- The number the next acceptance gives (R81). -/
def State.numberToGive (s : State) : Word :=
  searchNumber s.numbersInUse 45 s.orderCounter

/-! ## Stations as requests name them (R55) -/

/-- The entry that is not FREE and carries a line and address (R55). -/
def State.findStation (s : State) (l : LineNo) (address : Octet) : Option StationIx :=
  allStations.find? fun ix =>
    (s.station ix).state != .free && (s.station ix).line = l && (s.station ix).address = address

/-- The FREE entry of lowest index (R71). -/
def State.freeStation (s : State) : Option StationIx :=
  allStations.find? fun ix => (s.station ix).state = .free

/-- A station entry's index, line and address (R189). -/
def State.stationRef (s : State) (ix : StationIx) : StationRef :=
  { index := ix, line := (s.station ix).line, address := (s.station ix).address }

/-- A station has a transaction in flight when its line's engine has one whose station is this entry (R55). -/
def State.inFlight (s : State) (ix : StationIx) : Bool :=
  match (s.engine (s.station ix).line).tx with
  | some t => t.station = some ix
  | none => false

/-- Present: ONLINE or RESYNC (R56). -/
def StationState.present : StationState → Bool
  | .online => true
  | .resync => true
  | _ => false

/-- A line is out of service in OFF and STOPPING, and running in every other state (R24). -/
def LineEngine.running (e : LineEngine) : Bool :=
  e.state != .off && e.state != .stopping

/-- The driver-enable output: asserted in STARTING, SENDING and STOPPING (R14, R23). -/
def LineEngine.driverEnable (e : LineEngine) : Bool :=
  e.state = .starting || e.state = .sending || e.state = .stopping

/-! ## The report queue (sections 7.2 to 7.4) -/

/-- The slots in use: RESERVED, QUEUED and SENT together (R156). -/
def State.slotsInUse (s : State) : Nat :=
  s.reserved + s.reports.length

/-- The FREE slots (R155, R169). -/
def State.freeSlots (s : State) : Nat :=
  Config.reportSlots - s.slotsInUse

/-- The SENT reports' number (R169). -/
def State.sentCount (s : State) : Nat :=
  s.reports.countP Report.sent

/-- A reservation is granted while fewer than 40 slots are in use (R156). -/
def State.grantable (s : State) : Bool :=
  s.slotsInUse < Config.reservationLimit

/-- A report joins the tail of the report list with the counter's value, and the counter steps on (R158). -/
def State.pushReport (s : State) (items : ReportItems) (blocks : List Nat) (length : Nat) : State :=
  { s with
    reports := s.reports ++ [{ number := s.reportCounter, items := items, blocks := blocks, length := length, sent := false }]
    reportCounter := s.reportCounter + 1 }

/-- A RESERVED slot becomes QUEUED with its completion report (R157). -/
def State.fillReservation (s : State) (items : ReportItems) (blocks : List Nat) (length : Nat) : State :=
  { s with reserved := s.reserved - 1 }.pushReport items blocks length

/-- Draws one latched source: its report is made from the source as it stands, and the source takes its own rule's next
state (R59, R53, R141). A source that holds nothing makes no report [log 22]. -/
def State.drawSource (s : State) : Source → State
  | .station ix =>
      match (s.station ix).latch with
      | some latch =>
          (s.onStation ix fun st => { st with latch := none }).pushReport
            (.stationPresence (s.stationRef ix) latch (s.station ix).lapsed) [] 0
      | none => s
  | .line l =>
      match (s.engine l).latch with
      | some latch => (s.onEngine l fun e => { e with latch := none }).pushReport (.lineEvent l latch) [] 0
      | none => s
  | .watch w =>
      let e := s.watch w
      match e.hit with
      | some hit =>
          (s.setWatch w { e with state := if e.oneShot then .spent else .armed, hit := none }).pushReport
            (.watchHit w e.station hit e.oneShot) [] 0
      | none => s

/-- Draws from the head of the pending list while a slot is FREE (R161). -/
def State.drawFrom (s : State) : List Source → State
  | [] => s
  | source :: rest =>
      if s.freeSlots = 0 then s else ({ s with sources := rest }.drawSource source).drawFrom rest

/-- Draws latched sources until the pending list is empty or no slot is FREE (R161). -/
def State.draw (s : State) : State :=
  s.drawFrom s.sources

/-- A source joins the tail of the pending list (R159), and is drawn at once when a slot is FREE (R161). -/
def State.joinSources (s : State) (source : Source) : State :=
  { s with sources := s.sources ++ [source] }.draw

/-- A source's latch is discarded without a report: it leaves its place (R160). -/
def State.dropSource (s : State) (source : Source) : State :=
  { s with sources := s.sources.filter (· != source) }

/-- Latches a presence report (R58). -/
def State.latchPresence (s : State) (ix : StationIx) (presence : Presence) (restarted : Bool) : State :=
  match (s.station ix).latch with
  | none =>
      (s.onStation ix fun st =>
        { st with latch := some { presence := presence, changeCount := 1, restarted := restarted, time := s.partTime } }).joinSources
        (.station ix)
  | some old =>
      s.onStation ix fun st =>
        { st with latch := some { presence := presence, changeCount := stepUpTo 255 old.changeCount, restarted := old.restarted || restarted, time := s.partTime } }

/-- Latches a line report (R53). -/
def State.latchLine (s : State) (l : LineNo) (condition : LineCondition) (cause : LineCause) : State :=
  match (s.engine l).latch with
  | none =>
      (s.onEngine l fun e =>
        { e with latch := some { condition := condition, cause := cause, time := s.partTime, changeCount := 1 } }).joinSources
        (.line l)
  | some old =>
      s.onEngine l fun e =>
        { e with latch := some { condition := condition, cause := cause, time := s.partTime, changeCount := stepUpTo 255 old.changeCount } }

/-! ## The transmitter (section 8.6) -/

/-- The reply places in use: replies that wait or are in transmission (R178). -/
def State.replyPlacesInUse (s : State) : Nat :=
  (s.replyQueue.countP fun f => match f with
    | .reply _ => true
    | .notice _ => false) +
  match s.tx with
  | some (.reply _) => 1
  | _ => 0

/-- The notice places in use: from the raising of a notice until its last octet leaves (R176). -/
def State.noticePlacesInUse (s : State) : Nat :=
  (s.replyQueue.countP fun f => match f with
    | .reply _ => false
    | .notice _ => true) +
  match s.tx with
  | some (.notice _) => 1
  | _ => 0

/-- The report in transmission counts in the window with the SENT ones (R163). -/
def State.windowUsed (s : State) : Nat :=
  s.sentCount +
  match s.tx with
  | some (.report _ _) => 1
  | _ => 0

/-- The report the report queue offers: the first QUEUED one while the window has room (R163); none while RESTARTING
(R186). -/
def State.offer (s : State) : Option Report :=
  if s.restarting || Config.sendWindow ≤ s.windowUsed then none else s.reports.find? fun r => !r.sent

/-- A waiting frame as it goes into transmission. -/
def WaitingFrame.start : WaitingFrame → Transmission
  | .reply r => .reply r
  | .notice n => .notice n

/-- The transmitter's choice (R181): the head of the reply queue, else the offered report; `reportFirst` is how an open
choice between the two falls. A transmitter that is busy, or held by the RESET input, chooses nothing. -/
def State.choose (s : State) (reportFirst : Bool) : State :=
  if s.resetAsserted || s.tx.isSome then s else
  match s.replyQueue, s.offer with
  | [], none => s
  | [], some r => { s with tx := some (.report r.number false) }
  | f :: rest, none => { s with replyQueue := rest, tx := some f.start }
  | f :: rest, some r =>
      if reportFirst then { s with tx := some (.report r.number false) }
      else { s with replyQueue := rest, tx := some f.start }

/-- A frame and a report offer reach the idle transmitter together (R181). -/
def State.openChoice (s : State) : Bool :=
  !s.resetAsserted && s.tx.isNone && !s.replyQueue.isEmpty && s.offer.isSome

/-- The choice at the end of a step in which frames and offers came to the transmitter. Where both reach it idle, R181
leaves the order open: the free value decides [log 6]. -/
def State.transmit (s : State) : State :=
  if s.openChoice then
    { s.choose (Config.reportOfferFirst s.choices) with choices := s.choices + 1 }
  else s.choose false

/-- The payload octets of a report, read from its blocks each time it is sent (R153). -/
def State.reportPayload (s : State) (r : Report) : List Octet :=
  readPayload s.pool r.blocks r.length

/-- The octets of the frame in transmission on the host link (R172): what the host receives. -/
def State.sendingOctets (s : State) : List Octet :=
  match s.tx with
  | none => []
  | some (.reply r) => frameOctets r.frame
  | some (.notice n) => frameOctets n.frame
  | some (.report n _) =>
      match s.reports.find? fun r => r.number = n with
      | some r => frameOctets (r.frame (s.reportPayload r))
      | none => []

/-! ## Notices (R176, R177) -/

/-- The newest waiting notice takes one more discard into its count, which stops at 255. -/
def countDiscard : List WaitingFrame → List WaitingFrame
  | [] => []
  | .notice n :: rest =>
      if rest.any (fun f => match f with
        | .notice _ => true
        | .reply _ => false) then .notice n :: countDiscard rest
      else .notice { n with count := stepUpTo 255 n.count } :: rest
  | .reply r :: rest => .reply r :: countDiscard rest

/-- The receiver raises a notice for a discarded frame (R176). -/
def State.raiseNotice (s : State) (reason : NoticeReason) (tag : Octet) : State :=
  if s.noticePlacesInUse < Config.noticePlaces then
    { s with replyQueue := s.replyQueue ++ [.notice { reason := reason, tag := tag, count := 1 }] }
  else { s with replyQueue := countDiscard s.replyQueue }

/-- The tag of a partial frame: known once BODY has taken its second octet, else 0 (R174, R176). -/
def Receiver.tag : Receiver → Octet
  | .hunt => 0
  | .length _ => 0
  | .body _ got _ => got.getD 1 0
  | .check _ got _ _ => got.getD 1 0

/-- A partial frame is discarded as one cut by a gap, with a notice (R174, R171); in HUNT there is none. -/
def State.cutByGap (s : State) : State :=
  match s.rx with
  | .hunt => s
  | _ => { s with rx := .hunt }.raiseNotice .gap s.rx.tag

/-! ## Requests (section 8.5) -/

/-- What the owning block of a request answers (R179). -/
structure Answer where
  code : ResultCode
  data : List Octet
  rate : Option Octet
  deriving DecidableEq, Repr

/-- A refusal carries the result code alone (R179). -/
def refuse (code : ResultCode) : Answer :=
  { code := code, data := [], rate := none }

/-- Acceptance with its result data (R179). -/
def accept (data : List Octet) : Answer :=
  { code := .ok, data := data, rate := none }

/-- The part with a request frame taken by the request unit (R178): the frame at the head of the input queue, while fewer
than 4 reply places are in use. Where the input queue is empty and the receiver stands between frames, the command
stands for its frame's arrival and the take together [log 4]. Absent when the frame cannot be taken. -/
def State.takeFrame (s : State) (f : HostFrame) : Option State :=
  if s.resetAsserted || Config.replyPlaces ≤ s.replyPlacesInUse then none else
  match s.inputQueue with
  | [] => if s.rx = .hunt && !s.restarting && f.body.length ≤ 140 then some s else none
  | head :: rest => if head = f then some { s with inputQueue := rest } else none

/-- The reply to a request frame joins the tail of the reply queue (R178, R172): KIND plus 0x80, the request's TAG. -/
def State.putReply (s : State) (f : HostFrame) (a : Answer) : State :=
  { s with
    replyQueue := s.replyQueue ++ [.reply { kind := f.kind + 0x80, tag := f.tag, code := a.code, data := a.data, rate := a.rate }] }

/-- A request handled whole (R178, R179): taken, answered by its owning block (or with STATE while RESTARTING, R186 [log 5]), its
reply queued, and the transmitter's choice made. A frame that cannot be taken changes nothing [log 3]. -/
def State.serve (s : State) (f : HostFrame) (owner : State → State × Answer) : State :=
  match s.takeFrame f with
  | none => s
  | some t =>
      if t.restarting then (t.putReply f (refuse .state)).transmit
      else ((owner t).1.putReply f (owner t).2).transmit

/-- An event of the part: while the RESET input is asserted nothing happens (R188). -/
def State.whenOutOfReset (s : State) (f : State → State) : State :=
  if s.resetAsserted then s else f s

end Machine

end Sys2Proof
end

