-- ==== Sys2Proof/Machine/Deliveries.lean ====
section
/-! DEFINITION. The delivery unit's operations: members, lapses, passes, step results, line stops and completion (chapter 5). -/

namespace Sys2Proof

namespace Machine

/-! ## Members of the group table -/

/-- The bit of a group in a group set (R189). -/
def groupBit (g : GroupNo) : BitVec 16 :=
  (1 : BitVec 16) <<< g.val

/-- A group leaves a station's lapsed-groups set (R107). A FREE entry's set is empty already. -/
def State.clearLapsed (s : State) (ix : StationIx) (g : GroupNo) : State :=
  s.onStation ix fun st => { st with lapsed := st.lapsed &&& ~~~ groupBit g }

/-- The station's member in a group's list (R105). -/
def Group.memberOf (gr : Group) (ix : StationIx) : Option Member :=
  gr.members.find? fun m => m.station.index = ix

/-- The list without a station's member: the gap closes up (R105). -/
def Group.without (gr : Group) (ix : StationIx) : Group :=
  { gr with members := gr.members.filter fun m => m.station.index != ix }

/-- The list with a station's member in another state, in its own place. -/
def Group.withState (gr : Group) (ix : StationIx) (st : MemberState) : Group :=
  { gr with members := gr.members.map fun m => if m.station.index = ix then { m with state := st } else m }

/-- A JOIN has completed (R110): a JOINING member becomes ACTIVE when the outcome is ACCEPTED, and is removed otherwise;
the group leaves the station's lapsed-groups set either way (R107). -/
def State.joinCompleted (s : State) (g : GroupNo) (ix : StationIx) (outcome : OrderOutcome) : State :=
  match (s.group g).memberOf ix with
  | some { state := .joining, .. } =>
      let gr := s.group g
      (s.setGroup g (if outcome = .accepted then gr.withState ix .active else gr.without ix)).clearLapsed ix g
  | _ => s

/-- A LEAVE has completed (R112): a LEAVING member is removed whatever the outcome. -/
def State.leaveCompleted (s : State) (g : GroupNo) (ix : StationIx) : State :=
  match (s.group g).memberOf ix with
  | some { state := .leaving, .. } => (s.setGroup g ((s.group g).without ix)).clearLapsed ix g
  | _ => s

/-! ## Deliveries in flight -/

/-- The terminal delivery member states (R119). -/
def DeliveryMemberState.terminal : DeliveryMemberState → Bool
  | .waiting => false
  | .checking => false
  | .repairing => false
  | .accepted => true
  | .refused => true
  | .unreached => true
  | .dropped => true
  | .cancelled => true

/-- A fate as a delivery member state (R125, R126). -/
def Fate.state : Fate → DeliveryMemberState
  | .unreached => .unreached
  | .dropped => .dropped

/-- Changes one member of a delivery's snapshot. -/
def State.setMember (s : State) (n : Word) (place : Nat) (f : DeliveryMember → DeliveryMember) : State :=
  s.updateDelivery n fun d => { d with snapshot := d.snapshot.modify place f }

/-- A member of a delivery has a step in flight: some pass of it carries that member (R120). -/
def State.stepOn (s : State) (n : Word) (place : Nat) : Bool :=
  s.orders.any fun r => r.kind = .groupPass && r.number = n && r.passStep = some (.member place)

/-- A delivery has a step in flight on some line (R131). -/
def State.anyStep (s : State) (n : Word) : Bool :=
  s.orders.any fun r => r.kind = .groupPass && r.number = n && r.passStep.isSome

/-- The outcome of a delivery at its completion (R130). -/
def Delivery.outcome (d : Delivery) : DeliveryOutcome :=
  if d.cancelling then .cancelled
  else if d.snapshot.all fun m => m.state = .accepted then .complete
  else if d.snapshot.any fun m => m.state = .accepted then .partly
  else .failed

/-- The DELIVERY DONE report of a delivery (R130). -/
def Delivery.report (d : Delivery) (now : PartTime) : DeliveryDone :=
  { number := d.number, group := d.group, seq := d.seq, outcome := d.outcome, excluded := d.excluded,
    accepted := d.snapshot.countP fun m => m.state = .accepted, time := now, members := d.snapshot }

/-- A delivery completes when every member is terminal and no pass is outstanding (R129): its slot is filled with DELIVERY
DONE, its blocks return, its record is freed and its number released. At any other moment nothing happens. -/
def State.checkDelivery (s : State) (n : Word) : State :=
  match s.findDelivery n with
  | none => s
  | some d =>
      if d.outstanding = 0 && d.snapshot.all fun m => m.state.terminal then
        { s with deliveries := s.deliveries.eraseP fun e => e.number = n }.fillReservation
          (.deliveryDone (d.report s.partTime)) [] 0
      else s

/-- Frees the pass of a delivery on a line, lowers the passes outstanding and checks for completion (R124, R127). -/
def State.freePass (s : State) (n : Word) (l : LineNo) : State :=
  ({ s with orders := s.orders.filter fun r => !r.isPass n l }.updateDelivery n fun d =>
    { d with outstanding := d.outstanding - 1 }).checkDelivery n

/-- A snapshot member on a line that is still to be settled. -/
def DeliveryMember.unsettledOn (m : DeliveryMember) (l : LineNo) : Bool :=
  m.station.line = l && !m.state.terminal

/-- The current member of a pass: the first snapshot member on its line that is not terminal (R120), with its place. -/
def Delivery.current (d : Delivery) (l : LineNo) : Option (Nat × DeliveryMember) :=
  (d.snapshot.zipIdx.find? fun p => p.1.unsettledOn l).map fun p => (p.2, p.1)

/-- The delivery unit looks at a pass (R124): with no step in flight and no member of its line left unsettled it is freed. -/
def State.reviewPass (s : State) (n : Word) (l : LineNo) : State :=
  match s.findDelivery n, s.findPass n l with
  | some d, some p =>
      if p.passStep.isSome || d.snapshot.any fun m => m.unsettledOn l then s else s.freePass n l
  | _, _ => s

/-- A station event reaches the delivery of one group (R125, R126): a member with a step in flight gets a pending fate, unless
it has one; a member without takes the fate at once, and its pass is looked at. -/
def State.settleMember (s : State) (ix : StationIx) (fate : Fate) (g : GroupNo) : State :=
  match s.deliveryOf g with
  | none => s
  | some d =>
      match d.snapshot.zipIdx.find? fun p => p.1.station.index = ix && !p.1.state.terminal with
      | none => s
      | some (m, place) =>
          if s.stepOn d.number place then
            s.setMember d.number place fun m => { m with fate := some (m.fate.getD fate) }
          else (s.setMember d.number place fun m => { m with state := fate.state }).reviewPass d.number m.station.line

/-- A station is MISSING or SUSPENDED: its members in every delivery in flight (R125), groups ascending [log 12]. -/
def State.deliveriesStationDown (s : State) (ix : StationIx) : State :=
  allGroups.foldl (fun s g => s.settleMember ix .unreached g) s

/-- One group of a lapse (R106): an ACTIVE membership becomes LAPSED and joins the station's lapsed-groups set (R68), and the
station's open member of the group's delivery becomes DROPPED. -/
def State.lapseGroup (s : State) (ix : StationIx) (g : GroupNo) : State :=
  (match (s.group g).memberOf ix with
   | some { state := .active, .. } =>
      (s.setGroup g ((s.group g).withState ix .lapsed)).onStation ix fun st => { st with lapsed := st.lapsed ||| groupBit g }
   | _ => s).settleMember ix .dropped g

/-- A station's memberships lapse, groups ascending (R106). -/
def State.lapse (s : State) (ix : StationIx) : State :=
  allGroups.foldl (fun s g => s.lapseGroup ix g) s

/-- A station has an ACTIVE membership, which a lapse would lapse (R67). -/
def State.hasActiveMembership (s : State) (ix : StationIx) : Bool :=
  allGroups.any fun g => (s.group g).members.any fun m => m.station.index = ix && m.state = .active

/-- A removed station leaves every group, groups ascending, and its open delivery members become DROPPED (R113). -/
def State.leaveAllGroups (s : State) (ix : StationIx) : State :=
  allGroups.foldl (fun s g => (s.setGroup g ((s.group g).without ix)).settleMember ix .dropped g) s

/-- A line's stop reaches a delivery (R127): its open members on the line without a step in flight become UNREACHED, and its
pass of the line is freed. -/
def State.deliveryLineStop (s : State) (n : Word) (l : LineNo) : State :=
  (s.updateDelivery n fun d =>
    { d with snapshot := d.snapshot.mapIdx fun place (m : DeliveryMember) =>
        if m.unsettledOn l && !s.stepOn n place then { m with state := .unreached } else m }).freePass n l

/-! ## Results of pass steps -/

/-- How a transaction ended (R34). -/
inductive TxOutcome where
  | good (reply : DropReply)
  | busy
  | corrupt (cause : CorruptCause)
  | noReply
  | cancelled
  | aborted
  | lineFault
  | sent
  deriving DecidableEq, Repr

/-- A transaction result as the engine hands it on (R35). `unanswered` is false when the transaction is not counted. -/
structure TxResult where
  kind : TxKind
  work : TxWork
  station : Option StationIx
  outcome : TxOutcome
  lateCancel : Bool
  attemptsUsed : Nat
  heard : Bool
  lastHeard : Option PartTime
  whollySent : Nat
  unanswered : Bool
  deriving DecidableEq, Repr

/-- The outcomes that stand for a stop of the line (R121 to R123). -/
def TxOutcome.lineStopped : TxOutcome → Bool
  | .aborted => true
  | .lineFault => true
  | _ => false

/-- What a GROUP CHECK's outcome makes of its member (R122). -/
def checkedState : TxOutcome → DeliveryMemberState
  | .good (.ack _) => .accepted
  | .good (.nak .refused) => .refused
  | .good (.nak .missed) => .repairing
  | _ => .unreached

/-- What a GROUP REPAIR's outcome makes of its member (R123). -/
def repairedState : TxOutcome → DeliveryMemberState
  | .good (.ack _) => .accepted
  | .good (.nak .refused) => .refused
  | _ => .unreached

/-- A member after its step's result: attempts and state (R122, R123), then its pending fate if it is still open (R125), then
CANCELLED if its delivery is cancelling and it is open still (R131). -/
def DeliveryMember.afterStep (m : DeliveryMember) (kind : TxKind) (outcome : TxOutcome) (attempts : Nat) (cancelling : Bool) :
    DeliveryMember :=
  let state := if kind = .groupRepair then repairedState outcome else checkedState outcome
  let repaired := kind = .groupRepair && state = .accepted
  let fated := if state.terminal then state else (m.fate.map Fate.state).getD state
  { m with
    attempts := m.attempts + attempts
    repaired := m.repaired || repaired
    state := if !fated.terminal && cancelling then .cancelled else fated
    fate := none }

/-- The result of a pass step is recorded and its pass looked at (R121 to R124); ABORTED and LINE FAULT are a stop of the
line for the delivery (R127). -/
def State.stepResult (s : State) (l : LineNo) (n : Word) (step : PassStep) (r : TxResult) : State :=
  match step with
  | .groupData =>
      let next := fun p : OrderRecord =>
        { p with state := OrderState.queued, passStep := none, nextStep := if r.outcome = .sent then PassNext.members else p.nextStep }
      if r.outcome.lineStopped then (s.updatePass n l next).deliveryLineStop n l
      else (s.updatePass n l next).reviewPass n l
  | .member place =>
      let cancelling := match s.findDelivery n with
        | some d => d.cancelling
        | none => false
      let t := (s.setMember n place fun m => m.afterStep r.kind r.outcome r.attemptsUsed cancelling).updatePass n l
        fun p => { p with state := OrderState.queued, passStep := none }
      if r.outcome.lineStopped then t.deliveryLineStop n l else t.reviewPass n l

/-! ## Cancelling -/

/-- A CANCEL of an ACTIVE delivery (R131): CANCELLING; passes with no step in flight are freed; open members with no step in
flight become CANCELLED; then the check for completion. -/
def State.cancelDelivery (s : State) (n : Word) : State :=
  let idle := fun r : OrderRecord => r.kind = .groupPass && r.number = n && r.passStep.isNone
  ({ s with orders := s.orders.filter fun r => !idle r }.updateDelivery n fun d =>
    { d with
      cancelling := true
      outstanding := d.outstanding - s.orders.countP idle
      snapshot := d.snapshot.mapIdx fun place (m : DeliveryMember) =>
        if m.state.terminal || s.stepOn n place then m else { m with state := .cancelled } }).checkDelivery n

end Machine

end Sys2Proof
end

