-- ==== Sys2Proof/Machine/OrderStore.lean ====
section
/-! DEFINITION. The order store's operations: acceptance, completion with the ORDER DONE report, and orders ended in their queues (chapter 4). -/

namespace Sys2Proof

namespace Machine

/-! ## Acceptance -/

/-- An order to accept: all the record's fields that the creating block gives (R79, R80). -/
structure NewOrder where
  kind : OrderKind
  source : OrderSource
  priority : Priority
  line : LineNo
  station : Option StationRef
  group : Option GroupNo
  payload : List Octet
  blocks : Nat
  deriving DecidableEq, Repr

/-- The resource checks of an acceptance, in their order: record, blocks, reservation (R85, R86, R148, R152). -/
def State.resourceRefusal (s : State) (records blocks : Nat) : Option ResultCode :=
  if s.freeRecords < records then some .noRecord
  else if s.freeBlocks.length < blocks then some .noBuffer
  else if !s.grantable then some .reportFull
  else none

/-- The act of acceptance (R86, R87): the record, the free blocks of lowest number, the reservation and the number are taken
together; a SEND payload is copied into its blocks; the record joins the tail of its queue (R83). -/
def State.acceptOrder (s : State) (o : NewOrder) : State :=
  let n := s.numberToGive
  let blocks := s.freeBlocks.take o.blocks
  { s with
    orderCounter := nextNumber n
    reserved := s.reserved + 1
    pool := writePayload s.pool blocks o.payload
    orders := s.orders ++
      [{ number := n, kind := o.kind, source := o.source, priority := o.priority, line := o.line, station := o.station,
         group := o.group, state := .queued, cancelFlag := false, length := o.payload.length, blocks := blocks,
         nextStep := .groupData, passStep := none }] }

/-! ## Completion -/

/-- What an order's completion carries besides its record (R93, R94). -/
structure Completion where
  outcome : OrderOutcome
  attempts : Nat
  uncertain : Bool
  lateCancel : Bool
  payload : List Octet
  deriving DecidableEq, Repr

/-- An order ended with no attempt: attempts 0, flags clear, no payload (R97, R98, R100). -/
def Completion.unsent (outcome : OrderOutcome) : Completion :=
  { outcome := outcome, attempts := 0, uncertain := false, lateCancel := false, payload := [] }

/-- The collect order of a station has completed: its collect-outstanding flag is cleared, unless the entry has become FREE
(R150, R92). -/
def State.collectDone (s : State) (station : StationRef) : State :=
  if (s.station station.index).state = .free then s
  else s.onStation station.index fun st => { st with collectOutstanding := false }

/-- The hand-offs made for every completed JOIN, LEAVE and collect order (R92). -/
def State.handOff (s : State) (r : OrderRecord) (outcome : OrderOutcome) : State :=
  match r.kind, r.station, r.group with
  | .join, some station, some g => s.joinCompleted g station.index outcome
  | .leave, some station, some g => s.leaveCompleted g station.index
  | .fetch, some station, _ => if r.source = .collect then s.collectDone station else s
  | _, _, _ => s

/-- The ORDER DONE report of a record (R94). -/
def OrderRecord.report (r : OrderRecord) (c : Completion) (now : PartTime) : OrderDone :=
  { number := r.number, kind := r.kind, source := r.source, station := r.station, group := r.group, outcome := c.outcome,
    attempts := c.attempts, uncertain := c.uncertain, lateCancel := c.lateCancel, time := now }

/-- The completion of an order, one act (R93): hand-off, report in the reserved slot, blocks, record and number. For a FETCH
with outcome DATA the first ceil(n/32) blocks take the data and pass to the slot; every other block is free again (R91,
R154). A number that names no order changes nothing [log 22]. -/
def State.completeOrder (s : State) (n : Word) (c : Completion) : State :=
  match s.findOrder n with
  | none => s
  | some record =>
      let r := { record with state := .done }
      let kept := if c.outcome = OrderOutcome.data then r.blocks.take (blocksFor c.payload.length) else []
      let t := (s.handOff r c.outcome).removeOrder n
      { t with pool := writePayload t.pool kept c.payload }.fillReservation (.orderDone (r.report c s.partTime)) kept
        (if c.outcome = OrderOutcome.data then c.payload.length else 0)

/-- The order outcome of a transaction's outcome and reply (R90). The replies the table does not list for orders are
unexpected (R11) and so never good. -/
def orderOutcome : TxOutcome → OrderOutcome
  | .good (.ack _) => .accepted
  | .good (.nak .refused) => .refused
  | .good (.data _ _) => .data
  | .good (.nak .empty) => .empty
  | .good _ => .corrupt .unexpected
  | .busy => .busy
  | .corrupt cause => .corrupt cause
  | .noReply => .noReply
  | .cancelled => .cancelled
  | .aborted => .aborted
  | .lineFault => .lineFault
  | .sent => .corrupt .unexpected

/-- The payload of a good DATA reply (R91). -/
def TxOutcome.payload : TxOutcome → List Octet
  | .good (.data _ p) => p
  | _ => []

/-- An order's transaction has ended: the order completes from its result (R90, R95). -/
def State.orderResult (s : State) (n : Word) (r : TxResult) : State :=
  s.completeOrder n
    { outcome := orderOutcome r.outcome, attempts := r.attemptsUsed,
      uncertain := uncertainFlag r.kind (orderOutcome r.outcome) r.whollySent,
      lateCancel := r.lateCancel, payload := r.outcome.payload }

/-! ## Orders ended in their queues -/

/-- A queued order of a station. -/
def OrderRecord.queuedFor (r : OrderRecord) (ix : StationIx) : Bool :=
  r.kind != .groupPass && r.state = .queued &&
  match r.station with
  | some station => station.index = ix
  | none => false

/-- Ends every queued order of a station, urgent queue first, each from its oldest entry to its newest (R97). -/
def State.endStationOrders (s : State) (ix : StationIx) (outcome : OrderOutcome) : State :=
  let l := (s.station ix).line
  ((s.queue l .urgent ++ s.queue l .normal).filter fun r => r.queuedFor ix).foldl
    (fun s r => s.completeOrder r.number (.unsent outcome)) s

/-- Ends a stopped line's queues: each order completes with the cause, each pass goes to the delivery unit, urgent queue
first, each from its oldest entry to its newest (R29, R98). -/
def State.endLineQueues (s : State) (l : LineNo) (outcome : OrderOutcome) : State :=
  (s.queue l .urgent ++ s.queue l .normal).foldl
    (fun s r => if r.kind = .groupPass then s.deliveryLineStop r.number l else s.completeOrder r.number (.unsent outcome)) s

end Machine

end Sys2Proof
end

