-- ==== Sys2Proof/Machine/StationTable.lean ====
section
/-! DEFINITION. The watch unit's and the station table's operations: judging status words, collection, and taking transaction results (chapters 3 and 6). -/

namespace Sys2Proof

namespace Machine

/-! ## Watches (section 6.2) -/

/-- A watch entry is a station's and is judged: ARMED or PENDING (R136). -/
def Watch.judges (w : Watch) (ix : StationIx) : Bool :=
  (w.state = .armed || w.state = .pending) &&
  match w.station with
  | some station => station.index = ix
  | none => false

/-- One watch entry judged against a status word (R139, R140): an ARMED entry that matches becomes PENDING and joins the pending
list; a PENDING one that matches counts the repeat and keeps the latest word. -/
def State.judgeWatch (s : State) (ix : StationIx) (baseline : Option Word) (word : Word) (time : PartTime) (w : WatchNo) : State :=
  let e := s.watch w
  if e.judges ix && e.matches baseline word then
    match e.hit with
    | some hit => s.setWatch w { e with hit := some { hit with repeats := stepUpTo 255 hit.repeats, latest := word } }
    | none =>
        (s.setWatch w { e with
          state := .pending
          hit := some { previous := baseline, matching := word, latest := word, repeats := 0, time := time } }).joinSources (.watch w)
  else s

/-- Every watch entry of a station judged, in ascending watch number (R136). -/
def State.judgeWatches (s : State) (ix : StationIx) (baseline : Option Word) (word : Word) (time : PartTime) : State :=
  allWatches.foldl (fun s w => s.judgeWatch ix baseline word time w) s

/-- Frees a watch entry: a latched hit is discarded and its place in the pending list with it (R134, R144, R146). -/
def State.freeWatch (s : State) (w : WatchNo) : State :=
  (s.setWatch w Watch.cleared).dropSource (.watch w)

/-- A watch entry watches a station (R146). -/
def Watch.watches (w : Watch) (ix : StationIx) : Bool :=
  w.state != .free &&
  match w.station with
  | some station => station.index = ix
  | none => false

/-- Frees every watch entry of a removed station, in ascending watch number (R146). -/
def State.freeWatches (s : State) (ix : StationIx) : State :=
  allWatches.foldl (fun s w => if (s.watch w).watches ix then s.freeWatch w else s) s

/-- How many watch entries watch a station (R146). -/
def State.watchCount (s : State) (ix : StationIx) : Nat :=
  allWatches.countP fun w => (s.watch w).watches ix

/-! ## Collection (section 6.5) -/

/-- The collect order of a station: FETCH, source COLLECT, NORMAL, 4 blocks (R80, R148). -/
def State.collectOrder (s : State) (ix : StationIx) : NewOrder :=
  { kind := .fetch, source := .collect, priority := .normal, line := (s.station ix).line, station := some (s.stationRef ix),
    group := none, payload := [], blocks := 4 }

/-- A claim for a collect order (R148): taken whole when a record, 4 blocks and a reservation are there; otherwise
collect-due is set. -/
def State.claimCollect (s : State) (ix : StationIx) : State :=
  match s.resourceRefusal 1 4 with
  | some _ => s.onStation ix fun st => { st with collectDue := true }
  | none =>
      (s.acceptOrder (s.collectOrder ix)).onStation ix fun st => { st with collectOutstanding := true, collectDue := false }

/-- The collect option applied to a status word's DATA WAITING flag, first case that fits (R147). -/
def State.applyCollect (s : State) (ix : StationIx) (dataWaiting : Bool) : State :=
  let st := s.station ix
  if !st.collect then s
  else if st.state != .online then s
  else if !dataWaiting then s.onStation ix fun st => { st with collectDue := false }
  else if st.collectOutstanding then s
  else s.claimCollect ix

/-! ## Changes of station state (section 3.2) -/

/-- A station entry enters a state (R57): leaving ONLINE clears collect-due; entering PROBING or ONLINE sets the miss count to
0; entering ONLINE sets the last status word absent. -/
def Station.enter (st : Station) (next : StationState) : Station :=
  { st with
    state := next
    collectDue := if st.state = .online && next != .online then false else st.collectDue
    missCount := if next = .probing || next = .online then 0 else st.missCount
    lastStatus := if next = .online then none else st.lastStatus }

/-- An entry becomes MISSING (R62): queued orders end STATION DOWN, open delivery members become UNREACHED, and presence DOWN
is latched if the entry was present. -/
def State.becomeMissing (s : State) (ix : StationIx) : State :=
  let wasPresent := (s.station ix).state.present
  let t := ((s.onStation ix fun st => st.enter .missing).endStationOrders ix .stationDown).deliveriesStationDown ix
  if wasPresent then t.latchPresence ix .down false else t

/-- A STATUS with RESTARTED from an ONLINE entry (R64): RESYNC with cause RESTART, and the memberships lapse. -/
def State.stationRestarted (s : State) (ix : StationIx) : State :=
  (s.onStation ix fun st => { st.enter .resync with resyncCause := some .restart }).lapse ix

/-- A good STATUS for an ONLINE entry (R63): RESTARTED first, then the watch unit, then the word is stored. -/
def State.takeStatus (s : State) (ix : StationIx) (word : Word) (dataWaiting restarted : Bool) (time : PartTime) : State :=
  let baseline := (s.station ix).lastStatus
  let t := if restarted then s.stationRestarted ix else s
  ((t.judgeWatches ix baseline word time).applyCollect ix dataWaiting).onStation ix fun st => { st with lastStatus := some word }

/-- Whether a CLEAR ACK latches presence UP, and with the restarted flag or not (R67). `lapsed` says that the rule's lapse
lapsed a membership. -/
def clearPresence (st : Station) (lapsed : Bool) : Option Bool :=
  match st.state, st.resyncCause with
  | .resync, some .restart => some true
  | .resync, _ => if lapsed then some false else none
  | _, some .restart => some true
  | _, _ => some false

/-- A CLEAR probe ended with ACK (R67): bits 0, memberships lapse, ONLINE, presence as R67's table gives, resync cause
absent. -/
def State.clearAcknowledged (s : State) (ix : StationIx) : State :=
  let before := s.station ix
  let lapsed := s.hasActiveMembership ix
  let t := ((s.onStation ix fun st => { st with sendBit := false, fetchBit := false }).lapse ix).onStation ix fun st => st.enter .online
  let u := match clearPresence before lapsed with
    | some restarted => t.latchPresence ix .up restarted
    | none => t
  u.onStation ix fun st => { st with resyncCause := none }

/-! ## Taking the result of a transaction (section 3.4) -/

/-- The miss count and last heard time after a result (R61). -/
def Station.afterResult (st : Station) (r : TxResult) : Station :=
  if r.heard then { st with missCount := 0, lastHeard := r.lastHeard }
  else if r.unanswered then { st with missCount := stepUpTo 15 st.missCount }
  else st

/-- A SEND has ended in doubt (R66): NO REPLY, CORRUPT or ABORTED after at least one attempt wholly sent. -/
def TxResult.inDoubt (r : TxResult) : Bool :=
  r.kind = .send && 0 < r.whollySent &&
  match r.outcome with
  | .noReply => true
  | .corrupt _ => true
  | .aborted => true
  | _ => false

/-- The states that an unanswered result can make MISSING (R62). -/
def StationState.canMiss : StationState → Bool
  | .probing => true
  | .online => true
  | .resync => true
  | _ => false

/-- Rules R63 to R67 for a result that did not make its entry MISSING. -/
def State.applyResult (s : State) (ix : StationIx) (r : TxResult) : State :=
  match r.kind, r.outcome with
  | .poll, .good (.status word dataWaiting restarted) =>
      if (s.station ix).state = .online then s.takeStatus ix word dataWaiting restarted (r.lastHeard.getD s.partTime) else s
  | .clear, .good (.ack _) => s.clearAcknowledged ix
  | .send, .good (.ack _) => s.onStation ix fun st => { st with sendBit := !st.sendBit }
  | .fetch, .good (.data _ _) => s.onStation ix fun st => { st with fetchBit := !st.fetchBit }
  | _, _ =>
      if r.inDoubt && (s.station ix).state = .online then
        s.onStation ix fun st => { st.enter .resync with resyncCause := some .doubt }
      else s

/-- The station table takes a transaction result, by the state the entry has as it arrives (R60 to R67). A RETIRING entry
becomes FREE (R73). -/
def State.stationResult (s : State) (ix : StationIx) (r : TxResult) : State :=
  match (s.station ix).state with
  | .free => s
  | .suspended => s
  | .retiring => s.setStation ix Station.cleared
  | _ =>
      let t := s.onStation ix fun st => st.afterResult r
      let st := t.station ix
      if r.unanswered && (t.engine st.line).params.missLimit.toNat ≤ st.missCount && st.state.canMiss then t.becomeMissing ix
      else t.applyResult ix r

/-! ## A stop of the line -/

/-- One station of a stopped line (R69): ONLINE, RESYNC and MISSING become PROBING with collect-due clear, and those present
latch DOWN. -/
def State.stationLineStop (s : State) (l : LineNo) (ix : StationIx) : State :=
  let st := s.station ix
  if st.line = l && (st.state = .online || st.state = .resync || st.state = .missing) then
    let t := s.onStation ix fun st => { st.enter .probing with collectDue := false }
    if st.state.present then t.latchPresence ix .down false else t
  else s

/-- The stations of a stopped line, in index order (R69). -/
def State.stationsLineStop (s : State) (l : LineNo) : State :=
  allStations.foldl (fun s ix => s.stationLineStop l ix) s

end Machine

end Sys2Proof
end

