-- ==== Sys2Proof/Machine/Engines.lean ====
section
/-! DEFINITION. The line engines' operations: the poll cycle, work selection, attempts, transactions, holds and stops (chapter 2). -/

namespace Sys2Proof

namespace Machine

/-! ## The poll cycle (section 2.7) -/

/-- On the poll list: PROBING, ONLINE, RESYNC or MISSING (R41). -/
def StationState.polled : StationState → Bool
  | .probing => true
  | .online => true
  | .resync => true
  | .missing => true
  | _ => false

/-- An entry is on a line's poll list (R41). -/
def State.onPollList (s : State) (l : LineNo) (ix : StationIx) : Bool :=
  (s.station ix).line = l && (s.station ix).state.polled

/-- The number of stations on a line's poll list (R51). -/
def State.pollListLength (s : State) (l : LineNo) : Nat :=
  allStations.countP fun ix => s.onPollList l ix

/-- A station is due in cycle c by its state and, when ONLINE, its poll class (R42). -/
def Station.due (st : Station) (c : BitVec 16) : Bool :=
  match st.state, st.pollClass with
  | .probing, _ => true
  | .resync, _ => true
  | .online, .fast => true
  | .online, .normal => (c.toNat + st.address.toNat) % 4 = 0
  | .online, .slow => (c.toNat + st.address.toNat) % 16 = 0
  | .missing, _ => (c.toNat + st.address.toNat) % 16 = 0
  | _, _ => false

/-- A station of the line, above the cursor and due in the current cycle (R43). -/
def State.dueAbove (s : State) (l : LineNo) (ix : StationIx) : Bool :=
  s.onPollList l ix && (s.engine l).cursor.toNat < (s.station ix).address.toNat &&
  (s.station ix).due (s.engine l).cycleCount

/-- Of two candidates the one of lower address (R43). -/
def State.lowerAddress (s : State) (best : Option StationIx) (ix : StationIx) : Option StationIx :=
  match best with
  | none => some ix
  | some b => if (s.station ix).address.toNat < (s.station b).address.toNat then some ix else some b

/-- The lowest-addressed station above the cursor that is due in the current cycle (R43). -/
def State.dueStation (s : State) (l : LineNo) : Option StationIx :=
  (allStations.filter fun ix => s.dueAbove l ix).foldl s.lowerAddress none

/-- A poll step is due: the cycle is RUNNING and such a station exists (R43). -/
def State.pollDue (s : State) (l : LineNo) : Option StationIx :=
  if (s.engine l).cycleState = .running then s.dueStation l else none

/-- The cycle start: cursor at the start of the poll list, start time now, RUNNING; the whole cycle floor lies ahead (R27, R44). -/
def LineEngine.startCycle (e : LineEngine) (now : PartTime) : LineEngine :=
  { e with cursor := 0, cycleStart := some now, cycleState := .running, floorLeft := e.params.cycleFloor.toNat, floorRunning := false }

/-- The next cycle begins: the count steps on (R44). -/
def LineEngine.nextCycle (e : LineEngine) (now : PartTime) : LineEngine :=
  { e.startCycle now with cycleCount := e.cycleCount + 1 }

/-- A cycle becomes COMPLETE; the cycle-floor timer runs when the floor's end lies ahead (R44). -/
def LineEngine.completeCycle (e : LineEngine) : LineEngine :=
  { e with cycleState := .complete, floorRunning := 0 < e.floorLeft }

/-- The next cycle may begin: the cycle is COMPLETE, its floor has passed and the poll list holds a station (R44, R45). -/
def State.cycleMayBegin (s : State) (l : LineNo) : Bool :=
  (s.engine l).cycleState = .complete && (s.engine l).floorLeft = 0 && 0 < s.pollListLength l

/-- What work selection does to the poll cycle (R44, R45): a RUNNING cycle with no station left due becomes COMPLETE, and the
next one begins at once when it may. Sixteen successive cycles find every station due (R42), so 40 turns are enough. -/
def State.advanceCycle (l : LineNo) : Nat → State → State
  | 0, s => s
  | fuel + 1, s =>
      if (s.engine l).cycleState = .running then
        if (s.dueStation l).isSome then s else State.advanceCycle l fuel (s.onEngine l LineEngine.completeCycle)
      else if s.cycleMayBegin l then State.advanceCycle l fuel (s.onEngine l fun e => e.nextCycle s.partTime)
      else s

/-- A state of the engine in which a new cycle may begin without work selection: running, not HELD and not in a line clear
(R45). -/
def LineState.cycles : LineState → Bool
  | .idle => true
  | .sending => true
  | .awaiting => true
  | .backoff => true
  | _ => false

/-- An engine whose next cycle a join may begin (R45): one in such a state, or in the line clear that follows a hold. The cycle of a
line just started begins as its line clear ends (R27, R47). -/
def LineEngine.joinable (e : LineEngine) : Bool :=
  e.state.cycles || (e.state = .starting && !e.cycleAwaited)

/-- A station has joined the poll list: where it is the only one there, a cycle that waited for one begins (R45) [log 20]. -/
def State.pollListJoined (s : State) (l : LineNo) : State :=
  if (s.engine l).joinable && s.pollListLength l = 1 && s.cycleMayBegin l then s.onEngine l fun e => e.nextCycle s.partTime else s

/-! ## Taking work (sections 2.5 and 2.6) -/

/-- The attempt limit of a kind: 1, or 1 + the retry limit (R30). -/
def LineEngine.attemptLimit (e : LineEngine) : TxKind → Nat
  | .poll => 1
  | .clear => 1
  | .groupData => 1
  | .send => 1 + e.params.retryLimit.toNat
  | .fetch => 1 + e.params.retryLimit.toNat
  | .join => 1 + e.params.retryLimit.toNat
  | .leave => 1 + e.params.retryLimit.toNat
  | .groupCheck => 1 + e.params.retryLimit.toNat
  | .groupRepair => 1 + e.params.retryLimit.toNat

/-- A fresh transaction record (section 2.5). -/
def LineEngine.transaction (e : LineEngine) (kind : TxKind) (work : TxWork) (station : Option StationIx) (target : Octet)
    (frame : DropFrame) : Transaction :=
  { kind := kind, work := work, station := station, target := target, frame := frame, attemptLimit := e.attemptLimit kind,
    attemptsUsed := 0, heard := false, lastHeard := none, whollySent := 0, lastResult := none, suspended := false }

/-- The engine takes a transaction and begins its first attempt at once (R38, R31). -/
def LineEngine.take (e : LineEngine) (t : Transaction) (isPoll : Bool) : LineEngine :=
  { e with tx := some t, state := .sending, previousPoll := isPoll }

/-- A frame to a station that carries no payload and no sequence bit. -/
def bareFrame (address : Octet) (type : FrameType) : DropFrame :=
  { address := address, type := type, bit := false, payload := [] }

/-- Takes a poll step (R43): POLL for an ONLINE station, else a CLEAR probe; the cursor moves to its address. -/
def State.takePoll (s : State) (l : LineNo) (ix : StationIx) : State :=
  let st := s.station ix
  let online := st.state = .online
  let kind := if online then TxKind.poll else TxKind.clear
  let type := if online then FrameType.poll else FrameType.clear
  s.onEngine l fun e =>
    { e with cursor := st.address }.take (e.transaction kind .pollStep (some ix) st.address (bareFrame st.address type)) true

/-- The transaction kind and the frame of an order, built from the record and the station entry as it stands (R30, R89). -/
def State.orderFrame (s : State) (r : OrderRecord) (station : StationRef) : TxKind × DropFrame :=
  let st := s.station station.index
  let group := (r.group.map groupOctetOf).getD 0
  match r.kind with
  | .send =>
      (.send, { address := station.address, type := .data, bit := st.sendBit, payload := readPayload s.pool r.blocks r.length })
  | .fetch => (.fetch, { address := station.address, type := .fetch, bit := st.fetchBit, payload := [] })
  | .join => (.join, { address := station.address, type := .join, bit := false, payload := [group] })
  | .leave => (.leave, { address := station.address, type := .leave, bit := false, payload := [group] })
  | .groupPass => (.groupCheck, bareFrame station.address .groupCheck)

/-- Takes an order (R40, R89): it becomes ACTIVE and its transaction begins. -/
def State.takeOrder (s : State) (l : LineNo) (r : OrderRecord) : State :=
  match r.station with
  | none => s
  | some station =>
      let built := s.orderFrame r station
      (s.updateOrder r.number fun r => { r with state := .active }).onEngine l fun e =>
        e.take (e.transaction built.1 (.order r.number) (some station.index) station.address built.2) false

/-- A pass whose step the engine has taken (R40, R120). -/
def OrderRecord.withStep (r : OrderRecord) (step : PassStep) : OrderRecord :=
  { r with state := .active, passStep := some step }

/-- The data of a delivery, read from its blocks when a frame is built (R153). -/
def State.deliveryData (s : State) (d : Delivery) : List Octet :=
  readPayload s.pool d.blocks d.length

/-- Takes the next step of a pass (R120): GROUP DATA, or the GROUP CHECK or GROUP REPAIR of its current member; a WAITING
member becomes CHECKING. -/
def State.takePass (s : State) (l : LineNo) (r : OrderRecord) (d : Delivery) : State :=
  let header := groupSeqOctet d.group d.seq
  match r.nextStep, d.current l with
  | .groupData, _ =>
      let frame : DropFrame :=
        { address := groupAddress d.group, type := .groupData, bit := false, payload := header :: s.deliveryData d }
      (s.updatePass d.number l fun r => r.withStep .groupData).onEngine l fun e =>
        e.take (e.transaction .groupData (.pass d.number .groupData) none (groupOctetOf d.group) frame) false
  | .members, some (place, m) =>
      let repair := m.state = .repairing
      let kind := if repair then TxKind.groupRepair else TxKind.groupCheck
      let frame : DropFrame :=
        { address := m.station.address, type := if repair then FrameType.groupRepair else FrameType.groupCheck, bit := false,
          payload := if repair then header :: s.deliveryData d else [header] }
      ((s.setMember d.number place fun m => if repair then m else { m with state := .checking }).updatePass d.number l
        fun r => r.withStep (.member place)).onEngine l fun e =>
          e.take (e.transaction kind (.pass d.number (.member place)) (some m.station.index) m.station.address frame) false
  | .members, none => s

/-- Takes a queue entry as work (R40). -/
def State.takeEntry (s : State) (l : LineNo) (r : OrderRecord) : State :=
  if r.kind = .groupPass then
    match s.findDelivery r.number with
    | some d => s.takePass l r d
    | none => s
  else s.takeOrder l r

/-- An entry is dispatchable (R39): an order when its station is ONLINE; a pass when its next step is GROUP DATA or its current
member's station is ONLINE. -/
def State.dispatchable (s : State) (r : OrderRecord) : Bool :=
  r.state = .queued &&
  if r.kind = .groupPass then
    match s.findDelivery r.number with
    | none => false
    | some d =>
        r.nextStep = .groupData ||
        match d.current r.line with
        | some (_, m) => (s.station m.station.index).state = .online
        | none => false
  else
    match r.station with
    | some station => (s.station station.index).state = .online
    | none => false

/-- The oldest dispatchable entry of a queue (R39). -/
def State.oldestDispatchable (s : State) (l : LineNo) (p : Priority) : Option OrderRecord :=
  (s.queue l p).find? fun r => s.dispatchable r

/-- What work selection takes (R38). -/
inductive Choice where
  | entry (r : OrderRecord)
  | poll (ix : StationIx)
  | nothing
  deriving DecidableEq, Repr

/-- The four items of work selection, in their order (R38). -/
def State.chooseWork (s : State) (l : LineNo) : Choice :=
  match s.oldestDispatchable l .urgent, s.pollDue l, s.oldestDispatchable l .normal with
  | some r, _, _ => .entry r
  | none, some ix, some r => if (s.engine l).previousPoll then .entry r else .poll ix
  | none, some ix, none => .poll ix
  | none, none, some r => .entry r
  | none, none, none => .nothing

/-- The engine is IDLE with no transaction in flight and its guard has passed (R38). -/
def LineEngine.waiting (e : LineEngine) : Bool :=
  e.state = .idle && e.tx.isNone && !e.guardRunning

/-- Work selection comes to a poll step (R38): at its item 2 when previous work is NOT POLL, at its item 4 when no entry of the
normal queue is dispatchable. -/
def State.comesToPoll (s : State) (l : LineNo) : Bool :=
  (s.oldestDispatchable l .urgent).isNone && (!(s.engine l).previousPoll || (s.oldestDispatchable l .normal).isNone)

/-- The poll cycle at a selection: one that comes to a poll step finds out whether the cycle is complete (R44) [log 11]; at
any other, only a cycle-floor time that has passed takes effect (R45). -/
def State.cycleAtSelection (s : State) (l : LineNo) : State :=
  if s.comesToPoll l then State.advanceCycle l 40 s
  else if s.cycleMayBegin l then s.onEngine l fun e => e.nextCycle s.partTime
  else s

/-- Work selection on a line, where its engine waits (R38): the poll cycle first, then the choice. It runs at the
end of a step [log 21]. -/
def State.selectWork (s : State) (l : LineNo) : State :=
  if (s.engine l).waiting then
    let t := s.cycleAtSelection l
    match t.chooseWork l with
    | .entry r => t.takeEntry l r
    | .poll ix => t.takePoll l ix
    | .nothing => t
  else s

/-! ## Transactions -/

/-- The order whose cancel flag an attempt's end reads; a poll step or a pass step has none (R32). -/
def State.cancelFlagOf (s : State) (work : TxWork) : Bool :=
  match work with
  | .order n =>
      match s.findOrder n with
      | some r => r.cancelFlag
      | none => false
  | _ => false

/-- The result a transaction is handed on with (R35); it is unanswered only when it ended at an attempt's end with no attempt
heard, and GROUP DATA never is (R34). -/
def Transaction.result (t : Transaction) (outcome : TxOutcome) (lateCancel atAttemptEnd : Bool) : TxResult :=
  { kind := t.kind, work := t.work, station := t.station, outcome := outcome, lateCancel := lateCancel,
    attemptsUsed := t.attemptsUsed, heard := t.heard, lastHeard := t.lastHeard, whollySent := t.whollySent,
    unanswered := atAttemptEnd && !t.heard && t.kind != .groupData }

/-- A line's transaction ends (R35): its result goes to the station table, then to the order store or the delivery unit; the
transactions statistic rises and the engine holds no transaction. -/
def State.endTransaction (s : State) (l : LineNo) (outcome : TxOutcome) (lateCancel atAttemptEnd : Bool) : State :=
  match (s.engine l).tx with
  | none => s
  | some t =>
      let r := t.result outcome lateCancel atAttemptEnd
      let u := match t.station with
        | some ix => s.stationResult ix r
        | none => s
      let v := match t.work with
        | .pollStep => u
        | .order n => u.orderResult n r
        | .pass n step => u.stepResult l n step r
      v.onEngine l fun e =>
        { e with tx := none, stats := { e.stats with transactions := statUp e.stats.transactions } }

/-- A transaction record after an attempt result (R31). -/
def Transaction.afterAttempt (t : Transaction) (r : AttemptResult) : Transaction :=
  { t with
    attemptsUsed := t.attemptsUsed + 1
    heard := t.heard || r.heard
    lastHeard := if r.heard then some r.endTime else t.lastHeard
    whollySent := t.whollySent + 1
    lastResult := some r }

/-- An attempt's end starts the guard in every case but no reply (R31). -/
def AttemptClass.startsGuard : AttemptClass → Bool
  | .noReply => false
  | _ => true

/-- The engine with an attempt result taken (R20, R31): IDLE until the course is decided, the guard started, the statistics
raised. -/
def LineEngine.afterAttempt (e : LineEngine) (t : Transaction) (r : AttemptResult) : LineEngine :=
  { e with
    state := .idle
    reception := none
    guardRunning := r.outcome.startsGuard
    tx := some (t.afterAttempt r)
    stats := e.stats.attempt r.outcome (0 < t.attemptsUsed) }

/-- The outcome of a transaction whose last attempt was not good (R34); a set cancel flag makes it CANCELLED. -/
def failedOutcome (c : AttemptClass) (cancel : Bool) : TxOutcome :=
  if cancel then .cancelled else
  match c with
  | .good reply => .good reply
  | .nakFull => .busy
  | .corrupt cause => .corrupt cause
  | .noReply => .noReply

/-- The engine as it goes on to its transaction's next attempt (R32): BACKOFF after NAK FULL, IDLE until the guard has passed
after a corrupt reply, SENDING at once after no reply. -/
def LineEngine.goOn (e : LineEngine) : AttemptClass → LineEngine
  | .good _ => e
  | .nakFull => { e with state := .backoff, busyRunning := true, busyLeft := e.params.busyDelay.toNat }
  | .corrupt _ => e
  | .noReply => { e with state := .sending }

/-- The end of an attempt (R20, R31, R32): the result is recorded, and the transaction goes on or ends. -/
def State.attemptEnd (s : State) (l : LineNo) (c : AttemptClass) (heard : Bool) : State :=
  match (s.engine l).tx with
  | none => s
  | some t =>
      let cancel := s.cancelFlagOf t.work
      let u := s.onEngine l fun e =>
        e.afterAttempt t { outcome := c, heard := heard, whollySent := true, endTime := s.partTime }
      match c with
      | .good reply => u.endTransaction l (.good reply) cancel true
      | _ =>
          if t.attemptsUsed + 1 < t.attemptLimit && !cancel then u.onEngine l fun e => e.goOn c
          else u.endTransaction l (failedOutcome c cancel) false true

/-- An attempt's end as an event: then work is selected where the engine waits, and the transmitter chooses. -/
def State.finishAttempt (s : State) (l : LineNo) (c : AttemptClass) (heard : Bool) : State :=
  ((s.attemptEnd l c heard).selectWork l).transmit

/-! ## Part time (section 8.7) -/

/-- An engine some milliseconds later (R183): less of its cycle floor, its busy delay and its hold lies ahead. -/
def LineEngine.elapse (n : Nat) (e : LineEngine) : LineEngine :=
  { e with floorLeft := e.floorLeft - n, busyLeft := e.busyLeft - n, holdLeft := e.holdLeft - n }

/-- Some milliseconds pass (R183): part time wraps, and no timer is shortened or lengthened by that. -/
def State.elapse (n : Nat) (s : State) : State :=
  { s with partTime := s.partTime + BitVec.ofNat 32 n, engines := s.engines.map (LineEngine.elapse n) }

/-! ## Holds and stops (sections 2.4 and 2.8) -/

/-- A transaction with its suspended mark set or cleared. -/
def LineEngine.suspend (e : LineEngine) (mark : Bool) : LineEngine :=
  { e with tx := e.tx.map fun t => { t with suspended := mark } }

/-- The hold limit in milliseconds: its parameter counts steps of 100 ms (R25). -/
def holdTime (p : LineParams) : Nat :=
  100 * p.holdLimit.toNat

/-- The engine enters HELD (R46): its drive or reception ends, a transaction is suspended, guard, busy delay and cycle-floor
timer stop, and the hold timer starts unless the hold limit is 0. -/
def LineEngine.enterHeld (e : LineEngine) : LineEngine :=
  { e.suspend true with
    state := .held, reception := none, guardRunning := false, busyRunning := false, busyLeft := 0, floorRunning := false,
    holdRunning := e.params.holdLimit != 0, holdLeft := holdTime e.params }

/-- The engine enters OFF (R23): every timer stops, and a character being received is abandoned. -/
def LineEngine.enterOff (e : LineEngine) (cause : OffCause) : LineEngine :=
  { e with
    state := .off, reception := none, guardRunning := false, busyRunning := false, busyLeft := 0, floorRunning := false,
    holdRunning := false, holdLeft := 0, offCause := cause }

/-- The engine enters HELD and its line report is latched (R46, R53). -/
def State.holdLine (s : State) (l : LineNo) : State :=
  (s.onEngine l LineEngine.enterHeld).latchLine l .held .faultAsserted

/-- A line's stop reaches the order store, the delivery unit and the station table (R29). -/
def State.lineStopped (s : State) (l : LineNo) (outcome : OrderOutcome) : State :=
  (s.endLineQueues l outcome).stationsLineStop l

/-- The engine enters STOPPING: a line clear is sent, or the one being sent runs on (R28). Its timers stop with the transaction. -/
def LineEngine.enterStopping (e : LineEngine) : LineEngine :=
  { e with
    state := .stopping, reception := none, guardRunning := false, busyRunning := false, busyLeft := 0, floorRunning := false,
    holdRunning := false, holdLeft := 0 }

end Machine

end Sys2Proof
end

