-- ==== Sys2Proof/Machine/DropEvents.lean ====
section
/-! DEFINITION. The events of a drop line: the end of an outbound frame, characters received, and the ends of an attempt (sections 1.9, 1.10, 2.5). -/

namespace Sys2Proof

namespace Machine

/-! ## The end of the outbound frame -/

/-- A GROUP DATA transaction at the end of its frame (R37): attempts used 1 and wholly sent 1. -/
def Transaction.groupDataSent (t : Transaction) : Transaction :=
  { t with attemptsUsed := 1, whollySent := 1 }

/-- The engine at the end of a GROUP DATA frame (R37): IDLE, the guard running. -/
def LineEngine.groupDataSent (e : LineEngine) : LineEngine :=
  { e with state := .idle, guardRunning := true, tx := e.tx.map Transaction.groupDataSent }

/-- The reply window opens (R16, R31). -/
def LineEngine.openWindow (e : LineEngine) : LineEngine :=
  { e with state := .awaiting, reception := some .window }

/-- The last stop bit of an outbound frame ends (R31, R37). -/
def State.frameEnds (s : State) (l : LineNo) (t : Transaction) : State :=
  if t.kind = .groupData then (s.onEngine l LineEngine.groupDataSent).endTransaction l .sent false true
  else s.onEngine l LineEngine.openWindow

/-- DROP FRAME END (R31, R37). -/
def execDropFrameEnd (l : LineNo) (s : State) : Host.Outcome State Fault Refusal :=
  .next (s.whenOutOfReset fun s =>
    match (s.engine l).state, (s.engine l).tx with
    | .sending, some t => (s.frameEnds l t).transmit
    | _, _ => s)

/-! ## Reception -/

/-- The reception with its new state. -/
def State.setReception (s : State) (l : LineNo) (r : Reception) : State :=
  s.onEngine l fun e => { e with reception := some r }

/-- A header opens the reply frame, or is a wrong-station header (R16, R17, R20). -/
def openingReception (target address : Octet) : Reception :=
  if address = target then .opened [address] else .discarding .wrongStation false

/-- A character while an attempt awaits its reply (R16 to R19). A character that was in reception when the window ran out and is
no header ends the attempt with no reply [log 10]. -/
def State.replyCharacter (s : State) (l : LineNo) (t : Transaction) (r : Reception) (c : DropChar) : State :=
  match r, c with
  | .window, .header a => s.setReception l (openingReception t.frame.address a)
  | .window, _ => s
  | .lastCharacter, .header a => s.setReception l (openingReception t.frame.address a)
  | .lastCharacter, _ => s.finishAttempt l .noReply false
  | .opened got, c =>
      match openStep got c with
      | .goesOn octets => s.setReception l (.opened octets)
      | .corrupt cause => s.setReception l (.discarding cause true)
      | .wellFormed control payload =>
          s.finishAttempt l (judgeReply t.kind t.frame.bit (replyOf control payload)) true
  | .discarding _ _, _ => s

/-- A change at an engine that awaits a reply, given its transaction and its reception; elsewhere nothing [log 3]. -/
def State.whenAwaiting (s : State) (l : LineNo) (f : State → Transaction → Reception → State) : State :=
  s.whenOutOfReset fun s =>
    match (s.engine l).state, (s.engine l).tx, (s.engine l).reception with
    | .awaiting, some t, some r => f s t r
    | _, _, _ => s

/-- REPLY CHARACTER (R16 to R20). -/
def execReplyCharacter (l : LineNo) (c : DropChar) (s : State) : Host.Outcome State Fault Refusal :=
  .next (s.whenAwaiting l fun s t r => s.replyCharacter l t r c)

/-- A character outside a reply window, in IDLE or BACKOFF (R21). -/
def LineEngine.strayCharacter (e : LineEngine) (c : DropChar) : LineEngine :=
  if e.state = .idle || e.state = .backoff then { e with stats := e.stats.stray c } else e

/-- STRAY CHARACTER (R21). -/
def execStrayCharacter (l : LineNo) (c : DropChar) (s : State) : Host.Outcome State Fault Refusal :=
  .next (s.whenOutOfReset fun s => s.onEngine l fun e => e.strayCharacter c)

/-- REPLY WINDOW EXPIRY (R16): no reply, unless a character is being received, which is finished first. -/
def execReplyWindowExpiry (l : LineNo) (receiving : Bool) (s : State) : Host.Outcome State Fault Refusal :=
  .next (s.whenAwaiting l fun s _ r =>
    match r with
    | .window => if receiving then s.setReception l .lastCharacter else s.finishAttempt l .noReply false
    | _ => s)

/-- REPLY GAP TIMEOUT (R17, R18): corrupt with cause GAP, and the attempt ends at once. -/
def execReplyGapTimeout (l : LineNo) (s : State) : Host.Outcome State Fault Refusal :=
  .next (s.whenAwaiting l fun s _ r =>
    match r with
    | .opened _ => s.finishAttempt l (.corrupt .gap) true
    | _ => s)

/-- CORRUPT QUIET END (R18): the attempt ends with the cause found. -/
def execCorruptQuietEnd (l : LineNo) (s : State) : Host.Outcome State Fault Refusal :=
  .next (s.whenAwaiting l fun s _ r =>
    match r with
    | .discarding cause heard => s.finishAttempt l (.corrupt cause) heard
    | _ => s)

end Machine

end Sys2Proof
end

