-- ==== Sys2Proof/Machine/StationRequests.lean ====
section
/-! DEFINITION. The station requests: STATION ADD, REMOVE, SUSPEND, RESUME, SET and QUERY (section 3.6). -/

namespace Sys2Proof

namespace Machine

/-- The checks on a station that a request names (R70): BAD VALUE, then NO SUCH, then what follows for the entry found. -/
def State.withStation (s : State) (line address : Octet) (next : StationIx → State × Answer) : State × Answer :=
  match lineOf line, addressOf address with
  | some l, some a =>
      match s.findStation l a with
      | some ix => next ix
      | none => (s, refuse .noSuch)
  | _, _ => (s, refuse .badValue)

/-- The entry STATION ADD makes (R71): PROBING, with every other field at its cleared value. -/
def addedStation (l : LineNo) (address : Octet) (pollClass : PollClass) (collect : Bool) : Station :=
  { Station.cleared with line := l, address := address, state := .probing, pollClass := pollClass, collect := collect }

/-- What STATION ADD answers (R70, R71). The station joins its line's poll list. -/
def stationAddOwner (body : List Octet) (s : State) : State × Answer :=
  match body with
  | [line, address, pollClass, collect] =>
      match lineOf line, addressOf address, pollClassOf pollClass, truthOf collect with
      | some l, some a, some c, some k =>
          match s.findStation l a, s.freeStation with
          | some _, _ => (s, refuse .duplicate)
          | none, none => (s, refuse .tableFull)
          | none, some ix =>
              (((s.setStation ix (addedStation l a c k)).pollListJoined l).selectWork l, accept [octet ix.val])
      | _, _, _, _ => (s, refuse .badValue)
  | _ => (s, refuse .badFormat)

/-- STATION ADD (R71). -/
def execStationAdd (tag : Octet) (body : List Octet) (s : State) : Host.Outcome State Fault Refusal :=
  .next (s.serve ⟨0x20, tag, body⟩ (stationAddOwner body))

/-- What STATION REMOVE does, in its order (R72): queued orders end REMOVED, memberships go, watches are freed, the latch is
discarded. -/
def State.stripStation (s : State) (ix : StationIx) : State :=
  ((((s.endStationOrders ix .removed).leaveAllGroups ix).freeWatches ix).dropSource (.station ix)).onStation ix
    fun st => { st with latch := none }

/-- What STATION REMOVE leaves of the entry (R72, R73): FREE with nothing in flight, else RETIRING. -/
def State.removeStation (s : State) (ix : StationIx) : State :=
  if s.inFlight ix then (s.stripStation ix).onStation ix fun st => st.enter .retiring
  else (s.stripStation ix).setStation ix Station.cleared

/-- What STATION REMOVE answers (R70, R72): the watches freed, and FREE or RETIRING. -/
def stationRemoveOwner (body : List Octet) (s : State) : State × Answer :=
  match body with
  | [line, address] =>
      s.withStation line address fun ix =>
        if (s.station ix).state = .retiring then (s, refuse .state)
        else
          ((s.removeStation ix).selectWork (s.station ix).line,
           accept [octet (s.watchCount ix), StationState.code (if s.inFlight ix then .retiring else .free)])
  | _ => (s, refuse .badFormat)

/-- STATION REMOVE (R72, R73). -/
def execStationRemove (tag : Octet) (body : List Octet) (s : State) : Host.Outcome State Fault Refusal :=
  .next (s.serve ⟨0x21, tag, body⟩ (stationRemoveOwner body))

/-- STATION SUSPEND's effects in their order (R74), on an entry not yet SUSPENDED. -/
def State.takeOutOfUse (s : State) (ix : StationIx) : State :=
  let wasPresent := (s.station ix).state.present
  let t := ((s.onStation ix fun st => st.enter .suspended).endStationOrders ix .suspended).deliveriesStationDown ix
  if wasPresent then t.latchPresence ix .down false else t

/-- STATION SUSPEND by the entry's state (R74): one already SUSPENDED changes nothing. -/
def State.suspendStation (s : State) (ix : StationIx) : State :=
  if (s.station ix).state = .suspended then s else (s.takeOutOfUse ix).selectWork (s.station ix).line

/-- What STATION SUSPEND answers (R70, R74): whether a transaction was in flight. -/
def stationSuspendOwner (body : List Octet) (s : State) : State × Answer :=
  match body with
  | [line, address] =>
      s.withStation line address fun ix =>
        if (s.station ix).state = .retiring then (s, refuse .state)
        else (s.suspendStation ix, accept [truth (s.inFlight ix)])
  | _ => (s, refuse .badFormat)

/-- STATION SUSPEND (R74). -/
def execStationSuspend (tag : Octet) (body : List Octet) (s : State) : Host.Outcome State Fault Refusal :=
  .next (s.serve ⟨0x22, tag, body⟩ (stationSuspendOwner body))

/-- STATION RESUME's effect (R76): PROBING, and the entry joins its line's poll list. -/
def State.resumeStation (s : State) (ix : StationIx) : State :=
  let l := (s.station ix).line
  ((s.onStation ix fun st => st.enter .probing).pollListJoined l).selectWork l

/-- What STATION RESUME answers (R70, R76). -/
def stationResumeOwner (body : List Octet) (s : State) : State × Answer :=
  match body with
  | [line, address] =>
      s.withStation line address fun ix =>
        if (s.station ix).state != .suspended then (s, refuse .state) else (s.resumeStation ix, accept [])
  | _ => (s, refuse .badFormat)

/-- STATION RESUME (R76). -/
def execStationResume (tag : Octet) (body : List Octet) (s : State) : Host.Outcome State Fault Refusal :=
  .next (s.serve ⟨0x23, tag, body⟩ (stationResumeOwner body))

/-- The entry with another poll class and collect option (R77); the option off clears collect-due. -/
def Station.withOptions (st : Station) (pollClass : PollClass) (collect : Bool) : Station :=
  { st with pollClass := pollClass, collect := collect, collectDue := collect && st.collectDue }

/-- What STATION SET answers (R70, R77). -/
def stationSetOwner (body : List Octet) (s : State) : State × Answer :=
  match body with
  | [line, address, pollClass, collect] =>
      match pollClassOf pollClass, truthOf collect with
      | some c, some k =>
          s.withStation line address fun ix =>
            if (s.station ix).state = .retiring then (s, refuse .state)
            else (s.onStation ix fun st => st.withOptions c k, accept [])
      | _, _ => (s, refuse .badValue)
  | _ => (s, refuse .badFormat)

/-- STATION SET (R77). -/
def execStationSet (tag : Octet) (body : List Octet) (s : State) : Host.Outcome State Fault Refusal :=
  .next (s.serve ⟨0x24, tag, body⟩ (stationSetOwner body))

/-- The presence latch in STATION QUERY: presence, change count, restarted (section 9.3). The model's choice: the restarted
octet of an empty latch is 0 [log 23]. -/
def latchOctets : Option PresenceLatch → List Octet
  | some p => [Presence.code p.presence, octet p.changeCount, truth p.restarted]
  | none => [0xFF, 0, 0]

/-- The 24 octets of STATION QUERY (R78, section 9.3). -/
def State.stationOctets (s : State) (ix : StationIx) : List Octet :=
  let st := s.station ix
  StationRef.octets (s.stationRef ix) ++
  [StationState.code st.state, PollClass.code st.pollClass, truth st.collect, octet st.missCount,
   flagPair st.sendBit st.fetchBit] ++
  optionalWord st.lastStatus ++ optionalTime st.lastHeard ++
  [optionalOctet (st.resyncCause.map ResyncCause.code)] ++ wordOctets st.lapsed ++
  [flagPair st.collectDue st.collectOutstanding] ++ latchOctets st.latch ++ [truth (s.inFlight ix)]

/-- What STATION QUERY answers (R70, R78). -/
def stationQueryOwner (body : List Octet) (s : State) : State × Answer :=
  match body with
  | [line, address] => s.withStation line address fun ix => (s, accept (s.stationOctets ix))
  | _ => (s, refuse .badFormat)

/-- STATION QUERY (R78). -/
def execStationQuery (tag : Octet) (body : List Octet) (s : State) : Host.Outcome State Fault Refusal :=
  .next (s.serve ⟨0x25, tag, body⟩ (stationQueryOwner body))

end Machine

end Sys2Proof
end

