-- ==== Sys2Proof/Machine/OrderRequests.lean ====
section
/-! DEFINITION. The order requests: SEND, FETCH, CANCEL and ORDER QUERY (sections 4.4, 4.8, 4.9, 5.10). -/

namespace Sys2Proof

namespace Machine

/-- The acceptance checks on an order's station and line (R85 steps 4 and 5, R108, R111): STATE, STATION DOWN or LINE OFF. -/
def State.stationRefusal (s : State) (ix : StationIx) : Option ResultCode :=
  match (s.station ix).state with
  | .free => some .state
  | .suspended => some .state
  | .retiring => some .state
  | .missing => some .stationDown
  | _ => if (s.engine (s.station ix).line).running then none else some .lineOff

/-- Every acceptance check from the station's state on, in order (R85 steps 4 to 8). -/
def State.orderRefusal (s : State) (ix : StationIx) (blocks : Nat) : Option ResultCode :=
  match s.stationRefusal ix with
  | some code => some code
  | none => s.resourceRefusal 1 blocks

/-- An order of the host for a station (R80). -/
def State.hostOrder (s : State) (ix : StationIx) (kind : OrderKind) (priority : Priority) (group : Option GroupNo)
    (payload : List Octet) (blocks : Nat) : NewOrder :=
  { kind := kind, source := .host, priority := priority, line := (s.station ix).line, station := some (s.stationRef ix),
    group := group, payload := payload, blocks := blocks }

/-- Accepts an order of the host, or refuses it (R85 steps 4 to 8, R87): the reply carries the order's number, and the line's
engine is told of the change to its queue (R83). -/
def State.takeHostOrder (s : State) (ix : StationIx) (kind : OrderKind) (priority : Priority) (payload : List Octet)
    (blocks : Nat) : State × Answer :=
  match s.orderRefusal ix blocks with
  | some code => (s, refuse code)
  | none =>
      ((s.acceptOrder (s.hostOrder ix kind priority none payload blocks)).selectWork (s.station ix).line,
       accept (wordOctets s.numberToGive))

/-- What SEND answers (R85, R87). -/
def sendOwner (body : List Octet) (s : State) : State × Answer :=
  match body with
  | line :: address :: priority :: reserved :: n :: payload =>
      if reserved != 0 || payload.length != n.toNat then (s, refuse .badFormat) else
      match priorityOf priority with
      | none => (s, refuse .badValue)
      | some p =>
          if 120 < n.toNat then (s, refuse .badValue)
          else s.withStation line address fun ix => s.takeHostOrder ix .send p payload (blocksFor payload.length)
  | _ => (s, refuse .badFormat)

/-- SEND (R85 to R87). -/
def execSend (tag : Octet) (body : List Octet) (s : State) : Host.Outcome State Fault Refusal :=
  .next (s.serve ⟨0x30, tag, body⟩ (sendOwner body))

/-- What FETCH answers (R85, R87). -/
def fetchOwner (body : List Octet) (s : State) : State × Answer :=
  match body with
  | [line, address, priority, reserved] =>
      if reserved != 0 then (s, refuse .badFormat) else
      match priorityOf priority with
      | none => (s, refuse .badValue)
      | some p => s.withStation line address fun ix => s.takeHostOrder ix .fetch p [] 4
  | _ => (s, refuse .badFormat)

/-- FETCH (R85 to R87). -/
def execFetch (tag : Octet) (body : List Octet) (s : State) : Host.Outcome State Fault Refusal :=
  .next (s.serve ⟨0x31, tag, body⟩ (fetchOwner body))

/-- The engine after a cancel at once (R33, R49, R100): from BACKOFF it goes to IDLE with its busy delay stopped; elsewhere it
stays in its state. The guard keeps running. -/
def LineEngine.cancelledAtOnce (e : LineEngine) : LineEngine :=
  if e.state = .backoff then { e with state := .idle, busyRunning := false, busyLeft := 0 } else e

/-- CANCEL of an order, by its state and its engine's (R100, R101). -/
def State.cancelOrder (s : State) (r : OrderRecord) : State × Answer :=
  if r.state = .queued then
    ((s.completeOrder r.number (.unsent .cancelled)).selectWork r.line, accept [OrderKind.code r.kind, cancelTiming true])
  else if (s.engine r.line).state = .sending || (s.engine r.line).state = .awaiting then
    (s.updateOrder r.number fun r => { r with cancelFlag := true }, accept [OrderKind.code r.kind, cancelTiming false])
  else
    (((s.onEngine r.line LineEngine.cancelledAtOnce).endTransaction r.line .cancelled false false).selectWork r.line,
     accept [OrderKind.code r.kind, cancelTiming true])

/-- Every line's engine is told of a change to its queues (R83). -/
def State.selectAll (s : State) : State :=
  allLines.foldl (fun s l => s.selectWork l) s

/-- CANCEL of a delivery (R131, R132): AT ONCE when no step of it is in flight. -/
def State.cancelNumberedDelivery (s : State) (d : Delivery) : State × Answer :=
  if d.cancelling then (s, accept [deliveryKindCode, cancelTiming false])
  else ((s.cancelDelivery d.number).selectAll, accept [deliveryKindCode, cancelTiming (!s.anyStep d.number)])

/-- What CANCEL answers (R82, R100, R131). -/
def cancelOwner (body : List Octet) (s : State) : State × Answer :=
  match body with
  | [high, low] =>
      match s.findOrder (wordOf high low), s.findDelivery (wordOf high low) with
      | some r, _ => s.cancelOrder r
      | none, some d => s.cancelNumberedDelivery d
      | none, none => (s, refuse .noSuch)
  | _ => (s, refuse .badFormat)

/-- CANCEL (R100, R101, R131, R132). -/
def execCancel (tag : Octet) (body : List Octet) (s : State) : Host.Outcome State Fault Refusal :=
  .next (s.serve ⟨0x32, tag, body⟩ (cancelOwner body))

/-- The queue position of a QUEUED order: the entries ahead of it in its queue (R103). A pass whose step is in flight has
left the queue (R40) [log 14]. -/
def State.queuePosition (s : State) (r : OrderRecord) : Nat :=
  ((s.queue r.line r.priority).takeWhile fun q => !q.named r.number).countP fun q => q.state = .queued

/-- The engine phase of an ACTIVE order (R103, R197). -/
def enginePhase : LineState → Octet
  | .sending => 1
  | .awaiting => 2
  | .backoff => 3
  | .idle => 4
  | _ => 5

/-- The attempts used of a line's transaction in flight (R89). -/
def State.attemptsInFlight (s : State) (l : LineNo) : Nat :=
  match (s.engine l).tx with
  | some t => t.attemptsUsed
  | none => 0

/-- The 16 octets of ORDER QUERY for an order (R103, section 9.3). -/
def State.orderOctets (s : State) (r : OrderRecord) : List Octet :=
  let queued := r.state = .queued
  wordOctets r.number ++ [OrderKind.code r.kind, OrderSource.code r.source, Priority.code r.priority] ++
  identityOctets r.station ++
  [optionalOctet (r.group.map groupOctetOf), OrderState.code r.state,
   if queued then octet (s.queuePosition r) else 0xFF,
   if queued then 0xFF else enginePhase (s.engine r.line).state,
   if queued then 0 else octet (s.attemptsInFlight r.line),
   truth r.cancelFlag, octet r.length, 0]

/-- The 16 octets of ORDER QUERY for a delivery (section 9.3). -/
def deliveryNumberOctets (d : Delivery) : List Octet :=
  wordOctets d.number ++
  [deliveryKindCode, 0xFF, 0xFF, 0xFF, 0xFF, 0xFF, groupOctetOf d.group, OrderState.code .active, 0xFF, 0xFF, 0, 0, 0xFF, 0]

/-- What ORDER QUERY answers (R82, R103). -/
def orderQueryOwner (body : List Octet) (s : State) : State × Answer :=
  match body with
  | [high, low] =>
      match s.findOrder (wordOf high low), s.findDelivery (wordOf high low) with
      | some r, _ => (s, accept (s.orderOctets r))
      | none, some d => (s, accept (deliveryNumberOctets d))
      | none, none => (s, refuse .noSuch)
  | _ => (s, refuse .badFormat)

/-- ORDER QUERY (R103). -/
def execOrderQuery (tag : Octet) (body : List Octet) (s : State) : Host.Outcome State Fault Refusal :=
  .next (s.serve ⟨0x33, tag, body⟩ (orderQueryOwner body))

end Machine

end Sys2Proof
end

