-- ==== Sys2Proof/Machine/GroupRequests.lean ====
section
/-! DEFINITION. The group requests: MEMBER ADD, MEMBER DROP, GROUP SEND and GROUP QUERY (sections 5.2 to 5.6). -/

namespace Sys2Proof

namespace Machine

/-- Accepts the JOIN or LEAVE order of a member (R109, R111): NORMAL, no blocks; the reply carries its number. -/
def State.takeMemberOrder (s : State) (ix : StationIx) (g : GroupNo) (kind : OrderKind) : State × Answer :=
  ((s.acceptOrder (s.hostOrder ix kind .normal (some g) [] 0)).selectWork (s.station ix).line,
   accept (wordOctets s.numberToGive))

/-- The group with a station JOINING (R109): appended at the tail, or a LAPSED member in its own place. -/
def Group.joining (gr : Group) (station : StationRef) : Group :=
  match gr.memberOf station.index with
  | some _ => gr.withState station.index .joining
  | none => { gr with members := gr.members ++ [{ station := station, state := .joining }] }

/-- Steps 7 and 8 of MEMBER ADD (R108): DUPLICATE, then TABLE FULL. -/
def Group.addRefusal (gr : Group) (ix : StationIx) : Option ResultCode :=
  match gr.memberOf ix with
  | some m => if m.state = .lapsed then none else some .duplicate
  | none => if gr.members.length < Config.membersPerGroup then none else some .tableFull

/-- MEMBER ADD from its fourth check on (R108, R109). -/
def State.addMember (s : State) (g : GroupNo) (ix : StationIx) : State × Answer :=
  match s.stationRefusal ix, s.deliveryOf g, (s.group g).addRefusal ix, s.resourceRefusal 1 0 with
  | some code, _, _, _ => (s, refuse code)
  | none, some _, _, _ => (s, refuse .groupBusy)
  | none, none, some code, _ => (s, refuse code)
  | none, none, none, some code => (s, refuse code)
  | none, none, none, none => (s.setGroup g ((s.group g).joining (s.stationRef ix))).takeMemberOrder ix g .join

/-- What MEMBER ADD answers (R108, R109). -/
def memberAddOwner (body : List Octet) (s : State) : State × Answer :=
  match body with
  | [group, line, address] =>
      match groupOf group with
      | some g => s.withStation line address fun ix => s.addMember g ix
      | none => (s, refuse .badValue)
  | _ => (s, refuse .badFormat)

/-- MEMBER ADD (R108, R109). -/
def execMemberAdd (tag : Octet) (body : List Octet) (s : State) : Host.Outcome State Fault Refusal :=
  .next (s.serve ⟨0x40, tag, body⟩ (memberAddOwner body))

/-- MEMBER DROP from its fourth check on (R111): a LAPSED member goes at once, an ACTIVE one becomes LEAVING with a LEAVE
order. -/
def State.dropMember (s : State) (g : GroupNo) (ix : StationIx) : State × Answer :=
  match s.deliveryOf g, (s.group g).memberOf ix with
  | some _, _ => (s, refuse .groupBusy)
  | none, none => (s, refuse .noSuch)
  | none, some m =>
      match m.state with
      | .joining => (s, refuse .state)
      | .leaving => (s, refuse .state)
      | .lapsed => ((s.setGroup g ((s.group g).without ix)).clearLapsed ix g, accept (wordOctets 0))
      | .active =>
          match s.orderRefusal ix 0 with
          | some code => (s, refuse code)
          | none => (s.setGroup g ((s.group g).withState ix .leaving)).takeMemberOrder ix g .leave

/-- What MEMBER DROP answers (R111). -/
def memberDropOwner (body : List Octet) (s : State) : State × Answer :=
  match body with
  | [group, line, address] =>
      match groupOf group with
      | some g => s.withStation line address fun ix => s.dropMember g ix
      | none => (s, refuse .badValue)
  | _ => (s, refuse .badFormat)

/-- MEMBER DROP (R111). -/
def execMemberDrop (tag : Octet) (body : List Octet) (s : State) : Host.Outcome State Fault Refusal :=
  .next (s.serve ⟨0x41, tag, body⟩ (memberDropOwner body))

/-- The starting state of a snapshot member (R117): WAITING when its station is present and its line runs. -/
def State.startingState (s : State) (station : StationRef) : DeliveryMemberState :=
  if (s.station station.index).state.present && (s.engine station.line).running then .waiting else .unreached

/-- The snapshot a delivery of a group would take at this moment (R117). -/
def State.snapshotOf (s : State) (g : GroupNo) : List DeliveryMember :=
  ((s.group g).members.filter fun m => m.state = .active).map fun m =>
    { station := m.station, state := s.startingState m.station, attempts := 0, repaired := false, fate := none }

/-- The lines with a WAITING member, in ascending order (R118). -/
def waitingLines (snapshot : List DeliveryMember) : List LineNo :=
  allLines.filter fun l => snapshot.any fun m => m.station.line = l && m.state = .waiting

/-- The pass of a delivery on a line as it is made (R120). -/
def passRecord (n : Word) (priority : Priority) (l : LineNo) : OrderRecord :=
  { number := n, kind := .groupPass, source := .delivery, priority := priority, line := l, station := none, group := none,
    state := .queued, cancelFlag := false, length := 0, blocks := [], nextStep := .groupData, passStep := none }

/-- The delivery record a GROUP SEND fills (R119). -/
def State.newDelivery (s : State) (g : GroupNo) (priority : Priority) (payload : List Octet) : Delivery :=
  { number := s.numberToGive, group := g, seq := (s.group g).seq + 1, priority := priority, cancelling := false,
    length := payload.length, blocks := s.freeBlocks.take (blocksFor payload.length),
    excluded := (s.group g).members.countP fun m => m.state != .active,
    outstanding := (waitingLines (s.snapshotOf g)).length,
    snapshot := s.snapshotOf g,
    roster := (s.group g).members.map Member.station }

/-- The act of acceptance of a GROUP SEND (R118): number, sequence number, record and payload, passes in line order. -/
def State.acceptDelivery (s : State) (d : Delivery) (payload : List Octet) : State :=
  let t := s.setGroup d.group { s.group d.group with seq := d.seq }
  { t with
    orderCounter := nextNumber d.number
    reserved := s.reserved + 1
    pool := writePayload s.pool d.blocks payload
    deliveries := s.deliveries ++ [d]
    orders := s.orders ++ (waitingLines d.snapshot).map (passRecord d.number d.priority) }

/-- The reply's data of a GROUP SEND (section 9.3). -/
def sentOctets (d : Delivery) : List Octet :=
  wordOctets d.number ++
  [d.seq.zeroExtend 8, octet d.snapshot.length, octet (d.snapshot.countP fun m => m.state = .waiting),
   octet (d.snapshot.countP fun m => m.state = .unreached), octet d.excluded]

/-- GROUP SEND from its third check on (R116). -/
def State.groupRefusal (s : State) (g : GroupNo) (n : Nat) : Option ResultCode :=
  let lines := waitingLines (s.snapshotOf g)
  if (s.deliveryOf g).isSome then some .groupBusy
  else if s.freeDeliveries = 0 then some .noDelivery
  else if (s.snapshotOf g).isEmpty then some .state
  else if lines.isEmpty then some .stationDown
  else s.resourceRefusal lines.length (blocksFor n)

/-- The engines of the lines with a new pass are told (R83, R120). -/
def State.selectLines (s : State) (lines : List LineNo) : State :=
  lines.foldl (fun s l => s.selectWork l) s

/-- GROUP SEND accepted or refused (R116, R118). -/
def State.takeDelivery (s : State) (g : GroupNo) (priority : Priority) (payload : List Octet) : State × Answer :=
  match s.groupRefusal g payload.length with
  | some code => (s, refuse code)
  | none =>
      let d := s.newDelivery g priority payload
      ((s.acceptDelivery d payload).selectLines (waitingLines d.snapshot), accept (sentOctets d))

/-- What GROUP SEND answers (R116, R118). -/
def groupSendOwner (body : List Octet) (s : State) : State × Answer :=
  match body with
  | group :: priority :: reserved :: n :: payload =>
      if reserved != 0 || payload.length != n.toNat then (s, refuse .badFormat) else
      match groupOf group, priorityOf priority with
      | some g, some p => if 119 < n.toNat then (s, refuse .badValue) else s.takeDelivery g p payload
      | _, _ => (s, refuse .badValue)
  | _ => (s, refuse .badFormat)

/-- GROUP SEND (R116 to R119). -/
def execGroupSend (tag : Octet) (body : List Octet) (s : State) : Host.Outcome State Fault Refusal :=
  .next (s.serve ⟨0x42, tag, body⟩ (groupSendOwner body))

/-- One entry of GROUP QUERY (section 9.3) from a station's place in the list and in the snapshot; none when it is in
neither. -/
def groupEntry (member : Option Member) (inDelivery : Option DeliveryMember) : List Octet :=
  let code := (member.map fun m => MemberState.code m.state).getD 0
  match inDelivery, member with
  | some d, some m =>
      StationRef.octets m.station ++
      [(code <<< 4) ||| DeliveryMemberState.code d.state, attemptsOctet d.attempts d.repaired]
  | some d, none =>
      StationRef.octets d.station ++ [DeliveryMemberState.code d.state, attemptsOctet d.attempts d.repaired]
  | none, some m => StationRef.octets m.station ++ [code <<< 4, 0]
  | none, none => []

/-- The entries of GROUP QUERY (section 9.3): while a delivery is in flight, in the order of the list at its acceptance
[log 18]. -/
def groupEntries (gr : Group) (d : Option Delivery) : List (List Octet) :=
  match d with
  | none => gr.members.map fun m => groupEntry (some m) none
  | some d =>
      (d.roster.map fun station =>
        groupEntry (gr.memberOf station.index) (d.snapshot.find? fun m => m.station.index = station.index)).filter
        fun e => !e.isEmpty

/-- The items of a delivery in GROUP QUERY: state, number, priority, passes outstanding, snapshot count (section 9.3). -/
def deliveryOctets : Option Delivery → List Octet
  | some d =>
      (if d.cancelling then 2 else 1) :: wordOctets d.number ++
      [Priority.code d.priority, octet d.outstanding, octet d.snapshot.length]
  | none => [0xFF, 0, 0, 0xFF, 0, 0]

/-- The octets of GROUP QUERY (R114, section 9.3). -/
def State.groupOctets (s : State) (g : GroupNo) : List Octet :=
  let gr := s.group g
  let entries := groupEntries gr (s.deliveryOf g)
  [groupOctetOf g, gr.seq.zeroExtend 8, octet gr.members.length] ++ deliveryOctets (s.deliveryOf g) ++
  [octet entries.length] ++ entries.flatten

/-- What GROUP QUERY answers (R114). -/
def groupQueryOwner (body : List Octet) (s : State) : State × Answer :=
  match body with
  | [group] =>
      match groupOf group with
      | some g => (s, accept (s.groupOctets g))
      | none => (s, refuse .badValue)
  | _ => (s, refuse .badFormat)

/-- GROUP QUERY (R114). -/
def execGroupQuery (tag : Octet) (body : List Octet) (s : State) : Host.Outcome State Fault Refusal :=
  .next (s.serve ⟨0x43, tag, body⟩ (groupQueryOwner body))

end Machine

end Sys2Proof
end

