-- ==== Sys2Proof/Machine/HostLinkEvents.lean ====
section
/-! DEFINITION. The events of the host link: a character received, a gap, the last octet of a frame sent, and a RESTART taking effect; and the RESET input (chapter 8). -/

namespace Sys2Proof

namespace Machine

/-! ## The receiver (section 8.3) -/

/-- A frame discarded by the receiver, with its notice (R173, R175, R176). -/
def State.discard (s : State) (reason : NoticeReason) : State :=
  { s with rx := .hunt }.raiseNotice reason s.rx.tag

/-- The LEN octet (R173): 2 to 142 is kept, any other discards the frame. -/
def State.takeLength (s : State) (len : Octet) : State :=
  if 2 ≤ len.toNat ∧ len.toNat ≤ 142 then { s with rx := .body len [] s.partTime } else s.discard .length

/-- An octet of KIND, TAG and BODY, whose character ends now (R173). -/
def bodyOctet (len : Octet) (got : List Octet) (o : Octet) (now : PartTime) : Receiver :=
  if (got ++ [o]).length = len.toNat then .check len (got ++ [o]) none now else .body len (got ++ [o]) now

/-- The frame that KIND, TAG and BODY spell. -/
def frameOf (got : List Octet) : HostFrame :=
  { kind := got.getD 0 0, tag := got.getD 1 0, body := got.drop 2 }

/-- A frame is judged at its second CRC octet (R175): CHECK, OVERRUN, or queued. -/
def State.judgeFrame (s : State) (len : Octet) (got : List Octet) (received : Word) : State :=
  if crc (len :: got) != received then s.discard .check
  else if Config.inputQueueFrames ≤ s.inputQueue.length then s.discard .overrun
  else { s with rx := .hunt, inputQueue := s.inputQueue ++ [frameOf got] }

/-- A character taken by the receiver according to its state (R173). -/
def State.receive (s : State) (o : Octet) (stopMark : Bool) : State :=
  match s.rx with
  | .hunt => if o = 0xD4 && stopMark then { s with rx := .length s.partTime } else s
  | .length _ => s.takeLength o
  | .body len got _ => { s with rx := bodyOctet len got o s.partTime }
  | .check len got none _ => { s with rx := .check len got (some o) s.partTime }
  | .check len got (some high) _ => s.judgeFrame len got (wordOf high o)

/-- A character of the host link (R173 to R175); while RESTARTING it is discarded (R186). -/
def execHostCharacter (o : Octet) (stopMark : Bool) (s : State) : Host.Outcome State Fault Refusal :=
  .next (s.whenOutOfReset fun s => if s.restarting then s else (s.receive o stopMark).transmit)

/-- The gap inside a frame exceeds 3 character times (R174): the partial frame is discarded with a notice. -/
def execHostGapTimeout (s : State) : Host.Outcome State Fault Refusal :=
  .next (s.whenOutOfReset fun s => s.cutByGap.transmit)

/-! ## The transmitter (section 8.6) -/

/-- The new link rate takes effect as its reply's last octet leaves (R171): the receiver discards a partial frame as one cut
by a gap. The rate in force named again disturbs nothing [log 16]. The model's choice: the notice is queued before the
transmitter chooses at that moment [log 24]. -/
def State.switchRate (s : State) (code : Octet) : State :=
  if code = s.linkRate then s else { s with linkRate := code }.cutByGap

/-- The report of a number becomes SENT, unless a REPORT RESEND was taken during its transmission (R182, R166). -/
def markSent (reports : List Report) (n : Octet) (resent : Bool) : List Report :=
  reports.map fun r => if r.number = n && !resent then { r with sent := true } else r

/-- The holder of a frame is told that its last octet has left (R182). -/
def State.frameSent (s : State) (t : Transmission) : State :=
  match t with
  | .reply r =>
      match r.rate with
      | some code => { s with tx := none }.switchRate code
      | none => { s with tx := none }
  | .notice _ => { s with tx := none }
  | .report n resent => { s with tx := none, reports := markSent s.reports n resent }

/-- The last octet of a frame leaves the host link (R182); the transmitter chooses the next, the reply queue first (R181), a notice that
a change of rate has just raised among them [log 24]. -/
def execHostFrameSent (s : State) : Host.Outcome State Fault Refusal :=
  .next (s.whenOutOfReset fun s =>
    match s.tx with
    | none => s
    | some t => (s.frameSent t).choose false)

/-! ## Reset and restart (sections 8.8, 8.9) -/

/-- Every block in its reset state (R187): the line engines with the FAULT levels of their inputs (R22). The pool's contents
stay, with every block free [log 7]; the commands that wait, and the model's count of open choices, stay as they are. -/
def State.cleared (s : State) : State :=
  { State.reset with
    pending := s.pending, resetAsserted := s.resetAsserted, choices := s.choices, pool := s.pool,
    engines := s.engines.map fun e => LineEngine.reset e.fault,
    reports := [], reportCounter := 0, tx := none }

/-- The part starts from its reset state (R168, R187, R188): part time 0, and PART STARTED is queued as report number 0 and
offered to the idle transmitter at once. -/
def State.restarted (s : State) (cause : StartCause) (rate : Octet) : State :=
  ({ s.cleared with resetAsserted := false, linkRate := rate }.pushReport (.partStarted cause 0) [] 0).transmit

/-- The conditions under which a RESTART takes effect (R186). -/
def State.restartDue (s : State) : Bool :=
  s.restarting && s.inputQueue.isEmpty && s.replyQueue.isEmpty && s.tx.isNone

/-- A RESTART takes effect (R186, R187): the link rate in force is kept. -/
def execRestartEffect (s : State) : Host.Outcome State Fault Refusal :=
  .next (s.whenOutOfReset fun s => if s.restartDue then s.restarted .request s.linkRate else s)

/-- The RESET input becomes asserted (R188): everything is cut and discarded, and the part is held in its reset state, with
PART STARTED still to be queued [log 9]. -/
def execResetAssert (s : State) : Host.Outcome State Fault Refusal :=
  .next { s.cleared with resetAsserted := true }

/-- The RESET input is released (R188). -/
def execResetRelease (s : State) : Host.Outcome State Fault Refusal :=
  .next (if s.resetAsserted then s.restarted .pin 2 else s)

/-! ## Part time (section 8.7) -/

/-- One millisecond of part time (R183); it does not run while the RESET input is asserted (R188) [log 1]. -/
def State.tick (s : State) : State :=
  s.whenOutOfReset (State.elapse 1)

end Machine

end Sys2Proof
end

