-- ==== Sys2Proof/Machine/LineEvents.lean ====
section
/-! DEFINITION. The events of a line's FAULT input, its hold timer, its line clear and its timers (sections 1.7, 1.8, 2.5 to 2.8). -/

namespace Sys2Proof

namespace Machine

/-! ## The FAULT input and the hold (section 2.8) -/

/-- A line reaches OFF at the end of its stop (R28, R46): off cause STOPPED, and the line report is latched. -/
def State.finishStop (s : State) (l : LineNo) : State :=
  (s.onEngine l fun e => e.enterOff .stopped).latchLine l .off .stopped

/-- A line's FAULT input becomes asserted (R46): OFF records the level alone, HELD stays, STOPPING goes OFF, every other state
is held. -/
def State.assertFault (s : State) (l : LineNo) : State :=
  let t := s.onEngine l fun e => { e with fault := true }
  match (s.engine l).state with
  | .off => t
  | .held => t
  | .stopping => t.finishStop l
  | .starting => t.holdLine l
  | .idle => t.holdLine l
  | .sending => t.holdLine l
  | .awaiting => t.holdLine l
  | .backoff => t.holdLine l

/-- FAULT asserted (R46). While the RESET input is asserted the level alone is recorded, for the engines follow it from the
release on (R188) [log 9]. -/
def execFaultAssert (l : LineNo) (s : State) : Host.Outcome State Fault Refusal :=
  .next (if (s.engine l).fault then s
    else if s.resetAsserted then s.onEngine l fun e => { e with fault := true }
    else (s.assertFault l).transmit)

/-- A line's FAULT input becomes released (R47): a HELD engine stops its hold timer, latches RUNNING and sends a line clear; any
other records the level. -/
def State.releaseFault (s : State) (l : LineNo) : State :=
  let t := s.onEngine l fun e => { e with fault := false }
  if (s.engine l).state = .held then
    (t.onEngine l fun e => { e with state := .starting, holdRunning := false, holdLeft := 0 }).latchLine l .running .faultReleased
  else t

/-- FAULT released (R47, R49). -/
def execFaultRelease (l : LineNo) (s : State) : Host.Outcome State Fault Refusal :=
  .next (if !(s.engine l).fault then s
    else if s.resetAsserted then s.onEngine l fun e => { e with fault := false }
    else (s.releaseFault l).transmit)

/-- The hold of a HELD engine expires (R48): OFF with HOLD EXPIRED, the suspended transaction ends LINE FAULT, the queues and
stations follow (R29), and the line report is latched. -/
def State.expireHold (s : State) (l : LineNo) : State :=
  (((s.onEngine l fun e => e.enterOff .holdExpired).endTransaction l .lineFault false false).lineStopped l .lineFault).latchLine
    l .off .holdExpired

/-- HOLD EXPIRY (R48, R49): only where the hold timer runs, and as it reaches the hold limit: what is left of it passes first
(R183) [log 26]. -/
def execHoldExpiry (l : LineNo) (s : State) : Host.Outcome State Fault Refusal :=
  .next (s.whenOutOfReset fun s =>
    if (s.engine l).state = .held && (s.engine l).holdRunning then
      ((s.elapse (s.engine l).holdLeft).expireHold l).transmit
    else s)

/-! ## The end of a line clear (R13, R27, R28, R47) -/

/-- The poll cycle as a line clear ends: a cycle that waits for its start begins, with the count kept (R27, R47); otherwise
the cycle goes on where it stood, its floor timer running when its end lies ahead (R47). -/
def LineEngine.cycleAfterClear (e : LineEngine) (now : PartTime) : LineEngine :=
  if e.cycleAwaited then { e.startCycle now with cycleAwaited := false }
  else { e with floorRunning := e.cycleState = .complete && 0 < e.floorLeft }

/-- The engine leaves STARTING (R27, R47): a suspended transaction is resumed with a fresh attempt; else IDLE. -/
def LineEngine.leaveStarting (e : LineEngine) (now : PartTime) : LineEngine :=
  match e.tx with
  | some _ => { (e.cycleAfterClear now).suspend false with state := .sending }
  | none => { e.cycleAfterClear now with state := .idle }

/-- LINE CLEAR END (R13, R27, R28, R47). -/
def execLineClearEnd (l : LineNo) (s : State) : Host.Outcome State Fault Refusal :=
  .next (s.whenOutOfReset fun s =>
    match (s.engine l).state with
    | .starting => ((s.onEngine l fun e => e.leaveStarting s.partTime).selectWork l).transmit
    | .stopping => (s.finishStop l).transmit
    | _ => s)

/-! ## Timers -/

/-- The busy delay ends (R33): the next attempt begins once the guard has passed too. -/
def LineEngine.busyDelayEnds (e : LineEngine) : LineEngine :=
  { e with busyRunning := false, busyLeft := 0, state := if e.guardRunning then .backoff else .sending }

/-- BUSY DELAY EXPIRY (R33): what is left of the delay passes first (R183) [log 26]. -/
def execBusyDelayExpiry (l : LineNo) (s : State) : Host.Outcome State Fault Refusal :=
  .next (s.whenOutOfReset fun s =>
    if (s.engine l).state = .backoff && (s.engine l).busyRunning then
      (s.elapse (s.engine l).busyLeft).onEngine l LineEngine.busyDelayEnds
    else s)

/-- The guard ends (R15, R32, R33): the next attempt of a transaction in flight begins, in BACKOFF once the busy delay is over. -/
def LineEngine.guardEnds (e : LineEngine) : LineEngine :=
  { e with
    guardRunning := false
    state :=
      if e.state = .idle && e.tx.isSome then .sending
      else if e.state = .backoff && !e.busyRunning then .sending
      else e.state }

/-- GUARD EXPIRY (R15): the next attempt, or work selection (R38). -/
def execGuardExpiry (l : LineNo) (s : State) : Host.Outcome State Fault Refusal :=
  .next (s.whenOutOfReset fun s =>
    if (s.engine l).guardRunning then ((s.onEngine l LineEngine.guardEnds).selectWork l).transmit else s)

/-- The cycle floor is reached (R44, R45): the next cycle begins when the poll list holds a station. -/
def State.floorEnds (s : State) (l : LineNo) : State :=
  let t := s.onEngine l fun e => { e with floorRunning := false, floorLeft := 0 }
  if (t.engine l).state.cycles && t.cycleMayBegin l then t.onEngine l fun e => e.nextCycle t.partTime else t

/-- CYCLE FLOOR EXPIRY (R44, R45): what is left of the floor passes first (R183) [log 26]; then work selection, where the engine
waits. -/
def execCycleFloorExpiry (l : LineNo) (s : State) : Host.Outcome State Fault Refusal :=
  .next (s.whenOutOfReset fun s =>
    if (s.engine l).floorRunning then (((s.elapse (s.engine l).floorLeft).floorEnds l).selectWork l).transmit else s)

end Machine

end Sys2Proof
end

