-- ==== Sys2Proof/Machine/LineRequests.lean ====
section
/-! DEFINITION. The line requests LINE SET, LINE START, LINE STOP and LINE STATUS (sections 2.3, 2.4, 2.9). -/

namespace Sys2Proof

namespace Machine

/-- What LINE SET answers (R26): line, then state, then ranges; an accepted one replaces all eight parameters. -/
def lineSetOwner (body : List Octet) (s : State) : State × Answer :=
  match body with
  | [line, rate, window, retryLimit, missLimit, guard, busyDelay, cycleFloor, holdLimit] =>
      match lineOf line with
      | none => (s, refuse .badValue)
      | some l =>
          let p : LineParams :=
            { rate := rate, window := window, retryLimit := retryLimit, missLimit := missLimit, guard := guard,
              busyDelay := busyDelay, cycleFloor := cycleFloor, holdLimit := holdLimit }
          if (s.engine l).state != .off then (s, refuse .state)
          else if !p.inRange then (s, refuse .badValue)
          else (s.onEngine l fun e => { e with params := p }, accept [])
  | _ => (s, refuse .badFormat)

/-- LINE SET (R26). -/
def execLineSet (tag : Octet) (body : List Octet) (s : State) : Host.Outcome State Fault Refusal :=
  .next (s.serve ⟨0x10, tag, body⟩ (lineSetOwner body))

/-- The engine as a LINE START leaves it before its line clear (R27): cursor at the start, previous work NOT POLL, and its
poll cycle still to begin. -/
def LineEngine.started (e : LineEngine) : LineEngine :=
  { e with cursor := 0, previousPoll := false, cycleAwaited := true }

/-- Starts an OFF line (R27): a line clear with the FAULT input released, HELD with it asserted. -/
def State.startLine (s : State) (l : LineNo) : State :=
  let t := s.onEngine l LineEngine.started
  if (s.engine l).fault then t.holdLine l else t.onEngine l fun e => { e with state := .starting }

/-- What LINE START answers (R27). -/
def lineStartOwner (body : List Octet) (s : State) : State × Answer :=
  match body with
  | [line] =>
      match lineOf line with
      | none => (s, refuse .badValue)
      | some l => if (s.engine l).state != .off then (s, refuse .state) else (s.startLine l, accept [])
  | _ => (s, refuse .badFormat)

/-- LINE START (R27). -/
def execLineStart (tag : Octet) (body : List Octet) (s : State) : Host.Outcome State Fault Refusal :=
  .next (s.serve ⟨0x11, tag, body⟩ (lineStartOwner body))

/-- The stop of a line that goes OFF at once (R28): its transaction ends ABORTED, its queues and stations follow (R29), and
the line report is latched [log 13]. -/
def State.stopAtOnce (s : State) (l : LineNo) : State :=
  (((s.onEngine l fun e => e.enterOff .stopped).endTransaction l .aborted false false).lineStopped l .lineStopped).latchLine
    l .off .stopped

/-- The stop of a line that drives a frame or a line clear (R28): STOPPING until the line clear ends. -/
def State.stopDriving (s : State) (l : LineNo) : State :=
  ((s.onEngine l LineEngine.enterStopping).endTransaction l .aborted false false).lineStopped l .lineStopped

/-- LINE STOP by the engine's state (R28); an engine in STOPPING is left as it is. -/
def State.stopLine (s : State) (l : LineNo) : State :=
  match (s.engine l).state with
  | .off => s
  | .stopping => s
  | .sending => s.stopDriving l
  | .starting => s.stopDriving l
  | .awaiting => s.stopAtOnce l
  | .backoff => s.stopAtOnce l
  | .idle => s.stopAtOnce l
  | .held => s.stopAtOnce l

/-- What LINE STOP answers (R28). -/
def lineStopOwner (body : List Octet) (s : State) : State × Answer :=
  match body with
  | [line] =>
      match lineOf line with
      | none => (s, refuse .badValue)
      | some l => if (s.engine l).state = .off then (s, refuse .state) else (s.stopLine l, accept [])
  | _ => (s, refuse .badFormat)

/-- LINE STOP (R28, R29). -/
def execLineStop (tag : Octet) (body : List Octet) (s : State) : Host.Outcome State Fault Refusal :=
  .next (s.serve ⟨0x12, tag, body⟩ (lineStopOwner body))

/-- The eight parameters in the order of LINE SET (section 9.3). -/
def paramOctets (p : LineParams) : List Octet :=
  [p.rate, p.window, p.retryLimit, p.missLimit, p.guard, p.busyDelay, p.cycleFloor, p.holdLimit]

/-- The six statistics, two octets each (section 9.3). -/
def LineStats.octets (c : LineStats) : List Octet :=
  countOctets c.transactions ++ countOctets c.retryAttempts ++ countOctets c.corruptFrames ++
  countOctets c.noReplyAttempts ++ countOctets c.strayFrames ++ countOctets c.breaks

/-- The transaction in flight in LINE STATUS: kind, target, attempts used, suspended (section 9.3). The model's choice: the suspended
octet is 0 where no transaction is in flight [log 25]. -/
def transactionOctets : Option Transaction → List Octet
  | some t => [TxKind.code t.kind, t.target, octet t.attemptsUsed, truth t.suspended]
  | none => [0xFF, 0xFF, 0, 0]

/-- The 35 octets of LINE STATUS (R51, section 9.3). -/
def State.lineStatusOctets (s : State) (l : LineNo) : List Octet :=
  let e := s.engine l
  [LineState.code e.state, truth e.fault, OffCause.code e.offCause] ++ paramOctets e.params ++ wordOctets e.cycleCount ++
  [e.cursor, CycleState.code e.cycleState] ++ transactionOctets e.tx ++
  [octet (s.queue l .urgent).length, octet (s.queue l .normal).length, octet (s.pollListLength l)] ++
  LineStats.octets e.stats ++ [truth e.latch.isSome]

/-- What LINE STATUS answers (R51); an unnamed option bit is a format error (R190). -/
def lineStatusOwner (body : List Octet) (s : State) : State × Answer :=
  match body with
  | [line, options] =>
      if options &&& 0xFE != 0 then (s, refuse .badFormat) else
      match lineOf line with
      | none => (s, refuse .badValue)
      | some l =>
          (if options.getLsbD 0 then s.onEngine l fun e => { e with stats := LineStats.zero } else s,
           accept (s.lineStatusOctets l))
  | _ => (s, refuse .badFormat)

/-- LINE STATUS (R51). -/
def execLineStatus (tag : Octet) (body : List Octet) (s : State) : Host.Outcome State Fault Refusal :=
  .next (s.serve ⟨0x13, tag, body⟩ (lineStatusOwner body))

end Machine

end Sys2Proof
end

