-- ==== Sys2Proof/Machine/PartRequests.lean ====
section
/-! DEFINITION. The part-level requests IDENTIFY, PART STATUS, SET LINK RATE and RESTART, and the frame of an unknown KIND (sections 8.1, 8.5, 8.8). -/

namespace Sys2Proof

namespace Machine

/-- What IDENTIFY answers (R184). -/
def identifyOwner (body : List Octet) (s : State) : State × Answer :=
  match body with
  | [] => (s, accept Config.identity)
  | _ => (s, refuse .badFormat)

/-- IDENTIFY (R184): the fixed codes and capacities. -/
def execIdentify (tag : Octet) (body : List Octet) (s : State) : Host.Outcome State Fault Refusal :=
  .next (s.serve ⟨0x01, tag, body⟩ (identifyOwner body))

/-- The values of PART STATUS as they stand (R185, R169). -/
def State.partStatusOctets (s : State) : List Octet :=
  timeOctets s.partTime ++
  [octet s.freeRecords, octet s.freeBlocks.length, octet s.freeSlots, octet s.reserved, octet s.sentCount, s.reportCounter,
   octet s.freeDeliveries]

/-- What PART STATUS answers (R185). -/
def partStatusOwner (body : List Octet) (s : State) : State × Answer :=
  match body with
  | [] => (s, accept s.partStatusOctets)
  | _ => (s, refuse .badFormat)

/-- PART STATUS (R185). -/
def execPartStatus (tag : Octet) (body : List Octet) (s : State) : Host.Outcome State Fault Refusal :=
  .next (s.serve ⟨0x02, tag, body⟩ (partStatusOwner body))

/-- What SET LINK RATE answers (R171): the reply brings the new rate when its last octet leaves. -/
def setLinkRateOwner (body : List Octet) (s : State) : State × Answer :=
  match body with
  | [code] =>
      if code.toNat ≤ 5 then (s, { code := .ok, data := [s.linkRate, code], rate := some code })
      else (s, refuse .badValue)
  | _ => (s, refuse .badFormat)

/-- SET LINK RATE (R171). -/
def execSetLinkRate (tag : Octet) (body : List Octet) (s : State) : Host.Outcome State Fault Refusal :=
  .next (s.serve ⟨0x03, tag, body⟩ (setLinkRateOwner body))

/-- What RESTART answers (R186): with scope PART the request unit enters RESTARTING and the receiver drops its partial
frame without a notice. -/
def restartOwner (body : List Octet) (s : State) : State × Answer :=
  match body with
  | [scope] =>
      if scope = 1 then ({ s with restarting := true, rx := .hunt }, accept []) else (s, refuse .badValue)
  | _ => (s, refuse .badFormat)

/-- RESTART (R186). -/
def execRestart (tag : Octet) (body : List Octet) (s : State) : Host.Outcome State Fault Refusal :=
  .next (s.serve ⟨0x04, tag, body⟩ (restartOwner body))

/-- A frame whose KIND names no request (R192): UNKNOWN KIND, whatever its body. A KIND that names a request is not this
command's [log 3]. -/
def execUnknownKind (kind tag : Octet) (body : List Octet) (s : State) : Host.Outcome State Fault Refusal :=
  if requestKinds.contains kind then .next s
  else .next (s.serve ⟨kind, tag, body⟩ fun t => (t, refuse .unknownKind))

end Machine

end Sys2Proof
end

