-- ==== Sys2Proof/Machine/ReportRequests.lean ====
section
/-! DEFINITION. The report requests REPORT CONFIRM and REPORT RESEND (section 7.5). -/

namespace Sys2Proof

namespace Machine

/-- How many reports stand in the list up to and with the SENT report of a number; absent when no SENT report has it (R165). -/
def confirmedCount (reports : List Report) (n : Octet) : Option Nat :=
  (reports.findIdx? fun r => r.number = n && r.sent).map (· + 1)

/-- The report list without the SENT reports among its first k (R165). -/
def withoutConfirmed (reports : List Report) (k : Nat) : List Report :=
  ((reports.take k).filter fun r => !r.sent) ++ reports.drop k

/-- Frees a confirmed SENT report and every SENT report ahead of it, then draws latched sources into the freed slots (R165,
R161). -/
def State.confirm (s : State) (k : Nat) : State :=
  { s with reports := withoutConfirmed s.reports k }.draw

/-- What REPORT CONFIRM answers (R165): the reports freed, and those SENT after the freeing. -/
def reportConfirmOwner (body : List Octet) (s : State) : State × Answer :=
  match body with
  | [n] =>
      match confirmedCount s.reports n with
      | none => (s, refuse .badValue)
      | some k =>
          (s.confirm k,
           accept [octet ((s.reports.take k).countP Report.sent), octet ((withoutConfirmed s.reports k).countP Report.sent)])
  | _ => (s, refuse .badFormat)

/-- REPORT CONFIRM (R165). -/
def execReportConfirm (tag : Octet) (body : List Octet) (s : State) : Host.Outcome State Fault Refusal :=
  .next (s.serve ⟨0x60, tag, body⟩ (reportConfirmOwner body))

/-- A report in transmission when a REPORT RESEND is taken will stay QUEUED (R166). -/
def Transmission.resend : Transmission → Transmission
  | .report n _ => .report n true
  | .reply r => .reply r
  | .notice n => .notice n

/-- Every SENT report returns to QUEUED (R166). -/
def State.resend (s : State) : State :=
  { s with reports := s.reports.map fun r => { r with sent := false }, tx := s.tx.map Transmission.resend }

/-- What REPORT RESEND answers (R166): the reports returned. -/
def reportResendOwner (body : List Octet) (s : State) : State × Answer :=
  match body with
  | [] => (s.resend, accept [octet s.sentCount])
  | _ => (s, refuse .badFormat)

/-- REPORT RESEND (R166). -/
def execReportResend (tag : Octet) (body : List Octet) (s : State) : Host.Outcome State Fault Refusal :=
  .next (s.serve ⟨0x61, tag, body⟩ (reportResendOwner body))

end Machine

end Sys2Proof
end

