-- ==== Sys2Proof/Machine/WatchRequests.lean ====
section
/-! DEFINITION. The watch requests: WATCH SET, WATCH CLEAR, WATCH REARM and WATCH QUERY (sections 6.1, 6.4). -/

namespace Sys2Proof

namespace Machine

/-- The FREE watch entry of lowest number (R135). -/
def State.freeWatchEntry (s : State) : Option WatchNo :=
  allWatches.find? fun w => (s.watch w).state = .free

/-- The entry WATCH SET makes (R135). -/
def armedWatch (station : StationRef) (conditions : Vector Condition 16) (combine : Combine) (oneShot : Bool) : Watch :=
  { state := .armed, station := some station, conditions := conditions, combine := combine, oneShot := oneShot, hit := none }

/-- WATCH SET from its fourth check on (R135). -/
def State.setWatchOn (s : State) (ix : StationIx) (conditions : Vector Condition 16) (combine : Combine) (oneShot : Bool) :
    State × Answer :=
  if (s.station ix).state = .retiring then (s, refuse .state) else
  match s.freeWatchEntry with
  | none => (s, refuse .tableFull)
  | some w => (s.setWatch w (armedWatch (s.stationRef ix) conditions combine oneShot), accept [octet w.val])

/-- What WATCH SET answers (R135): the sixteen conditions come in bit order from bit 15 (R194). -/
def watchSetOwner (body : List Octet) (s : State) : State × Answer :=
  match body with
  | line :: address :: rest =>
      if rest.length != 18 then (s, refuse .badFormat) else
      match conditionsOf (rest.take 16), combineOf (rest.getD 16 0), truthOf (rest.getD 17 0) with
      | some conditions, some combine, some oneShot =>
          s.withStation line address fun ix => s.setWatchOn ix conditions combine oneShot
      | _, _, _ => (s, refuse .badValue)
  | _ => (s, refuse .badFormat)

/-- WATCH SET (R135). -/
def execWatchSet (tag : Octet) (body : List Octet) (s : State) : Host.Outcome State Fault Refusal :=
  .next (s.serve ⟨0x50, tag, body⟩ (watchSetOwner body))

/-- What WATCH CLEAR answers (R144): the state the entry had. -/
def watchClearOwner (body : List Octet) (s : State) : State × Answer :=
  match body with
  | [number] =>
      match watchOf number with
      | none => (s, refuse .badValue)
      | some w =>
          if (s.watch w).state = .free then (s, refuse .noSuch)
          else (s.freeWatch w, accept [WatchState.code (s.watch w).state])
  | _ => (s, refuse .badFormat)

/-- WATCH CLEAR (R144). -/
def execWatchClear (tag : Octet) (body : List Octet) (s : State) : Host.Outcome State Fault Refusal :=
  .next (s.serve ⟨0x51, tag, body⟩ (watchClearOwner body))

/-- WATCH REARM's effect by the entry's state (R143): an ARMED entry is left as it is. -/
def State.rearmWatch (s : State) (w : WatchNo) : State :=
  if (s.watch w).state = .armed then s
  else (s.setWatch w { s.watch w with state := .armed, hit := none }).dropSource (.watch w)

/-- What WATCH REARM answers (R143): the state the entry had. -/
def watchRearmOwner (body : List Octet) (s : State) : State × Answer :=
  match body with
  | [number] =>
      match watchOf number with
      | none => (s, refuse .badValue)
      | some w =>
          if (s.watch w).state = .free then (s, refuse .noSuch)
          else (s.rearmWatch w, accept [WatchState.code (s.watch w).state])
  | _ => (s, refuse .badFormat)

/-- WATCH REARM (R143). -/
def execWatchRearm (tag : Octet) (body : List Octet) (s : State) : Host.Outcome State Fault Refusal :=
  .next (s.serve ⟨0x52, tag, body⟩ (watchRearmOwner body))

/-- The hit fields in WATCH QUERY (section 9.3); only a PENDING entry has them. -/
def hitOctets : Option Hit → List Octet
  | some h =>
      optionalWord h.previous ++ wordOctets h.matching ++ wordOctets h.latest ++ [octet h.repeats] ++ timeOctets h.time
  | none => []

/-- The 2, 23 or 35 octets of WATCH QUERY (R145, section 9.3). -/
def State.watchOctets (s : State) (w : WatchNo) : List Octet :=
  let e := s.watch w
  [octet w.val, WatchState.code e.state] ++
  if e.state = .free then []
  else
    identityOctets e.station ++ conditionOctets e.conditions ++ [Combine.code e.combine, truth e.oneShot] ++
    hitOctets e.hit

/-- What WATCH QUERY answers (R145). -/
def watchQueryOwner (body : List Octet) (s : State) : State × Answer :=
  match body with
  | [number] =>
      match watchOf number with
      | none => (s, refuse .badValue)
      | some w => (s, accept (s.watchOctets w))
  | _ => (s, refuse .badFormat)

/-- WATCH QUERY (R145). -/
def execWatchQuery (tag : Octet) (body : List Octet) (s : State) : Host.Outcome State Fault Refusal :=
  .next (s.serve ⟨0x53, tag, body⟩ (watchQueryOwner body))

end Machine

end Sys2Proof
end

