-- ==== Sys2Proof/Machine/Dispatch.lean ====
section
/-! DEFINITION. The effect of each command on everything but the queue: one arm per constructor of Instr. -/

namespace Sys2Proof

namespace Machine

def exec (i : Instr) (s : State) : Host.Outcome State Fault Refusal :=
  match i with
  -- Part-level requests
  | .identify tag body => Sys2Proof.Machine.execIdentify tag body s
  | .partStatus tag body => Sys2Proof.Machine.execPartStatus tag body s
  | .setLinkRate tag body => Sys2Proof.Machine.execSetLinkRate tag body s
  | .restart tag body => Sys2Proof.Machine.execRestart tag body s
  -- Line requests
  | .lineSet tag body => Sys2Proof.Machine.execLineSet tag body s
  | .lineStart tag body => Sys2Proof.Machine.execLineStart tag body s
  | .lineStop tag body => Sys2Proof.Machine.execLineStop tag body s
  | .lineStatus tag body => Sys2Proof.Machine.execLineStatus tag body s
  -- Station requests
  | .stationAdd tag body => Sys2Proof.Machine.execStationAdd tag body s
  | .stationRemove tag body => Sys2Proof.Machine.execStationRemove tag body s
  | .stationSuspend tag body => Sys2Proof.Machine.execStationSuspend tag body s
  | .stationResume tag body => Sys2Proof.Machine.execStationResume tag body s
  | .stationSet tag body => Sys2Proof.Machine.execStationSet tag body s
  | .stationQuery tag body => Sys2Proof.Machine.execStationQuery tag body s
  -- Order requests
  | .send tag body => Sys2Proof.Machine.execSend tag body s
  | .fetch tag body => Sys2Proof.Machine.execFetch tag body s
  | .cancel tag body => Sys2Proof.Machine.execCancel tag body s
  | .orderQuery tag body => Sys2Proof.Machine.execOrderQuery tag body s
  -- Group requests
  | .memberAdd tag body => Sys2Proof.Machine.execMemberAdd tag body s
  | .memberDrop tag body => Sys2Proof.Machine.execMemberDrop tag body s
  | .groupSend tag body => Sys2Proof.Machine.execGroupSend tag body s
  | .groupQuery tag body => Sys2Proof.Machine.execGroupQuery tag body s
  -- Watch requests
  | .watchSet tag body => Sys2Proof.Machine.execWatchSet tag body s
  | .watchClear tag body => Sys2Proof.Machine.execWatchClear tag body s
  | .watchRearm tag body => Sys2Proof.Machine.execWatchRearm tag body s
  | .watchQuery tag body => Sys2Proof.Machine.execWatchQuery tag body s
  -- Report requests
  | .reportConfirm tag body => Sys2Proof.Machine.execReportConfirm tag body s
  | .reportResend tag body => Sys2Proof.Machine.execReportResend tag body s
  -- An unknown KIND
  | .unknownKind kind tag body => Sys2Proof.Machine.execUnknownKind kind tag body s
  -- Host link events
  | .hostCharacter octet stopMark => Sys2Proof.Machine.execHostCharacter octet stopMark s
  | .hostGapTimeout => Sys2Proof.Machine.execHostGapTimeout s
  | .hostFrameSent => Sys2Proof.Machine.execHostFrameSent s
  -- Restart and reset
  | .restartEffect => Sys2Proof.Machine.execRestartEffect s
  | .resetAssert => Sys2Proof.Machine.execResetAssert s
  | .resetRelease => Sys2Proof.Machine.execResetRelease s
  -- Line events
  | .faultAssert line => Sys2Proof.Machine.execFaultAssert line s
  | .faultRelease line => Sys2Proof.Machine.execFaultRelease line s
  | .holdExpiry line => Sys2Proof.Machine.execHoldExpiry line s
  | .lineClearEnd line => Sys2Proof.Machine.execLineClearEnd line s
  -- Drop line events
  | .dropFrameEnd line => Sys2Proof.Machine.execDropFrameEnd line s
  | .replyCharacter line c => Sys2Proof.Machine.execReplyCharacter line c s
  | .strayCharacter line c => Sys2Proof.Machine.execStrayCharacter line c s
  | .replyWindowExpiry line receiving => Sys2Proof.Machine.execReplyWindowExpiry line receiving s
  | .replyGapTimeout line => Sys2Proof.Machine.execReplyGapTimeout line s
  | .corruptQuietEnd line => Sys2Proof.Machine.execCorruptQuietEnd line s
  -- Timers
  | .busyDelayExpiry line => Sys2Proof.Machine.execBusyDelayExpiry line s
  | .guardExpiry line => Sys2Proof.Machine.execGuardExpiry line s
  | .cycleFloorExpiry line => Sys2Proof.Machine.execCycleFloorExpiry line s

end Machine

end Sys2Proof
end

