-- ==== Sys2Proof/Machine/Signal.lean ====
section
/-! DEFINITION. The links bit by bit, as functions of the state: what a drop line drives, its receiver, the host link's receiver, and the rates with every duration counted in them (R1 to R3, R13 to R18, R170, R171, R174). A level is a Bool, true for mark, and a bit of 1 is mark [log 17]. -/

namespace Sys2Proof

namespace Machine

/-! ## What the part sends (R1, R13) -/

/-- The 11 bits of a drop-line character in the order they are sent: start bit, octet, mark bit, stop bit (R1). -/
def characterBits (o : Octet) (header : Bool) : List Bool :=
  false :: (List.range 8).map o.getLsbD ++ [header, true]

/-- The characters of a frame: each octet with its mark bit, which is 1 in the first alone (R1, R5). -/
def DropFrame.characters (f : DropFrame) : List (Octet × Bool) :=
  f.octets.mapIdx fun place o => (o, place = 0)

/-- The bits of a frame, its characters without a gap (R1). -/
def DropFrame.bits (f : DropFrame) : List Bool :=
  f.characters.flatMap fun c => characterBits c.1 c.2

/-- A line clear: 24 bit times of space, then 11 of mark (R13). -/
def lineClearBits : List Bool :=
  List.replicate 24 false ++ List.replicate 11 true

/-- What a LINE STOP leaves of a frame: its bits up to the one driven as the cut is taken, then the line clear (R13, R28). -/
def DropFrame.cutBits (f : DropFrame) (driven : Nat) : List Bool :=
  f.bits.take driven ++ lineClearBits

/-- What an engine drives: its transaction's frame in SENDING, a line clear in STARTING and STOPPING, else nothing (R13, R14). -/
def LineEngine.driveBits (e : LineEngine) : List Bool :=
  match e.state, e.tx with
  | .sending, some t => t.frame.bits
  | .starting, _ => lineClearBits
  | .stopping, _ => lineClearBits
  | _, _ => []

/-- The transmit data output `time` bit times into what the engine drives; at mark when it drives nothing (R1). -/
def LineEngine.dataOut (e : LineEngine) (time : Nat) : Bool :=
  e.driveBits.getD time true

/-- The 10 bits of a host link character: start bit, octet, stop bit (R170). -/
def hostCharacterBits (o : Octet) : List Bool :=
  false :: (List.range 8).map o.getLsbD ++ [true]

/-- The host link's transmit data output `time` bit times into its frame; at mark when it sends none (R170). -/
def State.hostDataOut (s : State) (time : Nat) : Bool :=
  (s.sendingOctets.flatMap hostCharacterBits).getD time true

/-! ## A drop line's receiver (R2, R14, R17) -/

/-- The class of a character by its 11 bits as sampled, bit 0 the start bit (R2). -/
def classify (c : BitVec 11) : DropChar :=
  if c = 0 then .breakChar
  else if !c.getLsbD 10 then .framingError
  else if c.getLsbD 9 then .header (c.extractLsb' 1 8)
  else .body (c.extractLsb' 1 8)

/-- What a receiver is doing: it waits for a start bit, takes a character whose start bit began at `start`, or takes no start bit
until the input has been at mark (R2, R14). Times are in bit times at the line's rate. -/
inductive DropReceiver where
  | ready
  | taking (start count : Nat) (bits : BitVec 11)
  | holdOff
  deriving DecidableEq, Repr

/-- A character received, with the time its start bit began and the time its stop bit ended (R2). -/
structure ReceivedChar where
  char : DropChar
  start : Nat
  stop : Nat
  deriving DecidableEq, Repr

/-- The input's level in the bit time that begins at `time` (R2): after a break no start bit is taken until the input has been at
mark for a bit time. -/
def DropReceiver.sample (r : DropReceiver) (time : Nat) (level : Bool) : DropReceiver × Option ReceivedChar :=
  match r with
  | .ready => (if level then .ready else .taking time 1 0, none)
  | .taking start count bits =>
      let all := bits ||| ((BitVec.ofBool level).zeroExtend 11 <<< count)
      if count < 10 then (.taking start (count + 1) all, none)
      else
        (if classify all = .breakChar then .holdOff else .ready, some { char := classify all, start := start, stop := time + 1 })
  | .holdOff => (if level then .ready else .holdOff, none)

/-- A receiver over successive bit times from `time` on: what it is doing after them, and the characters received. -/
def DropReceiver.samples (r : DropReceiver) (time : Nat) : List Bool → DropReceiver × List ReceivedChar
  | [] => (r, [])
  | level :: rest =>
      let next := r.sample time level
      let after := next.1.samples (time + 1) rest
      (after.1, next.2.toList ++ after.2)

/-- A receiver after the RESET input and after RESTART: no character in progress (R2). -/
def DropReceiver.reset : DropReceiver := .ready

/-- A character is in progress: what REPLY WINDOW EXPIRY asks (R16). -/
def DropReceiver.receiving : DropReceiver → Bool
  | .taking _ _ _ => true
  | .ready => false
  | .holdOff => false

/-- A receiver listens in IDLE, AWAITING and BACKOFF: while the driver enable is asserted it disregards its input (R14), and in OFF
and HELD it delivers nothing (R21). -/
def LineEngine.listens (e : LineEngine) : Bool :=
  e.state = .idle || e.state = .awaiting || e.state = .backoff

/-- A line's receiver in one bit time (R2, R14): one that does not listen abandons a character in progress, and a space that began
while it did not listen is no start bit as it resumes. -/
def LineEngine.hear (e : LineEngine) (r : DropReceiver) (time : Nat) (level : Bool) : DropReceiver × Option ReceivedChar :=
  if e.listens then r.sample time level else (if level then .ready else .holdOff, none)

/-- The command that a received character is (R16, R21). -/
def LineEngine.charCommand (e : LineEngine) (l : LineNo) (c : DropChar) : Option Instr :=
  match e.state with
  | .awaiting => some (.replyCharacter l c)
  | .idle => some (.strayCharacter l c)
  | .backoff => some (.strayCharacter l c)
  | _ => none

/-- The gap between two characters in bit times: from the end of the first's stop bit to the second's start bit (R2). -/
def gapBetween (first second : ReceivedChar) : Nat :=
  second.start - first.stop

/-- A gap of more than 2 character times is a failure (R17). -/
def gapFails (gap : Nat) : Bool :=
  2 * 11 < gap

/-! ## The host link's receiver (R170, R171, R174) -/

/-- What the host link's receiver is doing with its input: it waits for a start bit, takes a character, or takes no start bit until
the input has been at mark for a bit time (R174). -/
inductive HostReceiver where
  | ready
  | taking (count : Nat) (bits : BitVec 10)
  | holdOff
  deriving DecidableEq, Repr

/-- The input's level in one bit time (R170, R174): the octet received, with whether its stop bit was mark. A break is an octet of
0x00 with its stop bit at space. -/
def HostReceiver.sample (r : HostReceiver) (level : Bool) : HostReceiver × Option (Octet × Bool) :=
  match r with
  | .ready => (if level then .ready else .taking 1 0, none)
  | .taking count bits =>
      let all := bits ||| ((BitVec.ofBool level).zeroExtend 10 <<< count)
      if count < 9 then (.taking (count + 1) all, none)
      else (if all = 0 then .holdOff else .ready, some (all.extractLsb' 1 8, all.getLsbD 9))
  | .holdOff => (if level then .ready else .holdOff, none)

/-- The receiver over successive bit times: what it is doing after them, and the characters received. -/
def HostReceiver.samples (r : HostReceiver) : List Bool → HostReceiver × List (Octet × Bool)
  | [] => (r, [])
  | level :: rest =>
      let next := r.sample level
      let after := next.1.samples rest
      (after.1, next.2.toList ++ after.2)

/-- A character that has begun is abandoned (R171, R174); what is left of it is no start bit [log 27]. -/
def HostReceiver.abandon : HostReceiver → HostReceiver
  | .taking _ _ => .holdOff
  | .ready => .ready
  | .holdOff => .holdOff

/-- The last octet of a SET LINK RATE reply leaves, and the rate changes with it (R171). -/
def State.rateSwitches (s : State) : Bool :=
  !s.resetAsserted &&
  match s.tx with
  | some (.reply r) => r.rate.any fun code => code != s.linkRate
  | _ => false

/-- What a command does to a character that has begun (R171, R174): a change of the link rate, a RESTART taking effect and the RESET
input each abandon it. -/
def HostReceiver.across (r : HostReceiver) (i : Instr) (s : State) : HostReceiver :=
  match i with
  | .hostFrameSent => if s.rateSwitches then r.abandon else r
  | .restartEffect => if !s.resetAsserted && s.restartDue then r.abandon else r
  | .resetAssert => r.abandon
  | _ => r

/-- A gap inside a host frame of more than 3 character times, in bit times, is a failure (R174). -/
def hostGapFails (gap : Nat) : Bool :=
  3 * 10 < gap

/-- The host link's input: its receiver, and the time the last character ended, in bit times at the link rate (section 8.3). -/
structure HostInput where
  receiver : HostReceiver
  ended : Nat
  deriving DecidableEq, Repr

/-- The input's level in the bit time that begins at `time` (R173, R174), with the command it gives: a character received, or a gap
that exceeds its limit inside a frame before a start bit has begun. The gap after a break is measured from the break's end. -/
def State.hostHear (s : State) (i : HostInput) (time : Nat) (level : Bool) : HostInput × Option Instr :=
  if s.resetAsserted then ({ i with receiver := if level then .ready else .holdOff }, none)
  else
    let next := i.receiver.sample level
    match next.2 with
    | some (o, stopMark) => ({ receiver := next.1, ended := time + 1 }, some (.hostCharacter o stopMark))
    | none =>
        ({ receiver := next.1, ended := if next.1 = .holdOff then time + 1 else i.ended },
         if next.1 = .ready && s.rx != .hunt && hostGapFails (time + 1 - i.ended) then some .hostGapTimeout else none)

/-! ## Rates and durations (R3, R170) -/

/-- The rate of a drop line's rate code, in baud (R3). -/
def dropBaud (code : Octet) : Nat :=
  [9600, 19200, 38400, 57600, 76800, 115200, 230400, 460800].getD code.toNat 0

/-- The rate of a link rate code, in baud (R170). -/
def hostBaud (code : Octet) : Nat :=
  [38400, 57600, 115200, 230400, 460800, 921600].getD code.toNat 0

/-- The periods of CLKIN in a second (00_scope, "Pins, clock and supply"). Every rate of the tables divides it. -/
def clockHz : Nat := 18432000

/-- A line's bit time in periods of CLKIN (R3). -/
def bitTime (p : LineParams) : Nat :=
  clockHz / dropBaud p.rate

/-- A duration of `n` character times in periods of CLKIN: a character time is 11 bit times at the line's rate (R3). -/
def charTimes (p : LineParams) (n : Nat) : Nat :=
  n * (11 * bitTime p)

/-- How long a frame takes to send: 5 + n character times (R5). -/
def frameTime (p : LineParams) (f : DropFrame) : Nat :=
  charTimes p f.octets.length

/-- How long a line clear takes: 35 bit times (R13). -/
def lineClearTime (p : LineParams) : Nat :=
  lineClearBits.length * bitTime p

/-- How long the reply window runs (R16). -/
def windowTime (p : LineParams) : Nat :=
  charTimes p p.window.toNat

/-- How long the guard runs (R15). -/
def guardTime (p : LineParams) : Nat :=
  charTimes p p.guard.toNat

/-- The quiet that ends a corrupt reply (R18), and the longest gap that is no failure (R17). -/
def quietTime (p : LineParams) : Nat :=
  charTimes p 2

/-- The time from the opening header's start bit at which a corrupt reply ends at the latest (R18). -/
def corruptTime (p : LineParams) : Nat :=
  charTimes p 125

/-- A duration of `n` host link character times in periods of CLKIN: 10 bit times each (R170). -/
def hostCharTimes (code : Octet) (n : Nat) : Nat :=
  n * (10 * (clockHz / hostBaud code))

/-- The longest gap inside a host frame that is no failure (R174). -/
def hostGapTime (code : Octet) : Nat :=
  hostCharTimes code 3

/-- A duration in hundredths of a microsecond, to the nearest, as the tables of R3 and R170 give it. -/
def hundredths (periods : Nat) : Nat :=
  (periods * 100000000 + clockHz / 2) / clockHz

end Machine

end Sys2Proof
end

