-- ==== Sys2Proof/Safety.lean ====
section
/-! DEFINITION. The invariants of the part, each a property of one state, and what it means that every step keeps one. -/

namespace Sys2Proof

namespace Machine

/-- Every step that answers a next state keeps the property. -/
def Kept (Inv : State → Prop) : Prop :=
  ∀ s t : State, Inv s → step s = .next t → Inv t

/-- The pool's contents keep their canonical form. -/
def State.PoolCanonical (s : State) : Prop :=
  s.pool.wf = true

/-- Records in use stay within their stores: 40 order records (R79) and 4 delivery records (R119). -/
def State.RecordsBounded (s : State) : Prop :=
  s.orders.length ≤ Config.orderRecords ∧ s.deliveries.length ≤ Config.deliveryRecords

/-- The orders that hold a reservation: every record but the passes (R80). -/
def State.orderReservations (s : State) : Nat :=
  s.orders.countP fun r => r.kind != .groupPass

/-- Every RESERVED slot is tied to one order or one delivery, and the slots stay within their bounds (R156, R157). -/
def State.SlotsAccounted (s : State) : Prop :=
  s.reserved = s.orderReservations + s.deliveries.length ∧ s.reserved ≤ Config.reservationLimit ∧
  s.slotsInUse ≤ Config.reportSlots

/-- No block has two holders, and every held block is a block of the pool (R151). -/
def State.BlocksAccounted (s : State) : Prop :=
  s.heldBlocks.Nodup ∧ ∀ b ∈ s.heldBlocks, b < Config.bufferBlocks

/-- Latched sources wait only while no slot is FREE (R161). -/
def State.DrawsSettled (s : State) : Prop :=
  s.sources ≠ [] → s.freeSlots = 0

/-- A watch entry holds a hit exactly while it is PENDING (R134). -/
def State.HitsPending (s : State) : Prop :=
  ∀ w : WatchNo, ((s.watch w).state = .pending ↔ (s.watch w).hit.isSome = true)

/-- The host link's queues stay within their places: 4 frames of input (R173), 4 reply places (R178), 2 notice places (R176). -/
def State.PlacesBounded (s : State) : Prop :=
  s.inputQueue.length ≤ Config.inputQueueFrames ∧ s.replyPlacesInUse ≤ Config.replyPlaces ∧
  s.noticePlacesInUse ≤ Config.noticePlaces

/-- No two entries that are not FREE carry one line and address (R55). -/
def State.AddressesDistinct (s : State) : Prop :=
  ∀ i j : StationIx, (s.station i).state ≠ .free → (s.station j).state ≠ .free → (s.station i).line = (s.station j).line →
    (s.station i).address = (s.station j).address → i = j

/-- A group's list holds at most 24 members, and no station twice (R105). -/
def State.MembersListed (s : State) : Prop :=
  ∀ g : GroupNo, (s.group g).members.length ≤ Config.membersPerGroup ∧
    ((s.group g).members.map fun m => m.station.index).Nodup

/-- The numbers of the orders, a pass being known by its delivery's (R82). -/
def State.orderNumbers (s : State) : List Word :=
  (s.orders.filter fun r => r.kind != .groupPass).map OrderRecord.number

/-- Orders and deliveries in use have numbers of their own, and neither they nor the counter is 0 (R81). -/
def State.NumbersDistinct (s : State) : Prop :=
  (s.orderNumbers ++ s.deliveries.map Delivery.number).Nodup ∧ 0 ∉ s.orderNumbers ∧ 0 ∉ s.deliveries.map Delivery.number ∧
  s.orderCounter ≠ 0

/-- A pass is QUEUED exactly while it has no step in flight (R40, R120). -/
def State.PassesQueued (s : State) : Prop :=
  ∀ r ∈ s.orders, r.kind = .groupPass → (r.state = .queued ↔ r.passStep = none)

/-- A source's latch is full (R53, R58, R139). -/
def State.latched (s : State) : Source → Prop
  | .station ix => (s.station ix).latch.isSome = true
  | .line l => (s.engine l).latch.isSome = true
  | .watch w => (s.watch w).hit.isSome = true

/-- The pending list holds each latched source once and no other (R159, R160), and an entry FREE or RETIRING has nothing
latched (R54, R72). -/
def State.SourcesLatched (s : State) : Prop :=
  s.sources.Nodup ∧ (∀ x : Source, x ∈ s.sources ↔ s.latched x) ∧
  ∀ ix : StationIx, (s.station ix).state = .free ∨ (s.station ix).state = .retiring → (s.station ix).latch = none

/-- The tables and the pending list are sound. -/
def State.TablesSound (s : State) : Prop :=
  s.AddressesDistinct ∧ s.MembersListed ∧ s.NumbersDistinct ∧ s.PassesQueued ∧ s.SourcesLatched

/-- The report list in order: SENT ahead of QUEUED (R155), at most 8 sent or in transmission (R163), numbers up to the counter
(R158), and a report in transmission, unless a REPORT RESEND was taken meanwhile, the first QUEUED one (R163, R166). -/
def State.ReportsInOrder (s : State) : Prop :=
  (s.reports.Pairwise fun a b => b.sent = true → a.sent = true) ∧ s.windowUsed ≤ Config.sendWindow ∧
  (∀ k r, s.reports[k]? = some r → r.number = s.reportCounter - octet (s.reports.length - k)) ∧
  ∀ n, s.tx = some (.report n false) → ∃ r, s.reports.find? (fun q => !q.sent) = some r ∧ r.number = n

/-- The timers of an engine are stopped (R23). -/
def LineEngine.timersStopped (e : LineEngine) : Prop :=
  e.guardRunning = false ∧ e.busyRunning = false ∧ e.floorRunning = false ∧ e.holdRunning = false

/-- An engine agrees with its state (R23, R31, R33, R46): no transaction and no timer in OFF, no transaction in STOPPING, a
transaction in SENDING, AWAITING and BACKOFF, a reply window or reply exactly in AWAITING, the hold timer only in HELD, the
busy delay only in BACKOFF, and a transaction suspended exactly in HELD and STARTING. Of a busy delay and a hold no more lies ahead
than their parameters say, and nothing where they do not run (R183). -/
def LineEngine.Coherent (e : LineEngine) : Prop :=
  (e.state = .off → e.tx = none ∧ e.timersStopped) ∧
  (e.state = .stopping → e.tx = none) ∧
  (e.state = .sending ∨ e.state = .awaiting ∨ e.state = .backoff → e.tx.isSome = true) ∧
  (e.state = .awaiting ↔ e.reception.isSome = true) ∧
  (e.holdRunning = true → e.state = .held) ∧
  (e.busyRunning = true → e.state = .backoff) ∧
  (∀ t, e.tx = some t → (t.suspended = true ↔ e.state = .held ∨ e.state = .starting)) ∧
  e.busyLeft ≤ e.params.busyDelay.toNat ∧ (e.busyRunning = false → e.busyLeft = 0) ∧
  e.holdLeft ≤ holdTime e.params ∧ (e.holdRunning = false → e.holdLeft = 0)

/-- The engine agrees with its state, and its parameters are in their ranges (R25). -/
def LineEngine.Sound (e : LineEngine) : Prop :=
  e.Coherent ∧ e.params.inRange = true

/-- Every engine is sound. -/
def State.EnginesCoherent (s : State) : Prop :=
  ∀ l : LineNo, (s.engine l).Sound

/-- While the RESET input is asserted the part is held (R188): every line OFF with its driver released, the host link silent
with nothing queued, no order, delivery or report, and part time 0. -/
def State.HeldInReset (s : State) : Prop :=
  s.resetAsserted = true →
    (∀ l : LineNo, (s.engine l).state = .off ∧ (s.engine l).driverEnable = false) ∧ s.tx = none ∧ s.rx = .hunt ∧
    s.inputQueue = [] ∧ s.replyQueue = [] ∧ s.orders = [] ∧ s.deliveries = [] ∧ s.reports = [] ∧ s.partTime = 0

end Machine

end Sys2Proof
end

