-- ==== Sys2Proof/WellFormed.lean ====
section
/-! DEFINITION. Which commands are well formed: a request's frame fits a host frame, and an unknown KIND is no request's. -/

namespace Sys2Proof

/-- A host frame has a BODY of at most 140 octets (section 8.2). -/
def HostFrame.fits (f : HostFrame) : Bool :=
  f.body.length ≤ 140

/-- A command is well formed when its frame, if it has one, fits a host frame (section 8.2), and UNKNOWN_KIND carries no
request's KIND (R192). Line numbers and characters are in range by their types. -/
def Instr.wellFormed (i : Instr) : Bool :=
  (match i.frame with
   | some f => f.fits
   | none => true) &&
  (match i with
   | .unknownKind kind _ _ => !requestKinds.contains kind
   | _ => true)

end Sys2Proof
end

