-- ==== Sys2Proof/Certificates/Slice0/Obligations.lean ====
section
/-! DEFINITION. The statements for the provers, each `Obligations.<Name>`, and the words they are stated in. -/

namespace Sys2Proof

namespace Machine

/-- The request unit takes the frame of the request `i` in `s` and leaves `u` (R178); it is not RESTARTING (R186). -/
def Taken (i : Instr) (s u : State) : Prop :=
  ∃ f : HostFrame, i.frame = some f ∧ s.takeFrame f = some u ∧ u.restarting = false

/-- `u` with the reply to a frame at the tail of its reply queue (R172, R178), after the transmitter's choice (R181). -/
def State.replied (u : State) (f : HostFrame) (code : ResultCode) (data : List Octet) : State :=
  (u.putReply f { code := code, data := data, rate := none }).transmit

/-- `u` after the reply to the request `i`. -/
def State.answering (u : State) (i : Instr) (code : ResultCode) (data : List Octet) : State :=
  match i.frame with
  | some f => u.replied f code data
  | none => u

/-- Commands run one after the other; absent where one of them stops. -/
def execAll : List Instr → State → Option State
  | [], s => some s
  | i :: rest, s =>
      match exec i s with
      | .next t => execAll rest t
      | .fault _ => none
      | .refused _ => none

/-- The body length that R194 fixes for a request; absent for SEND and GROUP SEND, for an unknown KIND and for events. -/
def fixedBodyLength : Instr → Option Nat
  | .identify _ _ => some 0
  | .partStatus _ _ => some 0
  | .setLinkRate _ _ => some 1
  | .restart _ _ => some 1
  | .lineSet _ _ => some 9
  | .lineStart _ _ => some 1
  | .lineStop _ _ => some 1
  | .lineStatus _ _ => some 2
  | .stationAdd _ _ => some 4
  | .stationRemove _ _ => some 2
  | .stationSuspend _ _ => some 2
  | .stationResume _ _ => some 2
  | .stationSet _ _ => some 4
  | .stationQuery _ _ => some 2
  | .fetch _ _ => some 4
  | .cancel _ _ => some 2
  | .orderQuery _ _ => some 2
  | .memberAdd _ _ => some 3
  | .memberDrop _ _ => some 3
  | .groupQuery _ _ => some 1
  | .watchSet _ _ => some 20
  | .watchClear _ _ => some 1
  | .watchRearm _ _ => some 1
  | .watchQuery _ _ => some 1
  | .reportConfirm _ _ => some 1
  | .reportResend _ _ => some 0
  | _ => none

/-- The part as it starts from its reset state (R168, R187, R188): every block in its reset state but for the FAULT levels of
the engines (R22), with PART STARTED in transmission. The pool's contents are kept [log 7], and the model's own `pending` and `choices`. -/
def State.freshStart (s : State) (cause : StartCause) (rate : Octet) : State :=
  { State.reset with
    pending := s.pending, choices := s.choices, pool := s.pool, linkRate := rate, reports := [partStarted cause],
    engines := s.engines.map fun e => LineEngine.reset e.fault }

/-- The entry `ix` is the one not FREE that a request names by line `l` and address `a` (R55, R70). -/
def State.names (s : State) (l : LineNo) (a : Octet) (ix : StationIx) : Prop :=
  1 ≤ a.toNat ∧ a.toNat ≤ 239 ∧ s.findStation l a = some ix

/-- The invariants of the stores together: the pool's form, the records in use, hits only in PENDING watches, and no source
waiting beside a FREE slot. -/
def State.StoresSound (s : State) : Prop :=
  s.PoolCanonical ∧ s.RecordsBounded ∧ s.HitsPending ∧ s.DrawsSettled

/-- The engine as it enters OFF (R23): the cause, no reception and no timer. -/
def LineEngine.stopped (e : LineEngine) (cause : OffCause) : LineEngine :=
  { e with
    state := .off, offCause := cause, reception := none
    guardRunning := false, busyRunning := false, busyLeft := 0, floorRunning := false, holdRunning := false, holdLeft := 0 }

/-- The line's stop reaches its queues and its stations (R29): the urgent queue first, each from its oldest entry to its newest; a pass goes to
the delivery unit, an order ends with the cause. -/
def State.stopReaches (s : State) (l : LineNo) (cause : OrderOutcome) : State :=
  ((s.queue l .urgent ++ s.queue l .normal).foldl
    (fun s r =>
      if r.kind = .groupPass then s.deliveryLineStop r.number l
      else s.completeOrder r.number { outcome := cause, attempts := 0, uncertain := false, lateCancel := false, payload := [] })
    s).stationsLineStop l

end Machine

end Sys2Proof

section Statements

open Sys2Proof Sys2Proof.Machine

/-! ## The queue of commands and the request unit -/

/-- A step takes the command at the front of the queue and runs it on the state with the queue's rest. -/
def Obligations.StepRunsFrontCommand : Prop :=
  ∀ (c : Instr) (rest : List Instr) (s : State), s.pending = c :: rest → step s = exec c { s with pending := rest }

/-- R178, R179, R186 in part: the request unit takes the head of the input queue, and no other, while fewer than 4 reply places are in use; each
request taken is answered by one reply at the reply queue's tail, in RESTARTING with STATE whatever its KIND and format (the model's choice [log 5]); one
with any code but OK carries the code alone and changed nothing. -/
def Obligations.RequestsTakenAndAnswered : Prop :=
  (∀ (s : State) (f : HostFrame) (rest : List HostFrame), s.resetAsserted = false → s.inputQueue = f :: rest →
     (s.replyPlacesInUse < 4 → s.takeFrame f = some { s with inputQueue := rest }) ∧
     (4 ≤ s.replyPlacesInUse → s.takeFrame f = none) ∧
     ∀ g : HostFrame, g ≠ f → s.takeFrame g = none) ∧
  (∀ (i : Instr) (f : HostFrame) (s u : State), i.frame = some f → i.wellFormed = true → s.takeFrame f = some u →
     u.restarting = true → exec i s = .next (u.answering i .state [])) ∧
  (∀ (i : Instr) (f : HostFrame) (s u : State), i.frame = some f → i.wellFormed = true → s.takeFrame f = some u →
     ∃ (v : State) (a : Answer), exec i s = .next (v.putReply f a).transmit ∧ v.replyQueue = u.replyQueue ∧
       (a.code ≠ .ok → v = u ∧ a.data = [] ∧ a.rate = none))

/-- Every command answers a next state and leaves the queue of commands. The model's choice [log 1]: with no command waiting a step is one
millisecond of part time, and nothing while the RESET input is asserted. R183: part time wraps, and the milliseconds left of each cycle floor, busy delay
and hold fall with it, n in n steps, whatever the part time. -/
def Obligations.EveryStepAnswersNext : Prop :=
  (∀ (i : Instr) (s : State), ∃ t, exec i s = .next t ∧ t.pending = s.pending) ∧
  (∀ s : State, s.pending = [] →
     (s.resetAsserted = false →
       step s = .next { s with
         partTime := s.partTime + 1
         engines := s.engines.map fun e =>
           { e with floorLeft := e.floorLeft - 1, busyLeft := e.busyLeft - 1, holdLeft := e.holdLeft - 1 } }) ∧
     (s.resetAsserted = true → step s = .next s)) ∧
  ∀ (s : State) (n : Nat), s.resetAsserted = false →
    State.tick^[n] s = s.elapse n ∧ (s.elapse n).partTime = s.partTime + BitVec.ofNat 32 n ∧
    ∀ l : LineNo, (s.elapse n).engine l =
      { s.engine l with
        floorLeft := (s.engine l).floorLeft - n, busyLeft := (s.engine l).busyLeft - n, holdLeft := (s.engine l).holdLeft - n }

/-- R192: a frame whose KIND is none of the 28 request kinds is answered UNKNOWN KIND, whatever its body, with KIND plus 0x80 modulo 256,
the request's TAG and the result code alone. -/
def Obligations.UnknownKindRefused : Prop :=
  requestKinds.length = 28 ∧ (0x7F : Octet) ∉ requestKinds ∧ (∀ k ∈ requestKinds, k + 0x80 ∉ requestKinds) ∧
  (∀ k ∈ ([0xE0, 0xE1, 0xE2, 0xE3, 0xE4, 0xE5] : List Octet), k ∉ requestKinds) ∧
  ∀ (kind tag : Octet) (body : List Octet) (s u : State), kind ∉ requestKinds → Taken (.unknownKind kind tag body) s u →
    exec (.unknownKind kind tag body) s = .next (u.answering (.unknownKind kind tag body) .unknownKind []) ∧
    ∃ r : Reply, (u.putReply ⟨kind, tag, body⟩ (refuse .unknownKind)).replyQueue = u.replyQueue ++ [.reply r] ∧
      r.frame = { kind := kind + 0x80, tag := tag, body := [2] }

/-- R191, and R190 in part: a body longer or shorter than its kind's length is BAD FORMAT; SEND and GROUP SEND agree with their length octet, and one
above its limit that agrees is BAD VALUE; a reserved octet or an unnamed option bit that is not 0 is BAD FORMAT; a truth field above 1 or a poll class
above 2 is BAD VALUE, in STATION ADD and in STATION SET. -/
def Obligations.BodyFormatsChecked : Prop :=
  ((∀ (i : Instr) (f : HostFrame) (n : Nat) (s u : State), i.frame = some f → fixedBodyLength i = some n →
     f.body.length ≠ n → Taken i s u → exec i s = .next (u.answering i .badFormat [])) ∧
   (∀ (tag : Octet) (body : List Octet) (s u : State), Taken (.send tag body) s u →
     (body.length < 5 ∨ body.length ≠ 5 + (body.getD 4 0).toNat) →
     exec (.send tag body) s = .next (u.answering (.send tag body) .badFormat [])) ∧
   (∀ (tag : Octet) (body : List Octet) (s u : State), Taken (.groupSend tag body) s u →
     (body.length < 4 ∨ body.length ≠ 4 + (body.getD 3 0).toNat) →
     exec (.groupSend tag body) s = .next (u.answering (.groupSend tag body) .badFormat [])) ∧
   (∀ (tag line address priority n : Octet) (payload : List Octet) (s u : State), payload.length = n.toNat → 120 < n.toNat →
     let i := Instr.send tag (line :: address :: priority :: 0 :: n :: payload)
     Taken i s u → exec i s = .next (u.answering i .badValue [])) ∧
   ∀ (tag group priority n : Octet) (payload : List Octet) (s u : State), payload.length = n.toNat → 119 < n.toNat →
     let i := Instr.groupSend tag (group :: priority :: 0 :: n :: payload)
     Taken i s u → exec i s = .next (u.answering i .badValue [])) ∧
  ((∀ (tag line address priority reserved n : Octet) (payload : List Octet) (s u : State), reserved ≠ 0 →
     let i := Instr.send tag (line :: address :: priority :: reserved :: n :: payload)
     Taken i s u → exec i s = .next (u.answering i .badFormat [])) ∧
   (∀ (tag line address priority reserved : Octet) (s u : State), reserved ≠ 0 →
     let i := Instr.fetch tag [line, address, priority, reserved]
     Taken i s u → exec i s = .next (u.answering i .badFormat [])) ∧
   (∀ (tag group priority reserved n : Octet) (payload : List Octet) (s u : State), reserved ≠ 0 →
     let i := Instr.groupSend tag (group :: priority :: reserved :: n :: payload)
     Taken i s u → exec i s = .next (u.answering i .badFormat [])) ∧
   (∀ (tag line options : Octet) (s u : State), 1 < options.toNat →
     let i := Instr.lineStatus tag [line, options]
     Taken i s u → exec i s = .next (u.answering i .badFormat [])) ∧
   ∀ (tag line address pollClass collect : Octet) (s u : State) (i : Instr), 2 < pollClass.toNat ∨ 1 < collect.toNat →
     i = .stationAdd tag [line, address, pollClass, collect] ∨ i = .stationSet tag [line, address, pollClass, collect] →
     Taken i s u → exec i s = .next (u.answering i .badValue []))

/-! ## Part-level requests, restart and reset -/

/-- R184: IDENTIFY answers the fixed codes and capacities and changes nothing; a body that is not empty is BAD FORMAT. -/
def Obligations.IdentifyAnswered : Prop :=
  ∀ (tag : Octet) (s u : State),
    (Taken (.identify tag []) s u →
      exec (.identify tag []) s =
        .next (u.answering (.identify tag []) .ok [0x52, 0x04, 0x16, 1, 4, 96, 16, 24, 32, 40, 4, 160, 48])) ∧
    ∀ body : List Octet, body ≠ [] → Taken (.identify tag body) s u →
      exec (.identify tag body) s = .next (u.answering (.identify tag body) .badFormat [])

/-- R171 in part: an accepted SET LINK RATE answers the code in force and the code requested, and changes no rate yet; a code above 5
is BAD VALUE; another rate takes effect as the reply's last octet leaves, with the receiver in HUNT: a partial frame is cut by a gap, and the model's
choice is that its notice is queued before the transmitter chooses [log 24]. A character that has begun is abandoned, and by the model's choice what is left of
it is no start bit [log 27]. The rate in force named again disturbs nothing, the model's choice too [log 16]. -/
def Obligations.SetLinkRateTakesEffectAtReply : Prop :=
  (∀ (tag code : Octet) (s u : State), Taken (.setLinkRate tag [code]) s u →
    (code.toNat ≤ 5 →
      exec (.setLinkRate tag [code]) s =
        .next (u.putReply ⟨0x03, tag, [code]⟩ { code := .ok, data := [u.linkRate, code], rate := some code }).transmit) ∧
    (5 < code.toNat → exec (.setLinkRate tag [code]) s = .next (u.answering (.setLinkRate tag [code]) .badValue []))) ∧
  ∀ (s : State) (r : Reply) (code : Octet), s.resetAsserted = false → s.tx = some (.reply r) → r.rate = some code →
    (code ≠ s.linkRate → ∃ t, exec .hostFrameSent s = .next t ∧ t.linkRate = code ∧ t.rx = .hunt) ∧
    (code ≠ s.linkRate → s.rx = .hunt →
      exec .hostFrameSent s = .next (({ s with tx := none, linkRate := code } : State).choose false)) ∧
    (∀ len kind tag more ended, code ≠ s.linkRate → s.rx = .body len (kind :: tag :: more) ended →
      exec .hostFrameSent s =
        .next ((({ s with tx := none, linkRate := code, rx := .hunt } : State).raiseNotice .gap tag).choose false)) ∧
    (code = s.linkRate → exec .hostFrameSent s = .next (({ s with tx := none } : State).choose false)) ∧
    ∀ (receiver : HostReceiver), let after := receiver.across .hostFrameSent s
      (code = s.linkRate → after = receiver) ∧
      (code ≠ s.linkRate → (∀ count bits, receiver = .taking count bits → after = .holdOff) ∧
        ((∀ count bits, receiver ≠ .taking count bits) → after = receiver))

/-- R186, R187 in part: a RESTART of scope PART is answered OK, the request unit enters RESTARTING and the receiver's partial frame is gone;
any other scope is BAD VALUE. It takes effect when the input queue and the reply queue are empty and nothing is in transmission: the part
starts afresh with cause REQUEST and the link rate in force. The model's choices: the pool's contents [log 7], and that RESTART EFFECT before it is due
changes nothing [log 3]. -/
def Obligations.RestartAcceptedAndTakesEffect : Prop :=
  (∀ (tag : Octet) (s u : State), Taken (.restart tag [1]) s u →
    exec (.restart tag [1]) s =
      .next (({ u with restarting := true, rx := .hunt } : State).answering (.restart tag [1]) .ok [])) ∧
  (∀ (tag scope : Octet) (s u : State), scope ≠ 1 → Taken (.restart tag [scope]) s u →
    exec (.restart tag [scope]) s = .next (u.answering (.restart tag [scope]) .badValue [])) ∧
  (∀ s : State, s.resetAsserted = false → s.restarting = true → s.inputQueue = [] → s.replyQueue = [] → s.tx = none →
    exec .restartEffect s = .next (s.freshStart .request s.linkRate)) ∧
  ∀ s : State, (s.restarting = false ∨ s.inputQueue ≠ [] ∨ s.replyQueue ≠ [] ∨ s.tx ≠ none) →
    exec .restartEffect s = .next s

/-- R188 in part: RESET takes effect at once and holds the part in its reset state, where only its release and the FAULT inputs act; on
release the part starts afresh with cause PIN, part time 0 and link rate code 2. The model's choices: the pool's contents [log 7], that nothing else acts
while RESET is asserted, and that the report list is empty until the release [log 9]. -/
def Obligations.ResetHoldsAndReleases : Prop :=
  (∀ s : State, ∃ t, exec .resetAssert s = .next t ∧ t.resetAsserted = true ∧ t.HeldInReset ∧
    (∀ l : LineNo, (t.engine l).fault = (s.engine l).fault) ∧ (∀ ix : StationIx, t.station ix = Station.cleared)) ∧
  (∀ s : State, s.resetAsserted = true → exec .resetRelease s = .next (s.freshStart .pin 2)) ∧
  ∀ (i : Instr) (s : State), s.resetAsserted = true → i ≠ .resetAssert → i ≠ .resetRelease →
    (∀ l : LineNo, i ≠ .faultAssert l ∧ i ≠ .faultRelease l) → exec i s = .next s

/-- The state after the RESET input: R22 and R25 (engines), R54 (stations), R104 (orders), R105 and R133 (groups), R134
(watches), R151 (blocks), R168 (reports), R170, R173, R178, R182 (host link) and R183 (part time). -/
def Obligations.StateAfterReset : Prop :=
  let s := State.reset
  (∀ l : LineNo, (s.engine l).state = .off ∧ (s.engine l).params = LineParams.default ∧ (s.engine l).tx = none ∧
    (s.engine l).previousPoll = false ∧ (s.engine l).cycleCount = 0 ∧ (s.engine l).cursor = 0 ∧
    (s.engine l).cycleStart = none ∧ (s.engine l).cycleState = .complete ∧ (s.engine l).timersStopped ∧
    (s.engine l).stats = LineStats.zero ∧ (s.engine l).latch = none ∧ (s.engine l).offCause = .none ∧
    (s.engine l).driverEnable = false) ∧
  (∀ ix : StationIx, s.station ix = Station.cleared) ∧ s.orders = [] ∧ s.orderCounter = 1 ∧
  (∀ g : GroupNo, (s.group g).members = [] ∧ (s.group g).seq = 0 ∧ s.deliveryOf g = none) ∧ s.deliveries = [] ∧
  (∀ w : WatchNo, s.watch w = Watch.cleared) ∧ s.freeBlocks.length = 160 ∧ s.reports = [partStarted .pin] ∧
  s.reserved = 0 ∧ s.freeSlots = 47 ∧ s.reportCounter = 1 ∧ s.sources = [] ∧ s.linkRate = 2 ∧ s.rx = .hunt ∧
  s.inputQueue = [] ∧ s.restarting = false ∧ s.replyQueue = [] ∧ s.partTime = 0

/-- R25: the defaults of the eight parameters, which every line has after a reset, and their ranges. R3: the rate of each rate code, and a character time
of 11 bit times at it, counted in periods of CLKIN; with R5, R13, R15, R16 and R18 the durations of frames, line clears, guards, windows and waits. -/
def Obligations.LineParameterRanges : Prop :=
  LineParams.default =
    { rate := 2, window := 24, retryLimit := 2, missLimit := 3, guard := 2, busyDelay := 20, cycleFloor := 10, holdLimit := 50 } ∧
  (∀ l : LineNo, (State.reset.engine l).params = LineParams.default) ∧
  (∀ (s : State) (cause : StartCause) (rate : Octet) (l : LineNo), ((s.freshStart cause rate).engine l).params = LineParams.default) ∧
  (∀ p : LineParams, p.inRange = true ↔
    p.rate.toNat ≤ 7 ∧ (4 ≤ p.window.toNat ∧ p.window.toNat ≤ 255) ∧ p.retryLimit.toNat ≤ 7 ∧
    (1 ≤ p.missLimit.toNat ∧ p.missLimit.toNat ≤ 15) ∧ (1 ≤ p.guard.toNat ∧ p.guard.toNat ≤ 15) ∧
    (1 ≤ p.busyDelay.toNat ∧ p.busyDelay.toNat ≤ 255) ∧ p.cycleFloor.toNat ≤ 255 ∧ p.holdLimit.toNat ≤ 255) ∧
  (([0, 1, 2, 3, 4, 5, 6, 7] : List Octet).map dropBaud = [9600, 19200, 38400, 57600, 76800, 115200, 230400, 460800]) ∧
  ∀ p : LineParams, p.rate.toNat ≤ 7 →
    bitTime p * dropBaud p.rate = 18432000 ∧ (∀ n, charTimes p n = 11 * n * bitTime p) ∧
    (∀ f : DropFrame, frameTime p f = 11 * (5 + f.payload.length) * bitTime p) ∧ lineClearTime p = 35 * bitTime p ∧
    guardTime p = 11 * p.guard.toNat * bitTime p ∧ windowTime p = 11 * p.window.toNat * bitTime p ∧
    quietTime p = 11 * 2 * bitTime p ∧ corruptTime p = 11 * 125 * bitTime p

/-! ## The host link -/

/-- R181: the idle transmitter sends the head of the reply queue, else the offered report; where both reach it together either
may go first, whichever the free value gives; a busy one goes on. The offer is the first QUEUED report while the window has room (R163). -/
def Obligations.TransmitterChoice : Prop :=
  (∀ s : State, s.tx ≠ none → s.transmit = s ∧ s.choose false = s) ∧
  (∀ (s : State) (f : WaitingFrame) (rest : List WaitingFrame), s.resetAsserted = false → s.tx = none →
    s.replyQueue = f :: rest → s.choose false = { s with replyQueue := rest, tx := some f.start }) ∧
  (∀ (s : State) (f : WaitingFrame) (rest : List WaitingFrame), s.resetAsserted = false → s.tx = none →
    s.replyQueue = f :: rest → s.offer = none → s.transmit = { s with replyQueue := rest, tx := some f.start }) ∧
  (∀ (s : State) (r : Report), s.resetAsserted = false → s.tx = none → s.replyQueue = [] → s.offer = some r →
    s.transmit = { s with tx := some (.report r.number false) }) ∧
  (∀ s : State, s.replyQueue = [] → s.offer = none → s.transmit = s) ∧
  (∀ (s : State) (f : WaitingFrame) (rest : List WaitingFrame) (r : Report), s.resetAsserted = false → s.tx = none →
    s.replyQueue = f :: rest → s.offer = some r →
    s.transmit = { s with replyQueue := rest, tx := some f.start, choices := s.choices + 1 } ∨
    s.transmit = { s with tx := some (.report r.number false), choices := s.choices + 1 }) ∧
  ∀ (s : State) (r : Report), s.offer = some r ↔
    s.restarting = false ∧ s.windowUsed < 8 ∧ s.reports.find? (fun q => !q.sent) = some r

/-- R182, R163, R166: when a frame's last octet leaves, a reply or notice frees its place; a report becomes SENT, or stays QUEUED where a
REPORT RESEND was taken meanwhile; then the transmitter chooses, the reply queue first. R172, R193, R195: the octets of the frame in transmission: those of a
reply, of a notice, and of each report with its number as TAG and the payload its blocks hold. -/
def Obligations.LastOctetLeaves : Prop :=
  (∀ s : State, s.resetAsserted = false →
    (∀ r : Reply, s.tx = some (.reply r) → r.rate = none →
      exec .hostFrameSent s = .next (({ s with tx := none } : State).choose false)) ∧
    (∀ n : Notice, s.tx = some (.notice n) →
      exec .hostFrameSent s = .next (({ s with tx := none } : State).choose false)) ∧
    (∀ n : Octet, s.tx = some (.report n false) →
      exec .hostFrameSent s =
        .next (({ s with
          tx := none
          reports := s.reports.map fun r => if r.number = n then { r with sent := true } else r } : State).choose false)) ∧
    ∀ n : Octet, s.tx = some (.report n true) →
      exec .hostFrameSent s = .next (({ s with tx := none } : State).choose false)) ∧
  ∀ s : State,
    let frame := fun (kind tag : Octet) (body : List Octet) =>
      let inner := octet (2 + body.length) :: kind :: tag :: body
      0xD4 :: inner ++ wordOctets (crc inner)
    let identity := fun station : Option StationRef =>
      (match station with
        | some st => [octet st.index.val, octet st.line.val, st.address]
        | none => [0xFF, 0xFF, 0xFF] : List Octet)
    (s.tx = none → s.sendingOctets = []) ∧
    (∀ r : Reply, s.tx = some (.reply r) → s.sendingOctets = frame r.kind r.tag (r.code.code :: r.data)) ∧
    (∀ n : Notice, s.tx = some (.notice n) → s.sendingOctets = frame 0x7F n.tag [0xFE, n.reason.code, octet n.count]) ∧
    ∀ (r : Report) (resent : Bool), s.tx = some (.report r.number resent) →
      s.reports.find? (fun q => q.number = r.number) = some r →
      let sends := fun (kind : Octet) (body : List Octet) => s.sendingOctets = frame kind r.number (0xFF :: body)
      (∀ cause time, r.items = .partStarted cause time → sends 0xE0 (cause.code :: timeOctets time)) ∧
      (∀ d, r.items = .orderDone d →
        let payload := readPayload s.pool r.blocks r.length
        sends 0xE1 (wordOctets d.number ++ [d.kind.code, d.source.code] ++ identity d.station ++
          [match d.group with
            | some g => octet g.val
            | none => 0xFF,
           d.outcome.code,
           match d.outcome with
            | .corrupt cause => cause.code
            | _ => 0xFF,
           octet d.attempts, (if d.uncertain then 1 else 0) + (if d.lateCancel then 2 else 0), 0, 0] ++
          timeOctets d.time ++ [octet payload.length] ++ payload)) ∧
      (∀ d, r.items = .deliveryDone d →
        sends 0xE2 (wordOctets d.number ++
          [octet d.group.val, d.seq.zeroExtend 8, d.outcome.code, octet d.excluded, octet d.accepted] ++ timeOctets d.time ++
          [octet d.members.length] ++
          d.members.flatMap fun m =>
            ([octet m.station.line.val, m.station.address, m.state.code,
              (octet m.attempts &&& 0x1F) + (if m.repaired then 0x80 else 0)] : List Octet))) ∧
      (∀ st latch lapsed, r.items = .stationPresence st latch lapsed →
        sends 0xE3 (identity (some st) ++ [latch.presence.code, octet latch.changeCount, if latch.restarted then 1 else 0] ++
          wordOctets lapsed ++ timeOctets latch.time)) ∧
      (∀ w st hit oneShot, r.items = .watchHit w st hit oneShot →
        sends 0xE4 (octet w.val :: identity st ++ optionalWord hit.previous ++ wordOctets hit.matching ++
          wordOctets hit.latest ++ [octet hit.repeats] ++ timeOctets hit.time ++ [if oneShot then 1 else 0])) ∧
      ∀ l latch, r.items = .lineEvent l latch →
        sends 0xE5 ([octet l.val, latch.condition.code, latch.cause.code, octet latch.changeCount] ++ timeOctets latch.time)

/-- R8: the CRC of no octets is all ones, and an octet is taken in bit by bit, its most significant bit first, by the generator x^16 + x^12 + x^5 + 1.
R172: a host frame's octets. R173, R175: the characters of a whole host frame, taken one after the other from HUNT, queue its KIND, TAG and BODY and change
nothing else. -/
def Obligations.ReceiverAssemblesFrame : Prop :=
  (crc [] = 0xFFFF ∧ crc [0x31, 0x32, 0x33, 0x34, 0x35, 0x36, 0x37, 0x38, 0x39] = 0x29B1 ∧
   ∀ (os : List Octet) (o : Octet),
     let take := fun (c : Word) (bit : Bool) => if c.getLsbD 15 = bit then c <<< 1 else (c <<< 1) ^^^ 0x1021
     crc (os ++ [o]) = ([7, 6, 5, 4, 3, 2, 1, 0].map fun k => o.getLsbD k).foldl take (crc os)) ∧
  (∀ f : HostFrame, frameOctets f =
     0xD4 :: octet (2 + f.body.length) :: f.kind :: f.tag :: f.body ++
       wordOctets (crc (octet (2 + f.body.length) :: f.kind :: f.tag :: f.body))) ∧
  ∀ (f : HostFrame) (s : State), f.body.length ≤ 140 → s.resetAsserted = false → s.restarting = false → s.rx = .hunt →
    s.inputQueue.length < 4 → s.transmit = s →
    execAll ((frameOctets f).map fun o => .hostCharacter o true) s = some { s with inputQueue := s.inputQueue ++ [f] }

/-- R173, R175, R186: the receiver takes a character by its state, and inside a frame keeps the time it ended [log 27]; at the
second CRC octet the frame is discarded with CHECK, discarded
with OVERRUN, or queued; while RESTARTING every character is discarded. -/
def Obligations.ReceiverTakesCharacter : Prop :=
  ∀ (s : State) (o : Octet) (mark : Bool), s.resetAsserted = false →
    (s.restarting = true → exec (.hostCharacter o mark) s = .next s) ∧
    (s.restarting = false →
      (s.rx = .hunt → o = 0xD4 ∧ mark = true →
        exec (.hostCharacter o mark) s = .next ({ s with rx := .length s.partTime } : State).transmit) ∧
      (s.rx = .hunt → ¬ (o = 0xD4 ∧ mark = true) → exec (.hostCharacter o mark) s = .next s.transmit) ∧
      (∀ ended, s.rx = .length ended → 2 ≤ o.toNat ∧ o.toNat ≤ 142 →
        exec (.hostCharacter o mark) s = .next ({ s with rx := .body o [] s.partTime } : State).transmit) ∧
      (∀ ended, s.rx = .length ended → ¬ (2 ≤ o.toNat ∧ o.toNat ≤ 142) →
        exec (.hostCharacter o mark) s = .next (({ s with rx := .hunt } : State).raiseNotice .length 0).transmit) ∧
      (∀ len got ended, s.rx = .body len got ended → got.length + 1 = len.toNat →
        exec (.hostCharacter o mark) s = .next ({ s with rx := .check len (got ++ [o]) none s.partTime } : State).transmit) ∧
      (∀ len got ended, s.rx = .body len got ended → got.length + 1 ≠ len.toNat →
        exec (.hostCharacter o mark) s = .next ({ s with rx := .body len (got ++ [o]) s.partTime } : State).transmit) ∧
      (∀ len got ended, s.rx = .check len got none ended →
        exec (.hostCharacter o mark) s = .next ({ s with rx := .check len got (some o) s.partTime } : State).transmit) ∧
      ∀ len high got ended, s.rx = .check len got (some high) ended →
        (crc (len :: got) ≠ wordOf high o →
          exec (.hostCharacter o mark) s = .next (({ s with rx := .hunt } : State).raiseNotice .check (got.getD 1 0)).transmit) ∧
        (crc (len :: got) = wordOf high o → 4 ≤ s.inputQueue.length →
          exec (.hostCharacter o mark) s = .next (({ s with rx := .hunt } : State).raiseNotice .overrun (got.getD 1 0)).transmit) ∧
        (crc (len :: got) = wordOf high o → s.inputQueue.length < 4 →
          exec (.hostCharacter o mark) s =
            .next ({ s with
              rx := .hunt
              inputQueue := s.inputQueue ++ [{ kind := got.getD 0 0, tag := got.getD 1 0, body := got.drop 2 }] } : State).transmit))

/-- R174, R176: a gap discards the partial frame with a notice of reason GAP, with the frame's tag once BODY has taken two octets; in
HUNT nothing is discarded. A notice takes a free place with count 1, or is counted into the newest waiting one, up to 255. R170, R174: ten bits are a
character; inside a frame a gap of more than 3 character times with no start bit begun is the failure, measured from the last character's end or from a
break's; the bit times are the model's [log 27]. -/
def Obligations.GapAndNotices : Prop :=
  (∀ s : State, s.resetAsserted = false →
    (s.rx = .hunt → exec .hostGapTimeout s = .next s.transmit) ∧
    (∀ ended, s.rx = .length ended → exec .hostGapTimeout s = .next (({ s with rx := .hunt } : State).raiseNotice .gap 0).transmit) ∧
    (∀ len kind tag more ended, s.rx = .body len (kind :: tag :: more) ended →
      exec .hostGapTimeout s = .next (({ s with rx := .hunt } : State).raiseNotice .gap tag).transmit) ∧
    (∀ len got ended, s.rx = .body len got ended → got.length < 2 →
      exec .hostGapTimeout s = .next (({ s with rx := .hunt } : State).raiseNotice .gap 0).transmit) ∧
    (∀ len kind tag more high ended, s.rx = .check len (kind :: tag :: more) high ended →
      exec .hostGapTimeout s = .next (({ s with rx := .hunt } : State).raiseNotice .gap tag).transmit)) ∧
  (∀ (s : State) (reason : NoticeReason) (tag : Octet), s.noticePlacesInUse < 2 →
    s.raiseNotice reason tag = { s with replyQueue := s.replyQueue ++ [.notice { reason := reason, tag := tag, count := 1 }] }) ∧
  (∀ (s : State) (reason : NoticeReason) (tag : Octet) (n : Notice) (ahead : List WaitingFrame) (behind : List Reply),
    2 ≤ s.noticePlacesInUse → s.replyQueue = ahead ++ .notice n :: behind.map .reply →
    s.raiseNotice reason tag =
      { s with replyQueue := ahead ++ .notice { n with count := min (n.count + 1) 255 } :: behind.map .reply }) ∧
  (∀ c : BitVec 10, c.getLsbD 0 = false →
    HostReceiver.ready.samples ((List.range 10).map c.getLsbD) =
      (if c = 0 then .holdOff else .ready, [(c.extractLsb' 1 8, c.getLsbD 9)])) ∧
  (∀ code : Octet, code.toNat ≤ 5 → hostGapTime code * hostBaud code = 30 * 18432000) ∧
  ∀ (s : State) (ended time : Nat), s.resetAsserted = false →
    (∀ receiver : HostReceiver, receiver = .ready ∨ receiver = .holdOff → let i : HostInput := { receiver := receiver, ended := ended }
      s.hostHear i time true =
        ({ i with receiver := .ready }, if s.rx ≠ .hunt ∧ ended + 30 < time + 1 then some .hostGapTimeout else none)) ∧
    s.hostHear { receiver := .ready, ended := ended } time false = ({ receiver := .taking 1 0, ended := ended }, none) ∧
    s.hostHear { receiver := .holdOff, ended := ended } time false = ({ receiver := .holdOff, ended := time + 1 }, none) ∧
    ∀ count bits level, count < 9 →
      (s.hostHear { receiver := .taking count bits, ended := ended } time level).2 = none ∧
      ∃ o mark, (s.hostHear { receiver := .taking 9 bits, ended := ended } time level).2 = some (.hostCharacter o mark) ∧
        (s.hostHear { receiver := .taking 9 bits, ended := ended } time level).1.ended = time + 1

/-! ## Lines: parameters, start, stop, FAULT and hold -/

/-- R26 in part: LINE SET's checks in their order, and an accepted one replaces the eight parameters and nothing else. -/
def Obligations.LineSetChecksAndSets : Prop :=
  ∀ (tag line : Octet) (p : LineParams) (s u : State),
    let i := Instr.lineSet tag [line, p.rate, p.window, p.retryLimit, p.missLimit, p.guard, p.busyDelay, p.cycleFloor, p.holdLimit]
    Taken i s u →
      (3 < line.toNat → exec i s = .next (u.answering i .badValue [])) ∧
      ∀ l : LineNo, line.toNat = l.val →
        ((u.engine l).state ≠ .off → exec i s = .next (u.answering i .state [])) ∧
        ((u.engine l).state = .off → p.inRange = false → exec i s = .next (u.answering i .badValue [])) ∧
        ((u.engine l).state = .off → p.inRange = true →
          exec i s = .next ((u.onEngine l fun e => { e with params := p }).answering i .ok []))

/-- R27 in part: LINE START of an OFF line sets its cursor to the start, its previous work to NOT POLL and its poll cycle to begin; with FAULT
released it sends a line clear, with FAULT asserted it is HELD with a line report. -/
def Obligations.LineStartByFault : Prop :=
  ∀ (tag line : Octet) (s u : State), let i := Instr.lineStart tag [line]
    Taken i s u →
      (3 < line.toNat → exec i s = .next (u.answering i .badValue [])) ∧
      ∀ l : LineNo, line.toNat = l.val →
        ((u.engine l).state ≠ .off → exec i s = .next (u.answering i .state [])) ∧
        ((u.engine l).state = .off → (u.engine l).fault = false →
          exec i s = .next ((u.onEngine l fun e =>
            { e with state := .starting, cursor := 0, previousPoll := false, cycleAwaited := true }).answering i .ok [])) ∧
        ((u.engine l).state = .off → (u.engine l).fault = true → (u.engine l).Coherent →
          exec i s = .next (((u.onEngine l fun e =>
            { e with
              state := .held, cursor := 0, previousPoll := false, cycleAwaited := true
              holdRunning := e.params.holdLimit != 0, holdLeft := 100 * e.params.holdLimit.toNat }).latchLine l .held .faultAsserted).answering i .ok []))

/-- R28: LINE STOP by the engine's state. Where a frame or a line clear is driven the engine is STOPPING until the line clear ends; elsewhere it
is OFF at once, with its line report after the stop's other effects [log 13]. The transaction in flight ends ABORTED first. -/
def Obligations.LineStopByState : Prop :=
  ∀ (tag line : Octet) (s u : State), let i := Instr.lineStop tag [line]
    Taken i s u →
      (3 < line.toNat → exec i s = .next (u.answering i .badValue [])) ∧
      ∀ l : LineNo, line.toNat = l.val →
        ((u.engine l).state = .off → exec i s = .next (u.answering i .state [])) ∧
        ((u.engine l).state = .stopping → exec i s = .next (u.answering i .ok [])) ∧
        ((u.engine l).state = .sending ∨ (u.engine l).state = .starting →
          exec i s = .next ((((u.onEngine l fun e =>
            { e.stopped e.offCause with state := .stopping }).endTransaction l .aborted false false).stopReaches l
              .lineStopped).answering i .ok [])) ∧
        ((u.engine l).state ∈ [LineState.awaiting, .backoff, .idle, .held] →
          exec i s = .next (((((u.onEngine l fun e => e.stopped .stopped).endTransaction l .aborted false false).stopReaches l
              .lineStopped).latchLine l .off .stopped).answering i .ok []))

/-- R29, R69: at a line's stop its stations in ONLINE, RESYNC or MISSING, in index order, become PROBING with miss count 0 and collect-due clear, and those
present latch DOWN; they keep sequence bits, lapsed groups and resync cause, and every other station keeps its state. An engine's stop leaves no transaction
and raises the transactions statistic. -/
def Obligations.StopMovesStations : Prop :=
  (∀ (s : State) (l : LineNo), s.stationsLineStop l = (List.finRange 96).foldl (fun t ix => t.stationLineStop l ix) s) ∧
  (∀ (s : State) (l : LineNo) (ix : StationIx), let st := s.station ix
    let moved := s.onStation ix fun st => { st with state := .probing, missCount := 0, collectDue := false }
    (st.line = l → st.state = .online ∨ st.state = .resync → s.stationLineStop l ix = moved.latchPresence ix .down false) ∧
    (st.line = l → st.state = .missing → s.stationLineStop l ix = moved) ∧
    (st.line ≠ l ∨ st.state ∉ [StationState.online, .resync, .missing] → s.stationLineStop l ix = s)) ∧
  (∀ (s : State) (l : LineNo) (ix : StationIx), let before := s.station ix
    let after := (s.stationsLineStop l).station ix
    let moves := before.line = l ∧ before.state ∈ [StationState.online, .resync, .missing]
    (moves → after.state = .probing ∧ after.missCount = 0 ∧ after.collectDue = false) ∧
    (¬ moves → after.state = before.state ∧ after.missCount = before.missCount ∧ after.collectDue = before.collectDue) ∧
    after.line = before.line ∧ after.address = before.address ∧ after.sendBit = before.sendBit ∧
    after.fetchBit = before.fetchBit ∧ after.lapsed = before.lapsed ∧ after.resyncCause = before.resyncCause ∧
    after.collectOutstanding = before.collectOutstanding ∧ after.lastStatus = before.lastStatus ∧
    after.lastHeard = before.lastHeard) ∧
  ∀ (s : State) (l : LineNo) (o : TxOutcome) (late atEnd : Bool),
    ((s.endTransaction l o late atEnd).engine l).tx = none ∧
    ((s.endTransaction l o late atEnd).engine l).state = (s.engine l).state ∧
    (∀ t, (s.engine l).tx = some t →
      ((s.endTransaction l o late atEnd).engine l).stats.transactions = min ((s.engine l).stats.transactions + 1) 65535) ∧
    ∀ k : LineNo, k ≠ l → ((s.endTransaction l o late atEnd).engine k).state = (s.engine k).state ∧
      ((s.endTransaction l o late atEnd).engine k).tx = (s.engine k).tx

/-- R46: FAULT asserted: OFF and HELD record the level, STOPPING goes OFF, any other state is HELD with its transaction suspended. R47: released in HELD,
a line clear. R48, R49, R25: the hold, 100 ms to a step of its limit,
expires as its last millisecond passes, the model's choice [log 26]. An input already at its level, a timer that does not run [log 3], and
the RESET input [log 9] bar the rest. -/
def Obligations.FaultInputAndHold : Prop :=
  (∀ (s : State) (l : LineNo),
     ((s.engine l).fault = true → exec (.faultAssert l) s = .next s) ∧
     ((s.engine l).fault = false → s.resetAsserted = true →
       exec (.faultAssert l) s = .next (s.onEngine l fun e => { e with fault := true })) ∧
     ((s.engine l).fault = false → s.resetAsserted = false →
       ((s.engine l).state = .off ∨ (s.engine l).state = .held →
         exec (.faultAssert l) s = .next (s.onEngine l fun e => { e with fault := true }).transmit) ∧
       ((s.engine l).state = .stopping →
         exec (.faultAssert l) s =
           .next ((s.onEngine l fun e => { e.stopped .stopped with fault := true }).latchLine l .off .stopped).transmit) ∧
       ((s.engine l).state ∈ [LineState.starting, .idle, .sending, .awaiting, .backoff] →
         exec (.faultAssert l) s =
           .next ((s.onEngine l fun e =>
             { e.stopped e.offCause with
               state := .held, fault := true, holdRunning := e.params.holdLimit != 0, holdLeft := 100 * e.params.holdLimit.toNat
               tx := e.tx.map fun t => { t with suspended := true } }).latchLine l .held .faultAsserted).transmit))) ∧
  (∀ (s : State) (l : LineNo),
     ((s.engine l).fault = false → exec (.faultRelease l) s = .next s) ∧
     ((s.engine l).fault = true → s.resetAsserted = true →
       exec (.faultRelease l) s = .next (s.onEngine l fun e => { e with fault := false })) ∧
     ((s.engine l).fault = true → s.resetAsserted = false →
       ((s.engine l).state ≠ .held →
         exec (.faultRelease l) s = .next (s.onEngine l fun e => { e with fault := false }).transmit) ∧
       ((s.engine l).state = .held →
         exec (.faultRelease l) s =
           .next ((s.onEngine l fun e =>
             { e with fault := false, state := .starting, holdRunning := false, holdLeft := 0 }).latchLine l .running .faultReleased).transmit))) ∧
  (∀ (s : State) (l : LineNo), s.resetAsserted = false →
     ((s.engine l).state = .held → (s.engine l).holdRunning = true →
       exec (.holdExpiry l) s =
         .next (((((s.elapse (s.engine l).holdLeft).onEngine l fun e => e.stopped .holdExpired).endTransaction l .lineFault false false).stopReaches l
           .lineFault).latchLine l .off .holdExpired).transmit) ∧
     ((s.engine l).state ≠ .held ∨ (s.engine l).holdRunning = false → exec (.holdExpiry l) s = .next s))

/-- R13, R27, R28, R47: a line clear ends. STARTING resumes a suspended transaction with a fresh attempt, else is IDLE and selects work; the poll
cycle still to begin begins with its count kept, else it goes on where it stood. STOPPING is OFF with off cause STOPPED. The model's choice: in any
other state the command changes nothing [log 3]. R13: a line clear is 24 bit times of space and 11 of mark with the driver enable asserted, and one that cuts
a frame follows the bit being driven. -/
def Obligations.LineClearEnds : Prop :=
  (∀ e : LineEngine, e.state = .starting ∨ e.state = .stopping →
    e.driveBits.length = 35 ∧ (∀ time, e.dataOut time = true ↔ 24 ≤ time) ∧ e.driverEnable = true ∧ e.listens = false ∧
    ∀ (f : DropFrame) (driven : Nat), f.cutBits driven = f.bits.take driven ++ e.driveBits) ∧
  ∀ (s : State) (l : LineNo), s.resetAsserted = false →
    ((s.engine l).state = .starting → ∀ e : LineEngine,
      ((s.engine l).cycleAwaited = true →
        e = { s.engine l with
          cycleAwaited := false, cursor := 0, cycleStart := some s.partTime, cycleState := .running
          floorLeft := (s.engine l).params.cycleFloor.toNat, floorRunning := false }) →
      ((s.engine l).cycleAwaited = false →
        e = { s.engine l with floorRunning := (s.engine l).cycleState = .complete && 0 < (s.engine l).floorLeft }) →
      (∀ t, (s.engine l).tx = some t →
        exec (.lineClearEnd l) s =
          .next (s.setEngine l { e with state := .sending, tx := some { t with suspended := false } }).transmit) ∧
      ((s.engine l).tx = none →
        exec (.lineClearEnd l) s = .next ((s.setEngine l { e with state := .idle }).selectWork l).transmit)) ∧
    ((s.engine l).state = .stopping →
      exec (.lineClearEnd l) s =
        .next ((s.onEngine l fun e => e.stopped .stopped).latchLine l .off .stopped).transmit) ∧
    ((s.engine l).state ≠ .starting → (s.engine l).state ≠ .stopping → exec (.lineClearEnd l) s = .next s)

/-- R31, R37: at a frame's end the reply window opens; GROUP DATA ends SENT. R16 to R18: in the window a header opens the reply or is a wrong station's,
other characters are discarded; its end is no reply, or waits for a character being received; a gap ends the attempt, a corrupt reply waits. The model's
choices: when such an awaited character that is no header ends the attempt [log 10], and that DROP_FRAME_END outside SENDING changes nothing [log 3]. -/
def Obligations.FramesAndReplyWindows : Prop :=
  (∀ (s : State) (l : LineNo), s.resetAsserted = false →
     (∀ t, (s.engine l).state = .sending → (s.engine l).tx = some t → t.kind ≠ .groupData →
       exec (.dropFrameEnd l) s =
         .next (s.onEngine l fun e => { e with state := .awaiting, reception := some .window }).transmit) ∧
     (∀ t, (s.engine l).state = .sending → (s.engine l).tx = some t → t.kind = .groupData →
       exec (.dropFrameEnd l) s =
         .next ((s.onEngine l fun e =>
           { e with
             state := .idle, guardRunning := true
             tx := some { t with attemptsUsed := 1, whollySent := 1 } }).endTransaction l .sent false true).transmit) ∧
     ((s.engine l).state ≠ .sending → exec (.dropFrameEnd l) s = .next s)) ∧
  (∀ (s : State) (l : LineNo) (t : Transaction), s.resetAsserted = false → (s.engine l).state = .awaiting →
     (s.engine l).tx = some t →
     ((s.engine l).reception = some .window ∨ (s.engine l).reception = some .lastCharacter → ∀ a : Octet,
       exec (.replyCharacter l (.header a)) s =
         .next (s.onEngine l fun e =>
           { e with reception := some (if a = t.frame.address then .opened [a] else .discarding .wrongStation false) })) ∧
     ((s.engine l).reception = some .window → ∀ c : DropChar, (∀ a, c ≠ .header a) →
       exec (.replyCharacter l c) s = .next s) ∧
     ((s.engine l).reception = some .lastCharacter → ∀ c : DropChar, (∀ a, c ≠ .header a) →
       exec (.replyCharacter l c) s = .next (s.finishAttempt l .noReply false)) ∧
     ((s.engine l).reception = some .window →
       exec (.replyWindowExpiry l false) s = .next (s.finishAttempt l .noReply false) ∧
       exec (.replyWindowExpiry l true) s = .next (s.onEngine l fun e => { e with reception := some .lastCharacter })) ∧
     (∀ got, (s.engine l).reception = some (.opened got) →
       exec (.replyGapTimeout l) s = .next (s.finishAttempt l (.corrupt .gap) true)) ∧
     ∀ cause heard, (s.engine l).reception = some (.discarding cause heard) →
       (∀ c, exec (.replyCharacter l c) s = .next s) ∧
       exec (.corruptQuietEnd l) s = .next (s.finishAttempt l (.corrupt cause) heard))

/-- R17: the checks on a character of an open reply frame: BREAK, FRAMING, MARK, LENGTH on the third character, CHECK on the last; a frame that
passes them all ends its attempt, judged against the frame it answers. -/
def Obligations.OpenReplyChecked : Prop :=
  ∀ (s : State) (l : LineNo) (t : Transaction) (got : List Octet), s.resetAsserted = false → (s.engine l).state = .awaiting →
    (s.engine l).tx = some t → (s.engine l).reception = some (.opened got) →
    let becomes := fun r : Reception => Host.Outcome.next (φ := Fault) (ρ := Refusal) (s.onEngine l fun e => { e with reception := some r })
    exec (.replyCharacter l .breakChar) s = becomes (.discarding .breakReceived true) ∧
    exec (.replyCharacter l .framingError) s = becomes (.discarding .framing true) ∧
    (∀ a, exec (.replyCharacter l (.header a)) s = becomes (.discarding .mark true)) ∧
    (∀ h o, got = [h] → exec (.replyCharacter l (.body o)) s = becomes (.opened [h, o])) ∧
    (∀ h c o, got = [h, c] →
      (120 < o.toNat → exec (.replyCharacter l (.body o)) s = becomes (.discarding .length true)) ∧
      (o.toNat ≤ 120 → exec (.replyCharacter l (.body o)) s = becomes (.opened [h, c, o]))) ∧
    (∀ h c len rest o, got = h :: c :: len :: rest → len.toNat ≤ 120 → rest.length < len.toNat + 1 →
      exec (.replyCharacter l (.body o)) s = becomes (.opened (got ++ [o]))) ∧
    ∀ h c len payload high low, got = h :: c :: len :: (payload ++ [high]) → len.toNat ≤ 120 → payload.length = len.toNat →
      (wordOf high low ≠ crc (h :: c :: len :: payload) →
        exec (.replyCharacter l (.body low)) s = becomes (.discarding .check true)) ∧
      (wordOf high low = crc (h :: c :: len :: payload) →
        exec (.replyCharacter l (.body low)) s =
          .next (s.finishAttempt l (judgeReply t.kind t.frame.bit (replyOf c payload)) true))

/-- R10, R196: which frames are replies. R11, R12, R19: the good replies of each kind of transaction, those busy, and every other one unexpected;
`bit` is the sequence bit the frame carried. -/
def Obligations.RepliesRecognisedAndJudged : Prop :=
  (∀ (control : Octet) (payload : List Octet),
     (control >>> 4 = 10 →
       (∀ high low flags, payload = [high, low, flags] →
         replyOf control payload = some (.status (wordOf high low) (flags.getLsbD 0) (flags.getLsbD 1))) ∧
       (payload.length ≠ 3 → replyOf control payload = none)) ∧
     (control >>> 4 = 11 →
       (payload = [] → replyOf control payload = some (.ack (control.getLsbD 0))) ∧
       (payload ≠ [] → replyOf control payload = none)) ∧
     (control >>> 4 = 12 →
       (payload = [1] → replyOf control payload = some (.nak .refused)) ∧
       (payload = [2] → replyOf control payload = some (.nak .full)) ∧
       (payload = [3] → replyOf control payload = some (.nak .missed)) ∧
       (payload = [4] → replyOf control payload = some (.nak .empty)) ∧
       (payload ∉ [[1], [2], [3], [4]] → replyOf control payload = none)) ∧
     (control >>> 4 = 3 → replyOf control payload = some (.data (control.getLsbD 0) payload)) ∧
     (control >>> 4 ∉ ([3, 10, 11, 12] : List Octet) → replyOf control payload = none)) ∧
  (∀ (kind : TxKind) (bit : Bool) (r : DropReply),
     (judgeReply kind bit (some r) = .good r ↔
       (kind = .poll ∧ ∃ word dataWaiting restarted, r = .status word dataWaiting restarted) ∨
       (kind = .send ∧ r = .ack bit) ∨
       (kind ∈ [TxKind.clear, .join, .leave, .groupCheck, .groupRepair] ∧ ∃ b, r = .ack b) ∨
       (kind ∈ [TxKind.send, .join, .leave, .groupCheck, .groupRepair] ∧ r = .nak .refused) ∨
       (kind = .fetch ∧ ((∃ payload, r = .data bit payload) ∨ r = .nak .empty)) ∨
       (kind = .groupCheck ∧ r = .nak .missed)) ∧
     (judgeReply kind bit (some r) = .nakFull ↔
       kind ∈ [TxKind.send, .fetch, .groupCheck, .groupRepair] ∧ r = .nak .full) ∧
     (judgeReply kind bit (some r) ≠ .good r → judgeReply kind bit (some r) ≠ .nakFull →
       judgeReply kind bit (some r) = .corrupt .unexpected) ∧
     judgeReply kind bit none = .corrupt .unexpected)

/-- R20, R31, R32: the end of an attempt: what it adds to its transaction and to the statistics, and the course taken. A good result ends the
transaction GOOD; any other ends it where no attempt is left or the cancel flag is set, and else goes on by its class. The cancel flag is that of the
transaction's order; a poll step and a pass step have none. -/
def Obligations.AttemptCourse : Prop :=
  ∀ (s : State) (l : LineNo) (t : Transaction) (c : AttemptClass) (heard : Bool), (s.engine l).tx = some t →
    let cancel :=
      match t.work with
      | .order n =>
          (match s.findOrder n with
            | some r => r.cancelFlag
            | none => false)
      | .pollStep => false
      | .pass _ _ => false
    let after : Transaction :=
      { t with
        attemptsUsed := t.attemptsUsed + 1, heard := t.heard || heard, whollySent := t.whollySent + 1
        lastHeard := if heard then some s.partTime else t.lastHeard
        lastResult := some { outcome := c, heard := heard, whollySent := true, endTime := s.partTime } }
    let stats := fun e : LineEngine =>
      { e.stats with
        retryAttempts := if 0 < t.attemptsUsed then min (e.stats.retryAttempts + 1) 65535 else e.stats.retryAttempts
        corruptFrames := match c with
          | .corrupt _ => min (e.stats.corruptFrames + 1) 65535
          | _ => e.stats.corruptFrames
        noReplyAttempts := if c = .noReply then min (e.stats.noReplyAttempts + 1) 65535 else e.stats.noReplyAttempts }
    let ended := s.onEngine l fun e =>
      { e with state := .idle, reception := none, guardRunning := c != .noReply, tx := some after, stats := stats e }
    let left := after.attemptsUsed < t.attemptLimit ∧ cancel = false
    (∀ reply, c = .good reply → s.attemptEnd l c heard = ended.endTransaction l (.good reply) cancel true) ∧
    (c = .nakFull → left →
      s.attemptEnd l c heard = ended.onEngine l fun e =>
        { e with state := .backoff, busyRunning := true, busyLeft := e.params.busyDelay.toNat }) ∧
    (∀ cause, c = .corrupt cause → left → s.attemptEnd l c heard = ended) ∧
    (c = .noReply → left → s.attemptEnd l c heard = ended.onEngine l fun e => { e with state := .sending }) ∧
    (¬ left → cancel = true → (∀ reply, c ≠ .good reply) →
      s.attemptEnd l c heard = ended.endTransaction l .cancelled false true) ∧
    (¬ left → cancel = false →
      (c = .nakFull → s.attemptEnd l c heard = ended.endTransaction l .busy false true) ∧
      (∀ cause, c = .corrupt cause → s.attemptEnd l c heard = ended.endTransaction l (.corrupt cause) false true) ∧
      (c = .noReply → s.attemptEnd l c heard = ended.endTransaction l .noReply false true)) ∧
    s.finishAttempt l c heard = ((s.attemptEnd l c heard).selectWork l).transmit

/-- R34, R35: a transaction's result goes to the station table, then to the order store or the delivery unit; the transactions statistic rises
and the engine holds none. It is unanswered when it ended at an attempt's end and no attempt was heard. -/
def Obligations.TransactionEndsInOrder : Prop :=
  ∀ (s : State) (l : LineNo) (t : Transaction) (o : TxOutcome) (late atEnd : Bool), (s.engine l).tx = some t →
    let r : TxResult :=
      { kind := t.kind, work := t.work, station := t.station, outcome := o, lateCancel := late, attemptsUsed := t.attemptsUsed
        heard := t.heard, lastHeard := t.lastHeard, whollySent := t.whollySent
        unanswered := atEnd && !t.heard && t.kind != .groupData }
    let free := fun v : State => v.onEngine l fun e =>
      { e with tx := none, stats := { e.stats with transactions := min (e.stats.transactions + 1) 65535 } }
    ∀ u : State, (∀ ix, t.station = some ix → u = s.stationResult ix r) → (t.station = none → u = s) →
      (t.work = .pollStep → s.endTransaction l o late atEnd = free u) ∧
      (∀ n, t.work = .order n → s.endTransaction l o late atEnd = free (u.orderResult n r)) ∧
      ∀ n step, t.work = .pass n step → s.endTransaction l o late atEnd = free (u.stepResult l n step r)

/-- R21: characters outside a reply window are counted in IDLE and BACKOFF and change nothing else; in every other state they change nothing, which for
AWAITING is the model's choice [log 3]. R2, R14, R17: a received character's class and times, the wait for mark after a break and for a start bit begun while
the engine listens, the gap between two, and which engine each reaches; the bit times and that wait are the model's [log 17]. -/
def Obligations.StrayCharactersCounted : Prop :=
  (∀ c : BitVec 11,
    (c = 0 → classify c = .breakChar) ∧ (c ≠ 0 → c.getLsbD 10 = false → classify c = .framingError) ∧
    (c.getLsbD 10 = true → c.getLsbD 9 = true → classify c = .header (c.extractLsb' 1 8)) ∧
    (c.getLsbD 10 = true → c.getLsbD 9 = false → classify c = .body (c.extractLsb' 1 8)) ∧
    ∀ start : Nat, c.getLsbD 0 = false →
      DropReceiver.ready.samples start ((List.range 11).map c.getLsbD) =
        (if c = 0 then .holdOff else .ready, [{ char := classify c, start := start, stop := start + 11 }])) ∧
  (∀ time : Nat,
    DropReceiver.ready.sample time true = (.ready, none) ∧ DropReceiver.ready.sample time false = (.taking time 1 0, none) ∧
    DropReceiver.holdOff.sample time false = (.holdOff, none) ∧ DropReceiver.holdOff.sample time true = (.ready, none)) ∧
  (∀ (e : LineEngine) (r : DropReceiver) (l : LineNo) (c : DropChar) (time : Nat) (level : Bool),
    (e.state ∈ [LineState.idle, .awaiting, .backoff] → e.hear r time level = r.sample time level) ∧
    (e.state ∉ [LineState.idle, .awaiting, .backoff] →
      e.hear r time level = (if level then .ready else .holdOff, none) ∧ e.charCommand l c = none) ∧
    (e.state = .awaiting → e.charCommand l c = some (.replyCharacter l c)) ∧
    (e.state = .idle ∨ e.state = .backoff → e.charCommand l c = some (.strayCharacter l c))) ∧
  (∀ first second : ReceivedChar, first.stop ≤ second.start → first.stop + gapBetween first second = second.start ∧
    (gapFails (gapBetween first second) = true ↔ first.stop + 22 < second.start)) ∧
  ∀ (s : State) (l : LineNo), s.resetAsserted = false →
    ((s.engine l).state = .idle ∨ (s.engine l).state = .backoff →
      (∀ a : Octet, a ≠ 0 →
        exec (.strayCharacter l (.header a)) s =
          .next (s.onEngine l fun e =>
            { e with stats := { e.stats with strayFrames := min (e.stats.strayFrames + 1) 65535 } })) ∧
      exec (.strayCharacter l (.header 0)) s =
        .next (s.onEngine l fun e =>
          { e with stats := { e.stats with corruptFrames := min (e.stats.corruptFrames + 1) 65535 } }) ∧
      exec (.strayCharacter l .breakChar) s =
        .next (s.onEngine l fun e => { e with stats := { e.stats with breaks := min (e.stats.breaks + 1) 65535 } }) ∧
      exec (.strayCharacter l .framingError) s = .next s ∧
      ∀ o, exec (.strayCharacter l (.body o)) s = .next s) ∧
    ((s.engine l).state ≠ .idle → (s.engine l).state ≠ .backoff → ∀ c, exec (.strayCharacter l c) s = .next s)

/-- R15, R33, R44, R45: the guard's end begins the next attempt or work selection, the busy delay's end the next attempt once the guard has passed,
and the cycle floor's end the next poll cycle while the poll list holds a station. A timer that does not run ends nothing [log 3]. The model's choice: a busy
delay and a cycle floor end as their last millisecond passes, so what is left of them passes first [log 26]. -/
def Obligations.TimersEnd : Prop :=
  ∀ (s : State) (l : LineNo), s.resetAsserted = false →
    ((s.engine l).guardRunning = false → exec (.guardExpiry l) s = .next s) ∧
    ((s.engine l).guardRunning = true →
      ((s.engine l).state = .idle → (s.engine l).tx = none →
        exec (.guardExpiry l) s = .next ((s.onEngine l fun e => { e with guardRunning := false }).selectWork l).transmit) ∧
      ((s.engine l).state = .idle → (s.engine l).tx ≠ none →
        exec (.guardExpiry l) s =
          .next (s.onEngine l fun e => { e with guardRunning := false, state := .sending }).transmit) ∧
      ((s.engine l).state = .backoff → (s.engine l).busyRunning = true →
        exec (.guardExpiry l) s = .next (s.onEngine l fun e => { e with guardRunning := false }).transmit) ∧
      ((s.engine l).state = .backoff → (s.engine l).busyRunning = false →
        exec (.guardExpiry l) s =
          .next (s.onEngine l fun e => { e with guardRunning := false, state := .sending }).transmit)) ∧
    ((s.engine l).state = .backoff → (s.engine l).busyRunning = true →
      exec (.busyDelayExpiry l) s =
        .next ((s.elapse (s.engine l).busyLeft).onEngine l fun e =>
          { e with busyRunning := false, busyLeft := 0, state := if (s.engine l).guardRunning then .backoff else .sending })) ∧
    ((s.engine l).state ≠ .backoff ∨ (s.engine l).busyRunning = false → exec (.busyDelayExpiry l) s = .next s) ∧
    ((s.engine l).floorRunning = false → exec (.cycleFloorExpiry l) s = .next s) ∧
    ((s.engine l).floorRunning = true →
      let begins := (s.engine l).state ∈ [LineState.idle, .sending, .awaiting, .backoff] ∧
        (s.engine l).cycleState = .complete ∧ ∃ ix, s.onPollList l ix = true
      let u := s.elapse (s.engine l).floorLeft
      (begins →
        exec (.cycleFloorExpiry l) s =
          .next ((u.onEngine l fun e =>
            { e with
              cycleCount := e.cycleCount + 1, cursor := 0, cycleStart := some u.partTime, cycleState := .running
              floorLeft := e.params.cycleFloor.toNat, floorRunning := false }).selectWork l).transmit) ∧
      (¬ begins →
        exec (.cycleFloorExpiry l) s =
          .next ((u.onEngine l fun e => { e with floorRunning := false, floorLeft := 0 }).selectWork l).transmit))

/-! ## Lines: the poll cycle and work selection -/

/-- R42: when a station is due in cycle n; the pattern runs on through the wrap of the 16-bit count. -/
def Obligations.PollDueByClass : Prop :=
  ∀ (st : Station) (n : Nat), let c := BitVec.ofNat 16 n
    (st.state = .probing ∨ st.state = .resync → st.due c = true) ∧
    (st.state = .online → st.pollClass = .fast → st.due c = true) ∧
    (st.state = .online → st.pollClass = .normal → (st.due c = true ↔ (n + st.address.toNat) % 4 = 0)) ∧
    (st.state = .online → st.pollClass = .slow → (st.due c = true ↔ (n + st.address.toNat) % 16 = 0)) ∧
    (st.state = .missing → (st.due c = true ↔ (n + st.address.toNat) % 16 = 0)) ∧
    (st.state.polled = true ↔ st.state ∈ [StationState.probing, .online, .resync, .missing]) ∧
    (st.state.polled = false → st.due c = false)

/-- R41, R43, R30: the poll step due is that of the lowest-addressed station above the cursor and due; it is a POLL when ONLINE, else a CLEAR. R44, R45:
a RUNNING cycle with none left due is COMPLETE, and the next begins when its floor has passed and the poll list holds a station; where it held none, as a
station joins it, in a running line that is not HELD nor in the line clear of its start [log 20]. -/
def Obligations.PollStepsAndCycles : Prop :=
  ((∀ (s : State) (l : LineNo), let candidate := fun ix : StationIx =>
       (s.station ix).line = l ∧ (s.station ix).state.polled = true ∧
       (s.engine l).cursor.toNat < (s.station ix).address.toNat ∧ (s.station ix).due (s.engine l).cycleCount = true
     (∀ ix, s.pollDue l = some ix →
       (s.engine l).cycleState = .running ∧ candidate ix ∧
       ∀ other, candidate other → (s.station ix).address.toNat ≤ (s.station other).address.toNat) ∧
     (s.pollDue l = none → (s.engine l).cycleState = .running → ∀ ix, ¬ candidate ix)) ∧
   ∀ (s : State) (l : LineNo) (ix : StationIx),
     let a := (s.station ix).address
     let taken := fun (kind : TxKind) (type : FrameType) => s.onEngine l fun e =>
       { e with
         cursor := a, state := .sending, previousPoll := true
         tx := some
           { kind := kind, work := .pollStep, station := some ix, target := a
             frame := { address := a, type := type, bit := false, payload := [] }
             attemptLimit := 1, attemptsUsed := 0, heard := false, lastHeard := none, whollySent := 0, lastResult := none
             suspended := false } }
     ((s.station ix).state = .online → s.takePoll l ix = taken .poll .poll) ∧
     ((s.station ix).state ≠ .online → s.takePoll l ix = taken .clear .clear)) ∧
  (∀ (s : State) (l : LineNo) (turns : Nat), let e := s.engine l
     let begins := e.floorLeft = 0 ∧ ∃ ix, s.onPollList l ix = true
     let next := s.onEngine l fun e =>
       { e with
         cycleCount := e.cycleCount + 1, cursor := 0, cycleStart := some s.partTime, cycleState := .running
         floorLeft := e.params.cycleFloor.toNat, floorRunning := false }
     (e.cycleState = .running → s.pollDue l ≠ none → State.advanceCycle l (turns + 1) s = s) ∧
     (e.cycleState = .running → s.pollDue l = none → ¬ begins →
       State.advanceCycle l (turns + 2) s =
         s.onEngine l fun e => { e with cycleState := .complete, floorRunning := 0 < e.floorLeft }) ∧
     (e.cycleState = .running → s.pollDue l = none → begins →
       State.advanceCycle l (turns + 2) s = State.advanceCycle l turns next) ∧
     (e.cycleState = .complete → ¬ begins → State.advanceCycle l (turns + 1) s = s) ∧
     (e.cycleState = .complete → begins → State.advanceCycle l (turns + 1) s = State.advanceCycle l turns next)) ∧
  ∀ (s : State) (l : LineNo), let e := s.engine l
    let begins := (e.state ∈ [LineState.idle, .sending, .awaiting, .backoff] ∨ (e.state = .starting ∧ e.cycleAwaited = false)) ∧
      e.cycleState = .complete ∧ e.floorLeft = 0 ∧ (allStations.filter fun ix => s.onPollList l ix).length = 1
    (begins → s.pollListJoined l = s.onEngine l fun e =>
      { e with
        cycleCount := e.cycleCount + 1, cursor := 0, cycleStart := some s.partTime, cycleState := .running
        floorLeft := e.params.cycleFloor.toNat, floorRunning := false }) ∧
    (¬ begins → s.pollListJoined l = s)

/-- R38, R39: work selection in an IDLE engine with no transaction and no guard running takes an urgent entry, a poll step after NOT POLL, a normal
entry, a poll step; elsewhere it takes nothing. A selection that comes to a poll step advances the poll cycle first; at any other only a cycle floor that has
passed takes effect [log 11]. An entry taken is the first of its queue to be dispatchable: an order QUEUED for an ONLINE station, or a pass QUEUED, which is
one with no step in flight, whose next step is GROUP DATA or whose current member's station is ONLINE. -/
def Obligations.WorkSelectedInOrder : Prop :=
  (∀ (s : State) (l : LineNo),
    ((s.engine l).state ≠ .idle ∨ (s.engine l).tx ≠ none ∨ (s.engine l).guardRunning = true → s.selectWork l = s) ∧
    ((s.engine l).state = .idle → (s.engine l).tx = none → (s.engine l).guardRunning = false →
      let urgent := s.oldestDispatchable l .urgent
      let normal := s.oldestDispatchable l .normal
      let looked := State.advanceCycle l 40 s
      let begins := (s.engine l).cycleState = .complete ∧ (s.engine l).floorLeft = 0 ∧ ∃ ix, s.onPollList l ix = true
      ∀ passed : State,
        (begins →
          passed = s.onEngine l fun e =>
            { e with
              cycleCount := e.cycleCount + 1, cursor := 0, cycleStart := some s.partTime, cycleState := .running
              floorLeft := e.params.cycleFloor.toNat, floorRunning := false }) →
        (¬ begins → passed = s) →
        (∀ r, urgent = some r → s.selectWork l = passed.takeEntry l r) ∧
        (urgent = none → (s.engine l).previousPoll = false →
          (∀ ix, looked.pollDue l = some ix → s.selectWork l = looked.takePoll l ix) ∧
          (∀ r, looked.pollDue l = none → normal = some r → s.selectWork l = looked.takeEntry l r) ∧
          (looked.pollDue l = none → normal = none → s.selectWork l = looked)) ∧
        (urgent = none → (s.engine l).previousPoll = true →
          (∀ r, normal = some r → s.selectWork l = passed.takeEntry l r) ∧
          (∀ ix, normal = none → looked.pollDue l = some ix → s.selectWork l = looked.takePoll l ix) ∧
          (normal = none → looked.pollDue l = none → s.selectWork l = looked)))) ∧
  (∀ (s : State) (l : LineNo) (p : Priority) (r : OrderRecord), s.oldestDispatchable l p = some r ↔
    ∃ ahead behind, s.queue l p = ahead ++ r :: behind ∧ s.dispatchable r = true ∧ ∀ q ∈ ahead, s.dispatchable q = false) ∧
  (∀ (s : State) (r : OrderRecord) (station : StationRef), r.kind ≠ .groupPass → r.station = some station →
    (s.dispatchable r = true ↔ r.state = .queued ∧ (s.station station.index).state = .online)) ∧
  (∀ (s : State) (r : OrderRecord) (d : Delivery), r.kind = .groupPass → s.findDelivery r.number = some d →
    (s.dispatchable r = true ↔ r.state = .queued ∧
      (r.nextStep = .groupData ∨
       ∃ place m, d.current r.line = some (place, m) ∧ (s.station m.station.index).state = .online)) ∧
    (s.PassesQueued → r ∈ s.orders → s.dispatchable r = true → r.passStep = none)) ∧
  ∀ (d : Delivery) (l : LineNo) (place : Nat) (m : DeliveryMember), d.current l = some (place, m) ↔
    d.snapshot[place]? = some m ∧ m.station.line = l ∧ m.state.terminal = false ∧
    ∀ k q, k < place → d.snapshot[k]? = some q → q.station.line = l → q.state.terminal = true

/-- R30, R40, R89: an order taken becomes ACTIVE and its transaction begins at once, with the frame of its kind built from the record and the
station's sequence bits. R5, R6, R196: a frame's octets, with its control octet and its CRC. R1: the engine that sends it drives its characters, the first a
header, each as 11 bits without a gap; an engine that drives nothing has its output at mark, as after a reset. -/
def Obligations.OrderTaken : Prop :=
  (∀ f : DropFrame,
    let control : Octet := f.type.code * 16 + (if f.bit then 1 else 0)
    let inner := f.address :: control :: octet f.payload.length :: f.payload
    let rest := control :: octet f.payload.length :: f.payload ++ wordOctets (crc inner)
    f.octets = inner ++ wordOctets (crc inner) ∧ f.characters = (f.address, true) :: rest.map fun o => (o, false)) ∧
  (([.poll, .clear, .data, .fetch, .join, .leave, .groupData, .groupCheck, .groupRepair, .status, .ack, .nak].map
    FrameType.code) = [1, 2, 3, 4, 5, 6, 7, 8, 9, 10, 11, 12]) ∧
  (∀ (f : DropFrame) (e : LineEngine) (t : Transaction) (time : Nat),
    f.bits = (f.characters.flatMap fun c =>
      false :: [0, 1, 2, 3, 4, 5, 6, 7].map (fun k => c.1.getLsbD k) ++ [c.2, true]) ∧
    (e.state = .sending → e.tx = some t → e.dataOut time = t.frame.bits.getD time true) ∧
    (e.state ∉ [LineState.sending, .starting, .stopping] → e.dataOut time = true)) ∧
  (∀ (s : State) (l : LineNo) (cause : StartCause) (rate : Octet) (time : Nat),
    (State.reset.engine l).dataOut time = true ∧ ((s.freshStart cause rate).engine l).dataOut time = true) ∧
  ∀ (s : State) (l : LineNo) (r : OrderRecord) (station : StationRef), r.station = some station →
    let taken := fun (kind : TxKind) (type : FrameType) (bit : Bool) (payload : List Octet) =>
      (s.updateOrder r.number fun r => { r with state := .active }).onEngine l fun e =>
        { e with
          state := .sending, previousPoll := false
          tx := some
            { kind := kind, work := .order r.number, station := some station.index, target := station.address
              frame := { address := station.address, type := type, bit := bit, payload := payload }
              attemptLimit := 1 + e.params.retryLimit.toNat, attemptsUsed := 0, heard := false, lastHeard := none
              whollySent := 0, lastResult := none, suspended := false } }
    (r.kind = .send →
      s.takeEntry l r = taken .send .data (s.station station.index).sendBit (readPayload s.pool r.blocks r.length)) ∧
    (r.kind = .fetch → s.takeEntry l r = taken .fetch .fetch (s.station station.index).fetchBit []) ∧
    (∀ g, r.group = some g → r.kind = .join → s.takeEntry l r = taken .join .join false [octet g.val]) ∧
    ∀ g, r.group = some g → r.kind = .leave → s.takeEntry l r = taken .leave .leave false [octet g.val]

/-! ## Stations -/

/-- R55, R70: the checks of the requests that name a station, in their order: BAD VALUE, NO SUCH, STATE. STATION QUERY of an entry is accepted in every
state; the entry found is one that is not FREE and carries the line and address. -/
def Obligations.StationChecksInOrder : Prop :=
  (∀ (s : State) (l : LineNo) (a : Octet),
    (∀ ix, s.findStation l a = some ix →
      (s.station ix).state ≠ .free ∧ (s.station ix).line = l ∧ (s.station ix).address = a) ∧
    (s.findStation l a = none → ∀ ix, (s.station ix).state ≠ .free → (s.station ix).line = l → (s.station ix).address ≠ a)) ∧
  ∀ (tag line address pollClass collect : Octet) (s u : State) (i : Instr),
    i ∈ [Instr.stationRemove tag [line, address], .stationSuspend tag [line, address], .stationResume tag [line, address],
      .stationQuery tag [line, address], .stationSet tag [line, address, pollClass, collect]] → Taken i s u →
    let settable := pollClass.toNat ≤ 2 ∧ collect.toNat ≤ 1
    (3 < line.toNat ∨ address.toNat = 0 ∨ 239 < address.toNat → exec i s = .next (u.answering i .badValue [])) ∧
    (¬ settable → i = .stationSet tag [line, address, pollClass, collect] → exec i s = .next (u.answering i .badValue [])) ∧
    ∀ l : LineNo, settable → line.toNat = l.val → 1 ≤ address.toNat → address.toNat ≤ 239 →
      (u.findStation l address = none → exec i s = .next (u.answering i .noSuch [])) ∧
      ∀ ix, u.findStation l address = some ix →
        ((u.station ix).state = .retiring → i ≠ .stationQuery tag [line, address] → exec i s = .next (u.answering i .state [])) ∧
        (i = .stationQuery tag [line, address] → ∃ octets, exec i s = .next (u.answering i .ok octets)) ∧
        ((u.station ix).state ≠ .suspended → i = .stationResume tag [line, address] → exec i s = .next (u.answering i .state []))

/-- R71: STATION ADD refuses a value out of range, then a line and address in use, then a full table; accepted, it fills the FREE entry of lowest
index, PROBING with every other field cleared, and the station joins its line's poll list. -/
def Obligations.StationAdded : Prop :=
  ∀ (tag line address pollClass collect : Octet) (s u : State), let i := Instr.stationAdd tag [line, address, pollClass, collect]
    Taken i s u →
      (3 < line.toNat ∨ address.toNat = 0 ∨ 239 < address.toNat ∨ 2 < pollClass.toNat ∨ 1 < collect.toNat →
        exec i s = .next (u.answering i .badValue [])) ∧
      ∀ (l : LineNo) (c : PollClass) (k : Bool), line.toNat = l.val → 1 ≤ address.toNat → address.toNat ≤ 239 →
        pollClass = c.code → collect = truth k →
        (∀ ix, u.findStation l address = some ix → exec i s = .next (u.answering i .duplicate [])) ∧
        (u.findStation l address = none → (∀ ix, (u.station ix).state ≠ .free) →
          exec i s = .next (u.answering i .tableFull [])) ∧
        ∀ ix : StationIx, u.findStation l address = none → (u.station ix).state = .free →
          (∀ j : StationIx, j.val < ix.val → (u.station j).state ≠ .free) →
          exec i s =
            .next ((((u.setStation ix
              { line := l, address := address, state := .probing, pollClass := c, collect := k, missCount := 0, sendBit := false
                fetchBit := false, lastStatus := none, lastHeard := none, resyncCause := none, lapsed := 0, collectDue := false
                collectOutstanding := false, latch := none }).pollListJoined l).selectWork l).answering i .ok [octet ix.val])

/-- R72, R73, R97, R113, R126, R146: STATION REMOVE, in this order: its queued orders end REMOVED; each group ascending loses its member, whose open delivery
member becomes DROPPED; its watches are freed, its latch discarded. The entry is FREE and cleared, or RETIRING with a transaction in flight; nothing names it as
a member, a watch or a latched source. The reply says the watches freed and the state left. -/
def Obligations.StationRemoved : Prop :=
  ∀ (tag line address : Octet) (s u : State) (l : LineNo) (ix : StationIx), let i := Instr.stationRemove tag [line, address]
    Taken i s u → line.toNat = l.val → u.names l address ix → (u.station ix).state ≠ .retiring →
    let left := (List.finRange 16).foldl (fun v g =>
      (v.setGroup g { v.group g with members := (v.group g).members.filter fun m => m.station.index != ix }).settleMember ix .dropped g)
      (u.endStationOrders ix .removed)
    let freed := (List.finRange 32).foldl (fun v w =>
      if (v.watch w).watches ix then
        ({ v.setWatch w Watch.cleared with sources := v.sources.filter fun x => x != .watch w } : State)
      else v) left
    let bare := ({ freed with sources := freed.sources.filter fun x => x != .station ix } : State).onStation ix fun st =>
      { st with latch := none }
    let t := (if u.inFlight ix then bare.onStation ix fun st =>
        { st with state := .retiring, collectDue := if st.state = .online then false else st.collectDue }
      else bare.setStation ix Station.cleared).selectWork l
    exec i s = .next (t.answering i .ok [octet (u.watchCount ix), if u.inFlight ix then 6 else 0]) ∧
      (u.inFlight ix = false → t.station ix = Station.cleared) ∧
      (u.inFlight ix = true → (t.station ix).state = .retiring ∧ (t.station ix).latch = none) ∧
      (∀ g : GroupNo, ∀ m ∈ (t.group g).members, m.station.index ≠ ix) ∧
      (∀ w : WatchNo, (t.watch w).watches ix = false) ∧ Source.station ix ∉ t.sources

/-- R74, R76, R77: STATION SUSPEND ends the station's queued orders, takes it down in its deliveries and latches DOWN where it was present;
one already SUSPENDED changes nothing. RESUME is PROBING with miss count 0. SET replaces class and collect option; off clears collect-due. -/
def Obligations.StationSuspendResumeSet : Prop :=
  ∀ (tag line address : Octet) (s u : State) (l : LineNo) (ix : StationIx), line.toNat = l.val → u.names l address ix →
    (let i := Instr.stationSuspend tag [line, address]
     Taken i s u →
      ((u.station ix).state = .suspended →
        exec i s = .next (u.answering i .ok [truth (u.inFlight ix)])) ∧
      ((u.station ix).state ∈ [StationState.probing, .online, .resync, .missing] →
        let t := ((u.onStation ix fun st =>
          { st with
            state := .suspended
            collectDue := if st.state = .online then false else st.collectDue }).endStationOrders ix
              .suspended).deliveriesStationDown ix
        let v := if (u.station ix).state = .online ∨ (u.station ix).state = .resync then t.latchPresence ix .down false else t
        exec i s = .next ((v.selectWork l).answering i .ok [truth (u.inFlight ix)]))) ∧
    (let i := Instr.stationResume tag [line, address]
     Taken i s u → (u.station ix).state = .suspended →
      exec i s =
        .next ((((u.onStation ix fun st => { st with state := .probing, missCount := 0 }).pollListJoined l).selectWork
          l).answering i .ok [])) ∧
    ∀ (c : PollClass) (k : Bool), let i := Instr.stationSet tag [line, address, c.code, truth k]
      Taken i s u → (u.station ix).state ≠ .retiring →
      exec i s =
        .next ((u.onStation ix fun st =>
          { st with pollClass := c, collect := k, collectDue := k && st.collectDue }).answering i .ok [])

/-- R60, R61, R62, R73: a result reaches its station. A FREE or SUSPENDED entry takes nothing, a RETIRING one becomes FREE; else a heard result
clears the miss count, an unanswered one raises it up to 15 and at the line's miss limit makes the entry MISSING, before any other rule. -/
def Obligations.MissesCounted : Prop :=
  ∀ (s : State) (ix : StationIx) (r : TxResult),
    ((s.station ix).state = .free ∨ (s.station ix).state = .suspended → s.stationResult ix r = s) ∧
    ((s.station ix).state = .retiring → s.stationResult ix r = s.setStation ix Station.cleared) ∧
    ((s.station ix).state ∈ [StationState.probing, .online, .resync, .missing] → ∀ st : Station,
      (r.heard = true → st = { s.station ix with missCount := 0, lastHeard := r.lastHeard }) →
      (r.heard = false → r.unanswered = true →
        st = { s.station ix with missCount := min ((s.station ix).missCount + 1) 15 }) →
      (r.heard = false → r.unanswered = false → st = s.station ix) →
      let misses := r.unanswered = true ∧ (s.engine st.line).params.missLimit.toNat ≤ st.missCount ∧ st.state ≠ .missing
      (misses →
        let t := ((s.setStation ix
          { st with
            state := .missing
            collectDue := if st.state = .online then false else st.collectDue }).endStationOrders ix
              .stationDown).deliveriesStationDown ix
        (st.state = .probing → s.stationResult ix r = t) ∧
        (st.state = .online ∨ st.state = .resync → s.stationResult ix r = t.latchPresence ix .down false)) ∧
      (¬ misses → s.stationResult ix r = (s.setStation ix st).applyResult ix r))

/-- R63, R65, R66: what a result changes in its entry: a SEND's ACK and a FETCH's DATA toggle their bits, a SEND in doubt makes RESYNC, a STATUS is
judged and stored. R67, R57: a CLEAR's ACK clears the bits, lapses the memberships, makes ONLINE and latches UP by the state and cause before. -/
def Obligations.ResultsTaken : Prop :=
  (∀ (s : State) (ix : StationIx) (r : TxResult),
     (∀ b, r.kind = .send → r.outcome = .good (.ack b) →
       s.applyResult ix r = s.onStation ix fun st => { st with sendBit := !st.sendBit }) ∧
     (∀ b p, r.kind = .fetch → r.outcome = .good (.data b p) →
       s.applyResult ix r = s.onStation ix fun st => { st with fetchBit := !st.fetchBit }) ∧
     (r.kind = .send → 0 < r.whollySent → (s.station ix).state = .online →
       (r.outcome = .noReply ∨ r.outcome = .aborted ∨ ∃ cause, r.outcome = .corrupt cause) →
       s.applyResult ix r =
         s.onStation ix fun st => { st with state := .resync, collectDue := false, resyncCause := some .doubt }) ∧
     (∀ word dataWaiting restarted, r.kind = .poll → r.outcome = .good (.status word dataWaiting restarted) →
       (s.station ix).state = .online →
       let before := if restarted then
         (s.onStation ix fun st => { st with state := .resync, collectDue := false, resyncCause := some .restart }).lapse ix
         else s
       s.applyResult ix r =
         ((before.judgeWatches ix (s.station ix).lastStatus word (r.lastHeard.getD s.partTime)).applyCollect ix
           dataWaiting).onStation ix fun st => { st with lastStatus := some word }) ∧
     (r.kind ∉ [TxKind.poll, .clear, .send, .fetch] → s.applyResult ix r = s) ∧
     ((∀ reply, r.outcome ≠ .good reply) → r.kind ≠ .send → s.applyResult ix r = s) ∧
     (r.kind = .send → r.outcome ∈ [TxOutcome.good (.nak .refused), .busy, .cancelled, .lineFault] → s.applyResult ix r = s) ∧
     (r.kind = .fetch → r.outcome = .good (.nak .empty) → s.applyResult ix r = s)) ∧
  (∀ (s : State) (ix : StationIx) (r : TxResult) (b : Bool), r.kind = .clear → r.outcome = .good (.ack b) →
     let before := s.station ix
     let t := ((s.onStation ix fun st => { st with sendBit := false, fetchBit := false }).lapse ix).onStation ix fun st =>
       { st with state := .online, missCount := 0, lastStatus := none }
     let settle := fun v : State => v.onStation ix fun st => { st with resyncCause := none }
     let lapses := ∃ g : GroupNo, ∃ m ∈ (s.group g).members, m.station.index = ix ∧ m.state = .active
     (before.state = .probing ∨ before.state = .missing →
       s.applyResult ix r = settle (t.latchPresence ix .up (before.resyncCause = some .restart))) ∧
     (before.state = .resync → before.resyncCause = some .restart →
       s.applyResult ix r = settle (t.latchPresence ix .up true)) ∧
     (before.state = .resync → before.resyncCause = some .doubt → lapses →
       s.applyResult ix r = settle (t.latchPresence ix .up false)) ∧
     (before.state = .resync → before.resyncCause = some .doubt → ¬ lapses → s.applyResult ix r = settle t))

/-! ## Orders -/

/-- R85, R86, R87, R81, R83: the checks of SEND and FETCH in their order; an order accepted takes record, free blocks of lowest number, reservation and
number in one act, its payload is copied, and it stands at its queue's tail when its line's engine is told. -/
def Obligations.OrderChecksAndAcceptance : Prop :=
  ∀ (tag line address priority n : Octet) (payload data : List Octet) (i : Instr) (kind : OrderKind) (needed : Nat) (s u : State),
    (i = .send tag (line :: address :: priority :: 0 :: n :: payload) ∧ payload.length = n.toNat ∧ n.toNat ≤ 120 ∧
      kind = .send ∧ data = payload ∧ needed = (payload.length + 31) / 32) ∨
    (i = .fetch tag [line, address, priority, 0] ∧ kind = .fetch ∧ data = [] ∧ needed = 4) →
    Taken i s u →
    (1 < priority.toNat ∨ 3 < line.toNat ∨ address.toNat = 0 ∨ 239 < address.toNat → exec i s = .next (u.answering i .badValue [])) ∧
    ∀ (l : LineNo) (p : Priority), priority = p.code → line.toNat = l.val → 1 ≤ address.toNat → address.toNat ≤ 239 →
      (u.findStation l address = none → exec i s = .next (u.answering i .noSuch [])) ∧
      ∀ ix, u.findStation l address = some ix →
        let refusal : Option ResultCode :=
          if (u.station ix).state = .suspended ∨ (u.station ix).state = .retiring then some .state
          else if (u.station ix).state = .missing then some .stationDown
          else if (u.engine l).state = .off ∨ (u.engine l).state = .stopping then some .lineOff
          else if 40 ≤ u.orders.length then some .noRecord
          else if u.freeBlocks.length < needed then some .noBuffer
          else if 40 ≤ u.slotsInUse then some .reportFull
          else none
        (∀ code, refusal = some code → exec i s = .next (u.answering i code [])) ∧
        (refusal = none →
          exec i s =
            .next ((({ u with
              orderCounter := nextNumber u.numberToGive
              reserved := u.reserved + 1
              pool := writePayload u.pool (u.freeBlocks.take needed) data
              orders := u.orders ++
                [{ number := u.numberToGive, kind := kind, source := .host, priority := p, line := l
                   station := some { index := ix, line := l, address := address }, group := none, state := .queued
                   cancelFlag := false, length := data.length, blocks := u.freeBlocks.take needed, nextStep := .groupData
                   passStep := none }] } : State).selectWork l).answering i .ok (wordOctets u.numberToGive)))

/-- R151, R152, R153: the free blocks are those of the pool that nothing holds, ascending, and with those held they total 160. A payload is written in
order into its blocks, reads back whole, and leaves every other octet of the pool as it was. -/
def Obligations.PayloadStoredInBlocks : Prop :=
  (∀ (s : State) (b : Nat), b ∈ s.freeBlocks ↔ b < 160 ∧ b ∉ s.heldBlocks) ∧
  (∀ s : State, s.freeBlocks.Pairwise (· < ·)) ∧
  (∀ s : State, s.BlocksAccounted → s.freeBlocks.length + s.heldBlocks.length = 160) ∧
  (∀ (m : Memory) (blocks : List Nat) (payload : List Octet) (a : Nat), m.wf = true →
    a ∉ (blockAddresses blocks).take payload.length → readOctet (writePayload m blocks payload) a = readOctet m a) ∧
  (∀ (m : Memory) (blocks : List Nat) (payload : List Octet), m.wf = true → blocks.Nodup →
    payload.length ≤ 32 * blocks.length → readPayload (writePayload m blocks payload) blocks payload.length = payload) ∧
  ∀ (blocks : List Nat) (k : Nat), k < 32 * blocks.length →
    (blockAddresses blocks)[k]? = (blocks[k / 32]?).map fun b => 32 * b + k % 32

/-- R81 in part: with the records within their stores and a counter that is not 0, which every step keeps (StoresAndPlacesKept), the number given is the
first one not in use from the counter on, never 0 and found within 45 steps; the counter steps from 65535 to 1. -/
def Obligations.NumbersGiven : Prop :=
  (∀ n : Word, nextNumber n ≠ 0 ∧ (n = 0xFFFF → nextNumber n = 1) ∧ (n ≠ 0xFFFF → nextNumber n = n + 1)) ∧
  ∀ s : State, s.RecordsBounded → s.orderCounter ≠ 0 →
    s.numberToGive ≠ 0 ∧ s.numberToGive ∉ s.numbersInUse ∧
    ∃ k ≤ 44, s.numberToGive = nextNumber^[k] s.orderCounter ∧ ∀ j < k, nextNumber^[j] s.orderCounter ∈ s.numbersInUse

/-- R100, R101, R131, R132, R82: CANCEL of an order by its state and its engine's; of a delivery, AT ONCE when no step of it is in flight; of a number
not in use, NO SUCH. -/
def Obligations.CancelByState : Prop :=
  ∀ (tag high low : Octet) (s u : State), let i := Instr.cancel tag [high, low]; let n := wordOf high low
    Taken i s u →
    (u.findOrder n = none → u.findDelivery n = none → exec i s = .next (u.answering i .noSuch [])) ∧
    (∀ r, u.findOrder n = some r →
      (r.state = .queued →
        exec i s =
          .next (((u.completeOrder n
            { outcome := .cancelled, attempts := 0, uncertain := false, lateCancel := false, payload := [] }).selectWork
              r.line).answering i .ok [r.kind.code, 1])) ∧
      (r.state = .active → (u.engine r.line).state = .sending ∨ (u.engine r.line).state = .awaiting →
        exec i s = .next ((u.updateOrder n fun r => { r with cancelFlag := true }).answering i .ok [r.kind.code, 2])) ∧
      (r.state = .active → (u.engine r.line).state = .backoff →
        exec i s =
          .next ((((u.onEngine r.line fun e => { e with state := .idle, busyRunning := false, busyLeft := 0 }).endTransaction r.line
            .cancelled false false).selectWork r.line).answering i .ok [r.kind.code, 1])) ∧
      (r.state = .active → (u.engine r.line).state ∈ [LineState.idle, .held, .starting] →
        exec i s =
          .next (((u.endTransaction r.line .cancelled false false).selectWork r.line).answering i .ok [r.kind.code, 1]))) ∧
    ∀ d, u.findOrder n = none → u.findDelivery n = some d →
      (d.cancelling = true → exec i s = .next (u.answering i .ok [5, 2])) ∧
      (d.cancelling = false →
        exec i s = .next ((allLines.foldl State.selectWork (u.cancelDelivery n)).answering i .ok [5, if u.anyStep n then 2 else 1]))

/-- R90, R91, R93, R94, R95: an order's completion, one act after its hand-off: its ORDER DONE report takes its reserved slot and the next report number,
and its record is freed; a FETCH's data is written into the first blocks and passes with them; every other block is free again. R97: the queued orders of a
station end in the urgent queue, then in the normal one, each from oldest to newest, with attempts 0; a pass and an ACTIVE order stay. -/
def Obligations.OrderCompletes : Prop :=
  (∀ (s : State) (ix : StationIx) (o : OrderOutcome),
    let queued := fun r : OrderRecord =>
      r.kind != .groupPass && r.state = .queued && r.line = (s.station ix).line && r.station.any fun st => st.index = ix
    let ended := (s.orders.filter fun r => queued r && r.priority = .urgent) ++
      s.orders.filter fun r => queued r && r.priority = .normal
    s.endStationOrders ix o = ended.foldl (fun t r =>
      t.completeOrder r.number { outcome := o, attempts := 0, uncertain := false, lateCancel := false, payload := [] }) s ∧
    (s.NumbersDistinct →
      (s.endStationOrders ix o).orders = s.orders.filter (fun r => !queued r) ∧
      (s.endStationOrders ix o).reports.length = s.reports.length + ended.length)) ∧
  (∀ (s : State) (n : Word) (r : OrderRecord) (c : Completion), s.findOrder n = some r →
    let u := s.handOff { r with state := .done } c.outcome
    let filled := fun (kept : List Nat) (length : Nat) (pool : Memory) =>
      ({ u with
        orders := u.orders.eraseP fun r => r.named n
        pool := pool
        reserved := u.reserved - 1
        reportCounter := u.reportCounter + 1
        reports := u.reports ++
          [{ number := u.reportCounter, blocks := kept, length := length, sent := false
             items := .orderDone
              { number := r.number, kind := r.kind, source := r.source, station := r.station, group := r.group
                outcome := c.outcome, attempts := c.attempts, uncertain := c.uncertain, lateCancel := c.lateCancel
                time := s.partTime } }] } : State)
    (c.outcome ≠ .data → s.completeOrder n c = filled [] 0 u.pool) ∧
    (c.outcome = .data →
      let kept := r.blocks.take ((c.payload.length + 31) / 32)
      s.completeOrder n c = filled kept c.payload.length (writePayload u.pool kept c.payload))) ∧
  (∀ (s : State) (r : OrderRecord) (o : OrderOutcome),
    (r.kind = .send → s.handOff r o = s) ∧
    (r.kind = .fetch → r.source = .host → s.handOff r o = s) ∧
    (∀ st g, r.station = some st → r.group = some g →
      (r.kind = .join → s.handOff r o = s.joinCompleted g st.index o) ∧
      (r.kind = .leave → s.handOff r o = s.leaveCompleted g st.index)) ∧
    (∀ st, r.kind = .fetch → r.source = .collect → r.station = some st →
      ((s.station st.index).state = .free → s.handOff r o = s) ∧
      ((s.station st.index).state ≠ .free →
        s.handOff r o = s.onStation st.index fun st => { st with collectOutstanding := false }))) ∧
  ∀ (s : State) (n : Word) (r : TxResult), ∃ c : Completion,
    s.orderResult n r = s.completeOrder n c ∧ c.attempts = r.attemptsUsed ∧ c.lateCancel = r.lateCancel ∧
    (∀ b, r.outcome = .good (.ack b) → c.outcome = .accepted) ∧
    (r.outcome = .good (.nak .refused) → c.outcome = .refused) ∧
    (∀ b payload, r.outcome = .good (.data b payload) → c.outcome = .data ∧ c.payload = payload) ∧
    (r.outcome = .good (.nak .empty) → c.outcome = .empty) ∧ (r.outcome = .busy → c.outcome = .busy) ∧
    (∀ cause, r.outcome = .corrupt cause → c.outcome = .corrupt cause) ∧ (r.outcome = .noReply → c.outcome = .noReply) ∧
    (r.outcome = .cancelled → c.outcome = .cancelled) ∧ (r.outcome = .aborted → c.outcome = .aborted) ∧
    (r.outcome = .lineFault → c.outcome = .lineFault) ∧
    (r.outcome ≠ .sent → (∀ word d t, r.outcome ≠ .good (.status word d t)) →
      r.outcome ≠ .good (.nak .missed) → r.outcome ≠ .good (.nak .full) →
      (c.uncertain = true ↔ r.kind = .send ∧ 0 < r.whollySent ∧
        (r.outcome ∈ [TxOutcome.noReply, .aborted, .cancelled, .lineFault] ∨ ∃ cause, r.outcome = .corrupt cause)))

/-! ## Groups and deliveries -/

/-- R108, R109, R111: the checks of MEMBER ADD and MEMBER DROP in their order. MEMBER ADD makes a JOINING member and a JOIN order; MEMBER DROP removes a
LAPSED member at once with the order number 0, and makes an ACTIVE one LEAVING with a LEAVE order. -/
def Obligations.MemberRequests : Prop :=
  ∀ (tag group line address : Octet) (s u : State) (i : Instr),
    i = .memberAdd tag [group, line, address] ∨ i = .memberDrop tag [group, line, address] → Taken i s u →
    (15 < group.toNat ∨ 3 < line.toNat ∨ address.toNat = 0 ∨ 239 < address.toNat → exec i s = .next (u.answering i .badValue [])) ∧
    ∀ (g : GroupNo) (l : LineNo), group.toNat = g.val → line.toNat = l.val → 1 ≤ address.toNat → address.toNat ≤ 239 →
      (u.findStation l address = none → exec i s = .next (u.answering i .noSuch [])) ∧
      ∀ ix, u.findStation l address = some ix →
        let member := (u.group g).memberOf ix
        let station : StationRef := { index := ix, line := l, address := address }
        let stationRefusal : Option ResultCode :=
          if (u.station ix).state = .suspended ∨ (u.station ix).state = .retiring then some .state
          else if (u.station ix).state = .missing then some .stationDown
          else if (u.engine l).state = .off ∨ (u.engine l).state = .stopping then some .lineOff
          else none
        let resourceRefusal : Option ResultCode :=
          if 40 ≤ u.orders.length then some .noRecord else if 40 ≤ u.slotsInUse then some .reportFull else none
        let ordered := fun (members : List Member) (kind : OrderKind) =>
          Host.Outcome.next (φ := Fault) (ρ := Refusal) ((({ u with
            groups := u.groups.set g.val { members := members, seq := (u.group g).seq } g.isLt
            orderCounter := nextNumber u.numberToGive
            reserved := u.reserved + 1
            orders := u.orders ++
              [{ number := u.numberToGive, kind := kind, source := .host, priority := .normal, line := l
                 station := some station, group := some g, state := .queued, cancelFlag := false, length := 0, blocks := []
                 nextStep := .groupData, passStep := none }] } : State).selectWork l).answering i .ok
                  (wordOctets u.numberToGive))
        let become := fun state : MemberState =>
          (u.group g).members.map fun m => if m.station.index = ix then { m with state := state } else m
        (i = .memberAdd tag [group, line, address] →
          let refusal : Option ResultCode :=
            stationRefusal.or (if (u.deliveryOf g).isSome then some .groupBusy
              else if ∃ m, member = some m ∧ m.state ≠ .lapsed then some .duplicate
              else if member = none ∧ 24 ≤ (u.group g).members.length then some .tableFull
              else resourceRefusal)
          (∀ code, refusal = some code → exec i s = .next (u.answering i code [])) ∧
          (refusal = none → member = none →
            exec i s = ordered ((u.group g).members ++ [{ station := station, state := .joining }]) .join) ∧
          (refusal = none → member ≠ none → exec i s = ordered (become .joining) .join)) ∧
        (i = .memberDrop tag [group, line, address] →
          ((u.deliveryOf g).isSome = true → exec i s = .next (u.answering i .groupBusy [])) ∧
          (u.deliveryOf g = none →
            (member = none → exec i s = .next (u.answering i .noSuch [])) ∧
            ∀ m, member = some m →
              (m.state = .joining ∨ m.state = .leaving → exec i s = .next (u.answering i .state [])) ∧
              (m.state = .lapsed →
                exec i s =
                  .next (((u.setGroup g
                    { members := (u.group g).members.filter fun m => m.station.index != ix, seq := (u.group g).seq }).onStation ix
                      fun st => { st with lapsed := st.lapsed &&& ~~~ ((1 : BitVec 16) <<< g.val) }).answering i .ok [0, 0])) ∧
              (m.state = .active →
                (∀ code, stationRefusal.or resourceRefusal = some code → exec i s = .next (u.answering i code [])) ∧
                (stationRefusal.or resourceRefusal = none → exec i s = ordered (become .leaving) .leave))))

/-- R115 to R120: the checks of GROUP SEND in their order; accepted, it takes number, record, blocks and reservation in one act, steps the sequence number
on, takes the snapshot of the ACTIVE members with their starting states, and makes a pass for each line with a WAITING member. -/
def Obligations.GroupSendRules : Prop :=
  ∀ (tag group priority n : Octet) (payload : List Octet) (s u : State), payload.length = n.toNat → n.toNat ≤ 119 →
    let i := Instr.groupSend tag (group :: priority :: 0 :: n :: payload)
    Taken i s u →
    (15 < group.toNat ∨ 1 < priority.toNat → exec i s = .next (u.answering i .badValue [])) ∧
    ∀ (g : GroupNo) (p : Priority), group.toNat = g.val → priority = p.code →
      let snapshot : List DeliveryMember := ((u.group g).members.filter fun m => m.state = .active).map fun m =>
        { station := m.station, attempts := 0, repaired := false, fate := none
          state :=
            if ((u.station m.station.index).state = .online ∨ (u.station m.station.index).state = .resync) ∧
              (u.engine m.station.line).state ≠ .off ∧ (u.engine m.station.line).state ≠ .stopping then .waiting
            else .unreached }
      let lines := allLines.filter fun l => snapshot.any fun m => m.station.line = l && m.state = .waiting
      let needed := (payload.length + 31) / 32
      let refusal : Option ResultCode :=
        if (u.deliveryOf g).isSome then some .groupBusy
        else if 4 ≤ u.deliveries.length then some .noDelivery
        else if snapshot = [] then some .state
        else if lines = [] then some .stationDown
        else if 40 < u.orders.length + lines.length then some .noRecord
        else if u.freeBlocks.length < needed then some .noBuffer
        else if 40 ≤ u.slotsInUse then some .reportFull
        else none
      (∀ code, refusal = some code → exec i s = .next (u.answering i code [])) ∧
      (refusal = none →
        let number := u.numberToGive
        let seq := (u.group g).seq + 1
        let excluded := (u.group g).members.countP fun m => m.state != .active
        exec i s =
          .next ((lines.foldl State.selectWork ({ u with
            groups := u.groups.set g.val { members := (u.group g).members, seq := seq } g.isLt
            orderCounter := nextNumber number
            reserved := u.reserved + 1
            pool := writePayload u.pool (u.freeBlocks.take needed) payload
            deliveries := u.deliveries ++
              [{ number := number, group := g, seq := seq, priority := p, cancelling := false, length := payload.length
                 blocks := u.freeBlocks.take needed, excluded := excluded, outstanding := lines.length, snapshot := snapshot
                 roster := (u.group g).members.map Member.station }]
            orders := u.orders ++ lines.map fun l =>
              { number := number, kind := .groupPass, source := .delivery, priority := p, line := l, station := none
                group := none, state := .queued, cancelFlag := false, length := 0, blocks := [], nextStep := .groupData
                passStep := none } } : State)).answering i .ok
                  (wordOctets number ++
                    [seq.zeroExtend 8, octet snapshot.length, octet (snapshot.countP fun m => m.state = .waiting),
                     octet (snapshot.countP fun m => m.state = .unreached), octet excluded])))

/-- R7, R120 to R125: the transaction of a pass's next step, GROUP DATA to the group address, or GROUP CHECK or GROUP REPAIR to its current member; and
what a step's result makes of its member: attempts, state by the reply, then its pending fate or CANCELLED where it is still open. -/
def Obligations.PassSteps : Prop :=
  (∀ (s : State) (l : LineNo) (r : OrderRecord) (d : Delivery), r.kind = .groupPass → s.findDelivery r.number = some d →
    let header : Octet := (octet d.group.val <<< 4) ||| d.seq.zeroExtend 8
    let data := readPayload s.pool d.blocks d.length
    let step := fun (t : State) (work : PassStep) (kind : TxKind) (station : Option StationIx) (target : Octet)
        (frame : DropFrame) (limit : LineEngine → Nat) =>
      (t.updatePass d.number l fun r => { r with state := .active, passStep := some work }).onEngine l fun e =>
        { e with
          state := .sending, previousPoll := false
          tx := some
            { kind := kind, work := .pass d.number work, station := station, target := target, frame := frame
              attemptLimit := limit e, attemptsUsed := 0, heard := false, lastHeard := none, whollySent := 0
              lastResult := none, suspended := false } }
    (r.nextStep = .groupData →
      s.takeEntry l r = step s .groupData .groupData none (octet d.group.val)
        { address := 0xF0 + octet d.group.val, type := .groupData, bit := false, payload := header :: data } fun _ => 1) ∧
    ∀ place m, r.nextStep = .members → d.current l = some (place, m) →
      (m.state ≠ .repairing →
        s.takeEntry l r = step (s.setMember d.number place fun m => { m with state := .checking }) (.member place) .groupCheck
          (some m.station.index) m.station.address
          { address := m.station.address, type := .groupCheck, bit := false, payload := [header] }
          fun e => 1 + e.params.retryLimit.toNat) ∧
      (m.state = .repairing →
        s.takeEntry l r = step (s.setMember d.number place id) (.member place) .groupRepair (some m.station.index)
          m.station.address { address := m.station.address, type := .groupRepair, bit := false, payload := header :: data }
          fun e => 1 + e.params.retryLimit.toNat)) ∧
  (∀ (m : DeliveryMember) (kind : TxKind) (o : TxOutcome) (attempts : Nat) (cancelling : Bool),
    let after := m.afterStep kind o attempts cancelling
    after.station = m.station ∧ after.attempts = m.attempts + attempts ∧ after.fate = none ∧
    (∀ b, o = .good (.ack b) → after.state = .accepted ∧ after.repaired = (m.repaired || kind = .groupRepair)) ∧
    (o = .good (.nak .refused) → after.state = .refused) ∧
    (o = .good (.nak .missed) → kind = .groupCheck →
      after.state =
        match m.fate with
        | some fate => fate.state
        | none => if cancelling then .cancelled else .repairing) ∧
    (o ∈ [TxOutcome.busy, .noReply, .aborted, .lineFault] ∨ (∃ cause, o = .corrupt cause) → after.state = .unreached)) ∧
  ∀ (s : State) (l : LineNo) (n : Word) (r : TxResult),
    (∀ place cancelling, (cancelling = true ↔ ∃ d, s.findDelivery n = some d ∧ d.cancelling = true) →
      let t := (s.setMember n place fun m => m.afterStep r.kind r.outcome r.attemptsUsed cancelling).updatePass n l fun p =>
        { p with state := .queued, passStep := none }
      (r.outcome = .aborted ∨ r.outcome = .lineFault → s.stepResult l n (.member place) r = t.deliveryLineStop n l) ∧
      (r.outcome ≠ .aborted → r.outcome ≠ .lineFault → s.stepResult l n (.member place) r = t.reviewPass n l)) ∧
    (r.outcome = .sent →
      s.stepResult l n .groupData r =
        (s.updatePass n l fun p => { p with state := .queued, passStep := none, nextStep := .members }).reviewPass n l) ∧
    (r.outcome = .aborted ∨ r.outcome = .lineFault →
      s.stepResult l n .groupData r =
        (s.updatePass n l fun p => { p with state := .queued, passStep := none }).deliveryLineStop n l)

/-- R124, R127, R129, R130, R131: a pass is freed when nothing of its line is unsettled; a delivery completes when every member is terminal and no pass is
outstanding, with its outcome in a DELIVERY DONE report; a line's stop makes the open members of the line without a step UNREACHED and frees its pass; a
CANCEL frees idle passes and cancels open members without a step. -/
def Obligations.DeliveryCompletes : Prop :=
  (∀ (s : State) (n : Word) (d : Delivery), s.findDelivery n = some d →
    let settled := d.outstanding = 0 ∧ ∀ m ∈ d.snapshot, m.state.terminal = true
    (¬ settled → s.checkDelivery n = s) ∧
    (settled →
      s.checkDelivery n =
        { s with
          deliveries := s.deliveries.eraseP fun e => e.number = n
          reserved := s.reserved - 1
          reportCounter := s.reportCounter + 1
          reports := s.reports ++
            [{ number := s.reportCounter, blocks := [], length := 0, sent := false
               items := .deliveryDone
                { number := d.number, group := d.group, seq := d.seq, outcome := d.outcome, excluded := d.excluded
                  accepted := d.snapshot.countP fun m => m.state = .accepted, time := s.partTime
                  members := d.snapshot } }] })) ∧
  (∀ d : Delivery,
    (d.cancelling = true → d.outcome = .cancelled) ∧
    (d.cancelling = false →
      ((∀ m ∈ d.snapshot, m.state = .accepted) → d.outcome = .complete) ∧
      ((∃ m ∈ d.snapshot, m.state = .accepted) → (∃ m ∈ d.snapshot, m.state ≠ .accepted) → d.outcome = .partly) ∧
      (d.snapshot ≠ [] → (∀ m ∈ d.snapshot, m.state ≠ .accepted) → d.outcome = .failed))) ∧
  (∀ state : DeliveryMemberState,
    state.terminal = true ↔ state ∈ [DeliveryMemberState.accepted, .refused, .unreached, .dropped, .cancelled]) ∧
  (∀ (s : State) (n : Word) (l : LineNo),
    s.freePass n l =
      ({ s with
        orders := s.orders.filter fun r => !r.isPass n l
        deliveries := s.deliveries.map fun d => if d.number = n then { d with outstanding := d.outstanding - 1 } else d } :
          State).checkDelivery n ∧
    ∀ d p, s.findDelivery n = some d → s.findPass n l = some p →
      (p.passStep = none → (∀ m ∈ d.snapshot, m.station.line = l → m.state.terminal = true) →
        s.reviewPass n l = s.freePass n l) ∧
      (p.passStep ≠ none ∨ (∃ m ∈ d.snapshot, m.station.line = l ∧ m.state.terminal = false) → s.reviewPass n l = s)) ∧
  (∀ (s : State) (n : Word) (l : LineNo),
    let step := fun place : Nat =>
      s.orders.any fun r => r.kind = .groupPass && r.number = n && r.passStep = some (.member place)
    s.deliveryLineStop n l =
      ({ s with
        deliveries := s.deliveries.map fun d =>
          if d.number = n then
            { d with
              snapshot := d.snapshot.mapIdx fun place m =>
                if m.station.line = l ∧ m.state.terminal = false ∧ step place = false then { m with state := .unreached } else m }
          else d } : State).freePass n l) ∧
  ∀ (s : State) (n : Word),
    let idle := fun r : OrderRecord => r.kind = .groupPass && r.number = n && r.passStep.isNone
    s.cancelDelivery n =
      ({ s with
        orders := s.orders.filter fun r => !idle r
        deliveries := s.deliveries.map fun d =>
          if d.number = n then
            { d with
              cancelling := true, outstanding := d.outstanding - s.orders.countP idle
              snapshot := d.snapshot.mapIdx fun place m =>
                if m.state.terminal || s.stepOn n place then m else { m with state := .cancelled } }
          else d } : State).checkDelivery n

/-- R106, R107, R110, R112, R68: a lapse makes the station's ACTIVE memberships LAPSED and puts their groups into its lapsed-groups set; a JOIN completed makes
a JOINING member ACTIVE or removes it, a LEAVE completed removes a LEAVING one, and the group leaves the set. R125, R126: a station gone MISSING or SUSPENDED
makes its open member of each delivery UNREACHED, a lapse DROPPED: at once with no step in flight, else as its pending fate unless one is set; a terminal one
stays. The deliveries are taken in ascending order of groups, the model's choice for R125 [log 12]. -/
def Obligations.MembersSettled : Prop :=
  (∀ (s : State) (ix : StationIx),
    s.deliveriesStationDown ix = (List.finRange 16).foldl (fun t g => t.settleMember ix .unreached g) s ∧
    s.lapse ix = (List.finRange 16).foldl (fun t g => t.lapseGroup ix g) s ∧
    ∀ g : GroupNo,
      ((∃ m, (s.group g).memberOf ix = some m ∧ m.state = .active) →
        s.lapseGroup ix g =
          ((s.setGroup g
            { s.group g with
              members := (s.group g).members.map fun m => if m.station.index = ix then { m with state := .lapsed } else m }).onStation ix
                fun st => { st with lapsed := st.lapsed ||| ((1 : BitVec 16) <<< g.val) }).settleMember ix .dropped g) ∧
      ((∀ m, (s.group g).memberOf ix = some m → m.state ≠ .active) → s.lapseGroup ix g = s.settleMember ix .dropped g)) ∧
  (∀ (s : State) (ix : StationIx) (fate : Fate) (g : GroupNo),
    (s.deliveryOf g = none → s.settleMember ix fate g = s) ∧
    ∀ d, s.deliveryOf g = some d →
      ((∀ m ∈ d.snapshot, m.station.index = ix → m.state.terminal = true) → s.settleMember ix fate g = s) ∧
      ∀ place m, d.snapshot[place]? = some m → m.station.index = ix → m.state.terminal = false →
        (∀ k q, k < place → d.snapshot[k]? = some q → q.station.index = ix → q.state.terminal = true) →
        let step := s.orders.any fun r => r.kind = .groupPass && r.number = d.number && r.passStep = some (.member place)
        let settled := fun f : DeliveryMember → DeliveryMember =>
          ({ s with
            deliveries := s.deliveries.map fun e =>
              if e.number = d.number then { e with snapshot := e.snapshot.modify place f } else e } : State)
        (step = true →
          s.settleMember ix fate g = settled fun m =>
            { m with
              fate := match m.fate with
                | some old => some old
                | none => some fate }) ∧
        (step = false →
          s.settleMember ix fate g = (settled fun m =>
            { m with
              state := match fate with
                | .unreached => .unreached
                | .dropped => .dropped }).reviewPass d.number m.station.line)) ∧
  (∀ (s : State) (ix : StationIx) (g : GroupNo), let lapses := ∃ m, (s.group g).memberOf ix = some m ∧ m.state = .active
    (lapses → (s.lapse ix).group g =
      { members := (s.group g).members.map fun m => if m.station.index = ix then { m with state := .lapsed } else m
        seq := (s.group g).seq }) ∧
    (¬ lapses → (s.lapse ix).group g = s.group g) ∧
    (((s.lapse ix).station ix).lapsed.getLsbD g.val = true ↔ lapses ∨ (s.station ix).lapsed.getLsbD g.val = true)) ∧
  ∀ (s : State) (g : GroupNo) (ix : StationIx),
    let left := fun t : State => t.onStation ix fun st => { st with lapsed := st.lapsed &&& ~~~ ((1 : BitVec 16) <<< g.val) }
    let removed := left (s.setGroup g
      { members := (s.group g).members.filter fun m => m.station.index != ix, seq := (s.group g).seq })
    (∀ m, (s.group g).memberOf ix = some m → m.state = .joining →
      s.joinCompleted g ix .accepted = left (s.setGroup g
        { members := (s.group g).members.map fun m => if m.station.index = ix then { m with state := .active } else m
          seq := (s.group g).seq }) ∧
      ∀ o, o ≠ OrderOutcome.accepted → s.joinCompleted g ix o = removed) ∧
    (∀ m, (s.group g).memberOf ix = some m → m.state = .leaving → s.leaveCompleted g ix = removed) ∧
    ((s.group g).memberOf ix = none → s.leaveCompleted g ix = s ∧ ∀ o, s.joinCompleted g ix o = s)

/-! ## Watches, collection and reports -/

/-- R138, by the table of R137: each bit condition against the new word and the baseline, and how the combine mode joins the conditions that are not
IGNORE; with all sixteen IGNORE nothing matches. -/
def Obligations.WatchMatches : Prop :=
  ∀ (w : Watch) (baseline : Option Word) (word : Word),
    let true' := fun b : Fin 16 =>
      match w.conditions[b] with
      | .ignore => False
      | .low => word.getLsbD b.val = false
      | .high => word.getLsbD b.val = true
      | .rise => ∃ old, baseline = some old ∧ old.getLsbD b.val = false ∧ word.getLsbD b.val = true
      | .fall => ∃ old, baseline = some old ∧ old.getLsbD b.val = true ∧ word.getLsbD b.val = false
      | .change => ∃ old, baseline = some old ∧ old.getLsbD b.val ≠ word.getLsbD b.val
    (w.combine = .any → (w.matches baseline word = true ↔ ∃ b, w.conditions[b] ≠ .ignore ∧ true' b)) ∧
    (w.combine = .all →
      (w.matches baseline word = true ↔
        (∃ b : Fin 16, w.conditions[b] ≠ .ignore) ∧ ∀ b : Fin 16, w.conditions[b] ≠ .ignore → true' b)) ∧
    ((∀ b : Fin 16, w.conditions[b] = .ignore) → w.matches baseline word = false)

/-- R135, R143, R144: WATCH SET's checks in their order and the entry it arms; WATCH REARM and WATCH CLEAR by the entry's state, a latched hit being
discarded with its place in the pending list; both answer the state the entry had. -/
def Obligations.WatchRequests : Prop :=
  (∀ (tag line address combine oneShot : Octet) (codes : List Octet) (s u : State), codes.length = 16 →
    let i := Instr.watchSet tag (line :: address :: codes ++ [combine, oneShot])
    Taken i s u →
    (3 < line.toNat ∨ address.toNat = 0 ∨ 239 < address.toNat ∨ (∃ c ∈ codes, 5 < c.toNat) ∨ 1 < combine.toNat ∨
        1 < oneShot.toNat → exec i s = .next (u.answering i .badValue [])) ∧
    ∀ (l : LineNo) (cs : Vector Condition 16) (mode : Combine) (flag : Bool), line.toNat = l.val → 1 ≤ address.toNat →
      address.toNat ≤ 239 → codes = (cs.toList.map Condition.code).reverse → combine = mode.code → oneShot = truth flag →
      (u.findStation l address = none → exec i s = .next (u.answering i .noSuch [])) ∧
      ∀ ix, u.findStation l address = some ix →
        ((u.station ix).state = .retiring → exec i s = .next (u.answering i .state [])) ∧
        ((u.station ix).state ≠ .retiring → (∀ w, (u.watch w).state ≠ .free) → exec i s = .next (u.answering i .tableFull [])) ∧
        ∀ w : WatchNo, (u.station ix).state ≠ .retiring → (u.watch w).state = .free →
          (∀ v : WatchNo, v.val < w.val → (u.watch v).state ≠ .free) →
          exec i s =
            .next ((u.setWatch w
              { state := .armed, station := some { index := ix, line := l, address := address }, conditions := cs
                combine := mode, oneShot := flag, hit := none }).answering i .ok [octet w.val])) ∧
  ∀ (tag number : Octet) (s u : State) (i : Instr), i = .watchRearm tag [number] ∨ i = .watchClear tag [number] → Taken i s u →
    (31 < number.toNat → exec i s = .next (u.answering i .badValue [])) ∧
    ∀ w : WatchNo, number.toNat = w.val →
      let without := u.sources.filter fun x => x != .watch w
      ((u.watch w).state = .free → exec i s = .next (u.answering i .noSuch [])) ∧
      (i = .watchRearm tag [number] →
        ((u.watch w).state = .armed → exec i s = .next (u.answering i .ok [1])) ∧
        ((u.watch w).state = .pending ∨ (u.watch w).state = .spent →
          exec i s =
            .next (({ u.setWatch w { u.watch w with state := .armed, hit := none } with sources := without } :
              State).answering i .ok [(u.watch w).state.code]))) ∧
      (i = .watchClear tag [number] → (u.watch w).state ≠ .free →
        exec i s =
          .next (({ u.setWatch w Watch.cleared with sources := without } : State).answering i .ok [(u.watch w).state.code]))

/-- R136, R139, R140: an ARMED entry that matches becomes PENDING with its hit fields and joins the pending list; a PENDING one that matches counts the repeat,
up to 255, and keeps the latest word; every other entry stands. R147, R148: the collect option by its first case that fits. -/
def Obligations.WatchHitsAndCollection : Prop :=
  (∀ (s : State) (ix : StationIx) (baseline : Option Word) (word : Word) (time : PartTime) (w : WatchNo),
    let e := s.watch w
    let watching := ∃ station, e.station = some station ∧ station.index = ix
    (watching → e.state = .armed → e.hit = none → e.matches baseline word = true →
      s.judgeWatch ix baseline word time w =
        (s.setWatch w { e with
          state := .pending
          hit := some { previous := baseline, matching := word, latest := word, repeats := 0, time := time } }).joinSources
            (.watch w)) ∧
    (∀ hit, watching → e.state = .pending → e.hit = some hit → e.matches baseline word = true →
      s.judgeWatch ix baseline word time w =
        s.setWatch w { e with hit := some { hit with repeats := min (hit.repeats + 1) 255, latest := word } }) ∧
    (¬ watching ∨ e.state = .free ∨ e.state = .spent ∨ e.matches baseline word = false →
      s.judgeWatch ix baseline word time w = s)) ∧
  ∀ (s : State) (ix : StationIx), let st := s.station ix
    (∀ d, st.collect = false ∨ st.state ≠ .online → s.applyCollect ix d = s) ∧
    (st.collect = true → st.state = .online →
      s.applyCollect ix false = (s.onStation ix fun st => { st with collectDue := false }) ∧
      (st.collectOutstanding = true → s.applyCollect ix true = s) ∧
      (st.collectOutstanding = false →
        (40 ≤ s.orders.length ∨ s.freeBlocks.length < 4 ∨ 40 ≤ s.slotsInUse →
          s.applyCollect ix true = s.onStation ix fun st => { st with collectDue := true }) ∧
        (s.orders.length < 40 → 4 ≤ s.freeBlocks.length → s.slotsInUse < 40 →
          s.applyCollect ix true =
            ({ s with
              orderCounter := nextNumber s.numberToGive
              reserved := s.reserved + 1
              orders := s.orders ++
                [{ number := s.numberToGive, kind := .fetch, source := .collect, priority := .normal, line := st.line
                   station := some { index := ix, line := st.line, address := st.address }, group := none, state := .queued
                   cancelFlag := false, length := 0, blocks := s.freeBlocks.take 4, nextStep := .groupData
                   passStep := none }] } : State).onStation ix fun st =>
                    { st with collectOutstanding := true, collectDue := false })))

/-- R165, R166: REPORT CONFIRM of a SENT report frees it and every SENT report ahead of it, and latched sources are drawn into the slots; of any other number
it is BAD VALUE. REPORT RESEND returns every SENT report to QUEUED, and the one in transmission will stay QUEUED. -/
def Obligations.ReportConfirmAndResend : Prop :=
  (∀ (tag n : Octet) (s u : State), let i := Instr.reportConfirm tag [n]
    Taken i s u →
    ((∀ r ∈ u.reports, r.number = n → r.sent = false) → exec i s = .next (u.answering i .badValue [])) ∧
    ∀ ahead r behind, u.reports = ahead ++ r :: behind → r.number = n → r.sent = true →
      (∀ q ∈ ahead, ¬ (q.number = n ∧ q.sent = true)) →
      let kept := (ahead.filter fun q => !q.sent) ++ behind
      exec i s =
        .next ((({ u with reports := kept } : State).draw).answering i .ok
          [octet (ahead.countP Report.sent + 1), octet (kept.countP Report.sent)])) ∧
  ∀ (tag : Octet) (s u : State), let i := Instr.reportResend tag []
    Taken i s u →
    exec i s =
      .next (({ u with
        reports := u.reports.map fun r => { r with sent := false }
        tx := match u.tx with
          | some (.report n _) => some (.report n true)
          | other => other } : State).answering i .ok [octet (u.reports.countP Report.sent)])

/-- R53, R58, R159: a line report and a presence report fill an empty latch, which joins the pending list's tail, or update a full one in its place. R59, R141,
R161: draws take the head of the pending list into a FREE slot, with the next number, until no source waits or no slot is FREE. -/
def Obligations.LatchesAndDraws : Prop :=
  (∀ (s : State) (l : LineNo) (condition : LineCondition) (cause : LineCause),
    ((s.engine l).latch = none →
      s.latchLine l condition cause =
        ({ (s.onEngine l fun e =>
            { e with latch := some { condition := condition, cause := cause, time := s.partTime, changeCount := 1 } }) with
          sources := s.sources ++ [.line l] } : State).draw) ∧
    ∀ old, (s.engine l).latch = some old →
      s.latchLine l condition cause =
        s.onEngine l fun e =>
          { e with
            latch := some { condition := condition, cause := cause, time := s.partTime, changeCount := min (old.changeCount + 1) 255 } }) ∧
  (∀ (s : State) (ix : StationIx) (presence : Presence) (restarted : Bool),
    ((s.station ix).latch = none →
      s.latchPresence ix presence restarted =
        ({ (s.onStation ix fun st =>
            { st with latch := some { presence := presence, changeCount := 1, restarted := restarted, time := s.partTime } }) with
          sources := s.sources ++ [.station ix] } : State).draw) ∧
    ∀ old, (s.station ix).latch = some old →
      s.latchPresence ix presence restarted =
        s.onStation ix fun st =>
          { st with
            latch := some
              { presence := presence, changeCount := min (old.changeCount + 1) 255, restarted := old.restarted || restarted
                time := s.partTime } }) ∧
  ∀ s : State, let reported := fun (t : State) (rest : List Source) (items : ReportItems) =>
      ({ t with
        sources := rest
        reports := s.reports ++ [{ number := s.reportCounter, items := items, blocks := [], length := 0, sent := false }]
        reportCounter := s.reportCounter + 1 } : State)
    (s.sources = [] ∨ s.freeSlots = 0 → s.draw = s) ∧
    (∀ l rest latch, s.sources = .line l :: rest → s.freeSlots ≠ 0 → (s.engine l).latch = some latch →
      s.draw = (reported (s.onEngine l fun e => { e with latch := none }) rest (.lineEvent l latch)).draw) ∧
    (∀ ix rest latch, s.sources = .station ix :: rest → s.freeSlots ≠ 0 → (s.station ix).latch = some latch →
      s.draw =
        (reported (s.onStation ix fun st => { st with latch := none }) rest
          (.stationPresence { index := ix, line := (s.station ix).line, address := (s.station ix).address } latch
            (s.station ix).lapsed)).draw) ∧
    ∀ w rest hit, s.sources = .watch w :: rest → s.freeSlots ≠ 0 → (s.watch w).hit = some hit →
      s.draw =
        (reported (s.setWatch w { s.watch w with state := if (s.watch w).oneShot then .spent else .armed, hit := none }) rest
          (.watchHit w (s.watch w).station hit (s.watch w).oneShot)).draw

/-! ## Queries -/

/-- R51, R78, R103, R114, R145, R169, R185: the queries answer what stands when they are taken and change nothing, but for LINE STATUS with its clear
option, which clears the six statistics. A number out of range is BAD VALUE, a number not in use NO SUCH. The model's choices: a pass with its step in flight
is no entry ahead in the queue position [log 14], a delivery's entries keep the order of its group's list at acceptance [log 18], the restarted octet of
an empty presence latch is 0 [log 23], and so is the suspended octet where no transaction is in flight [log 25]. -/
def Obligations.QueriesAnswered : Prop :=
  (∀ (tag : Octet) (s u : State), let i := Instr.partStatus tag []
    Taken i s u →
    exec i s =
      .next (u.answering i .ok (timeOctets u.partTime ++
        [octet (40 - u.orders.length), octet u.freeBlocks.length, octet (48 - (u.reserved + u.reports.length)), octet u.reserved,
         octet (u.reports.countP Report.sent), u.reportCounter, octet (4 - u.deliveries.length)]))) ∧
  (∀ (tag line options : Octet) (s u : State), let i := Instr.lineStatus tag [line, options]
    Taken i s u → options.toNat ≤ 1 →
    (3 < line.toNat → exec i s = .next (u.answering i .badValue [])) ∧
    ∀ l : LineNo, line.toNat = l.val →
      let e := u.engine l
      let waits := fun priority => u.orders.countP fun r =>
        r.line = l && r.priority = priority && (r.state = .queued || r.kind = .groupPass)
      let octets : List Octet :=
        [e.state.code, truth e.fault, e.offCause.code, e.params.rate, e.params.window, e.params.retryLimit, e.params.missLimit,
         e.params.guard, e.params.busyDelay, e.params.cycleFloor, e.params.holdLimit] ++
        wordOctets e.cycleCount ++ [e.cursor, e.cycleState.code] ++
        (match e.tx with
          | some t => [t.kind.code, t.target, octet t.attemptsUsed, truth t.suspended]
          | none => [0xFF, 0xFF, 0, 0]) ++
        [octet (waits .urgent), octet (waits .normal), octet (allStations.countP fun ix => u.onPollList l ix)] ++
        ([e.stats.transactions, e.stats.retryAttempts, e.stats.corruptFrames, e.stats.noReplyAttempts, e.stats.strayFrames,
          e.stats.breaks].flatMap fun n => wordOctets (BitVec.ofNat 16 n)) ++
        [truth e.latch.isSome]
      octets.length = 35 ∧
      (options = 0 → exec i s = .next (u.answering i .ok octets)) ∧
      (options = 1 → exec i s = .next ((u.onEngine l fun e => { e with stats := LineStats.zero }).answering i .ok octets))) ∧
  (∀ (tag line address : Octet) (s u : State) (l : LineNo) (ix : StationIx), let i := Instr.stationQuery tag [line, address]
    Taken i s u → line.toNat = l.val → u.names l address ix →
    let st := u.station ix
    let octets : List Octet :=
      [octet ix.val, line, address, st.state.code, st.pollClass.code, truth st.collect, octet st.missCount,
       flagPair st.sendBit st.fetchBit] ++
      optionalWord st.lastStatus ++ optionalTime st.lastHeard ++ [optionalOctet (st.resyncCause.map ResyncCause.code)] ++
      wordOctets st.lapsed ++ [flagPair st.collectDue st.collectOutstanding] ++
      (match st.latch with
        | some latch => [latch.presence.code, octet latch.changeCount, truth latch.restarted]
        | none => [0xFF, 0, 0]) ++
      [truth (u.inFlight ix)]
    octets.length = 24 ∧ exec i s = .next (u.answering i .ok octets)) ∧
  (∀ (tag high low : Octet) (s u : State), let i := Instr.orderQuery tag [high, low]; let n := wordOf high low
    Taken i s u →
    (u.findOrder n = none → u.findDelivery n = none → exec i s = .next (u.answering i .noSuch [])) ∧
    (∀ r, u.findOrder n = some r →
      let identity : List Octet :=
        match r.station with
        | some st => [octet st.index.val, octet st.line.val, st.address]
        | none => [0xFF, 0xFF, 0xFF]
      let known : List Octet :=
        [high, low, r.kind.code, r.source.code, r.priority.code] ++ identity ++
        [optionalOctet (r.group.map fun g => octet g.val), r.state.code]
      (∀ ahead behind, r.state = .queued → u.orders = ahead ++ r :: behind → (∀ q ∈ ahead, q.named n = false) →
        let position := ahead.countP fun q => q.line = r.line && q.priority = r.priority && q.state = .queued
        exec i s = .next (u.answering i .ok (known ++ [octet position, 0xFF, 0, truth r.cancelFlag, octet r.length, 0]))) ∧
      (r.state ≠ .queued →
        let phase : Octet :=
          match (u.engine r.line).state with
          | .sending => 1
          | .awaiting => 2
          | .backoff => 3
          | .idle => 4
          | _ => 5
        let used :=
          match (u.engine r.line).tx with
          | some t => t.attemptsUsed
          | none => 0
        exec i s = .next (u.answering i .ok (known ++ [0xFF, phase, octet used, truth r.cancelFlag, octet r.length, 0])))) ∧
    ∀ d, u.findOrder n = none → u.findDelivery n = some d →
      exec i s =
        .next (u.answering i .ok
          [high, low, 5, 0xFF, 0xFF, 0xFF, 0xFF, 0xFF, octet d.group.val, 2, 0xFF, 0xFF, 0, 0, 0xFF, 0])) ∧
  (∀ (tag group : Octet) (s u : State), let i := Instr.groupQuery tag [group]
    Taken i s u →
    (15 < group.toNat → exec i s = .next (u.answering i .badValue [])) ∧
    ∀ g : GroupNo, group.toNat = g.val →
      exec i s = .next (u.answering i .ok (u.groupOctets g)) ∧
      (u.deliveryOf g = none →
        u.groupOctets g =
          [group, (u.group g).seq.zeroExtend 8, octet (u.group g).members.length, 0xFF, 0, 0, 0xFF, 0, 0,
           octet (u.group g).members.length] ++
          (u.group g).members.flatMap fun m =>
            ([octet m.station.index.val, octet m.station.line.val, m.station.address, 16 * m.state.code, 0] : List Octet)) ∧
      ∀ d, u.deliveryOf g = some d →
        let line := fun (st : StationRef) (states attempts : Octet) =>
          ([octet st.index.val, octet st.line.val, st.address, states, attempts] : List Octet)
        let tried := fun m : DeliveryMember => (octet m.attempts &&& 0x1F) + (if m.repaired then 0x80 else 0)
        let entries := d.roster.filterMap fun station =>
          match (u.group g).memberOf station.index, d.snapshot.find? fun m => m.station.index = station.index with
          | some k, some m => some (line k.station (16 * k.state.code + m.state.code) (tried m))
          | none, some m => some (line m.station m.state.code (tried m))
          | some k, none => some (line k.station (16 * k.state.code) 0)
          | none, none => none
        u.groupOctets g =
          [group, (u.group g).seq.zeroExtend 8, octet (u.group g).members.length, if d.cancelling then 2 else 1] ++
          wordOctets d.number ++ [d.priority.code, octet d.outstanding, octet d.snapshot.length, octet entries.length] ++
          entries.flatten) ∧
  ∀ (tag number : Octet) (s u : State), let i := Instr.watchQuery tag [number]
    Taken i s u →
    (31 < number.toNat → exec i s = .next (u.answering i .badValue [])) ∧
    ∀ w : WatchNo, number.toNat = w.val →
      let e := u.watch w
      (e.state = .free → exec i s = .next (u.answering i .ok [number, 0])) ∧
      (e.state ≠ .free →
        exec i s =
          .next (u.answering i .ok
            ([number, e.state.code] ++
             (match e.station with
              | some st => [octet st.index.val, octet st.line.val, st.address]
              | none => [0xFF, 0xFF, 0xFF]) ++
             (e.conditions.toList.map Condition.code).reverse ++ [e.combine.code, truth e.oneShot] ++
             match e.hit with
             | some h =>
                 optionalWord h.previous ++ wordOctets h.matching ++ wordOctets h.latest ++ [octet h.repeats] ++ timeOctets h.time
             | none => [])))

/-! ## Invariants -/

/-- The invariants below hold in the state after reset. -/
def Obligations.InvariantsHoldAtReset : Prop :=
  State.reset.StoresSound ∧ State.reset.SlotsAccounted ∧ State.reset.BlocksAccounted ∧ State.reset.EnginesCoherent ∧
  State.reset.PlacesBounded ∧ State.reset.HeldInReset ∧ State.reset.TablesSound ∧ State.reset.ReportsInOrder

/-- R79, R119, R134, R161, R173, R176, R178, R188: every step keeps the pool's canonical form, the records within their stores, hits in PENDING watches alone, no
source waiting beside a FREE slot, the host link's queues within their places, and the part held while RESET is asserted. R55, R81, R105, R120, R159: one entry
to a line and address, a group's list of at most 24 without repeats, numbers distinct and not 0 with a counter not 0, a pass QUEUED exactly with no step in
flight, and each latched source once in the pending list. -/
def Obligations.StoresAndPlacesKept : Prop :=
  Kept State.StoresSound ∧ Kept State.PlacesBounded ∧ Kept State.HeldInReset ∧
  Kept (fun s => s.StoresSound ∧ s.TablesSound)

/-- R156, R157: every step keeps each RESERVED slot tied to one order or one delivery, at most 40 of them, and at most 48 slots in use. R155, R158, R163, R166:
with that, every step keeps the report list in order: SENT ahead of QUEUED, at most 8 sent or in transmission, numbers that run up to the counter, and the
report in transmission the first QUEUED one unless a REPORT RESEND was taken meanwhile. -/
def Obligations.SlotsAccountedKept : Prop :=
  Kept State.SlotsAccounted ∧ Kept (fun s => s.SlotsAccounted ∧ s.ReportsInOrder)

/-- R151: every step keeps each held block a block of the pool, with one holder alone. -/
def Obligations.BlocksAccountedKept : Prop :=
  Kept State.BlocksAccounted

/-- R23, R31, R33, R46, R25: every step keeps each engine in agreement with its state and its parameters in range; the driver enable is asserted in STARTING,
SENDING and STOPPING alone. R183: no more of a busy delay or a hold lies ahead than its parameter says, and nothing where it does not run. -/
def Obligations.EnginesCoherentKept : Prop :=
  Kept State.EnginesCoherent ∧
  ∀ e : LineEngine, e.driverEnable = true ↔ e.state = .starting ∨ e.state = .sending ∨ e.state = .stopping

end Statements
end

