-- ==== Sys2Proof/Laws/State.lean ====
section
/-! SUPPORT. One lemma per field per update of the state, and what the accessors read after the setters. -/

namespace Sys2Proof

namespace Machine

variable (s : State)

/-! ## setEngine -/

@[simp] theorem setEngine_pending (l : LineNo) (e : LineEngine) : (s.setEngine l e).pending = s.pending := rfl
@[simp] theorem setEngine_resetAsserted (l : LineNo) (e : LineEngine) : (s.setEngine l e).resetAsserted = s.resetAsserted := rfl
@[simp] theorem setEngine_partTime (l : LineNo) (e : LineEngine) : (s.setEngine l e).partTime = s.partTime := rfl
@[simp] theorem setEngine_stations (l : LineNo) (e : LineEngine) : (s.setEngine l e).stations = s.stations := rfl
@[simp] theorem setEngine_orders (l : LineNo) (e : LineEngine) : (s.setEngine l e).orders = s.orders := rfl
@[simp] theorem setEngine_orderCounter (l : LineNo) (e : LineEngine) : (s.setEngine l e).orderCounter = s.orderCounter := rfl
@[simp] theorem setEngine_groups (l : LineNo) (e : LineEngine) : (s.setEngine l e).groups = s.groups := rfl
@[simp] theorem setEngine_deliveries (l : LineNo) (e : LineEngine) : (s.setEngine l e).deliveries = s.deliveries := rfl
@[simp] theorem setEngine_watches (l : LineNo) (e : LineEngine) : (s.setEngine l e).watches = s.watches := rfl
@[simp] theorem setEngine_pool (l : LineNo) (e : LineEngine) : (s.setEngine l e).pool = s.pool := rfl
@[simp] theorem setEngine_reports (l : LineNo) (e : LineEngine) : (s.setEngine l e).reports = s.reports := rfl
@[simp] theorem setEngine_reserved (l : LineNo) (e : LineEngine) : (s.setEngine l e).reserved = s.reserved := rfl
@[simp] theorem setEngine_reportCounter (l : LineNo) (e : LineEngine) : (s.setEngine l e).reportCounter = s.reportCounter := rfl
@[simp] theorem setEngine_sources (l : LineNo) (e : LineEngine) : (s.setEngine l e).sources = s.sources := rfl
@[simp] theorem setEngine_linkRate (l : LineNo) (e : LineEngine) : (s.setEngine l e).linkRate = s.linkRate := rfl
@[simp] theorem setEngine_rx (l : LineNo) (e : LineEngine) : (s.setEngine l e).rx = s.rx := rfl
@[simp] theorem setEngine_inputQueue (l : LineNo) (e : LineEngine) : (s.setEngine l e).inputQueue = s.inputQueue := rfl
@[simp] theorem setEngine_restarting (l : LineNo) (e : LineEngine) : (s.setEngine l e).restarting = s.restarting := rfl
@[simp] theorem setEngine_replyQueue (l : LineNo) (e : LineEngine) : (s.setEngine l e).replyQueue = s.replyQueue := rfl
@[simp] theorem setEngine_tx (l : LineNo) (e : LineEngine) : (s.setEngine l e).tx = s.tx := rfl
@[simp] theorem setEngine_choices (l : LineNo) (e : LineEngine) : (s.setEngine l e).choices = s.choices := rfl
@[simp] theorem setEngine_station (l : LineNo) (e : LineEngine) (ix' : StationIx) : (s.setEngine l e).station ix' = s.station ix' := rfl
@[simp] theorem setEngine_group (l : LineNo) (e : LineEngine) (g' : GroupNo) : (s.setEngine l e).group g' = s.group g' := rfl
@[simp] theorem setEngine_watch (l : LineNo) (e : LineEngine) (w' : WatchNo) : (s.setEngine l e).watch w' = s.watch w' := rfl

/-! ## setStation -/

@[simp] theorem setStation_pending (ix : StationIx) (st : Station) : (s.setStation ix st).pending = s.pending := rfl
@[simp] theorem setStation_resetAsserted (ix : StationIx) (st : Station) : (s.setStation ix st).resetAsserted = s.resetAsserted := rfl
@[simp] theorem setStation_partTime (ix : StationIx) (st : Station) : (s.setStation ix st).partTime = s.partTime := rfl
@[simp] theorem setStation_engines (ix : StationIx) (st : Station) : (s.setStation ix st).engines = s.engines := rfl
@[simp] theorem setStation_orders (ix : StationIx) (st : Station) : (s.setStation ix st).orders = s.orders := rfl
@[simp] theorem setStation_orderCounter (ix : StationIx) (st : Station) : (s.setStation ix st).orderCounter = s.orderCounter := rfl
@[simp] theorem setStation_groups (ix : StationIx) (st : Station) : (s.setStation ix st).groups = s.groups := rfl
@[simp] theorem setStation_deliveries (ix : StationIx) (st : Station) : (s.setStation ix st).deliveries = s.deliveries := rfl
@[simp] theorem setStation_watches (ix : StationIx) (st : Station) : (s.setStation ix st).watches = s.watches := rfl
@[simp] theorem setStation_pool (ix : StationIx) (st : Station) : (s.setStation ix st).pool = s.pool := rfl
@[simp] theorem setStation_reports (ix : StationIx) (st : Station) : (s.setStation ix st).reports = s.reports := rfl
@[simp] theorem setStation_reserved (ix : StationIx) (st : Station) : (s.setStation ix st).reserved = s.reserved := rfl
@[simp] theorem setStation_reportCounter (ix : StationIx) (st : Station) : (s.setStation ix st).reportCounter = s.reportCounter := rfl
@[simp] theorem setStation_sources (ix : StationIx) (st : Station) : (s.setStation ix st).sources = s.sources := rfl
@[simp] theorem setStation_linkRate (ix : StationIx) (st : Station) : (s.setStation ix st).linkRate = s.linkRate := rfl
@[simp] theorem setStation_rx (ix : StationIx) (st : Station) : (s.setStation ix st).rx = s.rx := rfl
@[simp] theorem setStation_inputQueue (ix : StationIx) (st : Station) : (s.setStation ix st).inputQueue = s.inputQueue := rfl
@[simp] theorem setStation_restarting (ix : StationIx) (st : Station) : (s.setStation ix st).restarting = s.restarting := rfl
@[simp] theorem setStation_replyQueue (ix : StationIx) (st : Station) : (s.setStation ix st).replyQueue = s.replyQueue := rfl
@[simp] theorem setStation_tx (ix : StationIx) (st : Station) : (s.setStation ix st).tx = s.tx := rfl
@[simp] theorem setStation_choices (ix : StationIx) (st : Station) : (s.setStation ix st).choices = s.choices := rfl
@[simp] theorem setStation_engine (ix : StationIx) (st : Station) (l' : LineNo) : (s.setStation ix st).engine l' = s.engine l' := rfl
@[simp] theorem setStation_group (ix : StationIx) (st : Station) (g' : GroupNo) : (s.setStation ix st).group g' = s.group g' := rfl
@[simp] theorem setStation_watch (ix : StationIx) (st : Station) (w' : WatchNo) : (s.setStation ix st).watch w' = s.watch w' := rfl

/-! ## setGroup -/

@[simp] theorem setGroup_pending (g : GroupNo) (gr : Group) : (s.setGroup g gr).pending = s.pending := rfl
@[simp] theorem setGroup_resetAsserted (g : GroupNo) (gr : Group) : (s.setGroup g gr).resetAsserted = s.resetAsserted := rfl
@[simp] theorem setGroup_partTime (g : GroupNo) (gr : Group) : (s.setGroup g gr).partTime = s.partTime := rfl
@[simp] theorem setGroup_engines (g : GroupNo) (gr : Group) : (s.setGroup g gr).engines = s.engines := rfl
@[simp] theorem setGroup_stations (g : GroupNo) (gr : Group) : (s.setGroup g gr).stations = s.stations := rfl
@[simp] theorem setGroup_orders (g : GroupNo) (gr : Group) : (s.setGroup g gr).orders = s.orders := rfl
@[simp] theorem setGroup_orderCounter (g : GroupNo) (gr : Group) : (s.setGroup g gr).orderCounter = s.orderCounter := rfl
@[simp] theorem setGroup_deliveries (g : GroupNo) (gr : Group) : (s.setGroup g gr).deliveries = s.deliveries := rfl
@[simp] theorem setGroup_watches (g : GroupNo) (gr : Group) : (s.setGroup g gr).watches = s.watches := rfl
@[simp] theorem setGroup_pool (g : GroupNo) (gr : Group) : (s.setGroup g gr).pool = s.pool := rfl
@[simp] theorem setGroup_reports (g : GroupNo) (gr : Group) : (s.setGroup g gr).reports = s.reports := rfl
@[simp] theorem setGroup_reserved (g : GroupNo) (gr : Group) : (s.setGroup g gr).reserved = s.reserved := rfl
@[simp] theorem setGroup_reportCounter (g : GroupNo) (gr : Group) : (s.setGroup g gr).reportCounter = s.reportCounter := rfl
@[simp] theorem setGroup_sources (g : GroupNo) (gr : Group) : (s.setGroup g gr).sources = s.sources := rfl
@[simp] theorem setGroup_linkRate (g : GroupNo) (gr : Group) : (s.setGroup g gr).linkRate = s.linkRate := rfl
@[simp] theorem setGroup_rx (g : GroupNo) (gr : Group) : (s.setGroup g gr).rx = s.rx := rfl
@[simp] theorem setGroup_inputQueue (g : GroupNo) (gr : Group) : (s.setGroup g gr).inputQueue = s.inputQueue := rfl
@[simp] theorem setGroup_restarting (g : GroupNo) (gr : Group) : (s.setGroup g gr).restarting = s.restarting := rfl
@[simp] theorem setGroup_replyQueue (g : GroupNo) (gr : Group) : (s.setGroup g gr).replyQueue = s.replyQueue := rfl
@[simp] theorem setGroup_tx (g : GroupNo) (gr : Group) : (s.setGroup g gr).tx = s.tx := rfl
@[simp] theorem setGroup_choices (g : GroupNo) (gr : Group) : (s.setGroup g gr).choices = s.choices := rfl
@[simp] theorem setGroup_engine (g : GroupNo) (gr : Group) (l' : LineNo) : (s.setGroup g gr).engine l' = s.engine l' := rfl
@[simp] theorem setGroup_station (g : GroupNo) (gr : Group) (ix' : StationIx) : (s.setGroup g gr).station ix' = s.station ix' := rfl
@[simp] theorem setGroup_watch (g : GroupNo) (gr : Group) (w' : WatchNo) : (s.setGroup g gr).watch w' = s.watch w' := rfl

/-! ## setWatch -/

@[simp] theorem setWatch_pending (w : WatchNo) (e : Watch) : (s.setWatch w e).pending = s.pending := rfl
@[simp] theorem setWatch_resetAsserted (w : WatchNo) (e : Watch) : (s.setWatch w e).resetAsserted = s.resetAsserted := rfl
@[simp] theorem setWatch_partTime (w : WatchNo) (e : Watch) : (s.setWatch w e).partTime = s.partTime := rfl
@[simp] theorem setWatch_engines (w : WatchNo) (e : Watch) : (s.setWatch w e).engines = s.engines := rfl
@[simp] theorem setWatch_stations (w : WatchNo) (e : Watch) : (s.setWatch w e).stations = s.stations := rfl
@[simp] theorem setWatch_orders (w : WatchNo) (e : Watch) : (s.setWatch w e).orders = s.orders := rfl
@[simp] theorem setWatch_orderCounter (w : WatchNo) (e : Watch) : (s.setWatch w e).orderCounter = s.orderCounter := rfl
@[simp] theorem setWatch_groups (w : WatchNo) (e : Watch) : (s.setWatch w e).groups = s.groups := rfl
@[simp] theorem setWatch_deliveries (w : WatchNo) (e : Watch) : (s.setWatch w e).deliveries = s.deliveries := rfl
@[simp] theorem setWatch_pool (w : WatchNo) (e : Watch) : (s.setWatch w e).pool = s.pool := rfl
@[simp] theorem setWatch_reports (w : WatchNo) (e : Watch) : (s.setWatch w e).reports = s.reports := rfl
@[simp] theorem setWatch_reserved (w : WatchNo) (e : Watch) : (s.setWatch w e).reserved = s.reserved := rfl
@[simp] theorem setWatch_reportCounter (w : WatchNo) (e : Watch) : (s.setWatch w e).reportCounter = s.reportCounter := rfl
@[simp] theorem setWatch_sources (w : WatchNo) (e : Watch) : (s.setWatch w e).sources = s.sources := rfl
@[simp] theorem setWatch_linkRate (w : WatchNo) (e : Watch) : (s.setWatch w e).linkRate = s.linkRate := rfl
@[simp] theorem setWatch_rx (w : WatchNo) (e : Watch) : (s.setWatch w e).rx = s.rx := rfl
@[simp] theorem setWatch_inputQueue (w : WatchNo) (e : Watch) : (s.setWatch w e).inputQueue = s.inputQueue := rfl
@[simp] theorem setWatch_restarting (w : WatchNo) (e : Watch) : (s.setWatch w e).restarting = s.restarting := rfl
@[simp] theorem setWatch_replyQueue (w : WatchNo) (e : Watch) : (s.setWatch w e).replyQueue = s.replyQueue := rfl
@[simp] theorem setWatch_tx (w : WatchNo) (e : Watch) : (s.setWatch w e).tx = s.tx := rfl
@[simp] theorem setWatch_choices (w : WatchNo) (e : Watch) : (s.setWatch w e).choices = s.choices := rfl
@[simp] theorem setWatch_engine (w : WatchNo) (e : Watch) (l' : LineNo) : (s.setWatch w e).engine l' = s.engine l' := rfl
@[simp] theorem setWatch_station (w : WatchNo) (e : Watch) (ix' : StationIx) : (s.setWatch w e).station ix' = s.station ix' := rfl
@[simp] theorem setWatch_group (w : WatchNo) (e : Watch) (g' : GroupNo) : (s.setWatch w e).group g' = s.group g' := rfl

/-! ## onEngine -/

@[simp] theorem onEngine_pending (l : LineNo) (f : LineEngine → LineEngine) : (s.onEngine l f).pending = s.pending := rfl
@[simp] theorem onEngine_resetAsserted (l : LineNo) (f : LineEngine → LineEngine) : (s.onEngine l f).resetAsserted = s.resetAsserted := rfl
@[simp] theorem onEngine_partTime (l : LineNo) (f : LineEngine → LineEngine) : (s.onEngine l f).partTime = s.partTime := rfl
@[simp] theorem onEngine_stations (l : LineNo) (f : LineEngine → LineEngine) : (s.onEngine l f).stations = s.stations := rfl
@[simp] theorem onEngine_orders (l : LineNo) (f : LineEngine → LineEngine) : (s.onEngine l f).orders = s.orders := rfl
@[simp] theorem onEngine_orderCounter (l : LineNo) (f : LineEngine → LineEngine) : (s.onEngine l f).orderCounter = s.orderCounter := rfl
@[simp] theorem onEngine_groups (l : LineNo) (f : LineEngine → LineEngine) : (s.onEngine l f).groups = s.groups := rfl
@[simp] theorem onEngine_deliveries (l : LineNo) (f : LineEngine → LineEngine) : (s.onEngine l f).deliveries = s.deliveries := rfl
@[simp] theorem onEngine_watches (l : LineNo) (f : LineEngine → LineEngine) : (s.onEngine l f).watches = s.watches := rfl
@[simp] theorem onEngine_pool (l : LineNo) (f : LineEngine → LineEngine) : (s.onEngine l f).pool = s.pool := rfl
@[simp] theorem onEngine_reports (l : LineNo) (f : LineEngine → LineEngine) : (s.onEngine l f).reports = s.reports := rfl
@[simp] theorem onEngine_reserved (l : LineNo) (f : LineEngine → LineEngine) : (s.onEngine l f).reserved = s.reserved := rfl
@[simp] theorem onEngine_reportCounter (l : LineNo) (f : LineEngine → LineEngine) : (s.onEngine l f).reportCounter = s.reportCounter := rfl
@[simp] theorem onEngine_sources (l : LineNo) (f : LineEngine → LineEngine) : (s.onEngine l f).sources = s.sources := rfl
@[simp] theorem onEngine_linkRate (l : LineNo) (f : LineEngine → LineEngine) : (s.onEngine l f).linkRate = s.linkRate := rfl
@[simp] theorem onEngine_rx (l : LineNo) (f : LineEngine → LineEngine) : (s.onEngine l f).rx = s.rx := rfl
@[simp] theorem onEngine_inputQueue (l : LineNo) (f : LineEngine → LineEngine) : (s.onEngine l f).inputQueue = s.inputQueue := rfl
@[simp] theorem onEngine_restarting (l : LineNo) (f : LineEngine → LineEngine) : (s.onEngine l f).restarting = s.restarting := rfl
@[simp] theorem onEngine_replyQueue (l : LineNo) (f : LineEngine → LineEngine) : (s.onEngine l f).replyQueue = s.replyQueue := rfl
@[simp] theorem onEngine_tx (l : LineNo) (f : LineEngine → LineEngine) : (s.onEngine l f).tx = s.tx := rfl
@[simp] theorem onEngine_choices (l : LineNo) (f : LineEngine → LineEngine) : (s.onEngine l f).choices = s.choices := rfl
@[simp] theorem onEngine_station (l : LineNo) (f : LineEngine → LineEngine) (ix' : StationIx) : (s.onEngine l f).station ix' = s.station ix' := rfl
@[simp] theorem onEngine_group (l : LineNo) (f : LineEngine → LineEngine) (g' : GroupNo) : (s.onEngine l f).group g' = s.group g' := rfl
@[simp] theorem onEngine_watch (l : LineNo) (f : LineEngine → LineEngine) (w' : WatchNo) : (s.onEngine l f).watch w' = s.watch w' := rfl

/-! ## onStation -/

@[simp] theorem onStation_pending (ix : StationIx) (f : Station → Station) : (s.onStation ix f).pending = s.pending := rfl
@[simp] theorem onStation_resetAsserted (ix : StationIx) (f : Station → Station) : (s.onStation ix f).resetAsserted = s.resetAsserted := rfl
@[simp] theorem onStation_partTime (ix : StationIx) (f : Station → Station) : (s.onStation ix f).partTime = s.partTime := rfl
@[simp] theorem onStation_engines (ix : StationIx) (f : Station → Station) : (s.onStation ix f).engines = s.engines := rfl
@[simp] theorem onStation_orders (ix : StationIx) (f : Station → Station) : (s.onStation ix f).orders = s.orders := rfl
@[simp] theorem onStation_orderCounter (ix : StationIx) (f : Station → Station) : (s.onStation ix f).orderCounter = s.orderCounter := rfl
@[simp] theorem onStation_groups (ix : StationIx) (f : Station → Station) : (s.onStation ix f).groups = s.groups := rfl
@[simp] theorem onStation_deliveries (ix : StationIx) (f : Station → Station) : (s.onStation ix f).deliveries = s.deliveries := rfl
@[simp] theorem onStation_watches (ix : StationIx) (f : Station → Station) : (s.onStation ix f).watches = s.watches := rfl
@[simp] theorem onStation_pool (ix : StationIx) (f : Station → Station) : (s.onStation ix f).pool = s.pool := rfl
@[simp] theorem onStation_reports (ix : StationIx) (f : Station → Station) : (s.onStation ix f).reports = s.reports := rfl
@[simp] theorem onStation_reserved (ix : StationIx) (f : Station → Station) : (s.onStation ix f).reserved = s.reserved := rfl
@[simp] theorem onStation_reportCounter (ix : StationIx) (f : Station → Station) : (s.onStation ix f).reportCounter = s.reportCounter := rfl
@[simp] theorem onStation_sources (ix : StationIx) (f : Station → Station) : (s.onStation ix f).sources = s.sources := rfl
@[simp] theorem onStation_linkRate (ix : StationIx) (f : Station → Station) : (s.onStation ix f).linkRate = s.linkRate := rfl
@[simp] theorem onStation_rx (ix : StationIx) (f : Station → Station) : (s.onStation ix f).rx = s.rx := rfl
@[simp] theorem onStation_inputQueue (ix : StationIx) (f : Station → Station) : (s.onStation ix f).inputQueue = s.inputQueue := rfl
@[simp] theorem onStation_restarting (ix : StationIx) (f : Station → Station) : (s.onStation ix f).restarting = s.restarting := rfl
@[simp] theorem onStation_replyQueue (ix : StationIx) (f : Station → Station) : (s.onStation ix f).replyQueue = s.replyQueue := rfl
@[simp] theorem onStation_tx (ix : StationIx) (f : Station → Station) : (s.onStation ix f).tx = s.tx := rfl
@[simp] theorem onStation_choices (ix : StationIx) (f : Station → Station) : (s.onStation ix f).choices = s.choices := rfl
@[simp] theorem onStation_engine (ix : StationIx) (f : Station → Station) (l' : LineNo) : (s.onStation ix f).engine l' = s.engine l' := rfl
@[simp] theorem onStation_group (ix : StationIx) (f : Station → Station) (g' : GroupNo) : (s.onStation ix f).group g' = s.group g' := rfl
@[simp] theorem onStation_watch (ix : StationIx) (f : Station → Station) (w' : WatchNo) : (s.onStation ix f).watch w' = s.watch w' := rfl

/-! ## updateOrder -/

@[simp] theorem updateOrder_pending (n : Word) (f : OrderRecord → OrderRecord) : (s.updateOrder n f).pending = s.pending := rfl
@[simp] theorem updateOrder_resetAsserted (n : Word) (f : OrderRecord → OrderRecord) : (s.updateOrder n f).resetAsserted = s.resetAsserted := rfl
@[simp] theorem updateOrder_partTime (n : Word) (f : OrderRecord → OrderRecord) : (s.updateOrder n f).partTime = s.partTime := rfl
@[simp] theorem updateOrder_engines (n : Word) (f : OrderRecord → OrderRecord) : (s.updateOrder n f).engines = s.engines := rfl
@[simp] theorem updateOrder_stations (n : Word) (f : OrderRecord → OrderRecord) : (s.updateOrder n f).stations = s.stations := rfl
@[simp] theorem updateOrder_orderCounter (n : Word) (f : OrderRecord → OrderRecord) : (s.updateOrder n f).orderCounter = s.orderCounter := rfl
@[simp] theorem updateOrder_groups (n : Word) (f : OrderRecord → OrderRecord) : (s.updateOrder n f).groups = s.groups := rfl
@[simp] theorem updateOrder_deliveries (n : Word) (f : OrderRecord → OrderRecord) : (s.updateOrder n f).deliveries = s.deliveries := rfl
@[simp] theorem updateOrder_watches (n : Word) (f : OrderRecord → OrderRecord) : (s.updateOrder n f).watches = s.watches := rfl
@[simp] theorem updateOrder_pool (n : Word) (f : OrderRecord → OrderRecord) : (s.updateOrder n f).pool = s.pool := rfl
@[simp] theorem updateOrder_reports (n : Word) (f : OrderRecord → OrderRecord) : (s.updateOrder n f).reports = s.reports := rfl
@[simp] theorem updateOrder_reserved (n : Word) (f : OrderRecord → OrderRecord) : (s.updateOrder n f).reserved = s.reserved := rfl
@[simp] theorem updateOrder_reportCounter (n : Word) (f : OrderRecord → OrderRecord) : (s.updateOrder n f).reportCounter = s.reportCounter := rfl
@[simp] theorem updateOrder_sources (n : Word) (f : OrderRecord → OrderRecord) : (s.updateOrder n f).sources = s.sources := rfl
@[simp] theorem updateOrder_linkRate (n : Word) (f : OrderRecord → OrderRecord) : (s.updateOrder n f).linkRate = s.linkRate := rfl
@[simp] theorem updateOrder_rx (n : Word) (f : OrderRecord → OrderRecord) : (s.updateOrder n f).rx = s.rx := rfl
@[simp] theorem updateOrder_inputQueue (n : Word) (f : OrderRecord → OrderRecord) : (s.updateOrder n f).inputQueue = s.inputQueue := rfl
@[simp] theorem updateOrder_restarting (n : Word) (f : OrderRecord → OrderRecord) : (s.updateOrder n f).restarting = s.restarting := rfl
@[simp] theorem updateOrder_replyQueue (n : Word) (f : OrderRecord → OrderRecord) : (s.updateOrder n f).replyQueue = s.replyQueue := rfl
@[simp] theorem updateOrder_tx (n : Word) (f : OrderRecord → OrderRecord) : (s.updateOrder n f).tx = s.tx := rfl
@[simp] theorem updateOrder_choices (n : Word) (f : OrderRecord → OrderRecord) : (s.updateOrder n f).choices = s.choices := rfl
@[simp] theorem updateOrder_engine (n : Word) (f : OrderRecord → OrderRecord) (l' : LineNo) : (s.updateOrder n f).engine l' = s.engine l' := rfl
@[simp] theorem updateOrder_station (n : Word) (f : OrderRecord → OrderRecord) (ix' : StationIx) : (s.updateOrder n f).station ix' = s.station ix' := rfl
@[simp] theorem updateOrder_group (n : Word) (f : OrderRecord → OrderRecord) (g' : GroupNo) : (s.updateOrder n f).group g' = s.group g' := rfl
@[simp] theorem updateOrder_watch (n : Word) (f : OrderRecord → OrderRecord) (w' : WatchNo) : (s.updateOrder n f).watch w' = s.watch w' := rfl

/-! ## updatePass -/

@[simp] theorem updatePass_pending (n : Word) (l : LineNo) (f : OrderRecord → OrderRecord) : (s.updatePass n l f).pending = s.pending := rfl
@[simp] theorem updatePass_resetAsserted (n : Word) (l : LineNo) (f : OrderRecord → OrderRecord) : (s.updatePass n l f).resetAsserted = s.resetAsserted := rfl
@[simp] theorem updatePass_partTime (n : Word) (l : LineNo) (f : OrderRecord → OrderRecord) : (s.updatePass n l f).partTime = s.partTime := rfl
@[simp] theorem updatePass_engines (n : Word) (l : LineNo) (f : OrderRecord → OrderRecord) : (s.updatePass n l f).engines = s.engines := rfl
@[simp] theorem updatePass_stations (n : Word) (l : LineNo) (f : OrderRecord → OrderRecord) : (s.updatePass n l f).stations = s.stations := rfl
@[simp] theorem updatePass_orderCounter (n : Word) (l : LineNo) (f : OrderRecord → OrderRecord) : (s.updatePass n l f).orderCounter = s.orderCounter := rfl
@[simp] theorem updatePass_groups (n : Word) (l : LineNo) (f : OrderRecord → OrderRecord) : (s.updatePass n l f).groups = s.groups := rfl
@[simp] theorem updatePass_deliveries (n : Word) (l : LineNo) (f : OrderRecord → OrderRecord) : (s.updatePass n l f).deliveries = s.deliveries := rfl
@[simp] theorem updatePass_watches (n : Word) (l : LineNo) (f : OrderRecord → OrderRecord) : (s.updatePass n l f).watches = s.watches := rfl
@[simp] theorem updatePass_pool (n : Word) (l : LineNo) (f : OrderRecord → OrderRecord) : (s.updatePass n l f).pool = s.pool := rfl
@[simp] theorem updatePass_reports (n : Word) (l : LineNo) (f : OrderRecord → OrderRecord) : (s.updatePass n l f).reports = s.reports := rfl
@[simp] theorem updatePass_reserved (n : Word) (l : LineNo) (f : OrderRecord → OrderRecord) : (s.updatePass n l f).reserved = s.reserved := rfl
@[simp] theorem updatePass_reportCounter (n : Word) (l : LineNo) (f : OrderRecord → OrderRecord) : (s.updatePass n l f).reportCounter = s.reportCounter := rfl
@[simp] theorem updatePass_sources (n : Word) (l : LineNo) (f : OrderRecord → OrderRecord) : (s.updatePass n l f).sources = s.sources := rfl
@[simp] theorem updatePass_linkRate (n : Word) (l : LineNo) (f : OrderRecord → OrderRecord) : (s.updatePass n l f).linkRate = s.linkRate := rfl
@[simp] theorem updatePass_rx (n : Word) (l : LineNo) (f : OrderRecord → OrderRecord) : (s.updatePass n l f).rx = s.rx := rfl
@[simp] theorem updatePass_inputQueue (n : Word) (l : LineNo) (f : OrderRecord → OrderRecord) : (s.updatePass n l f).inputQueue = s.inputQueue := rfl
@[simp] theorem updatePass_restarting (n : Word) (l : LineNo) (f : OrderRecord → OrderRecord) : (s.updatePass n l f).restarting = s.restarting := rfl
@[simp] theorem updatePass_replyQueue (n : Word) (l : LineNo) (f : OrderRecord → OrderRecord) : (s.updatePass n l f).replyQueue = s.replyQueue := rfl
@[simp] theorem updatePass_tx (n : Word) (l : LineNo) (f : OrderRecord → OrderRecord) : (s.updatePass n l f).tx = s.tx := rfl
@[simp] theorem updatePass_choices (n : Word) (l : LineNo) (f : OrderRecord → OrderRecord) : (s.updatePass n l f).choices = s.choices := rfl
@[simp] theorem updatePass_engine (n : Word) (l : LineNo) (f : OrderRecord → OrderRecord) (l' : LineNo) : (s.updatePass n l f).engine l' = s.engine l' := rfl
@[simp] theorem updatePass_station (n : Word) (l : LineNo) (f : OrderRecord → OrderRecord) (ix' : StationIx) : (s.updatePass n l f).station ix' = s.station ix' := rfl
@[simp] theorem updatePass_group (n : Word) (l : LineNo) (f : OrderRecord → OrderRecord) (g' : GroupNo) : (s.updatePass n l f).group g' = s.group g' := rfl
@[simp] theorem updatePass_watch (n : Word) (l : LineNo) (f : OrderRecord → OrderRecord) (w' : WatchNo) : (s.updatePass n l f).watch w' = s.watch w' := rfl

/-! ## updateDelivery -/

@[simp] theorem updateDelivery_pending (n : Word) (f : Delivery → Delivery) : (s.updateDelivery n f).pending = s.pending := rfl
@[simp] theorem updateDelivery_resetAsserted (n : Word) (f : Delivery → Delivery) : (s.updateDelivery n f).resetAsserted = s.resetAsserted := rfl
@[simp] theorem updateDelivery_partTime (n : Word) (f : Delivery → Delivery) : (s.updateDelivery n f).partTime = s.partTime := rfl
@[simp] theorem updateDelivery_engines (n : Word) (f : Delivery → Delivery) : (s.updateDelivery n f).engines = s.engines := rfl
@[simp] theorem updateDelivery_stations (n : Word) (f : Delivery → Delivery) : (s.updateDelivery n f).stations = s.stations := rfl
@[simp] theorem updateDelivery_orders (n : Word) (f : Delivery → Delivery) : (s.updateDelivery n f).orders = s.orders := rfl
@[simp] theorem updateDelivery_orderCounter (n : Word) (f : Delivery → Delivery) : (s.updateDelivery n f).orderCounter = s.orderCounter := rfl
@[simp] theorem updateDelivery_groups (n : Word) (f : Delivery → Delivery) : (s.updateDelivery n f).groups = s.groups := rfl
@[simp] theorem updateDelivery_watches (n : Word) (f : Delivery → Delivery) : (s.updateDelivery n f).watches = s.watches := rfl
@[simp] theorem updateDelivery_pool (n : Word) (f : Delivery → Delivery) : (s.updateDelivery n f).pool = s.pool := rfl
@[simp] theorem updateDelivery_reports (n : Word) (f : Delivery → Delivery) : (s.updateDelivery n f).reports = s.reports := rfl
@[simp] theorem updateDelivery_reserved (n : Word) (f : Delivery → Delivery) : (s.updateDelivery n f).reserved = s.reserved := rfl
@[simp] theorem updateDelivery_reportCounter (n : Word) (f : Delivery → Delivery) : (s.updateDelivery n f).reportCounter = s.reportCounter := rfl
@[simp] theorem updateDelivery_sources (n : Word) (f : Delivery → Delivery) : (s.updateDelivery n f).sources = s.sources := rfl
@[simp] theorem updateDelivery_linkRate (n : Word) (f : Delivery → Delivery) : (s.updateDelivery n f).linkRate = s.linkRate := rfl
@[simp] theorem updateDelivery_rx (n : Word) (f : Delivery → Delivery) : (s.updateDelivery n f).rx = s.rx := rfl
@[simp] theorem updateDelivery_inputQueue (n : Word) (f : Delivery → Delivery) : (s.updateDelivery n f).inputQueue = s.inputQueue := rfl
@[simp] theorem updateDelivery_restarting (n : Word) (f : Delivery → Delivery) : (s.updateDelivery n f).restarting = s.restarting := rfl
@[simp] theorem updateDelivery_replyQueue (n : Word) (f : Delivery → Delivery) : (s.updateDelivery n f).replyQueue = s.replyQueue := rfl
@[simp] theorem updateDelivery_tx (n : Word) (f : Delivery → Delivery) : (s.updateDelivery n f).tx = s.tx := rfl
@[simp] theorem updateDelivery_choices (n : Word) (f : Delivery → Delivery) : (s.updateDelivery n f).choices = s.choices := rfl
@[simp] theorem updateDelivery_engine (n : Word) (f : Delivery → Delivery) (l' : LineNo) : (s.updateDelivery n f).engine l' = s.engine l' := rfl
@[simp] theorem updateDelivery_station (n : Word) (f : Delivery → Delivery) (ix' : StationIx) : (s.updateDelivery n f).station ix' = s.station ix' := rfl
@[simp] theorem updateDelivery_group (n : Word) (f : Delivery → Delivery) (g' : GroupNo) : (s.updateDelivery n f).group g' = s.group g' := rfl
@[simp] theorem updateDelivery_watch (n : Word) (f : Delivery → Delivery) (w' : WatchNo) : (s.updateDelivery n f).watch w' = s.watch w' := rfl

/-! ## removeOrder -/

@[simp] theorem removeOrder_pending (n : Word) : (s.removeOrder n).pending = s.pending := rfl
@[simp] theorem removeOrder_resetAsserted (n : Word) : (s.removeOrder n).resetAsserted = s.resetAsserted := rfl
@[simp] theorem removeOrder_partTime (n : Word) : (s.removeOrder n).partTime = s.partTime := rfl
@[simp] theorem removeOrder_engines (n : Word) : (s.removeOrder n).engines = s.engines := rfl
@[simp] theorem removeOrder_stations (n : Word) : (s.removeOrder n).stations = s.stations := rfl
@[simp] theorem removeOrder_orderCounter (n : Word) : (s.removeOrder n).orderCounter = s.orderCounter := rfl
@[simp] theorem removeOrder_groups (n : Word) : (s.removeOrder n).groups = s.groups := rfl
@[simp] theorem removeOrder_deliveries (n : Word) : (s.removeOrder n).deliveries = s.deliveries := rfl
@[simp] theorem removeOrder_watches (n : Word) : (s.removeOrder n).watches = s.watches := rfl
@[simp] theorem removeOrder_pool (n : Word) : (s.removeOrder n).pool = s.pool := rfl
@[simp] theorem removeOrder_reports (n : Word) : (s.removeOrder n).reports = s.reports := rfl
@[simp] theorem removeOrder_reserved (n : Word) : (s.removeOrder n).reserved = s.reserved := rfl
@[simp] theorem removeOrder_reportCounter (n : Word) : (s.removeOrder n).reportCounter = s.reportCounter := rfl
@[simp] theorem removeOrder_sources (n : Word) : (s.removeOrder n).sources = s.sources := rfl
@[simp] theorem removeOrder_linkRate (n : Word) : (s.removeOrder n).linkRate = s.linkRate := rfl
@[simp] theorem removeOrder_rx (n : Word) : (s.removeOrder n).rx = s.rx := rfl
@[simp] theorem removeOrder_inputQueue (n : Word) : (s.removeOrder n).inputQueue = s.inputQueue := rfl
@[simp] theorem removeOrder_restarting (n : Word) : (s.removeOrder n).restarting = s.restarting := rfl
@[simp] theorem removeOrder_replyQueue (n : Word) : (s.removeOrder n).replyQueue = s.replyQueue := rfl
@[simp] theorem removeOrder_tx (n : Word) : (s.removeOrder n).tx = s.tx := rfl
@[simp] theorem removeOrder_choices (n : Word) : (s.removeOrder n).choices = s.choices := rfl
@[simp] theorem removeOrder_engine (n : Word) (l' : LineNo) : (s.removeOrder n).engine l' = s.engine l' := rfl
@[simp] theorem removeOrder_station (n : Word) (ix' : StationIx) : (s.removeOrder n).station ix' = s.station ix' := rfl
@[simp] theorem removeOrder_group (n : Word) (g' : GroupNo) : (s.removeOrder n).group g' = s.group g' := rfl
@[simp] theorem removeOrder_watch (n : Word) (w' : WatchNo) : (s.removeOrder n).watch w' = s.watch w' := rfl

/-! ## dropSource -/

@[simp] theorem dropSource_pending (x : Source) : (s.dropSource x).pending = s.pending := rfl
@[simp] theorem dropSource_resetAsserted (x : Source) : (s.dropSource x).resetAsserted = s.resetAsserted := rfl
@[simp] theorem dropSource_partTime (x : Source) : (s.dropSource x).partTime = s.partTime := rfl
@[simp] theorem dropSource_engines (x : Source) : (s.dropSource x).engines = s.engines := rfl
@[simp] theorem dropSource_stations (x : Source) : (s.dropSource x).stations = s.stations := rfl
@[simp] theorem dropSource_orders (x : Source) : (s.dropSource x).orders = s.orders := rfl
@[simp] theorem dropSource_orderCounter (x : Source) : (s.dropSource x).orderCounter = s.orderCounter := rfl
@[simp] theorem dropSource_groups (x : Source) : (s.dropSource x).groups = s.groups := rfl
@[simp] theorem dropSource_deliveries (x : Source) : (s.dropSource x).deliveries = s.deliveries := rfl
@[simp] theorem dropSource_watches (x : Source) : (s.dropSource x).watches = s.watches := rfl
@[simp] theorem dropSource_pool (x : Source) : (s.dropSource x).pool = s.pool := rfl
@[simp] theorem dropSource_reports (x : Source) : (s.dropSource x).reports = s.reports := rfl
@[simp] theorem dropSource_reserved (x : Source) : (s.dropSource x).reserved = s.reserved := rfl
@[simp] theorem dropSource_reportCounter (x : Source) : (s.dropSource x).reportCounter = s.reportCounter := rfl
@[simp] theorem dropSource_linkRate (x : Source) : (s.dropSource x).linkRate = s.linkRate := rfl
@[simp] theorem dropSource_rx (x : Source) : (s.dropSource x).rx = s.rx := rfl
@[simp] theorem dropSource_inputQueue (x : Source) : (s.dropSource x).inputQueue = s.inputQueue := rfl
@[simp] theorem dropSource_restarting (x : Source) : (s.dropSource x).restarting = s.restarting := rfl
@[simp] theorem dropSource_replyQueue (x : Source) : (s.dropSource x).replyQueue = s.replyQueue := rfl
@[simp] theorem dropSource_tx (x : Source) : (s.dropSource x).tx = s.tx := rfl
@[simp] theorem dropSource_choices (x : Source) : (s.dropSource x).choices = s.choices := rfl
@[simp] theorem dropSource_engine (x : Source) (l' : LineNo) : (s.dropSource x).engine l' = s.engine l' := rfl
@[simp] theorem dropSource_station (x : Source) (ix' : StationIx) : (s.dropSource x).station ix' = s.station ix' := rfl
@[simp] theorem dropSource_group (x : Source) (g' : GroupNo) : (s.dropSource x).group g' = s.group g' := rfl
@[simp] theorem dropSource_watch (x : Source) (w' : WatchNo) : (s.dropSource x).watch w' = s.watch w' := rfl

/-! ## pushReport -/

@[simp] theorem pushReport_pending (i : ReportItems) (b : List Nat) (k : Nat) : (s.pushReport i b k).pending = s.pending := rfl
@[simp] theorem pushReport_resetAsserted (i : ReportItems) (b : List Nat) (k : Nat) : (s.pushReport i b k).resetAsserted = s.resetAsserted := rfl
@[simp] theorem pushReport_partTime (i : ReportItems) (b : List Nat) (k : Nat) : (s.pushReport i b k).partTime = s.partTime := rfl
@[simp] theorem pushReport_engines (i : ReportItems) (b : List Nat) (k : Nat) : (s.pushReport i b k).engines = s.engines := rfl
@[simp] theorem pushReport_stations (i : ReportItems) (b : List Nat) (k : Nat) : (s.pushReport i b k).stations = s.stations := rfl
@[simp] theorem pushReport_orders (i : ReportItems) (b : List Nat) (k : Nat) : (s.pushReport i b k).orders = s.orders := rfl
@[simp] theorem pushReport_orderCounter (i : ReportItems) (b : List Nat) (k : Nat) : (s.pushReport i b k).orderCounter = s.orderCounter := rfl
@[simp] theorem pushReport_groups (i : ReportItems) (b : List Nat) (k : Nat) : (s.pushReport i b k).groups = s.groups := rfl
@[simp] theorem pushReport_deliveries (i : ReportItems) (b : List Nat) (k : Nat) : (s.pushReport i b k).deliveries = s.deliveries := rfl
@[simp] theorem pushReport_watches (i : ReportItems) (b : List Nat) (k : Nat) : (s.pushReport i b k).watches = s.watches := rfl
@[simp] theorem pushReport_pool (i : ReportItems) (b : List Nat) (k : Nat) : (s.pushReport i b k).pool = s.pool := rfl
@[simp] theorem pushReport_reserved (i : ReportItems) (b : List Nat) (k : Nat) : (s.pushReport i b k).reserved = s.reserved := rfl
@[simp] theorem pushReport_sources (i : ReportItems) (b : List Nat) (k : Nat) : (s.pushReport i b k).sources = s.sources := rfl
@[simp] theorem pushReport_linkRate (i : ReportItems) (b : List Nat) (k : Nat) : (s.pushReport i b k).linkRate = s.linkRate := rfl
@[simp] theorem pushReport_rx (i : ReportItems) (b : List Nat) (k : Nat) : (s.pushReport i b k).rx = s.rx := rfl
@[simp] theorem pushReport_inputQueue (i : ReportItems) (b : List Nat) (k : Nat) : (s.pushReport i b k).inputQueue = s.inputQueue := rfl
@[simp] theorem pushReport_restarting (i : ReportItems) (b : List Nat) (k : Nat) : (s.pushReport i b k).restarting = s.restarting := rfl
@[simp] theorem pushReport_replyQueue (i : ReportItems) (b : List Nat) (k : Nat) : (s.pushReport i b k).replyQueue = s.replyQueue := rfl
@[simp] theorem pushReport_tx (i : ReportItems) (b : List Nat) (k : Nat) : (s.pushReport i b k).tx = s.tx := rfl
@[simp] theorem pushReport_choices (i : ReportItems) (b : List Nat) (k : Nat) : (s.pushReport i b k).choices = s.choices := rfl
@[simp] theorem pushReport_engine (i : ReportItems) (b : List Nat) (k : Nat) (l' : LineNo) : (s.pushReport i b k).engine l' = s.engine l' := rfl
@[simp] theorem pushReport_station (i : ReportItems) (b : List Nat) (k : Nat) (ix' : StationIx) : (s.pushReport i b k).station ix' = s.station ix' := rfl
@[simp] theorem pushReport_group (i : ReportItems) (b : List Nat) (k : Nat) (g' : GroupNo) : (s.pushReport i b k).group g' = s.group g' := rfl
@[simp] theorem pushReport_watch (i : ReportItems) (b : List Nat) (k : Nat) (w' : WatchNo) : (s.pushReport i b k).watch w' = s.watch w' := rfl

/-! ## fillReservation -/

@[simp] theorem fillReservation_pending (i : ReportItems) (b : List Nat) (k : Nat) : (s.fillReservation i b k).pending = s.pending := rfl
@[simp] theorem fillReservation_resetAsserted (i : ReportItems) (b : List Nat) (k : Nat) : (s.fillReservation i b k).resetAsserted = s.resetAsserted := rfl
@[simp] theorem fillReservation_partTime (i : ReportItems) (b : List Nat) (k : Nat) : (s.fillReservation i b k).partTime = s.partTime := rfl
@[simp] theorem fillReservation_engines (i : ReportItems) (b : List Nat) (k : Nat) : (s.fillReservation i b k).engines = s.engines := rfl
@[simp] theorem fillReservation_stations (i : ReportItems) (b : List Nat) (k : Nat) : (s.fillReservation i b k).stations = s.stations := rfl
@[simp] theorem fillReservation_orders (i : ReportItems) (b : List Nat) (k : Nat) : (s.fillReservation i b k).orders = s.orders := rfl
@[simp] theorem fillReservation_orderCounter (i : ReportItems) (b : List Nat) (k : Nat) : (s.fillReservation i b k).orderCounter = s.orderCounter := rfl
@[simp] theorem fillReservation_groups (i : ReportItems) (b : List Nat) (k : Nat) : (s.fillReservation i b k).groups = s.groups := rfl
@[simp] theorem fillReservation_deliveries (i : ReportItems) (b : List Nat) (k : Nat) : (s.fillReservation i b k).deliveries = s.deliveries := rfl
@[simp] theorem fillReservation_watches (i : ReportItems) (b : List Nat) (k : Nat) : (s.fillReservation i b k).watches = s.watches := rfl
@[simp] theorem fillReservation_pool (i : ReportItems) (b : List Nat) (k : Nat) : (s.fillReservation i b k).pool = s.pool := rfl
@[simp] theorem fillReservation_sources (i : ReportItems) (b : List Nat) (k : Nat) : (s.fillReservation i b k).sources = s.sources := rfl
@[simp] theorem fillReservation_linkRate (i : ReportItems) (b : List Nat) (k : Nat) : (s.fillReservation i b k).linkRate = s.linkRate := rfl
@[simp] theorem fillReservation_rx (i : ReportItems) (b : List Nat) (k : Nat) : (s.fillReservation i b k).rx = s.rx := rfl
@[simp] theorem fillReservation_inputQueue (i : ReportItems) (b : List Nat) (k : Nat) : (s.fillReservation i b k).inputQueue = s.inputQueue := rfl
@[simp] theorem fillReservation_restarting (i : ReportItems) (b : List Nat) (k : Nat) : (s.fillReservation i b k).restarting = s.restarting := rfl
@[simp] theorem fillReservation_replyQueue (i : ReportItems) (b : List Nat) (k : Nat) : (s.fillReservation i b k).replyQueue = s.replyQueue := rfl
@[simp] theorem fillReservation_tx (i : ReportItems) (b : List Nat) (k : Nat) : (s.fillReservation i b k).tx = s.tx := rfl
@[simp] theorem fillReservation_choices (i : ReportItems) (b : List Nat) (k : Nat) : (s.fillReservation i b k).choices = s.choices := rfl
@[simp] theorem fillReservation_engine (i : ReportItems) (b : List Nat) (k : Nat) (l' : LineNo) : (s.fillReservation i b k).engine l' = s.engine l' := rfl
@[simp] theorem fillReservation_station (i : ReportItems) (b : List Nat) (k : Nat) (ix' : StationIx) : (s.fillReservation i b k).station ix' = s.station ix' := rfl
@[simp] theorem fillReservation_group (i : ReportItems) (b : List Nat) (k : Nat) (g' : GroupNo) : (s.fillReservation i b k).group g' = s.group g' := rfl
@[simp] theorem fillReservation_watch (i : ReportItems) (b : List Nat) (k : Nat) (w' : WatchNo) : (s.fillReservation i b k).watch w' = s.watch w' := rfl

/-! ## elapse -/

@[simp] theorem elapse_partTime (n : Nat) : (s.elapse n).partTime = s.partTime + BitVec.ofNat 32 n := rfl
@[simp] theorem elapse_pending (n : Nat) : (s.elapse n).pending = s.pending := rfl
@[simp] theorem elapse_resetAsserted (n : Nat) : (s.elapse n).resetAsserted = s.resetAsserted := rfl
@[simp] theorem elapse_stations (n : Nat) : (s.elapse n).stations = s.stations := rfl
@[simp] theorem elapse_orders (n : Nat) : (s.elapse n).orders = s.orders := rfl
@[simp] theorem elapse_orderCounter (n : Nat) : (s.elapse n).orderCounter = s.orderCounter := rfl
@[simp] theorem elapse_groups (n : Nat) : (s.elapse n).groups = s.groups := rfl
@[simp] theorem elapse_deliveries (n : Nat) : (s.elapse n).deliveries = s.deliveries := rfl
@[simp] theorem elapse_watches (n : Nat) : (s.elapse n).watches = s.watches := rfl
@[simp] theorem elapse_pool (n : Nat) : (s.elapse n).pool = s.pool := rfl
@[simp] theorem elapse_reports (n : Nat) : (s.elapse n).reports = s.reports := rfl
@[simp] theorem elapse_reserved (n : Nat) : (s.elapse n).reserved = s.reserved := rfl
@[simp] theorem elapse_reportCounter (n : Nat) : (s.elapse n).reportCounter = s.reportCounter := rfl
@[simp] theorem elapse_sources (n : Nat) : (s.elapse n).sources = s.sources := rfl
@[simp] theorem elapse_linkRate (n : Nat) : (s.elapse n).linkRate = s.linkRate := rfl
@[simp] theorem elapse_rx (n : Nat) : (s.elapse n).rx = s.rx := rfl
@[simp] theorem elapse_inputQueue (n : Nat) : (s.elapse n).inputQueue = s.inputQueue := rfl
@[simp] theorem elapse_restarting (n : Nat) : (s.elapse n).restarting = s.restarting := rfl
@[simp] theorem elapse_replyQueue (n : Nat) : (s.elapse n).replyQueue = s.replyQueue := rfl
@[simp] theorem elapse_tx (n : Nat) : (s.elapse n).tx = s.tx := rfl
@[simp] theorem elapse_choices (n : Nat) : (s.elapse n).choices = s.choices := rfl
@[simp] theorem elapse_station (n : Nat) (ix' : StationIx) : (s.elapse n).station ix' = s.station ix' := rfl
@[simp] theorem elapse_group (n : Nat) (g' : GroupNo) : (s.elapse n).group g' = s.group g' := rfl
@[simp] theorem elapse_watch (n : Nat) (w' : WatchNo) : (s.elapse n).watch w' = s.watch w' := rfl

/-- No time passes. -/
@[simp] theorem elapse_zero : s.elapse 0 = s := by
  have : LineEngine.elapse 0 = id := by funext e; simp [LineEngine.elapse]
  simp [State.elapse, this]

/-- Some milliseconds and then some more are their sum (R183). -/
theorem elapse_elapse (a b : Nat) : (s.elapse a).elapse b = s.elapse (a + b) := by
  simp [State.elapse, LineEngine.elapse, BitVec.add_assoc, BitVec.ofNat_add, Nat.sub_sub]

/-! ## Reading after writing -/

@[simp] theorem engine_elapse (n : Nat) (l : LineNo) : (s.elapse n).engine l = (s.engine l).elapse n := by
  simp [State.elapse, State.engine]

@[simp] theorem engine_setEngine (l m : LineNo) (e : LineEngine) :
    (s.setEngine l e).engine m = if l = m then e else s.engine m := by
  by_cases h : l = m
  · subst h; simp [State.setEngine, State.engine]
  · have : l.val ≠ m.val := fun q => h (Fin.ext q)
    simp [State.setEngine, State.engine, h, this]

@[simp] theorem station_setStation (ix jx : StationIx) (st : Station) :
    (s.setStation ix st).station jx = if ix = jx then st else s.station jx := by
  by_cases h : ix = jx
  · subst h; simp [State.setStation, State.station]
  · have : ix.val ≠ jx.val := fun q => h (Fin.ext q)
    simp [State.setStation, State.station, h, this]

@[simp] theorem group_setGroup (g h : GroupNo) (gr : Group) :
    (s.setGroup g gr).group h = if g = h then gr else s.group h := by
  by_cases q : g = h
  · subst q; simp [State.setGroup, State.group]
  · have : g.val ≠ h.val := fun r => q (Fin.ext r)
    simp [State.setGroup, State.group, q, this]

@[simp] theorem watch_setWatch (w v : WatchNo) (e : Watch) :
    (s.setWatch w e).watch v = if w = v then e else s.watch v := by
  by_cases h : w = v
  · subst h; simp [State.setWatch, State.watch]
  · have : w.val ≠ v.val := fun q => h (Fin.ext q)
    simp [State.setWatch, State.watch, h, this]

@[simp] theorem engine_onEngine (l m : LineNo) (f : LineEngine → LineEngine) :
    (s.onEngine l f).engine m = if l = m then f (s.engine m) else s.engine m := by
  by_cases h : l = m
  · subst h; simp [State.onEngine]
  · simp [State.onEngine, h]

@[simp] theorem station_onStation (ix jx : StationIx) (f : Station → Station) :
    (s.onStation ix f).station jx = if ix = jx then f (s.station jx) else s.station jx := by
  by_cases h : ix = jx
  · subst h; simp [State.onStation]
  · simp [State.onStation, h]

end Machine

end Sys2Proof
end

