-- ==== Sys2Proof/Laws/Pool.lean ====
section
/-! SUPPORT. The buffer pool: every write keeps the canonical form, and what is written is read back. -/

namespace Sys2Proof

namespace Machine

theorem Memory.wfFrom_mono {low low' : Nat} (h : low' ≤ low) :
    ∀ m : Memory, Memory.wfFrom low m = true → Memory.wfFrom low' m = true
  | [], _ => rfl
  | (a, v) :: rest, hm => by
      simp only [Memory.wfFrom, Bool.and_eq_true, decide_eq_true_eq] at hm ⊢
      exact ⟨⟨by omega, hm.1.2⟩, hm.2⟩

theorem writeOctet_wfFrom : ∀ (m : Memory) (low a : Nat) (v : Octet), Memory.wfFrom low m = true → low ≤ a →
    Memory.wfFrom low (writeOctet m a v) = true
  | [], low, a, v, _, ha => by
      by_cases hv : v = blankOctet <;> simp [writeOctet, hv, Memory.wfFrom, ha]
  | (b, w) :: rest, low, a, v, hm, ha => by
      simp only [Memory.wfFrom, Bool.and_eq_true, decide_eq_true_eq] at hm
      obtain ⟨⟨hb, hw⟩, hr⟩ := hm
      unfold writeOctet
      by_cases hab : a < b
      · by_cases hv : v = blankOctet
        · simp [hab, hv, Memory.wfFrom, hb, hw, hr]
        · simp only [hab, hv, if_true, if_false, Memory.wfFrom, Bool.and_eq_true, decide_eq_true_eq]
          exact ⟨⟨ha, by simpa using hv⟩, ⟨⟨by omega, hw⟩, hr⟩⟩
      · by_cases hab' : a = b
        · subst hab'
          by_cases hv : v = blankOctet
          · simp only [hv, if_true, lt_self_iff_false, if_false]
            exact Memory.wfFrom_mono (by omega) rest hr
          · simp only [hv, if_true, if_false, lt_self_iff_false, Memory.wfFrom, Bool.and_eq_true, decide_eq_true_eq]
            exact ⟨⟨ha, by simpa using hv⟩, hr⟩
        · simp only [hab, hab', if_false, Memory.wfFrom, Bool.and_eq_true, decide_eq_true_eq]
          exact ⟨⟨hb, hw⟩, writeOctet_wfFrom rest (b + 1) a v hr (by omega)⟩

/-- A write keeps the canonical form. -/
theorem writeOctet_wf (m : Memory) (a : Nat) (v : Octet) (h : m.wf = true) : (writeOctet m a v).wf = true :=
  writeOctet_wfFrom m 0 a v h (Nat.zero_le a)

/-- A payload's write keeps the canonical form. -/
theorem writePayload_wf (m : Memory) (blocks : List Nat) (p : List Octet) (h : m.wf = true) :
    (writePayload m blocks p).wf = true := by
  unfold writePayload
  generalize (blockAddresses blocks).zip p = cells
  induction cells generalizing m with
  | nil => exact h
  | cons c rest ih => exact ih _ (writeOctet_wf m c.1 c.2 h)

theorem readOctet_of_lt : ∀ (m : Memory) (low a : Nat), Memory.wfFrom low m = true → a < low → readOctet m a = blankOctet
  | [], _, _, _, _ => rfl
  | (b, w) :: rest, low, a, hm, ha => by
      simp only [Memory.wfFrom, Bool.and_eq_true, decide_eq_true_eq] at hm
      have : a ≠ b := by omega
      simp only [readOctet, this, if_false]
      exact readOctet_of_lt rest (b + 1) a hm.2 (by omega)

/-- After a write its address reads as the octet written, and every other address as before. -/
theorem readOctet_writeOctet : ∀ (m : Memory) (low a : Nat) (v : Octet) (c : Nat), Memory.wfFrom low m = true →
    readOctet (writeOctet m a v) c = if c = a then v else readOctet m c
  | [], low, a, v, c, _ => by
      by_cases hv : v = blankOctet <;> by_cases hc : c = a <;> simp [writeOctet, readOctet, hv, hc]
  | (b, w) :: rest, low, a, v, c, hm => by
      have hm' := hm
      simp only [Memory.wfFrom, Bool.and_eq_true, decide_eq_true_eq] at hm
      obtain ⟨⟨hb, hw⟩, hr⟩ := hm
      unfold writeOctet
      by_cases hab : a < b
      · by_cases hv : v = blankOctet
        · simp only [hab, hv, if_true]
          by_cases hc : c = a
          · subst hc
            have : c ≠ b := by omega
            simp only [readOctet, this, if_false, if_true]
            exact readOctet_of_lt rest (b + 1) c hr (by omega)
          · simp [hc]
        · simp only [hab, hv, if_true, if_false]
          by_cases hc : c = a <;> simp [readOctet, hc]
      · by_cases hab' : a = b
        · subst hab'
          by_cases hv : v = blankOctet
          · simp only [hv, if_true, lt_self_iff_false, if_false]
            by_cases hc : c = a
            · subst hc
              simp only [if_true]
              exact readOctet_of_lt rest (c + 1) c hr (by omega)
            · simp [hc, readOctet]
          · simp only [hv, if_true, if_false, lt_self_iff_false]
            by_cases hc : c = a <;> simp [readOctet, hc]
        · simp only [hab, hab', if_false]
          by_cases hcb : c = b
          · subst hcb
            simp [readOctet, Ne.symm hab']
          · simp only [readOctet, hcb, if_false]
            exact readOctet_writeOctet rest (b + 1) a v c hr

/-- An address that none of the cells has reads as before. -/
theorem readOctet_foldl_other (cells : List (Nat × Octet)) (m : Memory) (c : Nat) (hm : m.wf = true)
    (h : c ∉ cells.map Prod.fst) : readOctet (cells.foldl (fun m p => writeOctet m p.1 p.2) m) c = readOctet m c := by
  induction cells generalizing m with
  | nil => rfl
  | cons p rest ih =>
      simp only [List.map_cons, List.mem_cons, not_or] at h
      rw [List.foldl_cons, ih _ (writeOctet_wf m p.1 p.2 hm) h.2, readOctet_writeOctet m 0 p.1 p.2 c hm, if_neg h.1]

theorem map_readOctet_foldl (cells : List (Nat × Octet)) (m : Memory) (hm : m.wf = true)
    (h : (cells.map Prod.fst).Nodup) :
    (cells.map Prod.fst).map (readOctet (cells.foldl (fun m p => writeOctet m p.1 p.2) m)) = cells.map Prod.snd := by
  induction cells generalizing m with
  | nil => rfl
  | cons p rest ih =>
      simp only [List.map_cons, List.nodup_cons] at h
      simp only [List.map_cons, List.foldl_cons]
      rw [ih _ (writeOctet_wf m p.1 p.2 hm) h.2,
        readOctet_foldl_other rest _ p.1 (writeOctet_wf m p.1 p.2 hm) h.1, readOctet_writeOctet m 0 p.1 p.2 p.1 hm, if_pos rfl]

theorem mem_blockAddresses (blocks : List Nat) (a : Nat) : a ∈ blockAddresses blocks ↔ a / 32 ∈ blocks := by
  simp only [blockAddresses, Config.blockOctets, List.mem_flatMap, List.mem_map, List.mem_range]
  constructor
  · rintro ⟨b, hb, k, hk, rfl⟩
    have : (32 * b + k) / 32 = b := by omega
    rwa [this]
  · intro h
    exact ⟨a / 32, h, a % 32, by omega, by omega⟩

theorem blockAddresses_nodup (blocks : List Nat) (h : blocks.Nodup) : (blockAddresses blocks).Nodup := by
  induction blocks with
  | nil => exact List.nodup_nil
  | cons b rest ih =>
      rw [List.nodup_cons] at h
      have e : blockAddresses (b :: rest) =
          (List.range Config.blockOctets).map (fun k => Config.blockOctets * b + k) ++ blockAddresses rest := rfl
      rw [e, List.nodup_append']
      refine ⟨?_, ih h.2, ?_⟩
      · exact (List.nodup_range).map (fun x y hxy => by simpa using hxy)
      · intro a ha ha'
        rw [mem_blockAddresses] at ha'
        simp only [List.mem_map, List.mem_range, Config.blockOctets] at ha
        obtain ⟨k, hk, rfl⟩ := ha
        have : (32 * b + k) / 32 = b := by omega
        rw [this] at ha'
        exact h.1 ha'

theorem length_blockAddresses (blocks : List Nat) : (blockAddresses blocks).length = 32 * blocks.length := by
  simp [blockAddresses, Config.blockOctets, List.length_flatMap, Nat.mul_comm]

theorem map_fst_zip (l : List Nat) (p : List Octet) : (l.zip p).map Prod.fst = l.take p.length := by
  induction l generalizing p with
  | nil => simp
  | cons a l ih => cases p <;> simp [ih]

/-- A payload written into its blocks is read back whole (R153). -/
theorem readPayload_writePayload (m : Memory) (blocks : List Nat) (p : List Octet) (hm : m.wf = true)
    (hb : blocks.Nodup) (hp : p.length ≤ 32 * blocks.length) :
    readPayload (writePayload m blocks p) blocks p.length = p := by
  have hl := length_blockAddresses blocks
  have e1 : ((blockAddresses blocks).zip p).map Prod.fst = (blockAddresses blocks).take p.length :=
    map_fst_zip _ _
  have e2 : ((blockAddresses blocks).zip p).map Prod.snd = p := by
    rw [List.map_snd_zip]; omega
  have hn : (((blockAddresses blocks).zip p).map Prod.fst).Nodup := by
    rw [e1]; exact (blockAddresses_nodup blocks hb).sublist (List.take_sublist _ _)
  have := map_readOctet_foldl ((blockAddresses blocks).zip p) m hm hn
  rw [e1, e2] at this
  exact this

/-- Blocks outside those written keep their octets (R153, R154). -/
theorem readPayload_writePayload_other (m : Memory) (blocks other : List Nat) (p : List Octet) (n : Nat) (hm : m.wf = true)
    (h : ∀ b ∈ other, b ∉ blocks) : readPayload (writePayload m blocks p) other n = readPayload m other n := by
  unfold readPayload
  apply List.map_congr_left
  intro a ha
  have ha' : a / 32 ∈ other := (mem_blockAddresses other a).mp (List.mem_of_mem_take ha)
  refine readOctet_foldl_other _ m a hm ?_
  intro hc
  simp only [List.mem_map] at hc
  obtain ⟨c, hc, rfl⟩ := hc
  exact h _ ha' ((mem_blockAddresses blocks c.1).mp (List.of_mem_zip hc).1)

end Machine

end Sys2Proof
end

