-- ==== Sys2Proof/Laws/Keeps.lean ====
section
/-! SUPPORT. What an operation of the drop side may do, said once for each: it leaves the host link's side of the state as it is, changes no engine but its report latch, and keeps the invariants of the stores. -/

namespace Sys2Proof

namespace Machine

/-- The part of the state that the operations of the drop side never touch. -/
structure HostSide where
  pending : List Instr
  resetAsserted : Bool
  partTime : PartTime
  linkRate : Octet
  rx : Receiver
  inputQueue : List HostFrame
  restarting : Bool
  replyQueue : List WaitingFrame
  tx : Option Transmission
  choices : Nat

/-- The host link's side of a state. -/
def State.hostSide (s : State) : HostSide :=
  { pending := s.pending, resetAsserted := s.resetAsserted, partTime := s.partTime, linkRate := s.linkRate, rx := s.rx,
    inputQueue := s.inputQueue, restarting := s.restarting, replyQueue := s.replyQueue, tx := s.tx, choices := s.choices }

/-- What the invariants of the stores read. -/
structure Accounts where
  pool : Memory
  orders : List (OrderKind × List Nat)
  deliveries : List (List Nat)
  reports : List (List Nat)
  reserved : Nat
  sources : List Source
  watches : Vector Watch 32

/-- The accounts of a state. -/
def State.accounts (s : State) : Accounts :=
  { pool := s.pool, orders := s.orders.map fun r => (r.kind, r.blocks), deliveries := s.deliveries.map Delivery.blocks,
    reports := s.reports.map Report.blocks, reserved := s.reserved, sources := s.sources, watches := s.watches }

/-- An engine without its line report latch. -/
def LineEngine.unlatched (e : LineEngine) : LineEngine :=
  { e with latch := none }

/-- A change that touches neither the host side nor the accounts, and no engine but its latch. -/
structure Quiet (s t : State) : Prop where
  host : t.hostSide = s.hostSide
  accounts : t.accounts = s.accounts
  engines : ∀ l, (t.engine l).unlatched = (s.engine l).unlatched

/-- A change that leaves the host side and the engines (but their latches) as they are, and keeps every invariant of the
stores but the one on draws. -/
structure Accounted (s t : State) : Prop where
  host : t.hostSide = s.hostSide
  engines : ∀ l, (t.engine l).unlatched = (s.engine l).unlatched
  pool : s.PoolCanonical → t.PoolCanonical
  records : s.RecordsBounded → t.RecordsBounded
  slots : s.SlotsAccounted → t.SlotsAccounted
  blocks : s.BlocksAccounted → t.BlocksAccounted
  hits : s.HitsPending → t.HitsPending

/-- Such a change that keeps the draws settled too. -/
structure Keeps (s t : State) : Prop extends Accounted s t where
  draws : s.DrawsSettled → t.DrawsSettled

theorem Quiet.refl (s : State) : Quiet s s := ⟨rfl, rfl, fun _ => rfl⟩

theorem Quiet.trans {s t u : State} (h : Quiet s t) (k : Quiet t u) : Quiet s u :=
  ⟨k.host.trans h.host, k.accounts.trans h.accounts, fun l => (k.engines l).trans (h.engines l)⟩

theorem Accounted.refl (s : State) : Accounted s s := ⟨rfl, fun _ => rfl, id, id, id, id, id⟩

theorem Accounted.trans {s t u : State} (h : Accounted s t) (k : Accounted t u) : Accounted s u :=
  ⟨k.host.trans h.host, fun l => (k.engines l).trans (h.engines l), k.pool ∘ h.pool, k.records ∘ h.records,
   k.slots ∘ h.slots, k.blocks ∘ h.blocks, k.hits ∘ h.hits⟩

theorem Keeps.refl (s : State) : Keeps s s := ⟨Accounted.refl s, id⟩

theorem Keeps.trans {s t u : State} (h : Keeps s t) (k : Keeps t u) : Keeps s u :=
  ⟨h.toAccounted.trans k.toAccounted, k.draws ∘ h.draws⟩

/-! ## The invariants in terms of the accounts -/

theorem State.orders_length_accounts (s : State) : s.orders.length = s.accounts.orders.length := by
  simp [State.accounts]

theorem State.deliveries_length_accounts (s : State) : s.deliveries.length = s.accounts.deliveries.length := by
  simp [State.accounts]

theorem State.reports_length_accounts (s : State) : s.reports.length = s.accounts.reports.length := by
  simp [State.accounts]

theorem State.orderReservations_accounts (s : State) :
    s.orderReservations = s.accounts.orders.countP fun r => r.1 != .groupPass := by
  simp [State.accounts, State.orderReservations, List.countP_map, Function.comp_def]

theorem State.heldBlocks_accounts (s : State) :
    s.heldBlocks = s.accounts.orders.flatMap Prod.snd ++ s.accounts.deliveries.flatMap id ++
      s.accounts.reports.flatMap id := by
  simp [State.accounts, State.heldBlocks, List.flatMap_map]

theorem State.slotsInUse_accounts (s : State) : s.slotsInUse = s.accounts.reserved + s.accounts.reports.length := by
  simp [State.accounts, State.slotsInUse]

theorem Quiet.keeps {s t : State} (h : Quiet s t) : Keeps s t := by
  have ha := h.accounts
  have hr : t.reserved = s.reserved := congrArg Accounts.reserved ha
  have hs : t.sources = s.sources := congrArg Accounts.sources ha
  have hw : t.watches = s.watches := congrArg Accounts.watches ha
  have hp : t.pool = s.pool := congrArg Accounts.pool ha
  have hu : t.slotsInUse = s.slotsInUse := by rw [State.slotsInUse_accounts, State.slotsInUse_accounts, ha]
  have ho : t.orderReservations = s.orderReservations := by
    rw [State.orderReservations_accounts, State.orderReservations_accounts, ha]
  have hd : t.deliveries.length = s.deliveries.length := by
    rw [State.deliveries_length_accounts, State.deliveries_length_accounts, ha]
  have hl : t.orders.length = s.orders.length := by
    rw [State.orders_length_accounts, State.orders_length_accounts, ha]
  have hb : t.heldBlocks = s.heldBlocks := by rw [State.heldBlocks_accounts, State.heldBlocks_accounts, ha]
  refine ⟨⟨h.host, h.engines, ?_, ?_, ?_, ?_, ?_⟩, ?_⟩
  · intro k; unfold State.PoolCanonical; rw [hp]; exact k
  · intro k; unfold State.RecordsBounded; rw [hl, hd]; exact k
  · intro k; unfold State.SlotsAccounted; rw [hr, ho, hd, hu]; exact k
  · intro k; unfold State.BlocksAccounted; rw [hb]; exact k
  · intro k; unfold State.HitsPending State.watch; rw [hw]; exact k
  · intro k; unfold State.DrawsSettled State.freeSlots; rw [hs, hu]; exact k

theorem Keeps.foldl {α : Type} (f : State → α → State) (h : ∀ s a, Keeps s (f s a)) (as : List α) (s : State) :
    Keeps s (as.foldl f s) := by
  induction as generalizing s with
  | nil => exact Keeps.refl s
  | cons a as ih => exact (h s a).trans (ih (f s a))

theorem Quiet.foldl {α : Type} (f : State → α → State) (h : ∀ s a, Quiet s (f s a)) (as : List α) (s : State) :
    Quiet s (as.foldl f s) := by
  induction as generalizing s with
  | nil => exact Quiet.refl s
  | cons a as ih => exact (h s a).trans (ih (f s a))

/-! ## Setters -/

theorem quiet_setStation (s : State) (ix : StationIx) (st : Station) : Quiet s (s.setStation ix st) :=
  ⟨rfl, rfl, fun _ => rfl⟩

theorem quiet_onStation (s : State) (ix : StationIx) (f : Station → Station) : Quiet s (s.onStation ix f) :=
  ⟨rfl, rfl, fun _ => rfl⟩

theorem quiet_setGroup (s : State) (g : GroupNo) (gr : Group) : Quiet s (s.setGroup g gr) :=
  ⟨rfl, rfl, fun _ => rfl⟩

/-- A change of an engine's latch alone. -/
theorem quiet_onEngine (s : State) (l : LineNo) (f : LineEngine → LineEngine)
    (h : (f (s.engine l)).unlatched = (s.engine l).unlatched) : Quiet s (s.onEngine l f) := by
  refine ⟨rfl, rfl, fun m => ?_⟩
  by_cases hm : l = m
  · subst hm; simpa using h
  · simp [hm]

theorem quiet_updateOrder (s : State) (n : Word) (f : OrderRecord → OrderRecord) (hk : ∀ r, (f r).kind = r.kind)
    (hb : ∀ r, (f r).blocks = r.blocks) : Quiet s (s.updateOrder n f) := by
  refine ⟨rfl, ?_, fun _ => rfl⟩
  unfold State.accounts
  simp only [updateOrder_deliveries, updateOrder_pool, updateOrder_reports, updateOrder_reserved, updateOrder_sources,
    updateOrder_watches]
  congr 1
  simp only [State.updateOrder, List.map_map]
  apply List.map_congr_left
  intro r _
  by_cases h : r.named n <;> simp [h, hk, hb]

theorem quiet_updatePass (s : State) (n : Word) (l : LineNo) (f : OrderRecord → OrderRecord) (hk : ∀ r, (f r).kind = r.kind)
    (hb : ∀ r, (f r).blocks = r.blocks) : Quiet s (s.updatePass n l f) := by
  refine ⟨rfl, ?_, fun _ => rfl⟩
  unfold State.accounts
  simp only [updatePass_deliveries, updatePass_pool, updatePass_reports, updatePass_reserved, updatePass_sources,
    updatePass_watches]
  congr 1
  simp only [State.updatePass, List.map_map]
  apply List.map_congr_left
  intro r _
  by_cases h : r.isPass n l <;> simp [h, hk, hb]

theorem quiet_updateDelivery (s : State) (n : Word) (f : Delivery → Delivery) (hb : ∀ d, (f d).blocks = d.blocks) :
    Quiet s (s.updateDelivery n f) := by
  refine ⟨rfl, ?_, fun _ => rfl⟩
  unfold State.accounts
  simp only [updateDelivery_orders, updateDelivery_pool, updateDelivery_reports, updateDelivery_reserved,
    updateDelivery_sources, updateDelivery_watches]
  congr 1
  simp only [State.updateDelivery, List.map_map]
  apply List.map_congr_left
  intro d _
  by_cases h : d.number = n <;> simp [h, hb]

end Machine

end Sys2Proof
end

