-- ==== Sys2Proof/Laws/Reports.lean ====
section
/-! SUPPORT. The report queue's operations: what a push, a draw, a latch and a discard may do (sections 7.2, 7.3). -/

namespace Sys2Proof

namespace Machine

theorem slotsInUse_pushReport (s : State) (i : ReportItems) (b : List Nat) (k : Nat) :
    (s.pushReport i b k).slotsInUse = s.slotsInUse + 1 := by
  simp [State.slotsInUse, State.pushReport]; omega

/-- A report with no blocks in a FREE slot. -/
theorem accounted_pushReport (s : State) (i : ReportItems) (k : Nat) (h : s.freeSlots ≠ 0) :
    Accounted s (s.pushReport i [] k) := by
  refine ⟨rfl, fun _ => rfl, id, id, ?_, ?_, id⟩
  · rintro ⟨h1, h2, h3⟩
    refine ⟨h1, h2, ?_⟩
    rw [slotsInUse_pushReport]
    simp only [State.freeSlots] at h
    omega
  · rintro ⟨h1, h2⟩
    have e : (s.pushReport i [] k).heldBlocks = s.heldBlocks := by
      simp [State.heldBlocks, State.pushReport]
    unfold State.BlocksAccounted
    rw [e]
    exact ⟨h1, h2⟩

theorem Quiet.accounted {s t : State} (h : Quiet s t) : Accounted s t := h.keeps.toAccounted

theorem Quiet.freeSlots {s t : State} (h : Quiet s t) : t.freeSlots = s.freeSlots := by
  unfold State.freeSlots
  rw [State.slotsInUse_accounts, State.slotsInUse_accounts, h.accounts]

/-- A watch entry written so that it holds a hit exactly while it is PENDING. -/
theorem keeps_setWatch (s : State) (w : WatchNo) (e : Watch) (h : s.HitsPending → (e.state = .pending ↔ e.hit.isSome = true)) :
    Keeps s (s.setWatch w e) := by
  refine ⟨⟨rfl, fun _ => rfl, id, id, id, id, ?_⟩, id⟩
  intro k v
  by_cases hv : w = v
  · simp [hv, h k]
  · simp [hv, k v]

theorem keeps_dropSource (s : State) (x : Source) : Keeps s (s.dropSource x) := by
  refine ⟨⟨rfl, fun _ => rfl, id, id, id, id, id⟩, ?_⟩
  intro h hs
  refine h (fun he => hs ?_)
  simp [State.dropSource, he]

/-- A change of the pending list alone. -/
theorem accounted_sources (s : State) (l : List Source) : Accounted s { s with sources := l } :=
  ⟨rfl, fun _ => rfl, id, id, id, id, id⟩

theorem drawSource_sources (s : State) (x : Source) : (s.drawSource x).sources = s.sources := by
  cases x with
  | station ix => simp only [State.drawSource]; split <;> rfl
  | line l => simp only [State.drawSource]; split <;> rfl
  | watch w => simp only [State.drawSource]; split <;> rfl

theorem accounted_drawSource (s : State) (x : Source) (h : s.freeSlots ≠ 0) : Accounted s (s.drawSource x) := by
  cases x with
  | station ix =>
      simp only [State.drawSource]
      split
      · exact (quiet_onStation s ix _).accounted.trans
          (accounted_pushReport _ _ _ (by rw [(quiet_onStation s ix _).freeSlots]; exact h))
      · exact Accounted.refl s
  | line l =>
      simp only [State.drawSource]
      split
      · have q := quiet_onEngine s l (fun e => { e with latch := none }) rfl
        exact q.accounted.trans (accounted_pushReport _ _ _ (by rw [q.freeSlots]; exact h))
      · exact Accounted.refl s
  | watch w =>
      simp only [State.drawSource]
      split
      · refine (keeps_setWatch s w _ ?_).toAccounted.trans (accounted_pushReport _ _ _ h)
        intro _
        by_cases ho : (s.watch w).oneShot = true <;> simp [ho]
      · exact Accounted.refl s

theorem accounted_drawFrom (l : List Source) : ∀ s : State, Accounted s (s.drawFrom l) := by
  induction l with
  | nil => exact fun s => Accounted.refl s
  | cons x rest ih =>
      intro s
      simp only [State.drawFrom]
      split
      · exact Accounted.refl s
      · next h => exact ((accounted_sources s rest).trans (accounted_drawSource _ x h)).trans (ih _)

theorem settled_drawFrom (l : List Source) : ∀ s : State, s.sources = l → (s.drawFrom l).DrawsSettled := by
  induction l with
  | nil => intro s h k; exact absurd h k
  | cons x rest ih =>
      intro s _
      simp only [State.drawFrom]
      split
      · next h => exact fun _ => h
      · exact ih _ (drawSource_sources _ x)

/-- A draw fills FREE slots from the head of the pending list until one of the two runs out (R161). -/
theorem settled_draw (s : State) : s.draw.DrawsSettled := settled_drawFrom s.sources s rfl

theorem accounted_draw (s : State) : Accounted s s.draw := accounted_drawFrom s.sources s

theorem keeps_draw (s : State) : Keeps s s.draw := ⟨accounted_draw s, fun _ => settled_draw s⟩

theorem keeps_joinSources (s : State) (x : Source) : Keeps s (s.joinSources x) :=
  ⟨(accounted_sources s _).trans (accounted_draw _), fun _ => settled_draw _⟩

theorem keeps_latchPresence (s : State) (ix : StationIx) (p : Presence) (r : Bool) : Keeps s (s.latchPresence ix p r) := by
  unfold State.latchPresence
  split
  · exact (quiet_onStation s ix _).keeps.trans (keeps_joinSources _ _)
  · exact (quiet_onStation s ix _).keeps

theorem keeps_latchLine (s : State) (l : LineNo) (c : LineCondition) (k : LineCause) : Keeps s (s.latchLine l c k) := by
  unfold State.latchLine
  split
  · refine (quiet_onEngine s l _ ?_).keeps.trans (keeps_joinSources _ _)
    rfl
  · refine (quiet_onEngine s l _ ?_).keeps
    rfl

/-! ## Completion reports -/

theorem slotsInUse_fillReservation (s : State) (i : ReportItems) (b : List Nat) (k : Nat) :
    s.slotsInUse ≤ (s.fillReservation i b k).slotsInUse ∧
    (0 < s.reserved → (s.fillReservation i b k).slotsInUse = s.slotsInUse) := by
  simp [State.slotsInUse, State.fillReservation, State.pushReport]; omega

/-- A completion report leaves the draws settled: it takes no FREE slot. -/
theorem settled_fillReservation (s : State) (i : ReportItems) (b : List Nat) (k : Nat) (h : s.DrawsSettled) :
    (s.fillReservation i b k).DrawsSettled := by
  intro hs
  have h' := h hs
  have := (slotsInUse_fillReservation s i b k).1
  simp only [State.freeSlots] at h' ⊢
  omega

theorem heldBlocks_fillReservation (s : State) (i : ReportItems) (b : List Nat) (k : Nat) :
    (s.fillReservation i b k).heldBlocks = s.heldBlocks ++ b := by
  simp [State.heldBlocks, State.fillReservation, State.pushReport]

end Machine

end Sys2Proof
end

