-- ==== Sys2Proof/Laws/Deliveries.lean ====
section
/-! SUPPORT. What the delivery unit's operations may do (chapter 5): each keeps the invariants of the stores. -/

namespace Sys2Proof

namespace Machine

/-! ## Lists -/

theorem perm_eraseP {α : Type} (p : α → Bool) : ∀ (l : List α) (a : α), l.find? p = some a → l.Perm (a :: l.eraseP p)
  | [], _, h => by simp at h
  | b :: l, a, h => by
      by_cases hb : p b = true
      · simp only [List.find?_cons, hb, Option.some.injEq] at h
        subst h
        simp [hb]
      · simp only [List.find?_cons, hb] at h
        simp only [List.eraseP_cons, hb]
        exact ((perm_eraseP p l a h).cons b).trans (List.Perm.swap a b _)

/-- Held blocks after a change that takes some away. -/
theorem BlocksAccounted.of_subperm {s t : State} (h : t.heldBlocks.Subperm s.heldBlocks) (k : s.BlocksAccounted) :
    t.BlocksAccounted := by
  obtain ⟨l, hl, hs⟩ := h
  exact ⟨(hl.nodup_iff).mp (k.1.sublist hs), fun b hb => k.2 b (hs.subset (hl.mem_iff.mpr hb))⟩

/-! ## Members of the group table -/

theorem quiet_clearLapsed (s : State) (ix : StationIx) (g : GroupNo) : Quiet s (s.clearLapsed ix g) :=
  quiet_onStation s ix _

theorem quiet_joinCompleted (s : State) (g : GroupNo) (ix : StationIx) (o : OrderOutcome) : Quiet s (s.joinCompleted g ix o) := by
  unfold State.joinCompleted
  split
  · exact (quiet_setGroup s g _).trans (quiet_clearLapsed _ ix g)
  · exact Quiet.refl s

theorem quiet_leaveCompleted (s : State) (g : GroupNo) (ix : StationIx) : Quiet s (s.leaveCompleted g ix) := by
  unfold State.leaveCompleted
  split
  · exact (quiet_setGroup s g _).trans (quiet_clearLapsed _ ix g)
  · exact Quiet.refl s

/-! ## Deliveries in flight -/

theorem quiet_setMember (s : State) (n : Word) (k : Nat) (f : DeliveryMember → DeliveryMember) : Quiet s (s.setMember n k f) :=
  quiet_updateDelivery s n _ fun _ => rfl

/-- The check for completion (R129): one delivery goes, its reservation becomes a report, its blocks are freed. -/
theorem keeps_checkDelivery (s : State) (n : Word) : Keeps s (s.checkDelivery n) := by
  unfold State.checkDelivery
  split
  · exact Keeps.refl s
  · next d hd =>
    split
    · have hp := perm_eraseP _ s.deliveries d hd
      have hlen : s.deliveries.length = (s.deliveries.eraseP fun e => decide (e.number = n)).length + 1 := by
        rw [hp.length_eq]; rfl
      refine ⟨⟨rfl, fun _ => rfl, id, ?_, ?_, ?_, id⟩, ?_⟩
      · rintro ⟨h1, h2⟩
        refine ⟨h1, ?_⟩
        simp only [fillReservation_deliveries]
        omega
      · rintro ⟨h1, h2, h3⟩
        simp only [State.orderReservations, State.slotsInUse, State.SlotsAccounted, State.fillReservation, State.pushReport,
          List.length_append, List.length_singleton] at h1 h2 h3 ⊢
        refine ⟨?_, ?_, ?_⟩ <;> omega
      · intro h
        refine BlocksAccounted.of_subperm ?_ h
        rw [heldBlocks_fillReservation, List.append_nil]
        unfold State.heldBlocks
        refine List.Subperm.append (List.Subperm.append (List.Sublist.refl _).subperm ?_) (List.Sublist.refl _).subperm
        exact ((List.eraseP_sublist).flatMap _).subperm
      · exact fun h => settled_fillReservation _ _ _ _ h
    · exact Keeps.refl s

/-- Passes leave the order records. -/
theorem keeps_filterPasses (s : State) (p : OrderRecord → Bool) (h : ∀ r ∈ s.orders, p r = false → r.kind = .groupPass) :
    Keeps s { s with orders := s.orders.filter p } := by
  refine ⟨⟨rfl, fun _ => rfl, id, ?_, ?_, ?_, id⟩, id⟩
  · rintro ⟨h1, h2⟩
    exact ⟨(List.length_filter_le p s.orders).trans h1, h2⟩
  · rintro ⟨h1, h2, h3⟩
    refine ⟨?_, h2, h3⟩
    rw [show ({ s with orders := s.orders.filter p } : State).reserved = s.reserved from rfl, h1]
    simp only [State.orderReservations, List.countP_filter]
    congr 1
    apply List.countP_congr
    intro r hr
    by_cases hpr : p r = true
    · simp [hpr]
    · have := h r hr (by simpa using hpr)
      simp [this, hpr]
  · intro k
    refine BlocksAccounted.of_subperm ?_ k
    unfold State.heldBlocks
    exact ((((List.filter_sublist).flatMap _).append (List.Sublist.refl _)).append (List.Sublist.refl _)).subperm

theorem keeps_freePass (s : State) (n : Word) (l : LineNo) : Keeps s (s.freePass n l) := by
  unfold State.freePass
  refine Keeps.trans (Keeps.trans (keeps_filterPasses s _ ?_) (quiet_updateDelivery _ n _ ?_).keeps) (keeps_checkDelivery _ n)
  rotate_left
  · exact fun _ => rfl
  intro r _ hr
  simp only [OrderRecord.isPass, Bool.not_eq_false', Bool.and_eq_true, decide_eq_true_eq] at hr
  exact hr.1.2

theorem keeps_reviewPass (s : State) (n : Word) (l : LineNo) : Keeps s (s.reviewPass n l) := by
  unfold State.reviewPass
  split
  · split
    · exact Keeps.refl s
    · exact keeps_freePass s n l
  · exact Keeps.refl s

theorem keeps_settleMember (s : State) (ix : StationIx) (f : Fate) (g : GroupNo) : Keeps s (s.settleMember ix f g) := by
  unfold State.settleMember
  split
  · exact Keeps.refl s
  · split
    · exact Keeps.refl s
    · split
      · exact (quiet_setMember s _ _ _).keeps
      · exact (quiet_setMember s _ _ _).keeps.trans (keeps_reviewPass _ _ _)

theorem keeps_deliveriesStationDown (s : State) (ix : StationIx) : Keeps s (s.deliveriesStationDown ix) :=
  Keeps.foldl _ (fun s g => keeps_settleMember s ix .unreached g) _ s

theorem keeps_lapseGroup (s : State) (ix : StationIx) (g : GroupNo) : Keeps s (s.lapseGroup ix g) := by
  unfold State.lapseGroup
  refine Keeps.trans ?_ (keeps_settleMember _ ix .dropped g)
  split
  · exact ((quiet_setGroup s g _).trans (quiet_onStation _ ix _)).keeps
  · exact Keeps.refl s

theorem keeps_lapse (s : State) (ix : StationIx) : Keeps s (s.lapse ix) :=
  Keeps.foldl _ (fun s g => keeps_lapseGroup s ix g) _ s

theorem keeps_leaveAllGroups (s : State) (ix : StationIx) : Keeps s (s.leaveAllGroups ix) :=
  Keeps.foldl _ (fun s g => (quiet_setGroup s g _).keeps.trans (keeps_settleMember _ ix .dropped g)) _ s

theorem keeps_deliveryLineStop (s : State) (n : Word) (l : LineNo) : Keeps s (s.deliveryLineStop n l) :=
  Keeps.trans (t := s.updateDelivery n _) (quiet_updateDelivery s n _ (by exact fun _ => rfl)).keeps (keeps_freePass _ n l)

theorem keeps_stepResult (s : State) (l : LineNo) (n : Word) (step : PassStep) (r : TxResult) :
    Keeps s (s.stepResult l n step r) := by
  unfold State.stepResult
  split
  · by_cases h : r.outcome.lineStopped = true
    · simp only [h, if_true]
      refine Keeps.trans (quiet_updatePass s n l _ ?_ ?_).keeps (keeps_deliveryLineStop _ n l)
      · exact fun _ => rfl
      · exact fun _ => rfl
    · simp only [h, if_false, Bool.false_eq_true]
      refine Keeps.trans (quiet_updatePass s n l _ ?_ ?_).keeps (keeps_reviewPass _ n l)
      · exact fun _ => rfl
      · exact fun _ => rfl
  · have q := ((quiet_setMember s n ‹Nat› fun m => m.afterStep r.kind r.outcome r.attemptsUsed (match s.findDelivery n with
        | some d => d.cancelling
        | none => false)).trans (quiet_updatePass _ n l
          (fun p => { p with state := OrderState.queued, passStep := none }) (fun _ => rfl) fun _ => rfl)).keeps
    simp only
    split
    · exact q.trans (keeps_deliveryLineStop _ n l)
    · exact q.trans (keeps_reviewPass _ n l)

theorem keeps_cancelDelivery (s : State) (n : Word) : Keeps s (s.cancelDelivery n) := by
  unfold State.cancelDelivery
  refine Keeps.trans (Keeps.trans (keeps_filterPasses s _ ?_) (quiet_updateDelivery _ n _ ?_).keeps) (keeps_checkDelivery _ n)
  rotate_left
  · exact fun _ => rfl
  intro r _ hr
  simp only [Bool.not_eq_false', Bool.and_eq_true, decide_eq_true_eq] at hr
  exact hr.1.1

end Machine

end Sys2Proof
end

