-- ==== Sys2Proof/Laws/Orders.lean ====
section
/-! SUPPORT. What the order store's operations may do (chapter 4): acceptance, completion and the endings in the queues keep the invariants of the stores. -/

namespace Sys2Proof

namespace Machine

/-! ## Free blocks (section 7.1) -/

theorem mem_freeBlocks (s : State) (b : Nat) : b ∈ s.freeBlocks ↔ b < Config.bufferBlocks ∧ b ∉ s.heldBlocks := by
  simp [State.freeBlocks]

theorem nodup_freeBlocks (s : State) : s.freeBlocks.Nodup := List.nodup_range.filter _

/-- Held blocks with k free ones added. -/
theorem BlocksAccounted.add_free {s t : State} (k : Nat) (h : s.BlocksAccounted)
    (hp : t.heldBlocks.Perm (s.heldBlocks ++ s.freeBlocks.take k)) : t.BlocksAccounted := by
  constructor
  · rw [hp.nodup_iff, List.nodup_append']
    refine ⟨h.1, (nodup_freeBlocks s).sublist (List.take_sublist _ _), ?_⟩
    intro b hb hb'
    exact ((mem_freeBlocks s b).mp (List.mem_of_mem_take hb')).2 hb
  · intro b hb
    rcases List.mem_append.mp (hp.mem_iff.mp hb) with h' | h'
    · exact h.2 b h'
    · exact ((mem_freeBlocks s b).mp (List.mem_of_mem_take h')).1

/-! ## Acceptance (R86, R87) -/

/-- What passed resource checks say. -/
theorem resourceRefusal_eq_none {s : State} {records blocks : Nat} (h : s.resourceRefusal records blocks = none) :
    records ≤ s.freeRecords ∧ blocks ≤ s.freeBlocks.length ∧ s.slotsInUse < Config.reservationLimit := by
  unfold State.resourceRefusal at h
  split at h
  · simp at h
  · split at h
    · simp at h
    · split at h
      · simp at h
      · next h1 h2 h3 =>
        refine ⟨by omega, by omega, ?_⟩
        simpa [State.grantable] using h3

/-- The draws stay settled when a slot is taken from a state that grants one. -/
theorem settled_of_grantable {s t : State} (hs : t.sources = s.sources) (hg : s.slotsInUse < Config.reservationLimit)
    (h : s.DrawsSettled) : t.DrawsSettled := by
  intro k
  rw [hs] at k
  have := h k
  simp only [State.freeSlots, Config.reportSlots, Config.reservationLimit] at this hg
  omega

/-- An acceptance that passed its checks for one record. -/
theorem keeps_acceptOrder (s : State) (o : NewOrder) (ho : o.kind ≠ .groupPass) (hr : s.resourceRefusal 1 o.blocks = none) :
    Keeps s (s.acceptOrder o) := by
  obtain ⟨h1, h2, h3⟩ := resourceRefusal_eq_none hr
  refine ⟨⟨rfl, fun _ => rfl, fun k => writePayload_wf _ _ _ k, ?_, ?_, ?_, id⟩, settled_of_grantable rfl h3⟩
  · rintro ⟨k1, k2⟩
    refine ⟨?_, k2⟩
    simp only [State.freeRecords, Config.orderRecords] at h1
    simp only [State.acceptOrder, List.length_append, List.length_singleton, Config.orderRecords]
    omega
  · rintro ⟨k1, k2, k3⟩
    simp only [State.slotsInUse, Config.reservationLimit, Config.reportSlots] at h3 k2 k3
    simp only [State.SlotsAccounted, State.acceptOrder, State.orderReservations, List.countP_append, State.slotsInUse,
      Config.reservationLimit, Config.reportSlots] at k1 ⊢
    have : ([o.kind].countP fun k => k != OrderKind.groupPass) = 1 := by simp [ho]
    simp only [List.countP_singleton] at this ⊢
    simp only [this]
    refine ⟨?_, ?_, ?_⟩ <;> omega
  · intro k
    refine BlocksAccounted.add_free o.blocks k ?_
    simp only [State.heldBlocks, State.acceptOrder, List.flatMap_append, List.flatMap_cons, List.flatMap_nil,
      List.append_nil]
    set a := s.orders.flatMap OrderRecord.blocks
    set b := s.deliveries.flatMap Delivery.blocks
    set c := s.reports.flatMap Report.blocks
    set d := List.take o.blocks s.freeBlocks
    rw [List.append_assoc, List.append_assoc, List.append_assoc, List.append_assoc]
    refine List.Perm.append_left a ?_
    rw [← List.append_assoc b c d]
    exact (List.perm_append_comm).trans (by rw [List.append_assoc])

/-! ## Completion (R93) -/

theorem quiet_collectDone (s : State) (st : StationRef) : Quiet s (s.collectDone st) := by
  unfold State.collectDone
  split
  · exact Quiet.refl s
  · exact quiet_onStation s _ _

theorem quiet_handOff (s : State) (r : OrderRecord) (o : OrderOutcome) : Quiet s (s.handOff r o) := by
  unfold State.handOff
  split
  · exact quiet_joinCompleted s _ _ _
  · exact quiet_leaveCompleted s _ _
  · split
    · exact quiet_collectDone s _
    · exact Quiet.refl s
  · exact Quiet.refl s

theorem handOff_orders (s : State) (r : OrderRecord) (o : OrderOutcome) : (s.handOff r o).orders = s.orders := by
  unfold State.handOff State.joinCompleted State.leaveCompleted State.collectDone State.clearLapsed
  split <;> (try split) <;> (try split) <;> rfl

/-- A completion (R93): its record goes, its reservation becomes the report, and only a prefix of its blocks stays held. -/
theorem keeps_completeOrder (s : State) (n : Word) (c : Completion) : Keeps s (s.completeOrder n c) := by
  unfold State.completeOrder
  split
  · exact Keeps.refl s
  · next record hrec =>
    simp only
    generalize hu : s.handOff { record with state := .done } c.outcome = u
    generalize hkept : (if c.outcome = OrderOutcome.data then record.blocks.take (blocksFor c.payload.length) else []) = kept
    have q : Quiet s u := hu ▸ quiet_handOff s _ _
    have ho : u.orders = s.orders := hu ▸ handOff_orders s _ _
    have hp : u.orders.Perm (record :: u.orders.eraseP fun r => r.named n) := by
      rw [ho]; exact perm_eraseP _ s.orders record hrec
    have hk : record.kind ≠ .groupPass := by
      have h := List.find?_some hrec
      simp only [OrderRecord.named, Bool.and_eq_true, bne_iff_ne, ne_eq] at h
      exact h.2
    refine q.keeps.trans ?_
    have hsub : kept.Sublist record.blocks := by
      rw [← hkept]; split
      · exact List.take_sublist _ _
      · exact List.nil_sublist _
    refine ⟨⟨rfl, fun _ => rfl, fun k => writePayload_wf _ _ _ k, ?_, ?_, ?_, id⟩, ?_⟩
    · rintro ⟨k1, k2⟩
      refine ⟨?_, k2⟩
      have := (List.eraseP_sublist (p := fun r => OrderRecord.named r n) (l := u.orders)).length_le
      exact this.trans k1
    · rintro ⟨k1, k2, k3⟩
      have hc := hp.countP_eq fun r => r.kind != OrderKind.groupPass
      have hkk : (record.kind != OrderKind.groupPass) = true := by simpa using hk
      simp only [List.countP_cons, hkk, if_true] at hc
      simp only [State.SlotsAccounted, State.fillReservation, State.pushReport, State.orderReservations, State.slotsInUse,
        State.removeOrder, List.length_append, List.length_singleton] at k1 k2 k3 ⊢
      refine ⟨?_, ?_, ?_⟩ <;> omega
    · intro k
      refine BlocksAccounted.of_subperm ?_ k
      rw [heldBlocks_fillReservation]
      simp only [State.heldBlocks, State.removeOrder]
      have h1 : (u.orders.flatMap OrderRecord.blocks).Perm
          (record.blocks ++ (u.orders.eraseP fun r => r.named n).flatMap OrderRecord.blocks) := hp.flatMap_right _
      have h2 := ((h1.append_right (u.deliveries.flatMap Delivery.blocks)).append_right
        (u.reports.flatMap Report.blocks)).symm.subperm
      refine List.Subperm.trans ?_ h2
      rw [List.append_assoc record.blocks, List.append_assoc record.blocks]
      refine (List.perm_append_comm).subperm.trans ?_
      exact (hsub.subperm).append (List.Sublist.refl _).subperm
    · exact fun h => settled_fillReservation _ _ _ _ h

theorem keeps_orderResult (s : State) (n : Word) (r : TxResult) : Keeps s (s.orderResult n r) := keeps_completeOrder s n _

theorem keeps_endStationOrders (s : State) (ix : StationIx) (o : OrderOutcome) : Keeps s (s.endStationOrders ix o) :=
  Keeps.foldl (fun s (r : OrderRecord) => s.completeOrder r.number (.unsent o)) (fun s r => keeps_completeOrder s r.number _) _ s

theorem keeps_endLineQueues (s : State) (l : LineNo) (o : OrderOutcome) : Keeps s (s.endLineQueues l o) := by
  refine Keeps.foldl _ (fun s r => ?_) _ s
  split
  · exact keeps_deliveryLineStop s _ l
  · exact keeps_completeOrder s _ _

end Machine

end Sys2Proof
end

