-- ==== Sys2Proof/Laws/Stations.lean ====
section
/-! SUPPORT. What the station table's and the watch unit's operations may do (chapters 3 and 6). -/

namespace Sys2Proof

namespace Machine

theorem keeps_judgeWatch (s : State) (ix : StationIx) (b : Option Word) (word : Word) (t : PartTime) (w : WatchNo) :
    Keeps s (s.judgeWatch ix b word t w) := by
  unfold State.judgeWatch
  simp only
  split
  · split
    · next hit hh =>
      refine keeps_setWatch s w _ fun k => ?_
      have := k w
      simp only [hh] at this
      simpa using this
    · exact (keeps_setWatch s w _ fun _ => by simp).trans (keeps_joinSources _ _)
  · exact Keeps.refl s

theorem keeps_judgeWatches (s : State) (ix : StationIx) (b : Option Word) (word : Word) (t : PartTime) :
    Keeps s (s.judgeWatches ix b word t) :=
  Keeps.foldl _ (fun s w => keeps_judgeWatch s ix b word t w) _ s

theorem keeps_freeWatch (s : State) (w : WatchNo) : Keeps s (s.freeWatch w) :=
  (keeps_setWatch s w _ fun _ => by simp [Watch.cleared]).trans (keeps_dropSource _ _)

theorem keeps_freeWatches (s : State) (ix : StationIx) : Keeps s (s.freeWatches ix) := by
  refine Keeps.foldl _ (fun s w => ?_) _ s
  split
  · exact keeps_freeWatch s w
  · exact Keeps.refl s

theorem keeps_claimCollect (s : State) (ix : StationIx) : Keeps s (s.claimCollect ix) := by
  unfold State.claimCollect
  split
  · exact (quiet_onStation s ix _).keeps
  · next h => exact (keeps_acceptOrder s _ (by simp [State.collectOrder]) h).trans (quiet_onStation _ ix _).keeps

theorem keeps_applyCollect (s : State) (ix : StationIx) (d : Bool) : Keeps s (s.applyCollect ix d) := by
  unfold State.applyCollect
  simp only
  split
  · exact Keeps.refl s
  · split
    · exact Keeps.refl s
    · split
      · exact (quiet_onStation s ix _).keeps
      · split
        · exact Keeps.refl s
        · exact keeps_claimCollect s ix

theorem keeps_becomeMissing (s : State) (ix : StationIx) : Keeps s (s.becomeMissing ix) := by
  unfold State.becomeMissing
  have h := ((quiet_onStation s ix fun st => st.enter .missing).keeps.trans (keeps_endStationOrders _ ix .stationDown)).trans
    (keeps_deliveriesStationDown _ ix)
  simp only
  split
  · exact h.trans (keeps_latchPresence _ _ _ _)
  · exact h

theorem keeps_stationRestarted (s : State) (ix : StationIx) : Keeps s (s.stationRestarted ix) :=
  (quiet_onStation s ix _).keeps.trans (keeps_lapse _ ix)

theorem keeps_takeStatus (s : State) (ix : StationIx) (word : Word) (d r : Bool) (t : PartTime) :
    Keeps s (s.takeStatus ix word d r t) := by
  unfold State.takeStatus
  simp only
  refine Keeps.trans ?_ (quiet_onStation _ ix _).keeps
  refine Keeps.trans ?_ (keeps_applyCollect _ ix d)
  refine Keeps.trans ?_ (keeps_judgeWatches _ ix _ word t)
  split
  · exact keeps_stationRestarted s ix
  · exact Keeps.refl s

theorem keeps_clearAcknowledged (s : State) (ix : StationIx) : Keeps s (s.clearAcknowledged ix) := by
  unfold State.clearAcknowledged
  simp only
  refine Keeps.trans ?_ (quiet_onStation _ ix _).keeps
  have h := (((quiet_onStation s ix fun st => { st with sendBit := false, fetchBit := false }).keeps.trans
    (keeps_lapse _ ix)).trans (quiet_onStation _ ix fun st => st.enter .online).keeps)
  split
  · exact h.trans (keeps_latchPresence _ _ _ _)
  · exact h

theorem keeps_applyResult (s : State) (ix : StationIx) (r : TxResult) : Keeps s (s.applyResult ix r) := by
  unfold State.applyResult
  split
  · split
    · exact keeps_takeStatus s ix _ _ _ _
    · exact Keeps.refl s
  · exact keeps_clearAcknowledged s ix
  · exact (quiet_onStation s ix _).keeps
  · exact (quiet_onStation s ix _).keeps
  · split
    · exact (quiet_onStation s ix _).keeps
    · exact Keeps.refl s

theorem keeps_stationResult (s : State) (ix : StationIx) (r : TxResult) : Keeps s (s.stationResult ix r) := by
  unfold State.stationResult
  split
  · exact Keeps.refl s
  · exact Keeps.refl s
  · exact (quiet_setStation s ix _).keeps
  · have h := (quiet_onStation s ix fun st => st.afterResult r).keeps
    simp only
    split
    · exact h.trans (keeps_becomeMissing _ ix)
    · exact h.trans (keeps_applyResult _ ix r)

theorem keeps_stationLineStop (s : State) (l : LineNo) (ix : StationIx) : Keeps s (s.stationLineStop l ix) := by
  unfold State.stationLineStop
  simp only
  split
  · split
    · exact (quiet_onStation s ix _).keeps.trans (keeps_latchPresence _ _ _ _)
    · exact (quiet_onStation s ix _).keeps
  · exact Keeps.refl s

theorem keeps_stationsLineStop (s : State) (l : LineNo) : Keeps s (s.stationsLineStop l) :=
  Keeps.foldl _ (fun s ix => keeps_stationLineStop s l ix) _ s

theorem keeps_lineStopped (s : State) (l : LineNo) (o : OrderOutcome) : Keeps s (s.lineStopped l o) :=
  (keeps_endLineQueues s l o).trans (keeps_stationsLineStop _ l)

end Machine

end Sys2Proof
end

