-- ==== Sys2Proof/Laws/Engines.lean ====
section
/-! SUPPORT. What the line engines' operations may do (chapter 2): they keep the invariants of the stores, and every engine agrees with its state. -/

namespace Sys2Proof

namespace Machine

/-- A change that leaves the host side as it is and keeps the invariants of the stores, whatever it does to the engines. -/
structure Stores (s t : State) : Prop where
  host : t.hostSide = s.hostSide
  pool : s.PoolCanonical → t.PoolCanonical
  records : s.RecordsBounded → t.RecordsBounded
  slots : s.SlotsAccounted → t.SlotsAccounted
  blocks : s.BlocksAccounted → t.BlocksAccounted
  hits : s.HitsPending → t.HitsPending
  draws : s.DrawsSettled → t.DrawsSettled

theorem Stores.refl (s : State) : Stores s s := ⟨rfl, id, id, id, id, id, id⟩

theorem Stores.trans {s t u : State} (h : Stores s t) (k : Stores t u) : Stores s u :=
  ⟨k.host.trans h.host, k.pool ∘ h.pool, k.records ∘ h.records, k.slots ∘ h.slots, k.blocks ∘ h.blocks, k.hits ∘ h.hits,
   k.draws ∘ h.draws⟩

theorem Keeps.stores {s t : State} (h : Keeps s t) : Stores s t :=
  ⟨h.host, h.pool, h.records, h.slots, h.blocks, h.hits, h.draws⟩

theorem stores_onEngine (s : State) (l : LineNo) (f : LineEngine → LineEngine) : Stores s (s.onEngine l f) :=
  ⟨rfl, id, id, id, id, id, id⟩

/-! ## Agreement of an engine with its state -/

theorem LineEngine.Sound.of_unlatched {d e : LineEngine} (h : d.unlatched = e.unlatched) (k : e.Sound) : d.Sound := by
  obtain ⟨⟩ := d
  obtain ⟨⟩ := e
  simp only [LineEngine.unlatched, LineEngine.mk.injEq] at h
  obtain ⟨h1, h2, h3, h4, h5, h6, h7, h8, h9, h10, h11, h12, h13, h14, h15, h16, h17, h18, h19, _, h20⟩ := h
  subst h1; subst h2; subst h4; subst h12; subst h13; subst h14; subst h15; subst h16; subst h17; subst h18
  exact k

theorem Keeps.coherent {s t : State} (h : Keeps s t) (k : s.EnginesCoherent) : t.EnginesCoherent :=
  fun l => LineEngine.Sound.of_unlatched (h.engines l) (k l)

/-- Changing one engine keeps the agreement when the new engine agrees. -/
theorem coherent_onEngine (s : State) (l : LineNo) (f : LineEngine → LineEngine)
    (hf : (s.engine l).Sound → (f (s.engine l)).Sound) (k : s.EnginesCoherent) : (s.onEngine l f).EnginesCoherent := by
  intro m
  by_cases h : l = m
  · subst h
    simpa using hf (k l)
  · simpa [h] using k m

/-- An engine that only lacks its agreement on account of its transaction: with none in flight it agrees. -/
def LineEngine.SoundUntaken (e : LineEngine) : Prop :=
  LineEngine.Sound { e with tx := none }

/-- Agreement but for the transaction of one line. -/
def State.CoherentBut (s : State) (l : LineNo) : Prop :=
  (∀ m, m ≠ l → (s.engine m).Sound) ∧ (s.engine l).SoundUntaken

theorem Keeps.coherentBut {s t : State} {l : LineNo} (h : Keeps s t) (k : s.CoherentBut l) : t.CoherentBut l := by
  refine ⟨fun m hm => LineEngine.Sound.of_unlatched (h.engines m) (k.1 m hm), ?_⟩
  have e := h.engines l
  refine LineEngine.Sound.of_unlatched (e := { s.engine l with tx := none }) ?_ k.2
  generalize t.engine l = d at e
  generalize s.engine l = c at e
  obtain ⟨⟩ := d
  obtain ⟨⟩ := c
  simp only [LineEngine.unlatched, LineEngine.mk.injEq] at e ⊢
  exact ⟨e.1, e.2.1, e.2.2.1, trivial, e.2.2.2.2⟩

theorem coherentBut_onEngine (s : State) (l : LineNo) (f : LineEngine → LineEngine) (hf : (f (s.engine l)).SoundUntaken)
    (k : s.EnginesCoherent) : (s.onEngine l f).CoherentBut l := by
  refine ⟨fun m hm => ?_, ?_⟩
  · have : ¬ l = m := fun q => hm q.symm
    simpa [this] using k m
  · simpa using hf

/-- Time that passes keeps an engine sound: no more of a timer lies ahead than before (R183). -/
theorem sound_elapse {e : LineEngine} (n : Nat) (h : e.Sound) : (e.elapse n).Sound := by
  obtain ⟨⟨h1, h2, h3, h4, h5, h6, h7, h8, h9, h10, h11⟩, hr⟩ := h
  refine ⟨⟨h1, h2, h3, h4, h5, h6, h7, (Nat.sub_le _ _).trans h8, fun h => ?_, (Nat.sub_le _ _).trans h10, fun h => ?_⟩, hr⟩
  · simp [LineEngine.elapse, h9 h]
  · simp [LineEngine.elapse, h11 h]

theorem coherent_elapse (s : State) (n : Nat) (h : s.EnginesCoherent) : (s.elapse n).EnginesCoherent := fun l => by
  simpa using sound_elapse n (h l)

/-! ## The poll cycle -/

theorem stores_advanceCycle (l : LineNo) (fuel : Nat) : ∀ s : State, Stores s (State.advanceCycle l fuel s) := by
  induction fuel with
  | zero => exact fun s => Stores.refl s
  | succ k ih =>
      intro s
      unfold State.advanceCycle
      split
      · split
        · exact Stores.refl s
        · exact (stores_onEngine s l _).trans (ih _)
      · split
        · exact (stores_onEngine s l _).trans (ih _)
        · exact Stores.refl s

theorem coherent_advanceCycle (l : LineNo) (fuel : Nat) : ∀ s : State, (s.engine l).state ≠ .off → s.EnginesCoherent →
    (State.advanceCycle l fuel s).EnginesCoherent ∧ ((State.advanceCycle l fuel s).engine l).state = (s.engine l).state ∧
    ((State.advanceCycle l fuel s).engine l).tx = (s.engine l).tx := by
  induction fuel with
  | zero => exact fun s _ h => ⟨h, rfl, rfl⟩
  | succ k ih =>
      intro s hoff h
      have key : ∀ f : LineEngine → LineEngine, (f (s.engine l)).state = (s.engine l).state →
          (f (s.engine l)).tx = (s.engine l).tx → ((s.engine l).Sound → (f (s.engine l)).Sound) →
          (State.advanceCycle l k (s.onEngine l f)).EnginesCoherent ∧
          ((State.advanceCycle l k (s.onEngine l f)).engine l).state = (s.engine l).state ∧
          ((State.advanceCycle l k (s.onEngine l f)).engine l).tx = (s.engine l).tx := by
        intro f h1 h2 h3
        have := ih (s.onEngine l f) (by simpa [h1] using hoff) (coherent_onEngine s l f h3 h)
        simpa [h1, h2] using this
      unfold State.advanceCycle
      split
      · split
        · exact ⟨h, rfl, rfl⟩
        · refine key _ rfl rfl fun q => ?_
          simpa [LineEngine.Sound, LineEngine.Coherent, LineEngine.completeCycle, hoff] using q
      · split
        · refine key _ rfl rfl fun q => ?_
          simpa [LineEngine.Sound, LineEngine.Coherent, LineEngine.nextCycle, LineEngine.startCycle, hoff] using q
        · exact ⟨h, rfl, rfl⟩

/-- The poll cycle at a selection is some turns of its advance (R44, R45). -/
theorem cycleAtSelection_advance (s : State) (l : LineNo) : ∃ turns, s.cycleAtSelection l = State.advanceCycle l turns s := by
  unfold State.cycleAtSelection
  split
  · exact ⟨40, rfl⟩
  · split
    · next h =>
      refine ⟨1, ?_⟩
      have hc : (s.engine l).cycleState = .complete := by
        simp only [State.cycleMayBegin, Bool.and_eq_true, decide_eq_true_eq] at h
        exact h.1.1
      rw [State.advanceCycle, if_neg (by rw [hc]; decide), if_pos h]
      rfl
    · exact ⟨0, rfl⟩

theorem stores_cycleAtSelection (s : State) (l : LineNo) : Stores s (s.cycleAtSelection l) := by
  obtain ⟨n, h⟩ := cycleAtSelection_advance s l
  rw [h]; exact stores_advanceCycle l n s

/-- A poll cycle begun keeps an engine that is not OFF sound. -/
theorem sound_nextCycle {e : LineEngine} (now : PartTime) (hoff : e.state ≠ .off) (h : e.Sound) : (e.nextCycle now).Sound := by
  simpa [LineEngine.Sound, LineEngine.Coherent, LineEngine.nextCycle, LineEngine.startCycle, hoff] using h

theorem ne_off_of_cycles {e : LineEngine} (h : e.state.cycles = true) : e.state ≠ .off := by
  intro he; simp [he, LineState.cycles] at h

theorem stores_pollListJoined (s : State) (l : LineNo) : Stores s (s.pollListJoined l) := by
  unfold State.pollListJoined
  split
  · exact stores_onEngine s l _
  · exact Stores.refl s

theorem coherent_pollListJoined (s : State) (l : LineNo) (h : s.EnginesCoherent) : (s.pollListJoined l).EnginesCoherent := by
  unfold State.pollListJoined
  split
  · next hc =>
    refine coherent_onEngine s l _ (sound_nextCycle _ ?_) h
    intro he; simp [he, LineState.cycles, LineEngine.joinable] at hc
  · exact h

/-! ## Taking work -/

theorem stores_takePoll (s : State) (l : LineNo) (ix : StationIx) : Stores s (s.takePoll l ix) := by
  unfold State.takePoll
  exact stores_onEngine s l _

theorem stores_takeOrder (s : State) (l : LineNo) (r : OrderRecord) : Stores s (s.takeOrder l r) := by
  unfold State.takeOrder
  split
  · exact Stores.refl s
  · exact (quiet_updateOrder s _ _ (by exact fun _ => rfl) (by exact fun _ => rfl)).keeps.stores.trans (stores_onEngine _ l _)

theorem stores_takePass (s : State) (l : LineNo) (r : OrderRecord) (d : Delivery) : Stores s (s.takePass l r d) := by
  unfold State.takePass
  simp only
  split
  · exact (quiet_updatePass s _ _ _ (by exact fun _ => rfl) (by exact fun _ => rfl)).keeps.stores.trans (stores_onEngine _ l _)
  · exact (((quiet_setMember s _ _ _).trans (quiet_updatePass _ _ _ _ (by exact fun _ => rfl)
      (by exact fun _ => rfl))).keeps.stores).trans (stores_onEngine _ l _)
  · exact Stores.refl s

theorem stores_takeEntry (s : State) (l : LineNo) (r : OrderRecord) : Stores s (s.takeEntry l r) := by
  unfold State.takeEntry
  split
  · split
    · exact stores_takePass s l r _
    · exact Stores.refl s
  · exact stores_takeOrder s l r

/-- An engine that waits in IDLE with no transaction agrees with its state once it takes one. -/
theorem sound_take {e : LineEngine} (t : Transaction) (p : Bool) (hs : e.state = .idle) (ht : t.suspended = false)
    (h : e.Sound) : (e.take t p).Sound := by
  obtain ⟨⟨h1, h2, h3, h4, h5, h6, h7, h8, h9, h10, h11⟩, hr⟩ := h
  have hrec : e.reception.isSome = false := by
    cases hq : e.reception.isSome with
    | false => rfl
    | true => have := h4.mpr hq; rw [hs] at this; simp at this
  have hh : e.holdRunning = false := by
    cases hq : e.holdRunning with
    | false => rfl
    | true => have := h5 hq; rw [hs] at this; simp at this
  have hb : e.busyRunning = false := by
    cases hq : e.busyRunning with
    | false => rfl
    | true => have := h6 hq; rw [hs] at this; simp at this
  refine ⟨⟨?_, ?_, ?_, ?_, ?_, ?_, ?_, ?_, ?_, ?_, ?_⟩, hr⟩ <;>
    simp_all [LineEngine.take]

theorem coherent_takePoll (s : State) (l : LineNo) (ix : StationIx) (hs : (s.engine l).state = .idle)
    (h : s.EnginesCoherent) : (s.takePoll l ix).EnginesCoherent := by
  refine coherent_onEngine s l _ (fun q => ?_) h
  refine sound_take _ _ (by simpa using hs) rfl ?_
  simpa [LineEngine.Sound, LineEngine.Coherent, LineEngine.timersStopped] using q

theorem coherent_takeOrder (s : State) (l : LineNo) (r : OrderRecord) (hs : (s.engine l).state = .idle)
    (h : s.EnginesCoherent) : (s.takeOrder l r).EnginesCoherent := by
  unfold State.takeOrder
  split
  · exact h
  · exact coherent_onEngine _ l _ (fun q => sound_take _ _ hs rfl q) h

theorem coherent_takePass (s : State) (l : LineNo) (r : OrderRecord) (d : Delivery) (hs : (s.engine l).state = .idle)
    (h : s.EnginesCoherent) : (s.takePass l r d).EnginesCoherent := by
  unfold State.takePass
  simp only
  split
  · exact coherent_onEngine _ l _ (fun q => sound_take _ _ hs rfl q) h
  · exact coherent_onEngine _ l _ (fun q => sound_take _ _ hs rfl q) h
  · exact h

theorem coherent_takeEntry (s : State) (l : LineNo) (r : OrderRecord) (hs : (s.engine l).state = .idle)
    (h : s.EnginesCoherent) : (s.takeEntry l r).EnginesCoherent := by
  unfold State.takeEntry
  split
  · split
    · exact coherent_takePass s l r _ hs h
    · exact h
  · exact coherent_takeOrder s l r hs h

/-- Work selection may advance the poll cycle and take work on its line (R38). -/
theorem stores_selectWork (s : State) (l : LineNo) : Stores s (s.selectWork l) := by
  unfold State.selectWork
  split
  · simp only
    split
    · exact (stores_cycleAtSelection s l).trans (stores_takeEntry _ l _)
    · exact (stores_cycleAtSelection s l).trans (stores_takePoll _ l _)
    · exact stores_cycleAtSelection s l
  · exact Stores.refl s

theorem coherent_selectWork (s : State) (l : LineNo) (h : s.EnginesCoherent) : (s.selectWork l).EnginesCoherent := by
  unfold State.selectWork
  split
  · next hw =>
    have hi : (s.engine l).state = .idle := by
      simp only [LineEngine.waiting, Bool.and_eq_true, decide_eq_true_eq] at hw
      exact hw.1.1
    obtain ⟨n, hn⟩ := cycleAtSelection_advance s l
    obtain ⟨h1, h2, _⟩ := coherent_advanceCycle l n s (by rw [hi]; simp) h
    rw [← hn] at h1 h2
    simp only
    split
    · exact coherent_takeEntry _ l _ (h2.trans hi) h1
    · exact coherent_takePoll _ l _ (h2.trans hi) h1
    · exact h1
  · exact h

/-! ## The ends of transactions -/

/-- The effects of a transaction's end before the engine lets it go (R35). -/
theorem stores_endTransaction (s : State) (l : LineNo) (o : TxOutcome) (late atEnd : Bool) :
    Stores s (s.endTransaction l o late atEnd) := by
  unfold State.endTransaction
  split
  · exact Stores.refl s
  · simp only
    refine Stores.trans ?_ (stores_onEngine _ l _)
    have hu : ∀ (o : Option StationIx) (r : TxResult), Keeps s (match o with
        | some ix => s.stationResult ix r
        | none => s) := by
      intro o r
      cases o with
      | none => exact Keeps.refl s
      | some ix => exact keeps_stationResult s ix r
    split
    · exact (hu _ _).stores
    · exact ((hu _ _).trans (keeps_orderResult _ _ _)).stores
    · exact ((hu _ _).trans (keeps_stepResult _ _ _ _ _)).stores

theorem coherent_endTransaction (s : State) (l : LineNo) (o : TxOutcome) (late atEnd : Bool) (h : s.CoherentBut l) :
    (s.endTransaction l o late atEnd).EnginesCoherent := by
  unfold State.endTransaction
  split
  · next hn =>
    intro m
    by_cases hm : m = l
    · subst hm
      have := h.2
      unfold LineEngine.SoundUntaken at this
      rw [show ({ s.engine m with tx := none } : LineEngine) = s.engine m by
        generalize s.engine m = e at hn
        obtain ⟨⟩ := e
        simp only at hn
        subst hn
        rfl] at this
      exact this
    · exact h.1 m hm
  · simp only
    have hu : ∀ (o : Option StationIx) (r : TxResult), Keeps s (match o with
        | some ix => s.stationResult ix r
        | none => s) := by
      intro o r
      cases o with
      | none => exact Keeps.refl s
      | some ix => exact keeps_stationResult s ix r
    have fin : ∀ v : State, v.CoherentBut l → (v.onEngine l fun e =>
        { e with tx := none, stats := { e.stats with transactions := statUp e.stats.transactions } }).EnginesCoherent := by
      intro v hv m
      by_cases hm : l = m
      · subst hm
        simpa [LineEngine.SoundUntaken, LineEngine.Sound, LineEngine.Coherent, LineEngine.timersStopped] using hv.2
      · simpa [hm] using hv.1 m (fun q => hm q.symm)
    split
    · exact fin _ ((hu _ _).coherentBut h)
    · exact fin _ (((hu _ _).trans (keeps_orderResult _ _ _)).coherentBut h)
    · exact fin _ (((hu _ _).trans (keeps_stepResult _ _ _ _ _)).coherentBut h)

theorem stores_attemptEnd (s : State) (l : LineNo) (c : AttemptClass) (heard : Bool) : Stores s (s.attemptEnd l c heard) := by
  unfold State.attemptEnd
  split
  · exact Stores.refl s
  · simp only
    split
    · exact (stores_onEngine s l _).trans (stores_endTransaction _ l _ _ _)
    · split
      · exact (stores_onEngine s l _).trans (stores_onEngine _ l _)
      · exact (stores_onEngine s l _).trans (stores_endTransaction _ l _ _ _)

/-- An attempt's end leaves every engine sound, where the engine was AWAITING (R31, R32). -/
theorem coherent_attemptEnd (s : State) (l : LineNo) (c : AttemptClass) (heard : Bool) (hs : (s.engine l).state = .awaiting)
    (h : s.EnginesCoherent) : (s.attemptEnd l c heard).EnginesCoherent := by
  unfold State.attemptEnd
  split
  · exact h
  · next t ht =>
    have hsus : t.suspended = false := by
      have := (h l).1.2.2.2.2.2.2.1 t ht
      rw [hs] at this
      simpa using this
    obtain ⟨⟨h1, h2, h3, h4, h5, h6, h7, h8, h9, h10, h11⟩, hr⟩ := h l
    have hh : (s.engine l).holdRunning = false := by
      cases hq : (s.engine l).holdRunning with
      | false => rfl
      | true => have := h5 hq; rw [hs] at this; simp at this
    have hb : (s.engine l).busyRunning = false := by
      cases hq : (s.engine l).busyRunning with
      | false => rfl
      | true => have := h6 hq; rw [hs] at this; simp at this
    have but : ∀ r : AttemptResult, (s.onEngine l fun e => e.afterAttempt t r).CoherentBut l := by
      intro r
      refine coherentBut_onEngine s l _ ?_ h
      simp [LineEngine.SoundUntaken, LineEngine.Sound, LineEngine.Coherent, LineEngine.afterAttempt, hh, hb, h9 hb, h11 hh, hr]
    have on : ∀ (r : AttemptResult) (f : LineEngine → LineEngine), (f ((s.engine l).afterAttempt t r)).Sound →
        ((s.onEngine l fun e => e.afterAttempt t r).onEngine l f).EnginesCoherent := by
      intro r f hf m
      by_cases hm : l = m
      · subst hm; simpa using hf
      · simpa [hm] using h m
    simp only
    split
    · exact coherent_endTransaction _ l _ _ _ (but _)
    · split
      · refine on _ _ ?_
        cases c <;>
          simp [LineEngine.Sound, LineEngine.Coherent, LineEngine.afterAttempt, LineEngine.goOn, Transaction.afterAttempt,
            hh, hb, h9 hb, h11 hh, hr, hsus]
      · exact coherent_endTransaction _ l _ _ _ (but _)

/-- A hold leaves every engine sound, where the engine was not OFF or STOPPING (R46). -/
theorem coherent_holdLine (s : State) (l : LineNo) (h : s.EnginesCoherent) : (s.holdLine l).EnginesCoherent := by
  refine (keeps_latchLine _ l _ _).coherent (coherent_onEngine s l _ (fun q => ?_) h)
  obtain ⟨_, hr⟩ := q
  refine ⟨⟨?_, ?_, ?_, ?_, ?_, ?_, ?_, ?_, ?_, ?_, ?_⟩, hr⟩ <;> simp +contextual [LineEngine.enterHeld, LineEngine.suspend, holdTime]

theorem stores_holdLine (s : State) (l : LineNo) : Stores s (s.holdLine l) :=
  (stores_onEngine s l _).trans (keeps_latchLine _ l _ _).stores

end Machine

end Sys2Proof
end

