-- ==== Sys2Proof/Laws/Requests.lean ====
section
/-! SUPPORT. What the owning blocks of the requests may do: each keeps the invariants of the stores and the soundness of the engines. -/

namespace Sys2Proof

namespace Machine

/-- A change that keeps the invariants of the stores and the soundness of the engines, whatever it does to the host side. -/
structure Safe (s t : State) : Prop where
  pool : s.PoolCanonical → t.PoolCanonical
  records : s.RecordsBounded → t.RecordsBounded
  slots : s.SlotsAccounted → t.SlotsAccounted
  blocks : s.BlocksAccounted → t.BlocksAccounted
  hits : s.HitsPending → t.HitsPending
  draws : s.DrawsSettled → t.DrawsSettled
  engines : s.EnginesCoherent → t.EnginesCoherent

theorem Safe.refl (s : State) : Safe s s := ⟨id, id, id, id, id, id, id⟩

theorem Safe.trans {s t u : State} (h : Safe s t) (k : Safe t u) : Safe s u :=
  ⟨k.pool ∘ h.pool, k.records ∘ h.records, k.slots ∘ h.slots, k.blocks ∘ h.blocks, k.hits ∘ h.hits, k.draws ∘ h.draws,
   k.engines ∘ h.engines⟩

/-- What a block may do to the host side: nothing but mark the report in transmission as resent. -/
structure LinkSide where
  pending : List Instr
  resetAsserted : Bool
  inputQueue : List HostFrame
  replyQueue : List WaitingFrame
  tx : Option Transmission

/-- The transmission without its mark of a REPORT RESEND. -/
def Transmission.unmarked : Transmission → Transmission
  | .report n _ => .report n false
  | .reply r => .reply r
  | .notice n => .notice n

/-- The link side of a state. -/
def State.linkSide (s : State) : LinkSide :=
  { pending := s.pending, resetAsserted := s.resetAsserted, inputQueue := s.inputQueue, replyQueue := s.replyQueue,
    tx := s.tx.map Transmission.unmarked }

/-- A safe change that leaves the link side as it is: what a block of the part may do. -/
structure Owned (s t : State) : Prop extends Safe s t where
  link : t.linkSide = s.linkSide

theorem Owned.refl (s : State) : Owned s s := ⟨Safe.refl s, rfl⟩

theorem Owned.trans {s t u : State} (h : Owned s t) (k : Owned t u) : Owned s u :=
  ⟨h.toSafe.trans k.toSafe, k.link.trans h.link⟩

theorem linkSide_of_hostSide {s t : State} (h : t.hostSide = s.hostSide) : t.linkSide = s.linkSide := by
  have h1 : t.pending = s.pending := congrArg HostSide.pending h
  have h2 : t.resetAsserted = s.resetAsserted := congrArg HostSide.resetAsserted h
  have h3 : t.inputQueue = s.inputQueue := congrArg HostSide.inputQueue h
  have h4 : t.replyQueue = s.replyQueue := congrArg HostSide.replyQueue h
  have h5 : t.tx = s.tx := congrArg HostSide.tx h
  simp [State.linkSide, h1, h2, h3, h4, h5]

theorem Stores.safe {s t : State} (h : Stores s t) (e : s.EnginesCoherent → t.EnginesCoherent) : Safe s t :=
  ⟨h.pool, h.records, h.slots, h.blocks, h.hits, h.draws, e⟩

theorem Stores.owned {s t : State} (h : Stores s t) (e : s.EnginesCoherent → t.EnginesCoherent) : Owned s t :=
  ⟨h.safe e, linkSide_of_hostSide h.host⟩

theorem Keeps.safe {s t : State} (h : Keeps s t) : Safe s t := h.stores.safe h.coherent

theorem Quiet.safe {s t : State} (h : Quiet s t) : Safe s t := h.keeps.safe

theorem Keeps.owned {s t : State} (h : Keeps s t) : Owned s t := h.stores.owned h.coherent

theorem Quiet.owned {s t : State} (h : Quiet s t) : Owned s t := h.keeps.owned

theorem owned_onEngine (s : State) (l : LineNo) (f : LineEngine → LineEngine)
    (hf : (s.engine l).Sound → (f (s.engine l)).Sound) : Owned s (s.onEngine l f) :=
  (stores_onEngine s l f).owned (coherent_onEngine s l f hf)

theorem owned_selectWork (s : State) (l : LineNo) : Owned s (s.selectWork l) :=
  (stores_selectWork s l).owned (coherent_selectWork s l)

theorem owned_pollListJoined (s : State) (l : LineNo) : Owned s (s.pollListJoined l) :=
  (stores_pollListJoined s l).owned (coherent_pollListJoined s l)

theorem owned_holdLine (s : State) (l : LineNo) : Owned s (s.holdLine l) :=
  (stores_holdLine s l).owned (coherent_holdLine s l)

theorem Owned.foldl {α : Type} (f : State → α → State) (h : ∀ s a, Owned s (f s a)) (as : List α) (s : State) :
    Owned s (as.foldl f s) := by
  induction as generalizing s with
  | nil => exact Owned.refl s
  | cons a as ih => exact (h s a).trans (ih (f s a))

/-! ## The host side -/

/-- A change of the host side alone. -/
theorem safe_host {s t : State} (h : t.accounts = s.accounts) (e : t.engines = s.engines) : Safe s t := by
  have q : Quiet { s with
      pending := t.pending, resetAsserted := t.resetAsserted, partTime := t.partTime, linkRate := t.linkRate, rx := t.rx,
      inputQueue := t.inputQueue, restarting := t.restarting, replyQueue := t.replyQueue, tx := t.tx, choices := t.choices } t :=
    ⟨rfl, h, fun l => by simp [State.engine, e]⟩
  exact ⟨q.safe.pool, q.safe.records, q.safe.slots, q.safe.blocks, q.safe.hits, q.safe.draws, q.safe.engines⟩

theorem safe_choose (s : State) (b : Bool) : Safe s (s.choose b) := by
  unfold State.choose
  split
  · exact Safe.refl s
  · split
    · exact Safe.refl s
    · exact safe_host rfl rfl
    · exact safe_host rfl rfl
    · split <;> exact safe_host rfl rfl

/-- The transmitter's choice touches the host side alone. -/
theorem safe_transmit (s : State) : Safe s s.transmit := by
  unfold State.transmit
  split
  · exact (safe_choose s _).trans (safe_host rfl rfl)
  · exact safe_choose s _

/-- A request handled whole is safe when its owner is (R178, R179). -/
theorem safe_serve (s : State) (f : HostFrame) (owner : State → State × Answer) (h : ∀ t, Owned t (owner t).1) :
    Safe s (s.serve f owner) := by
  unfold State.serve
  split
  · exact Safe.refl s
  · next t ht =>
    have q : Safe s t := by
      unfold State.takeFrame at ht
      split at ht
      · simp at ht
      · split at ht
        · split at ht
          · simp only [Option.some.injEq] at ht; subst ht; exact Safe.refl s
          · simp at ht
        · split at ht
          · simp only [Option.some.injEq] at ht; subst ht; exact safe_host rfl rfl
          · simp at ht
    split
    · refine Safe.trans ?_ (safe_transmit _)
      exact q.trans (safe_host rfl rfl)
    · refine Safe.trans ?_ (safe_transmit _)
      exact (q.trans (h t).toSafe).trans (safe_host rfl rfl)

/-! ## Part and line requests -/

theorem owned_identifyOwner (b : List Octet) (s : State) : Owned s (identifyOwner b s).1 := by
  unfold identifyOwner; split <;> exact Owned.refl s

theorem owned_partStatusOwner (b : List Octet) (s : State) : Owned s (partStatusOwner b s).1 := by
  unfold partStatusOwner; split <;> exact Owned.refl s

theorem owned_setLinkRateOwner (b : List Octet) (s : State) : Owned s (setLinkRateOwner b s).1 := by
  unfold setLinkRateOwner; split <;> (try split) <;> exact Owned.refl s

theorem owned_restartOwner (b : List Octet) (s : State) : Owned s (restartOwner b s).1 := by
  unfold restartOwner
  split
  · split
    · exact ⟨safe_host rfl rfl, rfl⟩
    · exact Owned.refl s
  · exact Owned.refl s

/-- The parameters of an OFF engine, whose timers stand, may be any in their ranges (R26). -/
theorem sound_setParams {e : LineEngine} {p : LineParams} (off : e.state = .off) (hp : p.inRange = true) (h : e.Sound) :
    LineEngine.Sound { e with params := p } := by
  obtain ⟨⟨h1, h2, h3, h4, h5, h6, h7, -, h9, -, h11⟩, -⟩ := h
  have hb := h9 (h1 off).2.2.1
  have hh := h11 (h1 off).2.2.2.2
  exact ⟨⟨h1, h2, h3, h4, h5, h6, h7, by simp [hb], h9, by simp [hh], h11⟩, hp⟩

theorem owned_lineSetOwner (b : List Octet) (s : State) : Owned s (lineSetOwner b s).1 := by
  unfold lineSetOwner
  split
  · split
    · exact Owned.refl s
    · simp only
      split
      · exact Owned.refl s
      · next off =>
        split
        · exact Owned.refl s
        · next h =>
          dsimp only
          exact owned_onEngine s _ _ (sound_setParams (by simpa using off) (by simpa using h))
  · exact Owned.refl s

theorem owned_startLine (s : State) (l : LineNo) (h : (s.engine l).state = .off) : Owned s (s.startLine l) := by
  unfold State.startLine
  simp only
  have q : Owned s (s.onEngine l LineEngine.started) := owned_onEngine s l _ fun q => by
    simpa [LineEngine.Sound, LineEngine.Coherent, LineEngine.timersStopped, LineEngine.started] using q
  split
  · exact q.trans (owned_holdLine _ l)
  · refine q.trans (owned_onEngine _ l _ fun k => ?_)
    obtain ⟨⟨h1, h2, h3, h4, h5, h6, h7, h8, h9, h10, h11⟩, hr⟩ := k
    have ho : ((s.onEngine l LineEngine.started).engine l).state = .off := by simpa [LineEngine.started] using h
    obtain ⟨ht, hg, hb, hf, hh⟩ := h1 ho
    refine ⟨⟨?_, ?_, ?_, ?_, ?_, ?_, ?_, ?_, ?_, ?_, ?_⟩, hr⟩ <;> simp_all

theorem owned_lineStartOwner (b : List Octet) (s : State) : Owned s (lineStartOwner b s).1 := by
  unfold lineStartOwner
  split
  · split
    · exact Owned.refl s
    · split
      · exact Owned.refl s
      · next h => exact owned_startLine s _ (by simpa using h)
  · exact Owned.refl s

theorem soundUntaken_enterOff (e : LineEngine) (c : OffCause) (h : e.Sound) : (e.enterOff c).SoundUntaken :=
  ⟨by simp [LineEngine.Coherent, LineEngine.enterOff, LineEngine.timersStopped], h.2⟩

/-- A transaction ended by a stop, once the engine stands in a state that needs none. -/
theorem owned_stopWith (s : State) (l : LineNo) (f : LineEngine → LineEngine) (o : TxOutcome) (e : OrderOutcome)
    (hf : (s.engine l).Sound → (f (s.engine l)).SoundUntaken) :
    Owned s (((s.onEngine l f).endTransaction l o false false).lineStopped l e) :=
  (((stores_onEngine s l f).trans (stores_endTransaction _ l _ _ _)).trans (keeps_lineStopped _ l _).stores).owned fun h =>
    (keeps_lineStopped _ l _).coherent (coherent_endTransaction _ l _ _ _ (coherentBut_onEngine s l f (hf (h l)) h))

theorem owned_stopAtOnce (s : State) (l : LineNo) : Owned s (s.stopAtOnce l) :=
  (owned_stopWith s l _ _ _ fun h => soundUntaken_enterOff _ _ h).trans (keeps_latchLine _ l _ _).owned

theorem owned_stopDriving (s : State) (l : LineNo) : Owned s (s.stopDriving l) :=
  owned_stopWith s l _ _ _ fun h =>
    ⟨by simp [LineEngine.Coherent, LineEngine.enterStopping], h.2⟩

theorem owned_stopLine (s : State) (l : LineNo) : Owned s (s.stopLine l) := by
  unfold State.stopLine
  split
  · exact Owned.refl s
  · exact Owned.refl s
  · exact owned_stopDriving s l
  · exact owned_stopDriving s l
  · exact owned_stopAtOnce s l
  · exact owned_stopAtOnce s l
  · exact owned_stopAtOnce s l
  · exact owned_stopAtOnce s l

theorem owned_lineStopOwner (b : List Octet) (s : State) : Owned s (lineStopOwner b s).1 := by
  unfold lineStopOwner
  split
  · split
    · exact Owned.refl s
    · split
      · exact Owned.refl s
      · exact owned_stopLine s _
  · exact Owned.refl s

theorem owned_lineStatusOwner (b : List Octet) (s : State) : Owned s (lineStatusOwner b s).1 := by
  unfold lineStatusOwner
  split
  · split
    · exact Owned.refl s
    · split
      · exact Owned.refl s
      · simp only
        split
        · refine owned_onEngine s _ _ ?_
          exact id
        · exact Owned.refl s
  · exact Owned.refl s

/-! ## Station requests -/

theorem owned_withStation (s : State) (a b : Octet) (f : StationIx → State × Answer) (h : ∀ ix, Owned s (f ix).1) :
    Owned s (s.withStation a b f).1 := by
  unfold State.withStation
  split
  · split
    · exact h _
    · exact Owned.refl s
  · exact Owned.refl s

theorem owned_stationAddOwner (b : List Octet) (s : State) : Owned s (stationAddOwner b s).1 := by
  unfold stationAddOwner
  split
  · split
    · split
      · exact Owned.refl s
      · exact Owned.refl s
      · exact ((quiet_setStation s _ _).owned.trans (owned_pollListJoined _ _)).trans (owned_selectWork _ _)
    · exact Owned.refl s
  · exact Owned.refl s

theorem keeps_stripStation (s : State) (ix : StationIx) : Keeps s (s.stripStation ix) :=
  ((((keeps_endStationOrders s ix _).trans (keeps_leaveAllGroups _ ix)).trans (keeps_freeWatches _ ix)).trans
    (keeps_dropSource _ _)).trans (quiet_onStation _ ix _).keeps

theorem keeps_removeStation (s : State) (ix : StationIx) : Keeps s (s.removeStation ix) := by
  unfold State.removeStation
  split
  · exact (keeps_stripStation s ix).trans (quiet_onStation _ ix _).keeps
  · exact (keeps_stripStation s ix).trans (quiet_setStation _ ix _).keeps

theorem owned_stationRemoveOwner (b : List Octet) (s : State) : Owned s (stationRemoveOwner b s).1 := by
  unfold stationRemoveOwner
  split
  · refine owned_withStation s _ _ _ fun ix => ?_
    split
    · exact Owned.refl s
    · exact (keeps_removeStation s ix).owned.trans (owned_selectWork _ _)
  · exact Owned.refl s

theorem keeps_takeOutOfUse (s : State) (ix : StationIx) : Keeps s (s.takeOutOfUse ix) := by
  unfold State.takeOutOfUse
  have h := ((quiet_onStation s ix fun st => st.enter .suspended).keeps.trans (keeps_endStationOrders _ ix .suspended)).trans
    (keeps_deliveriesStationDown _ ix)
  simp only
  split
  · exact h.trans (keeps_latchPresence _ _ _ _)
  · exact h

theorem owned_suspendStation (s : State) (ix : StationIx) : Owned s (s.suspendStation ix) := by
  unfold State.suspendStation
  split
  · exact Owned.refl s
  · exact (keeps_takeOutOfUse s ix).owned.trans (owned_selectWork _ _)

theorem owned_stationSuspendOwner (b : List Octet) (s : State) : Owned s (stationSuspendOwner b s).1 := by
  unfold stationSuspendOwner
  split
  · refine owned_withStation s _ _ _ fun ix => ?_
    split
    · exact Owned.refl s
    · exact owned_suspendStation s ix
  · exact Owned.refl s

theorem owned_stationResumeOwner (b : List Octet) (s : State) : Owned s (stationResumeOwner b s).1 := by
  unfold stationResumeOwner
  split
  · refine owned_withStation s _ _ _ fun ix => ?_
    split
    · exact Owned.refl s
    · exact ((quiet_onStation s ix _).owned.trans (owned_pollListJoined _ _)).trans (owned_selectWork _ _)
  · exact Owned.refl s

theorem owned_stationSetOwner (b : List Octet) (s : State) : Owned s (stationSetOwner b s).1 := by
  unfold stationSetOwner
  split
  · split
    · refine owned_withStation s _ _ _ fun ix => ?_
      split
      · exact Owned.refl s
      · dsimp only
        exact (quiet_onStation s ix _).owned
    · exact Owned.refl s
  · exact Owned.refl s

theorem owned_stationQueryOwner (b : List Octet) (s : State) : Owned s (stationQueryOwner b s).1 := by
  unfold stationQueryOwner
  split
  · exact owned_withStation s _ _ _ fun _ => Owned.refl s
  · exact Owned.refl s

/-! ## Order requests -/

theorem orderRefusal_eq_none {s : State} {ix : StationIx} {n : Nat} (h : s.orderRefusal ix n = none) :
    s.stationRefusal ix = none ∧ s.resourceRefusal 1 n = none := by
  unfold State.orderRefusal at h
  split at h
  · simp at h
  · next hs => exact ⟨hs, h⟩

theorem owned_takeHostOrder (s : State) (ix : StationIx) (k : OrderKind) (p : Priority) (d : List Octet) (n : Nat)
    (hk : k ≠ .groupPass) : Owned s (s.takeHostOrder ix k p d n).1 := by
  unfold State.takeHostOrder
  split
  · exact Owned.refl s
  · next h =>
    exact (keeps_acceptOrder s _ (by simpa [State.hostOrder] using hk) (orderRefusal_eq_none h).2).owned.trans
      (owned_selectWork _ _)

theorem owned_sendOwner (b : List Octet) (s : State) : Owned s (sendOwner b s).1 := by
  unfold sendOwner
  split
  · split
    · exact Owned.refl s
    · split
      · exact Owned.refl s
      · split
        · exact Owned.refl s
        · exact owned_withStation s _ _ _ fun ix => owned_takeHostOrder s ix _ _ _ _ (by simp)
  · exact Owned.refl s

theorem owned_fetchOwner (b : List Octet) (s : State) : Owned s (fetchOwner b s).1 := by
  unfold fetchOwner
  split
  · split
    · exact Owned.refl s
    · split
      · exact Owned.refl s
      · exact owned_withStation s _ _ _ fun ix => owned_takeHostOrder s ix _ _ _ _ (by simp)
  · exact Owned.refl s

theorem soundUntaken_cancelledAtOnce (e : LineEngine) (h : e.Sound) (h1 : e.state ≠ .sending) (h2 : e.state ≠ .awaiting) :
    e.cancelledAtOnce.SoundUntaken := by
  obtain ⟨⟨k1, k2, k3, k4, k5, k6, k7⟩, hr⟩ := h
  unfold LineEngine.cancelledAtOnce
  split
  · next hb =>
    refine ⟨⟨?_, ?_, ?_, ?_, ?_, ?_, ?_, ?_, ?_, ?_, ?_⟩, hr⟩ <;> simp_all
  · next hb =>
    refine ⟨⟨?_, ?_, ?_, ?_, ?_, ?_, ?_, ?_, ?_, ?_, ?_⟩, hr⟩ <;> simp_all [LineEngine.timersStopped]

theorem owned_cancelOrder (s : State) (r : OrderRecord) : Owned s (s.cancelOrder r).1 := by
  unfold State.cancelOrder
  split
  · exact (keeps_completeOrder s _ _).owned.trans (owned_selectWork _ _)
  · split
    · exact (quiet_updateOrder s _ _ (by exact fun _ => rfl) (by exact fun _ => rfl)).owned
    · next h =>
      simp only [Bool.or_eq_true, decide_eq_true_eq, not_or] at h
      refine Owned.trans ?_ (owned_selectWork _ _)
      exact ((stores_onEngine s _ _).trans (stores_endTransaction _ _ _ _ _)).owned fun k =>
        coherent_endTransaction _ _ _ _ _
          (coherentBut_onEngine s _ _ (soundUntaken_cancelledAtOnce _ (k _) h.1 h.2) k)

theorem owned_selectAll (s : State) : Owned s s.selectAll := by
  unfold State.selectAll
  exact Owned.foldl _ (fun s l => owned_selectWork s l) _ _

theorem owned_selectLines (s : State) (ls : List LineNo) : Owned s (s.selectLines ls) := by
  unfold State.selectLines
  exact Owned.foldl _ (fun s l => owned_selectWork s l) _ _

theorem owned_cancelNumberedDelivery (s : State) (d : Delivery) : Owned s (s.cancelNumberedDelivery d).1 := by
  unfold State.cancelNumberedDelivery
  split
  · exact Owned.refl s
  · dsimp only
    exact Owned.trans (keeps_cancelDelivery s d.number).owned (owned_selectAll _)

theorem owned_cancelOwner (b : List Octet) (s : State) : Owned s (cancelOwner b s).1 := by
  unfold cancelOwner
  split
  · split
    · exact owned_cancelOrder s _
    · exact owned_cancelNumberedDelivery s _
    · exact Owned.refl s
  · exact Owned.refl s

theorem owned_orderQueryOwner (b : List Octet) (s : State) : Owned s (orderQueryOwner b s).1 := by
  unfold orderQueryOwner
  split
  · split <;> exact Owned.refl s
  · exact Owned.refl s

/-! ## Group requests -/

theorem resourceRefusal_setGroup (s : State) (g : GroupNo) (gr : Group) (n m : Nat) :
    (s.setGroup g gr).resourceRefusal n m = s.resourceRefusal n m := by
  unfold State.resourceRefusal State.freeRecords State.freeBlocks State.heldBlocks State.grantable State.slotsInUse
  rfl

theorem owned_takeMemberOrder (s : State) (ix : StationIx) (g : GroupNo) (k : OrderKind) (hk : k ≠ .groupPass)
    (h : s.resourceRefusal 1 0 = none) : Owned s (s.takeMemberOrder ix g k).1 :=
  (keeps_acceptOrder s _ (by simpa [State.hostOrder] using hk) h).owned.trans (owned_selectWork _ _)

theorem owned_addMember (s : State) (g : GroupNo) (ix : StationIx) : Owned s (s.addMember g ix).1 := by
  unfold State.addMember
  split
  · exact Owned.refl s
  · exact Owned.refl s
  · exact Owned.refl s
  · exact Owned.refl s
  · next h =>
    refine (quiet_setGroup s g _).owned.trans (owned_takeMemberOrder _ ix g .join (by simp) ?_)
    rw [resourceRefusal_setGroup]
    exact h

theorem owned_memberAddOwner (b : List Octet) (s : State) : Owned s (memberAddOwner b s).1 := by
  unfold memberAddOwner
  split
  · split
    · exact owned_withStation s _ _ _ fun ix => owned_addMember s _ ix
    · exact Owned.refl s
  · exact Owned.refl s

theorem owned_dropMember (s : State) (g : GroupNo) (ix : StationIx) : Owned s (s.dropMember g ix).1 := by
  unfold State.dropMember
  split
  · exact Owned.refl s
  · exact Owned.refl s
  · split
    · exact Owned.refl s
    · exact Owned.refl s
    · exact ((quiet_setGroup s g _).trans (quiet_clearLapsed _ ix g)).owned
    · split
      · exact Owned.refl s
      · next h =>
        refine (quiet_setGroup s g _).owned.trans (owned_takeMemberOrder _ ix g .leave (by simp) ?_)
        rw [resourceRefusal_setGroup]
        exact (orderRefusal_eq_none h).2

theorem owned_memberDropOwner (b : List Octet) (s : State) : Owned s (memberDropOwner b s).1 := by
  unfold memberDropOwner
  split
  · split
    · exact owned_withStation s _ _ _ fun ix => owned_dropMember s _ ix
    · exact Owned.refl s
  · exact Owned.refl s

/-- What passed checks of a GROUP SEND say (R116). -/
theorem groupRefusal_eq_none {s : State} {g : GroupNo} {n : Nat} (h : s.groupRefusal g n = none) :
    0 < s.freeDeliveries ∧ s.resourceRefusal (waitingLines (s.snapshotOf g)).length (blocksFor n) = none := by
  unfold State.groupRefusal at h
  simp only at h
  split at h
  · simp at h
  · split at h
    · simp at h
    · split at h
      · simp at h
      · split at h
        · simp at h
        · exact ⟨by omega, h⟩

/-- The act of acceptance of a delivery (R118) that passed its checks. -/
theorem keeps_acceptDelivery (s : State) (g : GroupNo) (p : Priority) (d : List Octet)
    (h : s.groupRefusal g d.length = none) : Keeps s (s.acceptDelivery (s.newDelivery g p d) d) := by
  obtain ⟨h0, h⟩ := groupRefusal_eq_none h
  obtain ⟨h1, h2, h3⟩ := resourceRefusal_eq_none h
  refine ⟨⟨rfl, fun _ => rfl, fun k => writePayload_wf _ _ _ k, ?_, ?_, ?_, id⟩, settled_of_grantable rfl h3⟩
  · rintro ⟨k1, k2⟩
    simp only [State.freeRecords, State.freeDeliveries, Config.orderRecords, Config.deliveryRecords] at h0 h1 k1 k2
    simp only [State.RecordsBounded, State.acceptDelivery, State.newDelivery, List.length_append, List.length_map,
      List.length_singleton, Config.orderRecords, Config.deliveryRecords]
    omega
  · rintro ⟨k1, k2, k3⟩
    simp only [State.slotsInUse, Config.reservationLimit, Config.reportSlots] at h3 k2 k3
    have hz : ((waitingLines (s.snapshotOf g)).map (passRecord s.numberToGive p)).countP
        (fun r => r.kind != OrderKind.groupPass) = 0 := by
      rw [List.countP_eq_zero]
      intro r hr
      obtain ⟨l, _, rfl⟩ := List.mem_map.mp hr
      simp [passRecord]
    simp only [State.SlotsAccounted, State.acceptDelivery, State.newDelivery, State.orderReservations, List.countP_append,
      List.length_append, List.length_singleton, State.slotsInUse, Config.reservationLimit, Config.reportSlots, hz] at k1 ⊢
    refine ⟨?_, ?_, ?_⟩ <;> first | omega | (simp only [setGroup_reports]; omega)
  · intro k
    refine BlocksAccounted.add_free (blocksFor d.length) k ?_
    have hz : ((waitingLines (s.snapshotOf g)).map (passRecord s.numberToGive p)).flatMap OrderRecord.blocks = [] := by
      rw [List.flatMap_eq_nil_iff]
      intro r hr
      obtain ⟨l, _, rfl⟩ := List.mem_map.mp hr
      rfl
    simp only [State.heldBlocks, State.acceptDelivery, State.newDelivery, List.flatMap_append, List.flatMap_cons,
      List.flatMap_nil, List.append_nil, hz, setGroup_reports]
    simp only [List.append_assoc]
    exact List.Perm.append_left _ (List.Perm.append_left _ List.perm_append_comm)

theorem owned_takeDelivery (s : State) (g : GroupNo) (p : Priority) (d : List Octet) : Owned s (s.takeDelivery g p d).1 := by
  unfold State.takeDelivery
  split
  · exact Owned.refl s
  · next h =>
    dsimp only
    exact Owned.trans (keeps_acceptDelivery s g p d h).owned (owned_selectLines _ _)

theorem owned_groupSendOwner (b : List Octet) (s : State) : Owned s (groupSendOwner b s).1 := by
  unfold groupSendOwner
  split
  · split
    · exact Owned.refl s
    · split
      · split
        · exact Owned.refl s
        · exact owned_takeDelivery s _ _ _
      · exact Owned.refl s
  · exact Owned.refl s

theorem owned_groupQueryOwner (b : List Octet) (s : State) : Owned s (groupQueryOwner b s).1 := by
  unfold groupQueryOwner
  split
  · split <;> exact Owned.refl s
  · exact Owned.refl s

/-! ## Watch requests -/

theorem owned_watchSetOwner (b : List Octet) (s : State) : Owned s (watchSetOwner b s).1 := by
  unfold watchSetOwner
  split
  · split
    · exact Owned.refl s
    · split
      · refine owned_withStation s _ _ _ fun ix => ?_
        unfold State.setWatchOn
        split
        · exact Owned.refl s
        · split
          · exact Owned.refl s
          · exact (keeps_setWatch s _ _ fun _ => by simp [armedWatch]).owned
      · exact Owned.refl s
  · exact Owned.refl s

theorem owned_watchClearOwner (b : List Octet) (s : State) : Owned s (watchClearOwner b s).1 := by
  unfold watchClearOwner
  split
  · split
    · exact Owned.refl s
    · split
      · exact Owned.refl s
      · exact (keeps_freeWatch s _).owned
  · exact Owned.refl s

theorem owned_watchRearmOwner (b : List Octet) (s : State) : Owned s (watchRearmOwner b s).1 := by
  unfold watchRearmOwner
  split
  · split
    · exact Owned.refl s
    · split
      · exact Owned.refl s
      · unfold State.rearmWatch
        simp only
        split
        · exact Owned.refl s
        · exact ((keeps_setWatch s _ _ fun _ => by simp).trans (keeps_dropSource _ _)).owned
  · exact Owned.refl s

theorem owned_watchQueryOwner (b : List Octet) (s : State) : Owned s (watchQueryOwner b s).1 := by
  unfold watchQueryOwner
  split
  · split <;> exact Owned.refl s
  · exact Owned.refl s

/-! ## Report requests -/

theorem withoutConfirmed_sublist (reports : List Report) (k : Nat) : (withoutConfirmed reports k).Sublist reports := by
  unfold withoutConfirmed
  calc ((reports.take k).filter fun r => !r.sent) ++ reports.drop k
      |>.Sublist (reports.take k ++ reports.drop k) := (List.filter_sublist).append (List.Sublist.refl _)
    _ = reports := List.take_append_drop k reports

theorem owned_confirm (s : State) (k : Nat) : Owned s (s.confirm k) := by
  have hs := withoutConfirmed_sublist s.reports k
  unfold State.confirm
  have a := accounted_draw { s with reports := withoutConfirmed s.reports k }
  refine ⟨⟨a.pool, a.records, fun h => a.slots ?_, fun h => a.blocks ?_, a.hits, fun _ => settled_draw _, fun h l => ?_⟩,
    linkSide_of_hostSide a.host⟩
  · obtain ⟨h1, h2, h3⟩ := h
    refine ⟨h1, h2, ?_⟩
    have := hs.length_le
    simp only [State.slotsInUse] at h3 ⊢
    omega
  · refine BlocksAccounted.of_subperm ?_ h
    unfold State.heldBlocks
    exact ((List.Sublist.refl _).append (hs.flatMap _)).subperm
  · exact LineEngine.Sound.of_unlatched (a.engines l) (h l)

theorem owned_reportConfirmOwner (b : List Octet) (s : State) : Owned s (reportConfirmOwner b s).1 := by
  unfold reportConfirmOwner
  split
  · split
    · exact Owned.refl s
    · exact owned_confirm s _
  · exact Owned.refl s

theorem owned_resend (s : State) : Owned s s.resend := by
  refine ⟨safe_host ?_ rfl, ?_⟩
  · simp [State.accounts, State.resend, Function.comp_def]
  · have h : Transmission.unmarked ∘ Transmission.resend = Transmission.unmarked := by
      funext t; cases t <;> rfl
    simp [State.linkSide, State.resend, h]

theorem owned_reportResendOwner (b : List Octet) (s : State) : Owned s (reportResendOwner b s).1 := by
  unfold reportResendOwner
  split
  · exact owned_resend s
  · exact Owned.refl s

end Machine

end Sys2Proof
end

