-- ==== Sys2Proof/Laws/Events.lean ====
section
/-! SUPPORT. What the events of the host link, of reset and of the drop lines may do: each keeps the invariants of the stores and the soundness of the engines. -/

namespace Sys2Proof

namespace Machine

theorem safe_whenOutOfReset (s : State) (f : State → State) (h : Safe s (f s)) : Safe s (s.whenOutOfReset f) := by
  unfold State.whenOutOfReset
  split
  · exact Safe.refl s
  · exact h

/-! ## The host link -/

theorem safe_raiseNotice (s : State) (r : NoticeReason) (t : Octet) : Safe s (s.raiseNotice r t) := by
  unfold State.raiseNotice
  split <;> exact safe_host rfl rfl

theorem safe_discard (s : State) (r : NoticeReason) : Safe s (s.discard r) :=
  Safe.trans (t := { s with rx := .hunt }) (safe_host rfl rfl) (safe_raiseNotice _ _ _)

theorem safe_cutByGap (s : State) : Safe s s.cutByGap := by
  unfold State.cutByGap
  split
  · exact Safe.refl s
  · exact Safe.trans (t := { s with rx := .hunt }) (safe_host rfl rfl) (safe_raiseNotice _ _ _)

theorem safe_receive (s : State) (o : Octet) (m : Bool) : Safe s (s.receive o m) := by
  unfold State.receive
  split
  · split
    · exact safe_host rfl rfl
    · exact Safe.refl s
  · unfold State.takeLength
    split
    · exact safe_host rfl rfl
    · exact safe_discard s _
  · exact safe_host rfl rfl
  · exact safe_host rfl rfl
  · unfold State.judgeFrame
    split
    · exact safe_discard s _
    · split
      · exact safe_discard s _
      · exact safe_host rfl rfl

theorem safe_switchRate (s : State) (c : Octet) : Safe s (s.switchRate c) := by
  unfold State.switchRate
  split
  · exact Safe.refl s
  · exact Safe.trans (t := { s with linkRate := c }) (safe_host rfl rfl) (safe_cutByGap _)

theorem map_blocks_markSent (reports : List Report) (n : Octet) (b : Bool) :
    (markSent reports n b).map Report.blocks = reports.map Report.blocks := by
  unfold markSent
  rw [List.map_map]
  apply List.map_congr_left
  intro r _
  dsimp only [Function.comp]
  split <;> rfl

theorem safe_frameSent (s : State) (t : Transmission) : Safe s (s.frameSent t) := by
  unfold State.frameSent
  split
  · split
    · exact Safe.trans (t := { s with tx := none }) (safe_host rfl rfl) (safe_switchRate _ _)
    · exact safe_host rfl rfl
  · exact safe_host rfl rfl
  · refine safe_host ?_ rfl
    simp [State.accounts, map_blocks_markSent]

/-! ## Reset, restart and part time -/

theorem sound_reset (fault : Bool) : (LineEngine.reset fault).Sound := by
  refine ⟨?_, rfl⟩
  simp [LineEngine.Coherent, LineEngine.reset, LineEngine.timersStopped]

theorem safe_cleared (s : State) : Safe s s.cleared := by
  refine ⟨id, fun _ => ?_, fun _ => ?_, fun _ => ?_, fun _ => ?_, fun _ => ?_, fun _ => ?_⟩
  · exact ⟨Nat.zero_le _, Nat.zero_le _⟩
  · exact ⟨rfl, Nat.zero_le _, Nat.zero_le _⟩
  · exact ⟨List.nodup_nil, fun b hb => absurd hb (List.not_mem_nil)⟩
  · intro w
    simp [State.cleared, State.reset, State.watch, Watch.cleared]
  · exact fun h => absurd rfl h
  · intro l
    have : (s.cleared.engine l) = LineEngine.reset (s.engine l).fault := by
      simp [State.cleared, State.engine]
    rw [this]
    exact sound_reset _

theorem safe_restarted (s : State) (c : StartCause) (r : Octet) : Safe s (s.restarted c r) := by
  unfold State.restarted
  refine Safe.trans ?_ (safe_transmit _)
  refine (safe_cleared s).trans (Safe.trans (t := { s.cleared with resetAsserted := false, linkRate := r })
    (safe_host rfl rfl) ?_)
  exact Keeps.safe ⟨accounted_pushReport _ _ _ (by
    show (48 : Nat) - (0 + 0) ≠ 0
    decide), fun _ h => absurd rfl h⟩

/-- Time that passes is a block's own change: nothing of the link side moves (R183). -/
theorem owned_elapse (s : State) (n : Nat) : Owned s (s.elapse n) :=
  ⟨⟨id, id, id, id, id, id, coherent_elapse s n⟩, rfl⟩

theorem safe_tick (s : State) : Safe s s.tick :=
  safe_whenOutOfReset s _ (owned_elapse s 1).toSafe

/-! ## The FAULT input, the hold and the line clear -/

theorem owned_finishStop (s : State) (l : LineNo) (h : (s.engine l).state = .stopping) : Owned s (s.finishStop l) := by
  refine Owned.trans (owned_onEngine s l _ fun q => ?_) (keeps_latchLine _ l _ _).owned
  have ht := q.1.2.1 h
  refine ⟨?_, q.2⟩
  simp [LineEngine.Coherent, LineEngine.enterOff, LineEngine.timersStopped, ht]

theorem sound_fault (e : LineEngine) (b : Bool) (h : e.Sound) : LineEngine.Sound { e with fault := b } := by
  simpa [LineEngine.Sound, LineEngine.Coherent, LineEngine.timersStopped] using h

theorem owned_setFault (s : State) (l : LineNo) (b : Bool) : Owned s (s.onEngine l fun e => { e with fault := b }) :=
  owned_onEngine s l _ fun q => sound_fault _ b q

theorem owned_assertFault (s : State) (l : LineNo) : Owned s (s.assertFault l) := by
  have h := owned_setFault s l true
  unfold State.assertFault
  dsimp only
  split
  · exact h
  · exact h
  · next hs => exact h.trans (owned_finishStop _ l (by simpa using hs))
  · exact h.trans (owned_holdLine _ l)
  · exact h.trans (owned_holdLine _ l)
  · exact h.trans (owned_holdLine _ l)
  · exact h.trans (owned_holdLine _ l)
  · exact h.trans (owned_holdLine _ l)

theorem owned_releaseFault (s : State) (l : LineNo) : Owned s (s.releaseFault l) := by
  have h := owned_setFault s l false
  unfold State.releaseFault
  dsimp only
  split
  · next hs =>
    refine (h.trans (owned_onEngine _ l _ fun q => ?_)).trans (keeps_latchLine _ l _ _).owned
    obtain ⟨⟨h1, h2, h3, h4, h5, h6, h7, h8, h9, h10, h11⟩, hr⟩ := q
    have hs' : ((s.onEngine l fun e => { e with fault := false }).engine l).state = .held := by simpa using hs
    refine ⟨⟨?_, ?_, ?_, ?_, ?_, ?_, ?_, ?_, ?_, ?_, ?_⟩, hr⟩ <;> simp_all
  · exact h

theorem owned_expireHold (s : State) (l : LineNo) : Owned s (s.expireHold l) :=
  (owned_stopWith s l _ _ _ fun h => soundUntaken_enterOff _ _ h).trans (keeps_latchLine _ l _ _).owned

theorem sound_leaveStarting (e : LineEngine) (now : PartTime) (h : e.Sound) (hs : e.state = .starting) :
    (e.leaveStarting now).Sound := by
  obtain ⟨⟨h1, h2, h3, h4, h5, h6, h7, h8, h9, h10, h11⟩, hr⟩ := h
  have hh : e.holdRunning = false := by
    cases hq : e.holdRunning with
    | false => rfl
    | true => have := h5 hq; rw [hs] at this; simp at this
  have hb : e.busyRunning = false := by
    cases hq : e.busyRunning with
    | false => rfl
    | true => have := h6 hq; rw [hs] at this; simp at this
  have hn : e.reception = none := by
    cases hq : e.reception with
    | none => rfl
    | some r => have := h4.mpr (by simp [hq]); rw [hs] at this; simp at this
  have key : (e.cycleAfterClear now).tx = e.tx ∧ (e.cycleAfterClear now).holdRunning = false ∧
      (e.cycleAfterClear now).busyRunning = false ∧ (e.cycleAfterClear now).reception = none ∧
      (e.cycleAfterClear now).params = e.params ∧ (e.cycleAfterClear now).busyLeft = 0 ∧
      (e.cycleAfterClear now).holdLeft = 0 := by
    unfold LineEngine.cycleAfterClear
    split <;> simp [LineEngine.startCycle, hh, hb, hn, h9 hb, h11 hh]
  obtain ⟨k1, k2, k3, k4, k5, k6, k7⟩ := key
  unfold LineEngine.leaveStarting
  cases ht : e.tx with
  | none =>
      refine ⟨?_, by simpa [k5] using hr⟩
      simp [LineEngine.Coherent, k1, k2, k3, k4, k6, k7, ht]
  | some t =>
      refine ⟨?_, by simpa [k5, LineEngine.suspend] using hr⟩
      simp [LineEngine.Coherent, LineEngine.suspend, k1, k2, k3, k4, k6, k7, ht]

theorem owned_leaveStarting (s : State) (l : LineNo) (h : (s.engine l).state = .starting) :
    Owned s (s.onEngine l fun e => e.leaveStarting s.partTime) :=
  owned_onEngine s l _ fun q => sound_leaveStarting _ _ q h

/-! ## Timers -/

theorem sound_busyDelayEnds (e : LineEngine) (hs : e.state = .backoff) (h : e.Sound) : e.busyDelayEnds.Sound := by
  obtain ⟨⟨h1, h2, h3, h4, h5, h6, h7, h8, h9, h10, h11⟩, hr⟩ := h
  refine ⟨?_, hr⟩
  unfold LineEngine.busyDelayEnds
  by_cases hg : e.guardRunning = true <;>
    (refine ⟨?_, ?_, ?_, ?_, ?_, ?_, ?_, ?_, ?_, ?_, ?_⟩ <;> simp_all)

theorem sound_guardEnds (e : LineEngine) (h : e.Sound) : e.guardEnds.Sound := by
  obtain ⟨⟨h1, h2, h3, h4, h5, h6, h7, h8, h9, h10, h11⟩, hr⟩ := h
  refine ⟨?_, hr⟩
  unfold LineEngine.guardEnds
  by_cases ha : (e.state = .idle && e.tx.isSome) = true
  · have := ha
    simp only [Bool.and_eq_true, decide_eq_true_eq] at this
    obtain ⟨hi, ht⟩ := this
    refine ⟨?_, ?_, ?_, ?_, ?_, ?_, ?_, ?_, ?_, ?_, ?_⟩ <;> simp_all
  · by_cases hb : (e.state = .backoff && !e.busyRunning) = true
    · have := hb
      simp only [Bool.and_eq_true, decide_eq_true_eq, Bool.not_eq_true'] at this
      obtain ⟨hi, ht⟩ := this
      refine ⟨?_, ?_, ?_, ?_, ?_, ?_, ?_, ?_, ?_, ?_, ?_⟩ <;> simp_all
    · simp only [ha, hb, Bool.false_eq_true, if_false]
      refine ⟨?_, h2, h3, h4, h5, h6, h7, h8, h9, h10, h11⟩
      intro ho
      exact ⟨(h1 ho).1, rfl, (h1 ho).2.2⟩

theorem owned_floorEnds (s : State) (l : LineNo) : Owned s (s.floorEnds l) := by
  unfold State.floorEnds
  have h : Owned s (s.onEngine l fun e => { e with floorRunning := false, floorLeft := 0 }) := by
    refine owned_onEngine s l _ fun q => ?_
    obtain ⟨⟨h1, h2, h3, h4, h5, h6, h7, h8, h9, h10, h11⟩, hr⟩ := q
    refine ⟨⟨fun h => ?_, h2, h3, h4, h5, h6, h7, h8, h9, h10, h11⟩, hr⟩
    exact ⟨(h1 h).1, (h1 h).2.1, (h1 h).2.2.1, rfl, (h1 h).2.2.2.2⟩
  dsimp only
  split
  · next hc =>
    exact h.trans (owned_onEngine _ l _ (sound_nextCycle _ (ne_off_of_cycles (Bool.and_eq_true_iff.mp hc).1)))
  · exact h

/-! ## Drop lines -/

theorem owned_frameEnds (s : State) (l : LineNo) (t : Transaction) (hs : (s.engine l).state = .sending) :
    Owned s (s.frameEnds l t) := by
  unfold State.frameEnds
  split
  · refine ((stores_onEngine s l _).trans (stores_endTransaction _ l _ _ _)).owned fun h => ?_
    refine coherent_endTransaction _ l _ _ _ (coherentBut_onEngine s l _ ?_ h)
    obtain ⟨⟨h1, h2, h3, h4, h5, h6, h7, h8, h9, h10, h11⟩, hr⟩ := h l
    refine ⟨⟨?_, ?_, ?_, ?_, ?_, ?_, ?_, ?_, ?_, ?_, ?_⟩, hr⟩ <;> simp_all [LineEngine.groupDataSent]
  · refine owned_onEngine s l _ fun q => ?_
    obtain ⟨⟨h1, h2, h3, h4, h5, h6, h7, h8, h9, h10, h11⟩, hr⟩ := q
    refine ⟨⟨?_, ?_, ?_, ?_, ?_, ?_, ?_, ?_, ?_, ?_, ?_⟩, hr⟩ <;> simp_all [LineEngine.openWindow]

theorem owned_setReception (s : State) (l : LineNo) (r : Reception) (hs : (s.engine l).state = .awaiting) :
    Owned s (s.setReception l r) := by
  refine owned_onEngine s l _ fun q => ?_
  obtain ⟨⟨h1, h2, h3, h4, h5, h6, h7, h8, h9, h10, h11⟩, hr⟩ := q
  exact ⟨⟨h1, h2, h3, by simp [hs], h5, h6, h7, h8, h9, h10, h11⟩, hr⟩

theorem owned_attemptEnd (s : State) (l : LineNo) (c : AttemptClass) (b : Bool) (hs : (s.engine l).state = .awaiting) :
    Owned s (s.attemptEnd l c b) :=
  (stores_attemptEnd s l c b).owned (coherent_attemptEnd s l c b hs)

theorem safe_finishAttempt (s : State) (l : LineNo) (c : AttemptClass) (b : Bool) (hs : (s.engine l).state = .awaiting) :
    Safe s (s.finishAttempt l c b) := by
  unfold State.finishAttempt
  refine Safe.trans ?_ (safe_transmit _)
  exact ((owned_attemptEnd s l c b hs).trans (owned_selectWork _ l)).toSafe

theorem safe_whenAwaiting (s : State) (l : LineNo) (f : State → Transaction → Reception → State)
    (h : ∀ t r, (s.engine l).state = .awaiting → Safe s (f s t r)) : Safe s (s.whenAwaiting l f) := by
  refine safe_whenOutOfReset s _ ?_
  split
  · next hs _ _ => exact h _ _ hs
  · exact Safe.refl s

theorem safe_replyCharacter (s : State) (l : LineNo) (t : Transaction) (r : Reception) (c : DropChar)
    (hs : (s.engine l).state = .awaiting) : Safe s (s.replyCharacter l t r c) := by
  unfold State.replyCharacter
  split
  · exact (owned_setReception s l _ hs).toSafe
  · exact Safe.refl s
  · exact (owned_setReception s l _ hs).toSafe
  · exact safe_finishAttempt s l _ _ hs
  · split
    · exact (owned_setReception s l _ hs).toSafe
    · exact (owned_setReception s l _ hs).toSafe
    · exact safe_finishAttempt s l _ _ hs
  · exact Safe.refl s

theorem sound_strayCharacter (e : LineEngine) (c : DropChar) (h : e.Sound) : (e.strayCharacter c).Sound := by
  unfold LineEngine.strayCharacter
  split
  · simpa [LineEngine.Sound, LineEngine.Coherent, LineEngine.timersStopped] using h
  · exact h

end Machine

end Sys2Proof
end

