-- ==== Sys2Proof/Laws/HostLink.lean ====
section
/-! SUPPORT. Lemmas about the host link: its places, a request taken, characters, the transmitter's choice and notices. -/

namespace Sys2Proof

namespace Machine

/-- From `s` to `t` the host link's queues stay within their places, and the queue of commands is the same. -/
structure PlacesKept (s t : State) : Prop where
  places : s.PlacesBounded → t.PlacesBounded
  pend : t.pending = s.pending

/-- Nothing changed. -/
theorem PlacesKept.refl (s : State) : PlacesKept s s := ⟨id, rfl⟩

/-- One change after another. -/
theorem PlacesKept.trans {s t u : State} (h : PlacesKept s t) (k : PlacesKept t u) : PlacesKept s u := ⟨k.1 ∘ h.1, k.2.trans h.2⟩

/-- Two states with one link side have the same places in use. -/
theorem replyPlaces_link {s t : State} (h : t.linkSide = s.linkSide) : t.replyPlacesInUse = s.replyPlacesInUse ∧ t.noticePlacesInUse = s.noticePlacesInUse ∧ t.inputQueue = s.inputQueue ∧ t.pending = s.pending := by
  have h1 : t.pending = s.pending := congrArg LinkSide.pending h
  have h3 : t.inputQueue = s.inputQueue := congrArg LinkSide.inputQueue h
  have h4 : t.replyQueue = s.replyQueue := congrArg LinkSide.replyQueue h
  have h5 : t.tx.map Transmission.unmarked = s.tx.map Transmission.unmarked := congrArg LinkSide.tx h
  refine ⟨?_, ?_, h3, h1⟩
  · unfold State.replyPlacesInUse; rw [h4]
    congr 1
    rcases ht : t.tx with _ | a <;> rcases hs : s.tx with _ | b <;> simp [ht, hs] at h5 ⊢
    cases a <;> cases b <;> simp_all [Transmission.unmarked]
  · unfold State.noticePlacesInUse; rw [h4]
    congr 1
    rcases ht : t.tx with _ | a <;> rcases hs : s.tx with _ | b <;> simp [ht, hs] at h5 ⊢
    cases a <;> cases b <;> simp_all [Transmission.unmarked]

/-- What a block does on its own keeps the places. -/
theorem Owned.placesKept {s t : State} (h : Owned s t) : PlacesKept s t := by
  obtain ⟨h1, h2, h3, h4⟩ := replyPlaces_link h.link
  refine ⟨?_, h4⟩
  unfold State.PlacesBounded; rw [h1, h2, h3]; exact id

/-- The transmitter's choice keeps the places: a frame that starts keeps its place until it has left. -/
theorem placesKept_choose (s : State) (b : Bool) : PlacesKept s (s.choose b) := by
  unfold State.choose
  split
  · exact PlacesKept.refl s
  · next h =>
    simp only [Bool.or_eq_true, not_or] at h
    have hx : s.tx = none := by simpa using h.2
    split
    · exact PlacesKept.refl s
    · refine ⟨?_, rfl⟩
      unfold State.PlacesBounded State.replyPlacesInUse State.noticePlacesInUse
      simp [hx]
    · next f rest hq _ =>
      refine ⟨?_, rfl⟩
      unfold State.PlacesBounded State.replyPlacesInUse State.noticePlacesInUse
      cases f <;> simp [hx, hq, WaitingFrame.start]
    · next f rest r hq _ =>
      split
      · refine ⟨?_, rfl⟩
        unfold State.PlacesBounded State.replyPlacesInUse State.noticePlacesInUse
        simp [hx]
      · refine ⟨?_, rfl⟩
        unfold State.PlacesBounded State.replyPlacesInUse State.noticePlacesInUse
        cases f <;> simp [hx, hq, WaitingFrame.start]

/-- The choice at the end of a step keeps the places. -/
theorem placesKept_transmit (s : State) : PlacesKept s s.transmit := by
  unfold State.transmit
  split
  · exact (placesKept_choose s _).trans ⟨id, rfl⟩
  · exact placesKept_choose s _

/-- A request handled whole keeps the places: a reply place is free when its frame is taken (R178). -/
theorem placesKept_serve (s : State) (f : HostFrame) (owner : State → State × Answer) (h : ∀ t, Owned t (owner t).1) :
    PlacesKept s (s.serve f owner) := by
  unfold State.serve
  split
  · exact PlacesKept.refl s
  · next t ht =>
    have q : PlacesKept s t ∧ t.replyPlacesInUse < 4 := by
      unfold State.takeFrame at ht
      split at ht
      · simp at ht
      · next hc =>
        simp only [Bool.or_eq_true, decide_eq_true_eq, not_or] at hc
        have hc2 : s.replyPlacesInUse < 4 := by have := hc.2; simp [Config.replyPlaces] at this; omega
        split at ht
        · split at ht
          · simp only [Option.some.injEq] at ht; subst ht; exact ⟨PlacesKept.refl s, hc2⟩
          · simp at ht
        · next hd rest hq =>
          split at ht
          · simp only [Option.some.injEq] at ht; subst ht
            refine ⟨⟨?_, rfl⟩, hc2⟩
            rintro ⟨a, b, c⟩
            refine ⟨?_, b, c⟩
            simp [hq] at a ⊢; omega
          · simp at ht
    have put : ∀ (u : State) (a : Answer), u.replyPlacesInUse < 4 → PlacesKept u (u.putReply f a) := by
      intro u a hu
      refine ⟨?_, rfl⟩
      unfold State.PlacesBounded State.replyPlacesInUse State.noticePlacesInUse State.putReply at *
      simp [Config.replyPlaces, List.countP_append] at hu ⊢
      omega
    split
    · exact (q.1.trans (put t _ q.2)).trans (placesKept_transmit _)
    · refine (q.1.trans ((h t).placesKept.trans (put _ _ ?_))).trans (placesKept_transmit _)
      rw [(replyPlaces_link (h t).link).1]; exact q.2

/-- Counting a discard changes no frame's kind. -/
theorem countDiscard_counts (l : List WaitingFrame) : (countDiscard l).countP (fun f => match f with
    | .reply _ => true
    | .notice _ => false) = l.countP (fun f => match f with
    | .reply _ => true
    | .notice _ => false) ∧ (countDiscard l).countP (fun f => match f with
    | .reply _ => false
    | .notice _ => true) = l.countP (fun f => match f with
    | .reply _ => false
    | .notice _ => true) := by
  induction l with
  | nil => exact ⟨rfl, rfl⟩
  | cons f rest ih =>
    cases f with
    | reply r => simp [countDiscard, ih]
    | notice n =>
      unfold countDiscard
      split <;> simp [ih]

/-- A notice takes a free notice place or none (R176). -/
theorem placesKept_raise (s : State) (r : NoticeReason) (t : Octet) : PlacesKept s (s.raiseNotice r t) := by
  unfold State.raiseNotice
  split
  · next h =>
    refine ⟨?_, rfl⟩
    unfold State.PlacesBounded State.replyPlacesInUse State.noticePlacesInUse at *
    simp [Config.noticePlaces, List.countP_append] at h ⊢
    omega
  · have e1 : ({ s with replyQueue := countDiscard s.replyQueue } : State).replyPlacesInUse = s.replyPlacesInUse :=
      congrArg (· + _) (countDiscard_counts s.replyQueue).1
    have e2 : ({ s with replyQueue := countDiscard s.replyQueue } : State).noticePlacesInUse = s.noticePlacesInUse :=
      congrArg (· + _) (countDiscard_counts s.replyQueue).2
    refine ⟨fun ⟨a, b, c⟩ => ⟨a, ?_, ?_⟩, rfl⟩
    · rw [e1]; exact b
    · rw [e2]; exact c

/-- The receiver's state holds no place. -/
theorem placesKept_rx (s : State) (r : Receiver) : PlacesKept s { s with rx := r } := ⟨id, rfl⟩

/-- A frame cut by a gap keeps the places. -/
theorem placesKept_cut (s : State) : PlacesKept s s.cutByGap := by
  unfold State.cutByGap
  split
  · exact PlacesKept.refl s
  · exact (placesKept_rx s _).trans (placesKept_raise _ _ _)

/-- A discarded frame keeps the places. -/
theorem placesKept_discard (s : State) (r : NoticeReason) : PlacesKept s (s.discard r) := (placesKept_rx s .hunt).trans (placesKept_raise _ _ _)

/-- A character received keeps the places: a frame is queued only while there is room (R175). -/
theorem placesKept_receive (s : State) (o : Octet) (m : Bool) : PlacesKept s (s.receive o m) := by
  unfold State.receive
  split
  · split
    · exact placesKept_rx s _
    · exact PlacesKept.refl s
  · unfold State.takeLength
    split
    · exact placesKept_rx s _
    · exact placesKept_discard s _
  · exact placesKept_rx s _
  · exact placesKept_rx s _
  · unfold State.judgeFrame
    split
    · exact placesKept_discard s _
    · split
      · exact placesKept_discard s _
      · next h =>
        refine ⟨?_, rfl⟩
        rintro ⟨a, b, c⟩
        refine ⟨?_, b, c⟩
        simp [Config.inputQueueFrames] at h ⊢; omega

/-- A frame that has left frees its place. -/
theorem placesKept_txnone (s : State) : PlacesKept s { s with tx := none } := by
  refine ⟨?_, rfl⟩
  rintro ⟨a, b, c⟩
  unfold State.PlacesBounded State.replyPlacesInUse State.noticePlacesInUse at *
  exact ⟨a, by simpa using (Nat.le_add_right _ _).trans b, by simpa using (Nat.le_add_right _ _).trans c⟩

/-- The end of a transmission keeps the places. -/
theorem placesKept_sent (s : State) (t : Transmission) : PlacesKept s (s.frameSent t) := by
  unfold State.frameSent
  split
  · split
    · next r code _ =>
      refine (placesKept_txnone s).trans ?_
      unfold State.switchRate
      split
      · exact PlacesKept.refl _
      · have h1 : PlacesKept ({ s with tx := none } : State) { s with tx := none, linkRate := code } := ⟨id, rfl⟩
        exact h1.trans (placesKept_cut _)
    · exact placesKept_txnone s
  · exact placesKept_txnone s
  · exact (placesKept_txnone s).trans ⟨id, rfl⟩

/-- An event keeps the places where its effect does. -/
theorem placesKept_out (s : State) (f : State → State) (h : PlacesKept s (f s)) : PlacesKept s (s.whenOutOfReset f) := by
  unfold State.whenOutOfReset
  split
  · exact PlacesKept.refl s
  · exact h

/-- The reset state has every place free. -/
theorem placesKept_cleared (s : State) : PlacesKept s s.cleared := ⟨fun _ => ⟨Nat.zero_le _, Nat.zero_le _, Nat.zero_le _⟩, rfl⟩

/-- A start of the part keeps the places. -/
theorem placesKept_restarted (s : State) (c : StartCause) (r : Octet) : PlacesKept s (s.restarted c r) := by
  unfold State.restarted
  refine PlacesKept.trans ?_ (placesKept_transmit _)
  exact ⟨fun _ => ⟨Nat.zero_le _, Nat.zero_le _, Nat.zero_le _⟩, rfl⟩

/-- A change at an awaiting engine keeps the places where its effect does. -/
theorem placesKept_awaiting (s : State) (l : LineNo) (f : State → Transaction → Reception → State)
    (h : ∀ t r, (s.engine l).state = .awaiting → PlacesKept s (f s t r)) : PlacesKept s (s.whenAwaiting l f) := by
  refine placesKept_out s _ ?_
  split
  · next hs _ _ => exact h _ _ hs
  · exact PlacesKept.refl s

/-- The end of an attempt keeps the places. -/
theorem placesKept_finish (s : State) (l : LineNo) (c : AttemptClass) (b : Bool) (hs : (s.engine l).state = .awaiting) :
    PlacesKept s (s.finishAttempt l c b) := by
  unfold State.finishAttempt
  refine PlacesKept.trans ?_ (placesKept_transmit _)
  exact ((owned_attemptEnd s l c b hs).trans (owned_selectWork _ l)).placesKept

/-- A reply character keeps the places. -/
theorem placesKept_reply (s : State) (l : LineNo) (t : Transaction) (r : Reception) (c : DropChar)
    (hs : (s.engine l).state = .awaiting) : PlacesKept s (s.replyCharacter l t r c) := by
  unfold State.replyCharacter
  split
  · exact (owned_setReception s l _ hs).placesKept
  · exact PlacesKept.refl s
  · exact (owned_setReception s l _ hs).placesKept
  · exact placesKept_finish s l _ _ hs
  · split
    · exact (owned_setReception s l _ hs).placesKept
    · exact (owned_setReception s l _ hs).placesKept
    · exact placesKept_finish s l _ _ hs
  · exact PlacesKept.refl s

/-- A request taken is handed to its owner, and the owner's answer is queued (R178, R179). -/
theorem serve_taken {s u : State} {f : HostFrame} (ht : s.takeFrame f = some u) (hr : u.restarting = false)
    (owner : State → State × Answer) : s.serve f owner = ((owner u).1.putReply f (owner u).2).transmit := by
  simp [State.serve, ht, hr]

/-- A request taken in RESTARTING is answered with STATE (R186). -/
theorem serve_restarting {s u : State} {f : HostFrame} (ht : s.takeFrame f = some u) (hr : u.restarting = true)
    (owner : State → State × Answer) : s.serve f owner = (u.putReply f (refuse .state)).transmit := by
  simp [State.serve, ht, hr]

/-- A character taken by the receiver (R173). -/
theorem hostCharacter_taken (s : State) (o : Octet) (m : Bool) (hr : s.resetAsserted = false) (hn : s.restarting = false) :
    exec (.hostCharacter o m) s = .next (s.receive o m).transmit := by
  simp [exec, execHostCharacter, State.whenOutOfReset, hr, hn]

/-- The transmitter's choice leaves the link rate. -/
theorem choose_linkRate (s : State) (b : Bool) : (s.choose b).linkRate = s.linkRate := by
  unfold State.choose; split; rfl; split <;> first | rfl | (split <;> rfl)

/-- The transmitter's choice leaves the receiver. -/
theorem choose_rx (s : State) (b : Bool) : (s.choose b).rx = s.rx := by
  unfold State.choose; split; rfl; split <;> first | rfl | (split <;> rfl)

/-- The receiver and the input queue do not touch the transmitter's choice. -/
theorem choose_rxq (s : State) (r : Receiver) (q : List HostFrame) (b : Bool) : ({ s with rx := r, inputQueue := q } : State).choose b = { s.choose b with rx := r, inputQueue := q } := by
  unfold State.choose
  have ho : ({ s with rx := r, inputQueue := q } : State).offer = s.offer := rfl
  rw [ho]
  by_cases hb : (s.resetAsserted || s.tx.isSome) = true
  · simp only [hb, if_true]
  · simp only [hb]
    rcases hq : s.replyQueue with _ | ⟨f, rest⟩ <;> rcases hof : s.offer with _ | r' <;> cases b <;> simp [hq]

/-- The receiver and the input queue do not touch the choice at the end of a step. -/
theorem transmit_rxq (s : State) (r : Receiver) (q : List HostFrame) : ({ s with rx := r, inputQueue := q } : State).transmit = { s.transmit with rx := r, inputQueue := q } := by
  unfold State.transmit
  have : ({ s with rx := r, inputQueue := q } : State).openChoice = s.openChoice := rfl
  rw [this]; cases hb : s.openChoice <;> simp only [choose_rxq, if_true, Bool.false_eq_true, if_false]

/-- The two octets of a word, high octet first, give the word back (R189). -/
theorem word_octets (w : Word) : wordOf (w.extractLsb' 8 8) (w.extractLsb' 0 8) = w := by
  unfold wordOf
  apply BitVec.eq_of_getLsbD_eq
  intro i hi
  simp only [BitVec.getLsbD_append, BitVec.getLsbD_extractLsb']
  split
  · simp [*]
  · next h => 
    have h1 : i - 8 < 8 := by omega
    have h2 : 8 + (i - 8) = i := by omega
    simp [h1, h2]

/-- A discard is counted into the newest waiting notice. -/
theorem countDiscard_append (ahead : List WaitingFrame) (n : Notice) (behind : List Reply) :
    countDiscard (ahead ++ .notice n :: behind.map .reply) =
      ahead ++ .notice { n with count := min (n.count + 1) 255 } :: behind.map .reply := by
  induction ahead with
  | nil =>
      simp only [List.nil_append, countDiscard]
      rw [if_neg]; rfl
      simp
  | cons a rest ih =>
      cases a with
      | reply r => simp only [List.cons_append, countDiscard, ih]
      | notice m =>
          simp only [List.cons_append, countDiscard, ih]
          rw [if_pos]
          simp

end Machine

end Sys2Proof
end

