-- ==== Sys2Proof/Laws/Operands.lean ====
section
/-! SUPPORT. Lemmas about operands read from requests and about judging replies, one for each kind of transaction; and small lemmas about engines that change or wait. -/

namespace Sys2Proof

namespace Machine

/-! ## Operands of requests -/

/-- An octet that is a line's number names the line (R26). -/
theorem lineOf_eq (o : Octet) (l : LineNo) (h : o.toNat = l.val) : lineOf o = some l := by
  unfold lineOf; rw [dif_pos (by omega)]; simp [h]

/-- An octet above 3 names no line (R26). -/
theorem lineOf_none (o : Octet) (h : 3 < o.toNat) : lineOf o = none := by
  unfold lineOf; rw [dif_neg (by omega)]

/-- An octet that is a group's number names the group (R108). -/
theorem groupOf_eq (o : Octet) (g : GroupNo) (h : o.toNat = g.val) : groupOf o = some g := by
  unfold groupOf; rw [dif_pos (by omega)]; simp [h]

/-- An octet above 15 names no group (R108). -/
theorem groupOf_none (o : Octet) (h : 15 < o.toNat) : groupOf o = none := by
  unfold groupOf; rw [dif_neg (by omega)]

/-- An octet that is a watch number names the watch (R143). -/
theorem watchOf_eq (o : Octet) (w : WatchNo) (h : o.toNat = w.val) : watchOf o = some w := by
  unfold watchOf; rw [dif_pos (by omega)]; simp [h]

/-- An octet above 31 names no watch (R143). -/
theorem watchOf_none (o : Octet) (h : 31 < o.toNat) : watchOf o = none := by
  unfold watchOf; rw [dif_neg (by omega)]

/-- An octet in 1 to 239 is a station address (R70). -/
theorem addressOf_eq (o : Octet) (h1 : 1 ≤ o.toNat) (h2 : o.toNat ≤ 239) : addressOf o = some o := by
  unfold addressOf; rw [if_pos ⟨h1, h2⟩]

/-- An octet outside 1 to 239 is no station address (R70). -/
theorem addressOf_none (o : Octet) (h : ¬ (1 ≤ o.toNat ∧ o.toNat ≤ 239)) : addressOf o = none := by
  unfold addressOf; rw [if_neg h]

/-- The word that two octets spell gives the two octets back (R189). -/
theorem octets_word (h l : Octet) : wordOctets (wordOf h l) = [h, l] := by
  unfold wordOctets wordOf
  congr 1
  · apply BitVec.eq_of_getLsbD_eq; intro i hi
    simp only [BitVec.getLsbD_append, BitVec.getLsbD_extractLsb', hi]
    rw [if_neg (by omega)]; simp
  · congr 1
    apply BitVec.eq_of_getLsbD_eq; intro i hi
    simp only [BitVec.getLsbD_append, BitVec.getLsbD_extractLsb', hi]
    rw [if_pos (by omega)]; simp

/-! ## Replies judged, by the kind of the transaction (R11, R12, R19) -/

/-- No reply of R10 is unexpected for every kind (R19). -/
theorem judgeReply_none (k : TxKind) (bit : Bool) : judgeReply k bit none = .corrupt .unexpected := by
  cases k <;> rfl

/-- Replies to a transaction of kind poll. -/
theorem judgeReply_poll (bit : Bool) (r : DropReply) : judgeReply .poll bit (some r) = match r with
    | .status w d s => .good (.status w d s)
    | _ => .corrupt .unexpected := by
  rcases r with ⟨w, d, s⟩ | ⟨a⟩ | ⟨_ | _ | _ | _⟩ | ⟨a, p⟩ <;> rfl

/-- Replies to a transaction of kind clear. -/
theorem judgeReply_clear (bit : Bool) (r : DropReply) : judgeReply .clear bit (some r) = match r with
    | .ack a => .good (.ack a)
    | _ => .corrupt .unexpected := by
  rcases r with ⟨w, d, s⟩ | ⟨a⟩ | ⟨_ | _ | _ | _⟩ | ⟨a, p⟩ <;> rfl

/-- Replies to a transaction of kind send. -/
theorem judgeReply_send (bit : Bool) (r : DropReply) : judgeReply .send bit (some r) = match r with
    | .ack a => if a = bit then .good (.ack a) else .corrupt .unexpected
    | .nak .refused => .good (.nak .refused)
    | .nak .full => .nakFull
    | _ => .corrupt .unexpected := by
  rcases r with ⟨w, d, s⟩ | ⟨a⟩ | ⟨_ | _ | _ | _⟩ | ⟨a, p⟩ <;> rfl

/-- Replies to a transaction of kind fetch. -/
theorem judgeReply_fetch (bit : Bool) (r : DropReply) : judgeReply .fetch bit (some r) = match r with
    | .data a p => if a = bit then .good (.data a p) else .corrupt .unexpected
    | .nak .empty => .good (.nak .empty)
    | .nak .full => .nakFull
    | _ => .corrupt .unexpected := by
  rcases r with ⟨w, d, s⟩ | ⟨a⟩ | ⟨_ | _ | _ | _⟩ | ⟨a, p⟩ <;> rfl

/-- Replies to a transaction of kind join. -/
theorem judgeReply_join (bit : Bool) (r : DropReply) : judgeReply .join bit (some r) = match r with
    | .ack a => .good (.ack a)
    | .nak .refused => .good (.nak .refused)
    | _ => .corrupt .unexpected := by
  rcases r with ⟨w, d, s⟩ | ⟨a⟩ | ⟨_ | _ | _ | _⟩ | ⟨a, p⟩ <;> rfl

/-- Replies to a transaction of kind leave. -/
theorem judgeReply_leave (bit : Bool) (r : DropReply) : judgeReply .leave bit (some r) = match r with
    | .ack a => .good (.ack a)
    | .nak .refused => .good (.nak .refused)
    | _ => .corrupt .unexpected := by
  rcases r with ⟨w, d, s⟩ | ⟨a⟩ | ⟨_ | _ | _ | _⟩ | ⟨a, p⟩ <;> rfl

/-- No reply is awaited after GROUP DATA. -/
theorem judgeReply_groupData (bit : Bool) (r : DropReply) : judgeReply .groupData bit (some r) = .corrupt .unexpected := by
  rcases r with ⟨w, d, s⟩ | ⟨a⟩ | ⟨_ | _ | _ | _⟩ | ⟨a, p⟩ <;> rfl

/-- Replies to a transaction of kind groupCheck. -/
theorem judgeReply_groupCheck (bit : Bool) (r : DropReply) : judgeReply .groupCheck bit (some r) = match r with
    | .ack a => .good (.ack a)
    | .nak .missed => .good (.nak .missed)
    | .nak .refused => .good (.nak .refused)
    | .nak .full => .nakFull
    | _ => .corrupt .unexpected := by
  rcases r with ⟨w, d, s⟩ | ⟨a⟩ | ⟨_ | _ | _ | _⟩ | ⟨a, p⟩ <;> rfl

/-- Replies to a transaction of kind groupRepair. -/
theorem judgeReply_groupRepair (bit : Bool) (r : DropReply) : judgeReply .groupRepair bit (some r) = match r with
    | .ack a => .good (.ack a)
    | .nak .refused => .good (.nak .refused)
    | .nak .full => .nakFull
    | _ => .corrupt .unexpected := by
  rcases r with ⟨w, d, s⟩ | ⟨a⟩ | ⟨_ | _ | _ | _⟩ | ⟨a, p⟩ <;> rfl

/-! ## Engines -/

/-- Two changes of an engine are one. -/
theorem onEngine_onEngine (s : State) (l : LineNo) (f g : LineEngine → LineEngine) :
    (s.onEngine l f).onEngine l g = s.onEngine l (fun e => g (f e)) := by
  unfold State.onEngine State.setEngine State.engine; simp

/-- A change of an engine is what it makes of the engine. -/
theorem onEngine_congr (s : State) (l : LineNo) (f g : LineEngine → LineEngine) (h : f (s.engine l) = g (s.engine l)) :
    s.onEngine l f = s.onEngine l g := by
  unfold State.onEngine; rw [h]

/-- A change of a station entry is what it makes of the entry. -/
theorem onStation_congr (s : State) (ix : StationIx) (f g : Station → Station) (h : f (s.station ix) = g (s.station ix)) :
    s.onStation ix f = s.onStation ix g := by
  unfold State.onStation; rw [h]

/-- A change that leaves the engine leaves the state. -/
theorem onEngine_id (s : State) (l : LineNo) (f : LineEngine → LineEngine) (h : f (s.engine l) = s.engine l) :
    s.onEngine l f = s := by
  unfold State.onEngine; rw [h]; unfold State.setEngine State.engine
  have : s.engines.set l.val s.engines[l] l.isLt = s.engines := by
    apply Vector.ext; intro i hi; by_cases hx : l.val = i
    · subst hx; simp
    · simp
  rw [this]

/-- Work is selected in IDLE alone (R38). -/
theorem selectWork_busy (s : State) (l : LineNo) (h : (s.engine l).state ≠ .idle) : s.selectWork l = s := by
  unfold State.selectWork; rw [if_neg]; simp [LineEngine.waiting, h]

/-- No work is selected while a transaction is in flight (R38). -/
theorem selectWork_held (s : State) (l : LineNo) (h : (s.engine l).tx ≠ none) : s.selectWork l = s := by
  unfold State.selectWork; rw [if_neg]; simp [LineEngine.waiting]; intro _ h2; exact absurd h2 h

end Machine

end Sys2Proof
end

