-- ==== Sys2Proof/Laws/Acceptance.lean ====
section
/-! SUPPORT. Lemmas about the operands of requests, the acceptance checks and the numbers given, one for each shared operation. -/

namespace Sys2Proof

namespace Machine

/-- An entry found by line and address is not FREE and carries them (R55). -/
theorem findStation_some {s : State} {l : LineNo} {a : Octet} {ix : StationIx} (h : s.findStation l a = some ix) :
    (s.station ix).state ≠ .free ∧ (s.station ix).line = l ∧ (s.station ix).address = a := by
  have := List.find?_some h
  simpa [and_assoc] using this

/-- What names a station found by line and address (R189). -/
theorem stationRef_eq {s : State} {l : LineNo} {a : Octet} {ix : StationIx} (h : s.findStation l a = some ix) :
    s.stationRef ix = { index := ix, line := l, address := a } := by
  obtain ⟨_, h2, h3⟩ := findStation_some h
  simp [State.stationRef, h2, h3]

/-- A priority code names its priority (R197). -/
theorem priorityOf_code (p : Priority) : priorityOf p.code = some p := by cases p <;> rfl

/-- An octet above 1 names no priority (R197). -/
theorem priorityOf_none (o : Octet) (h : 1 < o.toNat) : priorityOf o = none := by
  revert o; decide +kernel

/-- A condition code names its condition (R197). -/
theorem conditionOf_code (c : Condition) : conditionOf c.code = some c := by cases c <;> rfl

/-- An octet above 5 names no condition (R197). -/
theorem conditionOf_none (o : Octet) (h : 5 < o.toNat) : conditionOf o = none := by revert o; decide +kernel

/-- A combine mode code names its mode (R197). -/
theorem combineOf_code (c : Combine) : combineOf c.code = some c := by cases c <;> rfl

/-- An octet above 1 names no combine mode (R197). -/
theorem combineOf_none (o : Octet) (h : 1 < o.toNat) : combineOf o = none := by revert o; decide +kernel

/-- A truth field names its truth (R189). -/
theorem truthOf_truth (b : Bool) : truthOf (truth b) = some b := by cases b <;> rfl

/-- An octet above 1 is no truth field (R190). -/
theorem truthOf_none (o : Octet) (h : 1 < o.toNat) : truthOf o = none := by revert o; decide +kernel

/-- Sixteen condition codes from bit 15 to bit 0 name the sixteen conditions (R194). -/
theorem conditionsOf_codes (cs : Vector Condition 16) : conditionsOf (cs.toList.map Condition.code).reverse = some cs := by
  unfold conditionsOf
  rw [List.reverse_reverse, List.map_map]
  have e : (conditionOf ∘ Condition.code) = some := by funext c; exact conditionOf_code c
  rw [e]
  simp only [List.all_map]
  rw [if_pos (by simp)]
  congr 1
  apply Vector.ext; intro i hi; simp

/-- A list with an octet above 5 names no conditions (R190). -/
theorem conditionsOf_none (os : List Octet) (h : ∃ c ∈ os, 5 < c.toNat) : conditionsOf os = none := by
  unfold conditionsOf
  obtain ⟨c, hc, h5⟩ := h
  simp only []
  rw [if_neg]
  simp only [List.all_eq_true, List.mem_map, List.mem_reverse, not_forall]
  exact ⟨none, ⟨c, hc, conditionOf_none c h5⟩, by simp⟩

/-- A request that names a line or address out of range is refused with BAD VALUE (R70). -/
theorem withStation_bad (s : State) (line address : Octet) (f) (h : 3 < line.toNat ∨ address.toNat = 0 ∨ 239 < address.toNat) :
    s.withStation line address f = (s, refuse .badValue) := by
  unfold State.withStation
  rcases h with h | h | h
  · rw [lineOf_none line h]
  · rw [addressOf_none address (by omega)]; cases lineOf line <;> rfl
  · rw [addressOf_none address (by omega)]; cases lineOf line <;> rfl

/-- A request that names no entry is refused with NO SUCH (R70). -/
theorem withStation_none (s : State) (line address : Octet) (l : LineNo) (f) (hl : line.toNat = l.val) (h1 : 1 ≤ address.toNat)
    (h2 : address.toNat ≤ 239) (h : s.findStation l address = none) : s.withStation line address f = (s, refuse .noSuch) := by
  unfold State.withStation
  rw [lineOf_eq line l hl, addressOf_eq address h1 h2]; simp [h]

/-- A request that names an entry is judged on it (R55). -/
theorem withStation_some (s : State) (line address : Octet) (l : LineNo) (ix) (f) (hl : line.toNat = l.val) (h1 : 1 ≤ address.toNat)
    (h2 : address.toNat ≤ 239) (h : s.findStation l address = some ix) : s.withStation line address f = f ix := by
  unfold State.withStation
  rw [lineOf_eq line l hl, addressOf_eq address h1 h2]; simp [h]

/-- The acceptance checks on an order's station and line, in their order (R85). -/
theorem stationRefusal_eq {s : State} {l : LineNo} {a : Octet} {ix : StationIx} (h : s.findStation l a = some ix) :
    s.stationRefusal ix = if (s.station ix).state = .suspended ∨ (s.station ix).state = .retiring then some .state
          else if (s.station ix).state = .missing then some .stationDown
          else if (s.engine l).state = .off ∨ (s.engine l).state = .stopping then some .lineOff
          else none := by
  obtain ⟨h1, h2, h3⟩ := findStation_some h
  unfold State.stationRefusal
  rw [h2]
  cases hs : (s.station ix).state <;> simp_all [LineEngine.running] <;> cases (s.engine l).state <;> simp

/-- The checks on record, blocks and reservation for one record, in their order (R85). -/
theorem resourceRefusal_eq (s : State) (blocks : Nat) :
    s.resourceRefusal 1 blocks = if 40 ≤ s.orders.length then some .noRecord
          else if s.freeBlocks.length < blocks then some .noBuffer
          else if 40 ≤ s.slotsInUse then some .reportFull
          else none := by
  unfold State.resourceRefusal State.freeRecords State.grantable
  simp only [Config.orderRecords, Config.reservationLimit]
  have e1 : 40 - s.orders.length < 1 ↔ 40 ≤ s.orders.length := by omega
  simp only [e1]
  by_cases h : 40 ≤ s.slotsInUse
  · have h' : ¬ s.slotsInUse < 40 := by omega
    simp [h, h']
  · have h' : s.slotsInUse < 40 := by omega
    simp [h, h']

/-- The member found in a group is the station's and stands in the list (R105). -/
theorem memberOf_some {gr : Group} {ix : StationIx} {m : Member} (h : gr.memberOf ix = some m) : m.station.index = ix ∧ m ∈ gr.members := by
  unfold Group.memberOf at h
  exact ⟨by simpa using List.find?_some h, List.mem_of_find?_eq_some h⟩

/-- No number follows as 0 (R81). -/
theorem nextNumber_ne (n : Word) : nextNumber n ≠ 0 := by
  unfold nextNumber; split
  · decide
  · next h => intro hc; apply h; have : n = (n + 1) - 1 := by simp
              rw [this, hc]; rfl

/-- The first 45 numbers from a number on are different (R81). -/
theorem next_iter_inj (n : Word) (hn : n ≠ 0) : ∀ i j, i ≤ 44 → j ≤ 44 → nextNumber^[i] n = nextNumber^[j] n → i = j := by
  have val : ∀ m : Word, m ≠ 0 → (nextNumber m).toNat = m.toNat % 65535 + 1 := by
    intro m hm
    unfold nextNumber; split
    · next h => subst h; rfl
    · next h =>
      have : m.toNat ≠ 65535 := fun hx => h (by apply BitVec.eq_of_toNat_eq; simpa using hx)
      have := m.isLt
      simp; omega
  have nz : ∀ k, nextNumber^[k] n ≠ 0 := by
    intro k; cases k with
    | zero => exact hn
    | succ k => rw [Function.iterate_succ_apply']; exact nextNumber_ne _
  have v : ∀ k, (nextNumber^[k] n).toNat = (n.toNat - 1 + k) % 65535 + 1 := by
    intro k; induction k with
    | zero => have := n.isLt; have : n.toNat ≠ 0 := fun hx => hn (by apply BitVec.eq_of_toNat_eq; simpa using hx)
              simp; omega
    | succ k ih => rw [Function.iterate_succ_apply', val _ (nz k), ih]; omega
  intro i j hi hj h
  have := v i; rw [h, v j] at this; omega

/-- The search for a number finds the first one not in use, when one of those it looks at is free (R81). -/
theorem search_spec (used : List Word) : ∀ fuel n, (∃ k, k < fuel ∧ nextNumber^[k] n ∉ used) →
    ∃ k, k < fuel ∧ searchNumber used fuel n = nextNumber^[k] n ∧ nextNumber^[k] n ∉ used ∧ ∀ j < k, nextNumber^[j] n ∈ used := by
  intro fuel
  induction fuel with
  | zero => rintro n ⟨k, h, _⟩; omega
  | succ fuel ih =>
    rintro n ⟨k, hk, hu⟩
    unfold searchNumber
    by_cases h : n ∈ used
    · rw [if_pos (by simpa using h)]
      cases k with
      | zero => exact absurd h hu
      | succ k =>
        obtain ⟨j, hj, h1, h2, h3⟩ := ih (nextNumber n) ⟨k, by omega, hu⟩
        refine ⟨j+1, by omega, h1, h2, ?_⟩
        intro m hm; cases m with
        | zero => exact h
        | succ m => exact h3 m (by omega)
    · rw [if_neg (by simpa using h)]
      exact ⟨0, by omega, rfl, h, fun j hj => by omega⟩

end Machine

end Sys2Proof
end

