-- ==== Sys2Proof/Laws/Frames.lean ====
section
/-! SUPPORT. What the shared operations leave as it was: the delivery unit's, the draws', work selection's, a line's stop and a station's removal; and the poll cycle's search. -/

namespace Sys2Proof

namespace Machine

/-- The check for completion leaves the groups and the stations. -/
theorem checkDelivery_frame (s : State) (n : Word) : (s.checkDelivery n).groups = s.groups ∧ (s.checkDelivery n).stations = s.stations := by
  unfold State.checkDelivery; split
  · exact ⟨rfl, rfl⟩
  · split <;> exact ⟨rfl, rfl⟩

/-- A look at a pass leaves the groups and the stations. -/
theorem reviewPass_frame (s : State) (n : Word) (l : LineNo) : (s.reviewPass n l).groups = s.groups ∧ (s.reviewPass n l).stations = s.stations := by
  unfold State.reviewPass; split
  · split
    · exact ⟨rfl, rfl⟩
    · unfold State.freePass; exact checkDelivery_frame _ n
  · exact ⟨rfl, rfl⟩

/-- A station event at a delivery leaves the groups and the stations. -/
theorem settleMember_frame (s : State) (ix : StationIx) (f : Fate) (g : GroupNo) : (s.settleMember ix f g).groups = s.groups ∧ (s.settleMember ix f g).stations = s.stations := by
  unfold State.settleMember
  split
  · exact ⟨rfl, rfl⟩
  · split
    · exact ⟨rfl, rfl⟩
    · split
      · exact ⟨rfl, rfl⟩
      · exact reviewPass_frame _ _ _

/-- A group joining a group set sets its own bit alone (R189). -/
theorem groupBit_joins (b : BitVec 16) (a g : GroupNo) : (b ||| groupBit a).getLsbD g.val = (b.getLsbD g.val || decide (a = g)) := by
  rw [BitVec.getLsbD_or]
  congr 1
  have : ∀ a g : Fin 16, (groupBit a).getLsbD g.val = decide (a = g) := by decide +kernel
  exact this a g

/-- One group of a lapse: its ACTIVE member becomes LAPSED and its bit is set (R68, R106). -/
theorem lapseGroup_effect (s : State) (ix : StationIx) (a g : GroupNo) :
    (s.lapseGroup ix a).group g = (if a = g ∧ (∃ m, (s.group g).memberOf ix = some m ∧ m.state = .active) then (s.group g).withState ix .lapsed else s.group g) ∧
    (((s.lapseGroup ix a).station ix).lapsed.getLsbD g.val = true ↔ (a = g ∧ (∃ m, (s.group g).memberOf ix = some m ∧ m.state = .active)) ∨ (s.station ix).lapsed.getLsbD g.val = true) := by
  unfold State.lapseGroup
  cases hm : (s.group a).memberOf ix with
  | none =>
    simp only []
    refine ⟨?_, ?_⟩
    · unfold State.group at *; rw [(settleMember_frame _ _ _ _).1, if_neg]; rintro ⟨rfl, m, h1, h2⟩; rw [hm] at h1; cases h1
    · unfold State.station; rw [(settleMember_frame _ _ _ _).2]
      constructor
      · exact Or.inr
      · rintro (⟨rfl, m, h1, h2⟩ | h)
        · rw [hm] at h1; cases h1
        · exact h
  | some m =>
    obtain ⟨st, ms⟩ := m
    cases ms with
    | active =>
      simp only []
      refine ⟨?_, ?_⟩
      · have : ((s.setGroup a ((s.group a).withState ix .lapsed)).onStation ix fun st => { st with lapsed := st.lapsed ||| groupBit a }).group g = if a = g then (s.group a).withState ix .lapsed else s.group g := by
          rw [onStation_group]; simp
        unfold State.group at *; rw [(settleMember_frame _ _ _ _).1, this]
        by_cases ha : a = g
        · subst ha; rw [if_pos rfl, if_pos ⟨rfl, _, hm, rfl⟩]
        · rw [if_neg ha, if_neg (fun h => ha h.1)]
      · have : ((s.setGroup a ((s.group a).withState ix .lapsed)).onStation ix fun st => { st with lapsed := st.lapsed ||| groupBit a }).station ix = { s.station ix with lapsed := (s.station ix).lapsed ||| groupBit a } := by
          simp
        unfold State.station at *; rw [(settleMember_frame _ _ _ _).2, this]
        simp only [groupBit_joins]
        simp only [Bool.or_eq_true, decide_eq_true_eq]
        constructor
        · rintro (h | rfl)
          · exact Or.inr h
          · exact Or.inl ⟨rfl, _, hm, rfl⟩
        · rintro (h | h)
          · exact Or.inr h.1
          · exact Or.inl h
    | _ =>
      simp only []
      refine ⟨?_, ?_⟩
      · unfold State.group at *; rw [(settleMember_frame _ _ _ _).1, if_neg]; rintro ⟨rfl, m, h1, h2⟩; rw [hm] at h1; cases h1; cases h2
      · unfold State.station; rw [(settleMember_frame _ _ _ _).2]
        constructor
        · exact Or.inr
        · rintro (⟨rfl, m, h1, h2⟩ | h)
          · rw [hm] at h1; cases h1; cases h2
          · exact h

/-- A lapse over a list of groups. -/
theorem lapse_effect (ix : StationIx) : ∀ (gs : List GroupNo) (s : State) (g : GroupNo), gs.Nodup →
    (gs.foldl (fun s g => s.lapseGroup ix g) s).group g = (if g ∈ gs ∧ (∃ m, (s.group g).memberOf ix = some m ∧ m.state = .active) then (s.group g).withState ix .lapsed else s.group g) ∧
    (((gs.foldl (fun s g => s.lapseGroup ix g) s).station ix).lapsed.getLsbD g.val = true ↔ (g ∈ gs ∧ (∃ m, (s.group g).memberOf ix = some m ∧ m.state = .active)) ∨ (s.station ix).lapsed.getLsbD g.val = true) := by
  intro gs
  induction gs with
  | nil => intro s g _; simp
  | cons a rest ih =>
    intro s g hn
    obtain ⟨h1, h2⟩ := List.nodup_cons.mp hn
    rw [List.foldl_cons]
    obtain ⟨i1, i2⟩ := ih (s.lapseGroup ix a) g h2
    obtain ⟨k1, k2⟩ := lapseGroup_effect s ix a g
    by_cases ha : a = g
    · subst ha
      rw [i1, i2, k2]
      simp only [h1, false_and, if_false, false_or, List.mem_cons, true_or, true_and]
      exact ⟨by rw [k1]; simp, by simp⟩
    · have hg : (s.lapseGroup ix a).group g = s.group g := by rw [k1, if_neg (fun h => ha h.1)]
      have hs : ((s.lapseGroup ix a).station ix).lapsed.getLsbD g.val = true ↔ (s.station ix).lapsed.getLsbD g.val = true := by rw [k2]; simp [ha]
      rw [i1, i2, hg, hs]
      have : g ∈ a :: rest ↔ g ∈ rest := by simp; exact fun h => absurd h.symm ha
      simp only [this]; exact ⟨trivial, trivial⟩

/-- What neither orders nor engines touch: stations, groups, watches and the pending list are as they were. -/
structure Unmoved (s t : State) : Prop where
  st : t.stations = s.stations
  gr : t.groups = s.groups
  wa : t.watches = s.watches
  so : t.sources = s.sources

/-- Nothing changed. -/
theorem Unmoved.refl (s : State) : Unmoved s s := ⟨rfl, rfl, rfl, rfl⟩

/-- One change after another. -/
theorem Unmoved.trans {s t u : State} (h : Unmoved s t) (k : Unmoved t u) : Unmoved s u := ⟨k.1.trans h.1, k.2.trans h.2, k.3.trans h.3, k.4.trans h.4⟩

/-- The poll cycle's advance touches the engine alone. -/
theorem unmoved_advanceCycle (l : LineNo) : ∀ (n : Nat) (s : State), Unmoved s (State.advanceCycle l n s) := by
  intro n
  induction n with
  | zero => intro s; exact Unmoved.refl s
  | succ n ih =>
    intro s
    unfold State.advanceCycle
    split
    · split
      · exact Unmoved.refl s
      · exact (show Unmoved s (s.onEngine l _) from ⟨rfl, rfl, rfl, rfl⟩).trans (ih _)
    · split
      · exact (show Unmoved s (s.onEngine l _) from ⟨rfl, rfl, rfl, rfl⟩).trans (ih _)
      · exact Unmoved.refl s

/-- Work selection touches orders, deliveries and its engine alone. -/
theorem unmoved_selectWork (s : State) (l : LineNo) : Unmoved s (s.selectWork l) := by
  unfold State.selectWork
  split
  · obtain ⟨n, hn⟩ := cycleAtSelection_advance s l
    rw [hn]
    refine (unmoved_advanceCycle l n s).trans ?_
    generalize State.advanceCycle l n s = t
    simp only
    split
    · next r _ =>
      unfold State.takeEntry
      split
      · split
        · unfold State.takePass
          simp only
          split <;> exact ⟨rfl, rfl, rfl, rfl⟩
        · exact Unmoved.refl t
      · unfold State.takeOrder
        split <;> exact ⟨rfl, rfl, rfl, rfl⟩
    · exact ⟨rfl, rfl, rfl, rfl⟩
    · exact Unmoved.refl t
  · exact Unmoved.refl s

/-- The check for completion leaves the groups and the watches. -/
theorem checkDelivery_tables (s : State) (n : Word) : (s.checkDelivery n).groups = s.groups ∧ (s.checkDelivery n).watches = s.watches := by
  unfold State.checkDelivery; split
  · exact ⟨rfl, rfl⟩
  · split <;> exact ⟨rfl, rfl⟩

/-- A pass freed leaves the groups and the watches. -/
theorem freePass_tables (s : State) (n : Word) (l : LineNo) : (s.freePass n l).groups = s.groups ∧ (s.freePass n l).watches = s.watches := by
  unfold State.freePass; exact ⟨(checkDelivery_tables _ n).1, (checkDelivery_tables _ n).2⟩

/-- A look at a pass leaves the groups. -/
theorem reviewPass_groups (s : State) (n : Word) (l : LineNo) : (s.reviewPass n l).groups = s.groups := by
  unfold State.reviewPass; split
  · split
    · rfl
    · exact (freePass_tables s n l).1
  · rfl

/-- A station event at a delivery leaves the groups. -/
theorem settleMember_groups (s : State) (ix : StationIx) (f : Fate) (g : GroupNo) : (s.settleMember ix f g).groups = s.groups := by
  unfold State.settleMember
  split
  · rfl
  · split
    · rfl
    · split
      · rfl
      · exact reviewPass_groups _ _ _

/-- A station that leaves a list of groups (R113). -/
theorem leaveGroups_effect (ix : StationIx) : ∀ (gs : List GroupNo) (s : State) (g : GroupNo), gs.Nodup →
    (gs.foldl (fun s g => (s.setGroup g ((s.group g).without ix)).settleMember ix .dropped g) s).group g =
      if g ∈ gs then (s.group g).without ix else s.group g := by
  intro gs
  induction gs with
  | nil => intro s g _; rfl
  | cons a rest ih =>
    intro s g hn
    obtain ⟨h1, h2⟩ := List.nodup_cons.mp hn
    rw [List.foldl_cons, ih _ _ h2]
    have e : ((s.setGroup a ((s.group a).without ix)).settleMember ix .dropped a).group g = if a = g then (s.group a).without ix else s.group g := by
      unfold State.group
      rw [settleMember_groups]
      change ((s.setGroup a ((s.group a).without ix)).group g) = _
      simp
      rfl
    rw [e]
    by_cases ha : a = g
    · subst ha; rw [if_neg h1, if_pos rfl, if_pos (by simp)]
    · rw [if_neg ha]
      by_cases hm : g ∈ rest
      · rw [if_pos hm, if_pos (by simp [hm])]
      · rw [if_neg hm, if_neg (by simp [hm]; exact fun h => ha h.symm)]

/-- A watch entry freed, and no other (R144). -/
theorem freeWatch_watch (s : State) (w v : WatchNo) : (s.freeWatch w).watch v = if w = v then Watch.cleared else s.watch v := by
  unfold State.freeWatch
  change (s.setWatch w Watch.cleared).watch v = _
  simp

/-- The watch entries of a station freed one after the other (R146). -/
theorem freeWatches_effect (ix : StationIx) : ∀ (ws : List WatchNo) (s : State) (w : WatchNo), (w ∈ ws ∨ (s.watch w).watches ix = false) →
    ((ws.foldl (fun s w => if (s.watch w).watches ix then s.freeWatch w else s) s).watch w).watches ix = false := by
  intro ws
  induction ws with
  | nil => intro s w h; simpa using h
  | cons a rest ih =>
    intro s w h
    rw [List.foldl_cons]
    apply ih
    by_cases hm : w ∈ rest
    · exact Or.inl hm
    · right
      by_cases ha : a = w
      · subst ha
        by_cases hw : (s.watch a).watches ix = true
        · simp only [hw, if_true, freeWatch_watch]; simp [Watch.watches, Watch.cleared]
        · simp only [hw]; simpa using hw
      · rcases h with h | h
        · simp [hm] at h; exact absurd h.symm ha
        · split
          · rw [freeWatch_watch, if_neg ha]; exact h
          · exact h

/-- Freeing watches leaves the groups. -/
theorem freeWatches_groups (ix : StationIx) : ∀ (ws : List WatchNo) (s : State), (ws.foldl (fun s w => if (s.watch w).watches ix then s.freeWatch w else s) s).groups = s.groups := by
  intro ws
  induction ws with
  | nil => intro s; rfl
  | cons a rest ih =>
    intro s
    rw [List.foldl_cons, ih]
    split <;> rfl

/-- Engines that differ in their latch alone have one state, transaction and statistics. -/
theorem unlatched_eq {e d : LineEngine} (h : e.unlatched = d.unlatched) : e.state = d.state ∧ e.tx = d.tx ∧ e.stats = d.stats :=
  by
  have h1 : e.unlatched.state = d.unlatched.state := by rw [h]
  have h2 : e.unlatched.tx = d.unlatched.tx := by rw [h]
  have h3 : e.unlatched.stats = d.unlatched.stats := by rw [h]
  exact ⟨h1, h2, h3⟩

/-- A station entry without its presence latch. -/
def Station.unlatched (st : Station) : Station := { st with latch := none }

/-- A report made leaves the stations. -/
theorem unlatched_pushReport (s : State) (i b k) (ix : StationIx) : (s.pushReport i b k).station ix = s.station ix := rfl

/-- A draw touches a station's latch alone. -/
theorem unlatched_drawSource (s : State) (x : Source) (ix : StationIx) : Station.unlatched ((s.drawSource x).station ix) = Station.unlatched (s.station ix) := by
  unfold State.drawSource
  split
  · split
    · rw [unlatched_pushReport]; simp [State.onStation]; split
      · next h => subst h; rfl
      · rfl
    · rfl
  · split
    · rfl
    · rfl
  · simp only
    split
    · rfl
    · rfl

/-- Draws touch the stations' latches alone. -/
theorem unlatched_drawFrom (l : List Source) : ∀ (s : State) (ix : StationIx), Station.unlatched ((s.drawFrom l).station ix) = Station.unlatched (s.station ix) := by
  induction l with
  | nil => intro s ix; rfl
  | cons x rest ih =>
    intro s ix
    unfold State.drawFrom
    split
    · rfl
    · rw [ih, unlatched_drawSource]; rfl

/-- A source that joins the pending list touches the stations' latches alone. -/
theorem unlatched_joinSources (s : State) (x : Source) (ix : StationIx) : Station.unlatched ((s.joinSources x).station ix) = Station.unlatched (s.station ix) := by
  rw [State.joinSources, State.draw, unlatched_drawFrom]; rfl

/-- A presence report latched touches the stations' latches alone. -/
theorem unlatched_latchPresence (s : State) (ix k : StationIx) (p r) : Station.unlatched ((s.latchPresence ix p r).station k) = Station.unlatched (s.station k) := by
  unfold State.latchPresence
  split
  · rw [unlatched_joinSources]
    simp [State.onStation]; split
    · next h => subst h; rfl
    · rfl
  · simp [State.onStation]; split
    · next h => subst h; rfl
    · rfl

/-- The search for the lowest address finds an entry of the list, and none of the list is lower (R41). -/
theorem lowestAddress_mem (s : State) : ∀ (l : List StationIx) (b : Option StationIx) (ix : StationIx), l.foldl s.lowerAddress b = some ix →
    (b = some ix ∨ ix ∈ l) ∧ (∀ j ∈ l, (s.station ix).address.toNat ≤ (s.station j).address.toNat) ∧ (∀ j, b = some j → (s.station ix).address.toNat ≤ (s.station j).address.toNat) := by
  intro l
  induction l with
  | nil => intro b ix h; simp at h; subst h; simp
  | cons a rest ih =>
    intro b ix h
    rw [List.foldl_cons] at h
    obtain ⟨h1, h2, h3⟩ := ih _ _ h
    cases b with
    | none =>
      simp only [State.lowerAddress, Option.some.injEq] at h1 h3
      refine ⟨?_, ?_, by simp⟩
      · rcases h1 with h1 | h1 <;> simp [h1]
      · intro j hj; simp at hj; rcases hj with rfl | hj
        · exact h3 _ rfl
        · exact h2 j hj
    | some b =>
      simp only [State.lowerAddress] at h1 h3
      split at h1
      · next hlt =>
        simp only [if_pos hlt, Option.some.injEq] at h1 h3
        refine ⟨?_, ?_, ?_⟩
        · rcases h1 with h1 | h1 <;> simp [h1]
        · intro j hj; simp at hj; rcases hj with rfl | hj
          · exact h3 _ rfl
          · exact h2 j hj
        · intro j hj; simp at hj; subst hj; have := h3 _ rfl; omega
      · next hlt =>
        simp only [if_neg hlt, Option.some.injEq] at h1 h3
        refine ⟨?_, ?_, ?_⟩
        · rcases h1 with h1 | h1 <;> simp [h1]
        · intro j hj; simp at hj; rcases hj with rfl | hj
          · have := h3 _ rfl; omega
          · exact h2 j hj
        · intro j hj; simp at hj; subst hj; exact h3 _ rfl

/-- The search for the lowest address keeps an entry it has. -/
theorem lowestAddress_some (s : State) : ∀ (l : List StationIx) (b : StationIx), l.foldl s.lowerAddress (some b) ≠ none := by
  intro l
  induction l with
  | nil => intro b h; simp at h
  | cons a rest ih =>
    intro b
    rw [List.foldl_cons]; simp only [State.lowerAddress]
    split <;> exact ih _

/-- A poll list that is not empty holds a station. -/
theorem pollListLength_pos (s : State) (l : LineNo) : 0 < s.pollListLength l ↔ ∃ ix, s.onPollList l ix = true := by
  unfold State.pollListLength
  rw [List.countP_pos_iff]
  exact ⟨fun ⟨ix, _, h⟩ => ⟨ix, h⟩, fun ⟨ix, h⟩ => ⟨ix, List.mem_finRange ix, h⟩⟩

/-- While the RESET input is asserted only its release, another assertion and the FAULT inputs act (R188). -/
theorem exec_heldInReset (i : Instr) (s t : State) (hs : s.resetAsserted = true) (h : exec i s = .next t) :
    i = .resetRelease ∨ i = .resetAssert ∨ (∃ l, i = .faultAssert l ∨ i = .faultRelease l) ∨ t = s := by
  have fin : ∀ u, Host.Outcome.next (φ := Fault) (ρ := Refusal) u = .next t → u = s → t = s := by
    intro u hu hs; cases hu; exact hs
  have serve : ∀ f o, s.serve f o = s := by intro f o; simp [State.serve, State.takeFrame, hs]
  have out : ∀ f, s.whenOutOfReset f = s := by intro f; simp [State.whenOutOfReset, hs]
  cases i
  case resetRelease => simp
  case resetAssert => simp
  case faultAssert l => exact .inr (.inr (.inl ⟨l, .inl rfl⟩))
  case faultRelease l => exact .inr (.inr (.inl ⟨l, .inr rfl⟩))
  case unknownKind k tag b =>
      refine .inr (.inr (.inr ?_))
      change execUnknownKind k tag b s = _ at h
      unfold execUnknownKind at h
      split at h
      · exact fin _ h rfl
      · exact fin _ h (serve _ _)
  all_goals
    refine .inr (.inr (.inr (fin _ h ?_)))
    first
      | exact serve _ _
      | exact out _

end Machine

end Sys2Proof
end

