-- ==== Sys2Proof/Laws/Signal.lean ====
section
/-! SUPPORT. Lemmas about the links bit by bit: the CRC taken in bit by bit, a character sent and classed, and the receivers of both links over the bits of characters (R1, R2, R8, R13, R170, R174). -/

namespace Sys2Proof

namespace Machine

/-! ## The CRC (R8) -/

/-- One turn of the register with the bits still to come beside it is one bit taken in. -/
theorem crcBit_xor (c x : Word) : crcBit (c ^^^ x) =
    (if c.getLsbD 15 = x.getLsbD 15 then c <<< 1 else (c <<< 1) ^^^ 0x1021) ^^^ (x <<< 1) := by
  unfold crcBit
  rw [BitVec.msb_eq_getLsbD_last, BitVec.getLsbD_xor, BitVec.shiftLeft_xor_distrib]
  cases c.getLsbD 15 <;> cases x.getLsbD 15 <;> simp [BitVec.xor_assoc] <;> ac_rfl

/-- The CRC of a list with one octet more. -/
theorem crc_append (os : List Octet) (o : Octet) : crc (os ++ [o]) = crcOctet (crc os) o := by
  simp [crc]

/-! ## Characters (R1, R2) -/

/-- A class is a break exactly when every bit is space. -/
theorem classify_eq_break (c : BitVec 11) : classify c = .breakChar ↔ c = 0 := by
  unfold classify
  split <;> (try split) <;> (try split) <;> simp_all

/-! ## A receiver (R2) -/

/-- A receiver over some bit times and then over more. -/
theorem samples_append (xs ys : List Bool) : ∀ (r : DropReceiver) (time : Nat),
    r.samples time (xs ++ ys) =
      (((r.samples time xs).1.samples (time + xs.length) ys).1,
       (r.samples time xs).2 ++ ((r.samples time xs).1.samples (time + xs.length) ys).2) := by
  induction xs with
  | nil => intro r t; simp [DropReceiver.samples]
  | cons x xs ih =>
      intro r t
      simp only [List.cons_append, DropReceiver.samples, ih, List.length_cons]
      simp [Nat.add_comm 1, Nat.add_assoc]

/-- A word from its bits but the first, which is 0. -/
theorem word_of_bits (c : BitVec 11) (h : c.getLsbD 0 = false) :
    (0 : BitVec 11) ||| ((BitVec.ofBool (c.getLsbD 1)).zeroExtend 11 <<< 1)
      ||| ((BitVec.ofBool (c.getLsbD 2)).zeroExtend 11 <<< 2) ||| ((BitVec.ofBool (c.getLsbD 3)).zeroExtend 11 <<< 3)
      ||| ((BitVec.ofBool (c.getLsbD 4)).zeroExtend 11 <<< 4) ||| ((BitVec.ofBool (c.getLsbD 5)).zeroExtend 11 <<< 5)
      ||| ((BitVec.ofBool (c.getLsbD 6)).zeroExtend 11 <<< 6) ||| ((BitVec.ofBool (c.getLsbD 7)).zeroExtend 11 <<< 7)
      ||| ((BitVec.ofBool (c.getLsbD 8)).zeroExtend 11 <<< 8) ||| ((BitVec.ofBool (c.getLsbD 9)).zeroExtend 11 <<< 9)
      ||| ((BitVec.ofBool (c.getLsbD 10)).zeroExtend 11 <<< 10) = c := by
  apply BitVec.eq_of_getLsbD_eq
  intro i hi
  have : i = 0 ∨ i = 1 ∨ i = 2 ∨ i = 3 ∨ i = 4 ∨ i = 5 ∨ i = 6 ∨ i = 7 ∨ i = 8 ∨ i = 9 ∨ i = 10 := by omega
  rcases this with rfl | rfl | rfl | rfl | rfl | rfl | rfl | rfl | rfl | rfl | rfl <;>
    simp [-BitVec.getLsbD_eq_getElem, h]

/-- A receiver that is ready, over the 11 bits of a character. -/
theorem samples_character (c : BitVec 11) (start : Nat) (h : c.getLsbD 0 = false) :
    DropReceiver.ready.samples start ((List.range 11).map c.getLsbD) =
      (if c = 0 then .holdOff else .ready, [{ char := classify c, start := start, stop := start + 11 }]) := by
  have bits : List.range 11 = [0, 1, 2, 3, 4, 5, 6, 7, 8, 9, 10] := rfl
  simp only [bits, List.map, DropReceiver.samples, DropReceiver.sample, h, Bool.false_eq_true, if_false, Nat.reduceAdd,
    Nat.reduceLT, if_true]
  rw [word_of_bits c h]
  simp [classify_eq_break]

/-- A character sent is received as what it is (R1, R2). -/
theorem samples_characterBits (o : Octet) (header : Bool) (start : Nat) :
    DropReceiver.ready.samples start (characterBits o header) =
      (.ready, [{ char := if header then .header o else .body o, start := start, stop := start + 11 }]) := by
  let c : BitVec 11 := (o.zeroExtend 11 <<< 1) ||| ((BitVec.ofBool header).zeroExtend 11 <<< 9) ||| (1#11 <<< 10)
  have low : ∀ k, k < 8 → c.getLsbD (k + 1) = o.getLsbD k := by
    intro k hk
    have h1 : k + 1 < 11 := by omega
    have h2 : k + 1 < 9 := by omega
    simp [c, h1, h2]
    interval_cases k <;> simp
  have zero : c.getLsbD 0 = false := by simp [c]
  have nine : c.getLsbD 9 = header := by simp [c]
  have ten : c.getLsbD 10 = true := by simp [c]
  have data : c.extractLsb' 1 8 = o := by
    apply BitVec.eq_of_getLsbD_eq
    intro i hi
    rw [BitVec.getLsbD_extractLsb', Nat.add_comm, low i hi]
    simp [hi]
  have bits : characterBits o header = (List.range 11).map c.getLsbD := by
    have h8 : List.range 8 = [0, 1, 2, 3, 4, 5, 6, 7] := rfl
    have h11 : List.range 11 = [0, 0 + 1, 1 + 1, 2 + 1, 3 + 1, 4 + 1, 5 + 1, 6 + 1, 7 + 1, 9, 10] := rfl
    simp only [characterBits, h8, h11, List.map, zero, nine, ten, low, Nat.reduceLT, List.cons_append, List.nil_append]
  have ne : c ≠ 0 := fun h => by rw [h] at ten; simp at ten
  have class' : classify c = if header then .header o else .body o := by
    unfold classify
    rw [if_neg ne, ten, nine, data]
    rfl
  rw [bits, samples_character c start zero, if_neg ne, class']

/-! ## The host link's receiver (R170, R174) -/

/-- The host link's receiver over some bit times and then over more. -/
theorem hostSamples_append (xs ys : List Bool) : ∀ r : HostReceiver,
    r.samples (xs ++ ys) = (((r.samples xs).1.samples ys).1, (r.samples xs).2 ++ ((r.samples xs).1.samples ys).2) := by
  induction xs with
  | nil => intro r; simp [HostReceiver.samples]
  | cons x xs ih => intro r; simp [HostReceiver.samples, ih]

/-- A word of ten bits from its bits but the first, which is 0. -/
theorem hostWord_of_bits (c : BitVec 10) (h : c.getLsbD 0 = false) :
    (0 : BitVec 10) ||| ((BitVec.ofBool (c.getLsbD 1)).zeroExtend 10 <<< 1)
      ||| ((BitVec.ofBool (c.getLsbD 2)).zeroExtend 10 <<< 2) ||| ((BitVec.ofBool (c.getLsbD 3)).zeroExtend 10 <<< 3)
      ||| ((BitVec.ofBool (c.getLsbD 4)).zeroExtend 10 <<< 4) ||| ((BitVec.ofBool (c.getLsbD 5)).zeroExtend 10 <<< 5)
      ||| ((BitVec.ofBool (c.getLsbD 6)).zeroExtend 10 <<< 6) ||| ((BitVec.ofBool (c.getLsbD 7)).zeroExtend 10 <<< 7)
      ||| ((BitVec.ofBool (c.getLsbD 8)).zeroExtend 10 <<< 8) ||| ((BitVec.ofBool (c.getLsbD 9)).zeroExtend 10 <<< 9) = c := by
  apply BitVec.eq_of_getLsbD_eq
  intro i hi
  have : i = 0 ∨ i = 1 ∨ i = 2 ∨ i = 3 ∨ i = 4 ∨ i = 5 ∨ i = 6 ∨ i = 7 ∨ i = 8 ∨ i = 9 := by omega
  rcases this with rfl | rfl | rfl | rfl | rfl | rfl | rfl | rfl | rfl | rfl <;>
    simp [-BitVec.getLsbD_eq_getElem, h]

/-- The host link's receiver, ready, over the ten bits of a character: its octet and its stop bit, and no start bit after a break
before the input has been at mark (R174). -/
theorem hostSamples_character (c : BitVec 10) (h : c.getLsbD 0 = false) :
    HostReceiver.ready.samples ((List.range 10).map c.getLsbD) =
      (if c = 0 then .holdOff else .ready, [(c.extractLsb' 1 8, c.getLsbD 9)]) := by
  have bits : List.range 10 = [0, 1, 2, 3, 4, 5, 6, 7, 8, 9] := rfl
  simp only [bits, List.map, HostReceiver.samples, HostReceiver.sample, h, Bool.false_eq_true, if_false, Nat.reduceAdd,
    Nat.reduceLT, if_true]
  rw [hostWord_of_bits c h]
  rfl

/-- The host link's input in a bit time that ends no character: the gap is a failure when it exceeds 3 character times with no start
bit begun (R174). -/
theorem hostHear_quiet (s : State) (i : HostInput) (time : Nat) (level : Bool) (hr : s.resetAsserted = false)
    (h : (i.receiver.sample level).2 = none) :
    s.hostHear i time level =
      ({ receiver := (i.receiver.sample level).1,
         ended := if (i.receiver.sample level).1 = .holdOff then time + 1 else i.ended },
       if (i.receiver.sample level).1 = .ready && s.rx != .hunt && hostGapFails (time + 1 - i.ended) then some .hostGapTimeout
       else none) := by
  simp only [State.hostHear, hr, Bool.false_eq_true, if_false, h]

/-- The host link's input in the bit time that ends a character: that character is the command, and the gap begins anew (R173, R174). -/
theorem hostHear_character (s : State) (i : HostInput) (time : Nat) (level : Bool) (o : Octet) (mark : Bool)
    (hr : s.resetAsserted = false) (h : (i.receiver.sample level).2 = some (o, mark)) :
    s.hostHear i time level =
      ({ receiver := (i.receiver.sample level).1, ended := time + 1 }, some (.hostCharacter o mark)) := by
  simp only [State.hostHear, hr, Bool.false_eq_true, if_false, h]

end Machine

end Sys2Proof
end

