-- ==== Sys2Proof/Laws/Tables.lean ====
section
/-! SUPPORT. What the shared operations may do to the tables: each names no entry anew, keeps the group lists, the numbers,
the passes, the latches with the pending list, and the report list in order. -/

namespace Sys2Proof

namespace Machine

/-- What an operation of the drop side may do to the tables: it makes no entry and renames none, and keeps the group lists, the
numbers, the passes, the latches with their places in the pending list, and the report list in order. -/
structure Booked (s t : State) : Prop where
  names : ∀ ix, (t.station ix).state ≠ .free →
    (s.station ix).state ≠ .free ∧ (t.station ix).line = (s.station ix).line ∧ (t.station ix).address = (s.station ix).address
  members : s.MembersListed → t.MembersListed
  numbers : s.RecordsBounded → s.NumbersDistinct → t.NumbersDistinct
  passes : s.PassesQueued → t.PassesQueued
  latches : s.SourcesLatched → t.SourcesLatched
  reports : s.ReportsInOrder → t.ReportsInOrder
  records : s.RecordsBounded → t.RecordsBounded

/-- Such a change that leaves every station in its state too. -/
structure Filed (s t : State) : Prop extends Booked s t where
  states : ∀ ix, (t.station ix).state = (s.station ix).state

theorem Booked.refl (s : State) : Booked s s := ⟨fun _ h => ⟨h, rfl, rfl⟩, id, fun _ => id, id, id, id, id⟩

theorem Booked.trans {s t u : State} (h : Booked s t) (k : Booked t u) : Booked s u :=
  ⟨fun ix hu => have ⟨a, b, c⟩ := k.names ix hu
     have ⟨d, e, f⟩ := h.names ix a
     ⟨d, b.trans e, c.trans f⟩,
   k.members ∘ h.members, fun r => k.numbers (h.records r) ∘ h.numbers r, k.passes ∘ h.passes, k.latches ∘ h.latches,
   k.reports ∘ h.reports, k.records ∘ h.records⟩

theorem Filed.refl (s : State) : Filed s s := ⟨Booked.refl s, fun _ => rfl⟩

theorem Filed.trans {s t u : State} (h : Filed s t) (k : Filed t u) : Filed s u :=
  ⟨h.toBooked.trans k.toBooked, fun ix => (k.states ix).trans (h.states ix)⟩

theorem Booked.foldl {α : Type} (f : State → α → State) (h : ∀ s a, Booked s (f s a)) (as : List α) (s : State) :
    Booked s (as.foldl f s) := by
  induction as generalizing s with
  | nil => exact Booked.refl s
  | cons a as ih => exact (h s a).trans (ih (f s a))

theorem Filed.foldl {α : Type} (f : State → α → State) (h : ∀ s a, Filed s (f s a)) (as : List α) (s : State) :
    Filed s (as.foldl f s) := by
  induction as generalizing s with
  | nil => exact Filed.refl s
  | cons a as ih => exact (h s a).trans (ih (f s a))

/-! ## Setters -/

/-- An entry written with its line, address and latch as they were, neither made, freed nor set RETIRING. -/
theorem booked_setStation (s : State) (ix : StationIx) (st : Station) (hl : st.line = (s.station ix).line)
    (ha : st.address = (s.station ix).address) (hp : st.latch = (s.station ix).latch)
    (hf : st.state ≠ .free → (s.station ix).state ≠ .free)
    (hr : st.state = .free ∨ st.state = .retiring → (s.station ix).state = .free ∨ (s.station ix).state = .retiring) :
    Booked s (s.setStation ix st) := by
  refine ⟨fun j hj => ?_, id, fun _ => id, id, ?_, id, id⟩
  · by_cases h : ix = j
    · subst h
      simp only [station_setStation, if_true] at hj ⊢
      exact ⟨hf hj, hl, ha⟩
    · simp only [station_setStation, if_neg h] at hj ⊢
      exact ⟨hj, trivial, trivial⟩
  · rintro ⟨h1, h2, h3⟩
    refine ⟨h1, fun x => (h2 x).trans ?_, fun j hj => ?_⟩
    · cases x with
      | station j =>
        by_cases h : ix = j
        · subst h; simp [State.latched, hp]
        · simp [State.latched, h]
      | line l => exact Iff.rfl
      | watch w => exact Iff.rfl
    · by_cases h : ix = j
      · subst h
        simp only [station_setStation, if_true] at hj ⊢
        rw [hp]; exact h3 _ (hr hj)
      · simp only [station_setStation, if_neg h] at hj ⊢
        exact h3 _ hj

/-- An entry changed in none of its line, address, latch and state. -/
theorem filed_setStation (s : State) (ix : StationIx) (st : Station) (hl : st.line = (s.station ix).line)
    (ha : st.address = (s.station ix).address) (hp : st.latch = (s.station ix).latch)
    (hs : st.state = (s.station ix).state) : Filed s (s.setStation ix st) := by
  refine ⟨booked_setStation s ix st hl ha hp (by rw [hs]; exact id) (by rw [hs]; exact id), fun j => ?_⟩
  by_cases h : ix = j
  · subst h; simpa using hs
  · simp [h]

theorem filed_onStation (s : State) (ix : StationIx) (f : Station → Station) (hl : ∀ st, (f st).line = st.line)
    (ha : ∀ st, (f st).address = st.address) (hp : ∀ st, (f st).latch = st.latch) (hs : ∀ st, (f st).state = st.state) :
    Filed s (s.onStation ix f) :=
  filed_setStation s ix _ (hl _) (ha _) (hp _) (hs _)

/-- An entry in use enters another state of use. -/
theorem booked_onStation (s : State) (ix : StationIx) (f : Station → Station) (hl : ∀ st, (f st).line = st.line)
    (ha : ∀ st, (f st).address = st.address) (hp : ∀ st, (f st).latch = st.latch) (hf : (s.station ix).state ≠ .free)
    (hr : (f (s.station ix)).state ≠ .free ∧ (f (s.station ix)).state ≠ .retiring) : Booked s (s.onStation ix f) :=
  booked_setStation s ix _ (hl _) (ha _) (hp _) (fun _ => hf) fun h => by
    rcases h with h | h
    · exact absurd h hr.1
    · exact absurd h hr.2

/-- An entry cleared that has nothing latched. -/
theorem booked_clearStation (s : State) (ix : StationIx) (h : (s.station ix).latch = none) :
    Booked s (s.setStation ix Station.cleared) := by
  refine ⟨fun j hj => ?_, id, fun _ => id, id, ?_, id, id⟩
  · by_cases h : ix = j
    · subst h; simp [Station.cleared] at hj
    · simp only [station_setStation, if_neg h] at hj ⊢
      exact ⟨hj, trivial, trivial⟩
  · rintro ⟨h1, h2, h3⟩
    refine ⟨h1, fun x => (h2 x).trans ?_, fun j hj => ?_⟩
    · cases x with
      | station j =>
        by_cases k : ix = j
        · subst k; simp [State.latched, Station.cleared, h]
        · simp [State.latched, k]
      | line l => exact Iff.rfl
      | watch w => exact Iff.rfl
    · by_cases k : ix = j
      · subst k; simp [Station.cleared]
      · simp only [station_setStation, if_neg k] at hj ⊢
        exact h3 _ hj

theorem filed_setGroup (s : State) (g : GroupNo) (gr : Group)
    (h : (s.group g).members.length ≤ Config.membersPerGroup ∧ ((s.group g).members.map fun m => m.station.index).Nodup →
      gr.members.length ≤ Config.membersPerGroup ∧ (gr.members.map fun m => m.station.index).Nodup) :
    Filed s (s.setGroup g gr) := by
  refine ⟨⟨fun _ h => ⟨h, rfl, rfl⟩, fun k a => ?_, fun _ => id, id, id, id, id⟩, fun _ => rfl⟩
  by_cases e : g = a
  · subst e; simpa using h (k g)
  · simpa [e] using k a

/-- An engine changed but for its line report latch. -/
theorem filed_setEngine (s : State) (l : LineNo) (e : LineEngine) (h : e.latch = (s.engine l).latch) : Filed s (s.setEngine l e) := by
  refine ⟨⟨fun _ h => ⟨h, rfl, rfl⟩, id, fun _ => id, id, ?_, id, id⟩, fun _ => rfl⟩
  rintro ⟨h1, h2, h3⟩
  refine ⟨h1, fun x => (h2 x).trans ?_, h3⟩
  cases x with
  | station j => exact Iff.rfl
  | line m =>
    by_cases k : l = m
    · subst k; simp [State.latched, h]
    · simp [State.latched, k]
  | watch w => exact Iff.rfl

theorem filed_onEngine (s : State) (l : LineNo) (f : LineEngine → LineEngine) (h : ∀ e, (f e).latch = e.latch) :
    Filed s (s.onEngine l f) := filed_setEngine s l _ (h _)

/-- Time that passes leaves every table and every latch as it is (R183). -/
theorem filed_elapse (s : State) (n : Nat) : Filed s (s.elapse n) := by
  have hl : (s.elapse n).latched = s.latched := by
    funext x; cases x <;> simp [State.latched, LineEngine.elapse]
  refine ⟨⟨fun _ h => ⟨h, rfl, rfl⟩, id, fun _ => id, id, ?_, id, id⟩, fun _ => rfl⟩
  rintro ⟨h1, h2, h3⟩
  exact ⟨h1, fun x => by rw [hl]; exact h2 x, h3⟩

/-! ## Numbers and passes -/

theorem NumbersDistinct.of_sublist {s t : State} (ho : t.orderNumbers.Sublist s.orderNumbers)
    (hd : (t.deliveries.map Delivery.number).Sublist (s.deliveries.map Delivery.number)) (hc : t.orderCounter = s.orderCounter)
    (h : s.NumbersDistinct) : t.NumbersDistinct :=
  ⟨h.1.sublist (ho.append hd), fun k => h.2.1 (ho.subset k), fun k => h.2.2.1 (hd.subset k), hc ▸ h.2.2.2⟩

/-- A change of the order and delivery records alone. -/
theorem filed_records {s : State} (orders : List OrderRecord) (deliveries : List Delivery)
    (ho : (({ s with orders := orders, deliveries := deliveries } : State).orderNumbers).Sublist s.orderNumbers)
    (hd : (deliveries.map Delivery.number).Sublist (s.deliveries.map Delivery.number))
    (hp : s.PassesQueued → ∀ r ∈ orders, r.kind = .groupPass → (r.state = .queued ↔ r.passStep = none))
    (hl : orders.length ≤ s.orders.length) : Filed s { s with orders := orders, deliveries := deliveries } := by
  refine ⟨⟨fun _ h => ⟨h, rfl, rfl⟩, id, fun _ => NumbersDistinct.of_sublist ho hd rfl, hp, id, id, fun h => ⟨hl.trans h.1, ?_⟩⟩, fun _ => rfl⟩
  have := hd.length_le
  simp only [List.length_map] at this
  exact this.trans h.2

theorem orderNumbers_map (orders : List OrderRecord) (f : OrderRecord → OrderRecord) (hk : ∀ r, (f r).kind = r.kind)
    (hn : ∀ r, (f r).number = r.number) :
    ((orders.map f).filter fun r => r.kind != .groupPass).map OrderRecord.number =
      (orders.filter fun r => r.kind != .groupPass).map OrderRecord.number := by
  rw [List.filter_map, List.map_map]
  have e1 : (fun r : OrderRecord => r.kind != .groupPass) ∘ f = fun r => r.kind != .groupPass := by funext r; simp [hk]
  have e2 : OrderRecord.number ∘ f = OrderRecord.number := by funext r; exact hn r
  rw [e1, e2]

theorem filed_updateOrder (s : State) (n : Word) (f : OrderRecord → OrderRecord) (hk : ∀ r, (f r).kind = r.kind)
    (hn : ∀ r, (f r).number = r.number) : Filed s (s.updateOrder n f) := by
  refine filed_records _ s.deliveries ?_ (List.Sublist.refl _) ?_ (by simp)
  · unfold State.orderNumbers
    rw [orderNumbers_map _ _ (fun r => by split <;> simp [hk]) (fun r => by split <;> simp [hn])]
  · intro h r hr
    obtain ⟨q, hq, rfl⟩ := List.mem_map.mp hr
    split
    · next hx =>
      intro hp
      rw [hk] at hp
      simp [OrderRecord.named, hp] at hx
    · exact h q hq

theorem filed_updatePass (s : State) (n : Word) (l : LineNo) (f : OrderRecord → OrderRecord) (hk : ∀ r, (f r).kind = r.kind)
    (hn : ∀ r, (f r).number = r.number) (hq : ∀ r, (f r).state = .queued ↔ (f r).passStep = none) : Filed s (s.updatePass n l f) := by
  refine filed_records _ s.deliveries ?_ (List.Sublist.refl _) ?_ (by simp)
  · unfold State.orderNumbers
    rw [orderNumbers_map _ _ (fun r => by split <;> simp [hk]) (fun r => by split <;> simp [hn])]
  · intro h r hr
    obtain ⟨q, hm, rfl⟩ := List.mem_map.mp hr
    split
    · exact fun _ => hq q
    · exact h q hm

theorem filed_updateDelivery (s : State) (n : Word) (f : Delivery → Delivery) (hn : ∀ d, (f d).number = d.number) :
    Filed s (s.updateDelivery n f) := by
  refine filed_records s.orders _ (List.Sublist.refl _) ?_ id (le_refl _)
  rw [List.map_map]
  have : Delivery.number ∘ (fun d => if d.number = n then f d else d) = Delivery.number := by
    funext d; simp only [Function.comp]; split <;> simp [hn]
  rw [this]

theorem filed_filterOrders (s : State) (p : OrderRecord → Bool) : Filed s { s with orders := s.orders.filter p } :=
  filed_records _ s.deliveries (((List.filter_sublist).filter _).map _) (List.Sublist.refl _)
    (fun h r hr => h r (List.mem_of_mem_filter hr)) (List.length_filter_le _ _)

theorem filed_removeOrder (s : State) (n : Word) : Filed s (s.removeOrder n) :=
  filed_records _ s.deliveries (((List.eraseP_sublist).filter _).map _) (List.Sublist.refl _)
    (fun h r hr => h r (List.mem_of_mem_eraseP hr)) (List.eraseP_sublist).length_le

theorem filed_eraseDelivery (s : State) (p : Delivery → Bool) : Filed s { s with deliveries := s.deliveries.eraseP p } :=
  filed_records s.orders _ (List.Sublist.refl _) ((List.eraseP_sublist).map _) id (le_refl _)

/-! ## Reports -/

/-- A report joins the tail of a list in order (R155, R158). -/
theorem inOrder_pushReport (s : State) (i : ReportItems) (b : List Nat) (k : Nat) (h : s.ReportsInOrder) :
    (s.pushReport i b k).ReportsInOrder := by
  obtain ⟨h1, h2, h3, h4⟩ := h
  refine ⟨?_, ?_, ?_, ?_⟩
  · simp only [State.pushReport, List.pairwise_append, List.pairwise_singleton, List.mem_singleton, true_and]
    refine ⟨h1, ?_⟩
    rintro a _ b rfl; simp
  · have : (s.pushReport i b k).windowUsed = s.windowUsed := by
      simp [State.windowUsed, State.sentCount, State.pushReport, List.countP_append]
    rw [this]; exact h2
  · intro j r hj
    simp only [State.pushReport, List.length_append, List.length_singleton] at hj ⊢
    rcases lt_trichotomy j s.reports.length with hlt | heq | hgt
    · rw [List.getElem?_append_left hlt] at hj
      rw [h3 j r hj]
      have : s.reports.length + 1 - j = (s.reports.length - j) + 1 := by omega
      rw [this]
      simp only [octet]
      rw [BitVec.ofNat_add]
      generalize (BitVec.ofNat 8 (s.reports.length - j)) = x
      generalize s.reportCounter = c
      change c - x = c + 1 - (x + 1)
      bv_omega
    · subst heq
      simp at hj
      subst hj
      simp only [Nat.add_sub_cancel_left, octet]
      generalize s.reportCounter = c
      change c = c + 1 - 1
      bv_omega
    · rw [List.getElem?_append_right hgt.le] at hj
      have : j - s.reports.length ≠ 0 := by omega
      obtain ⟨m, hm⟩ := Nat.exists_eq_succ_of_ne_zero this
      simp [hm] at hj
  · intro n hn
    obtain ⟨r, hr, hrn⟩ := h4 n hn
    refine ⟨r, ?_, hrn⟩
    simp only [State.pushReport, List.find?_append, hr, Option.some_or]

theorem filed_pushReport (s : State) (i : ReportItems) (b : List Nat) (k : Nat) : Filed s (s.pushReport i b k) :=
  ⟨⟨fun _ h => ⟨h, rfl, rfl⟩, id, fun _ => id, id, id, inOrder_pushReport s i b k, id⟩, fun _ => rfl⟩

theorem filed_fillReservation (s : State) (i : ReportItems) (b : List Nat) (k : Nat) : Filed s (s.fillReservation i b k) :=
  Filed.trans (t := { s with reserved := s.reserved - 1 })
    ⟨⟨fun _ h => ⟨h, rfl, rfl⟩, id, fun _ => id, id, id, id, id⟩, fun _ => rfl⟩ (filed_pushReport _ i b k)

theorem filed_pool (s : State) (m : Memory) : Filed s { s with pool := m } :=
  ⟨⟨fun _ h => ⟨h, rfl, rfl⟩, id, fun _ => id, id, id, id, id⟩, fun _ => rfl⟩

/-! ## Draws and latches -/

theorem unlatched_station_eq {a b : Station} (h : a.unlatched = b.unlatched) :
    a.line = b.line ∧ a.address = b.address ∧ a.state = b.state := by
  have h1 : a.unlatched.line = b.unlatched.line := by rw [h]
  have h2 : a.unlatched.address = b.unlatched.address := by rw [h]
  have h3 : a.unlatched.state = b.unlatched.state := by rw [h]
  exact ⟨h1, h2, h3⟩

theorem latched_pushReport (s : State) (i : ReportItems) (b : List Nat) (k : Nat) (y : Source) :
    (s.pushReport i b k).latched y ↔ s.latched y := by cases y <;> exact Iff.rfl

/-- A full latch drawn is empty after, and no other latch changes (R59, R53, R141). -/
theorem latched_drawSource (s : State) (x y : Source) (hx : s.latched x) : (s.drawSource x).latched y ↔ s.latched y ∧ y ≠ x := by
  cases x with
  | station ix =>
    obtain ⟨latch, hl⟩ := Option.isSome_iff_exists.mp hx
    simp only [State.drawSource, hl, latched_pushReport]
    cases y with
    | station j =>
      by_cases hj : ix = j
      · subst hj; simp [State.latched]
      · simp [State.latched, hj, Ne.symm hj]
    | line l => simp [State.latched]
    | watch w => simp [State.latched]
  | line l =>
    obtain ⟨latch, hl⟩ := Option.isSome_iff_exists.mp hx
    simp only [State.drawSource, hl, latched_pushReport]
    cases y with
    | line j =>
      by_cases hj : l = j
      · subst hj; simp [State.latched]
      · simp [State.latched, hj, Ne.symm hj]
    | station ix => simp [State.latched]
    | watch w => simp [State.latched]
  | watch w =>
    obtain ⟨hit, hl⟩ := Option.isSome_iff_exists.mp hx
    simp only [State.drawSource, hl, latched_pushReport]
    cases y with
    | watch j =>
      by_cases hj : w = j
      · subst hj; simp [State.latched]
      · simp [State.latched, hj, Ne.symm hj]
    | station ix => simp [State.latched]
    | line l => simp [State.latched]

/-- A draw leaves the group lists, the numbers, the passes and the records as they are, and the report list in order. -/
theorem drawSource_records (s : State) (x : Source) : (s.drawSource x).groups = s.groups ∧ (s.drawSource x).orders = s.orders ∧
    (s.drawSource x).deliveries = s.deliveries ∧ (s.drawSource x).orderCounter = s.orderCounter ∧
    (s.ReportsInOrder → (s.drawSource x).ReportsInOrder) := by
  cases x <;> simp only [State.drawSource] <;> split
  all_goals first
    | exact ⟨rfl, rfl, rfl, rfl, id⟩
    | exact ⟨rfl, rfl, rfl, rfl, fun h => inOrder_pushReport _ _ _ _ h⟩

theorem numbersDistinct_congr {s t : State} (ho : t.orders = s.orders) (hd : t.deliveries = s.deliveries)
    (hc : t.orderCounter = s.orderCounter) (h : s.NumbersDistinct) : t.NumbersDistinct := by
  unfold State.NumbersDistinct State.orderNumbers at *; rw [ho, hd, hc]; exact h

/-- The head of the pending list drawn: it leaves the list and its latch together (R161). -/
theorem filed_drawHead (s : State) (x : Source) (rest : List Source) (h : s.sources = x :: rest) :
    Filed s ({ s with sources := rest }.drawSource x) := by
  generalize hu : ({ s with sources := rest } : State) = u
  have hst : ∀ ix, ((u.drawSource x).station ix).line = (s.station ix).line ∧
      ((u.drawSource x).station ix).address = (s.station ix).address ∧ ((u.drawSource x).station ix).state = (s.station ix).state := by
    intro ix
    have := unlatched_station_eq (unlatched_drawSource u x ix)
    subst hu; exact this
  have hl : ∀ y, u.latched y ↔ s.latched y := by intro y; subst hu; cases y <;> exact Iff.rfl
  have hsrc : (u.drawSource x).sources = rest := by rw [drawSource_sources]; subst hu; rfl
  obtain ⟨hg, ho, hd, hc, hr⟩ := drawSource_records u x
  have hg' : (u.drawSource x).groups = s.groups := by subst hu; exact hg
  have ho' : (u.drawSource x).orders = s.orders := by subst hu; exact ho
  have hd' : (u.drawSource x).deliveries = s.deliveries := by subst hu; exact hd
  have hc' : (u.drawSource x).orderCounter = s.orderCounter := by subst hu; exact hc
  have hr' : s.ReportsInOrder → (u.drawSource x).ReportsInOrder := by subst hu; exact hr
  refine ⟨⟨fun ix k => ⟨(hst ix).2.2 ▸ k, (hst ix).1, (hst ix).2.1⟩, ?_, fun _ => numbersDistinct_congr ho' hd' hc', ?_, ?_, hr', ?_⟩,
    fun ix => (hst ix).2.2⟩
  · intro k; unfold State.MembersListed State.group at *; rw [hg']; exact k
  · intro k; unfold State.PassesQueued at *; rw [ho']; exact k
  · rintro ⟨h1, h2, h3⟩
    rw [h, List.nodup_cons] at h1
    have hx : u.latched x := (hl x).mpr ((h2 x).mp (by rw [h]; exact List.mem_cons_self))
    have key : ∀ y, (u.drawSource x).latched y ↔ s.latched y ∧ y ≠ x := fun y => by
      rw [latched_drawSource u x y hx, hl]
    refine ⟨by rw [hsrc]; exact h1.2, fun y => ?_, fun ix hix => ?_⟩
    · rw [hsrc, key]
      have := h2 y
      rw [h, List.mem_cons] at this
      exact ⟨fun hy => ⟨this.mp (Or.inr hy), fun e => h1.1 (e ▸ hy)⟩, fun ⟨hy, hne⟩ => (this.mpr hy).resolve_left hne⟩
    · rw [(hst ix).2.2] at hix
      have hn := h3 ix hix
      have := mt (key (.station ix)).mp (fun k => by have := k.1; simp [State.latched, hn] at this)
      simpa [State.latched] using this
  · intro k; unfold State.RecordsBounded at *; rw [ho', hd']; exact k

theorem filed_drawFrom (l : List Source) : ∀ s : State, s.sources = l → Filed s (s.drawFrom l) := by
  induction l with
  | nil => exact fun s _ => Filed.refl s
  | cons x rest ih =>
    intro s h
    simp only [State.drawFrom]
    split
    · exact Filed.refl s
    · exact (filed_drawHead s x rest h).trans (ih _ (drawSource_sources _ x))

theorem filed_draw (s : State) : Filed s s.draw := filed_drawFrom s.sources s rfl

/-- An empty latch filled, with its source at the pending list's tail, before the draw (R159). -/
theorem latches_filled {s t : State} (x : Source) (hs : s.sources = t.sources) (hx : ¬ s.latched x)
    (hl : ∀ y, t.latched y ↔ s.latched y ∨ y = x)
    (hf : ∀ ix, (t.station ix).state = .free ∨ (t.station ix).state = .retiring →
      ((s.station ix).state = .free ∨ (s.station ix).state = .retiring) ∧ (t.station ix).latch = (s.station ix).latch)
    (h : s.SourcesLatched) : ({ t with sources := t.sources ++ [x] } : State).SourcesLatched := by
  obtain ⟨h1, h2, h3⟩ := h
  have hl' : ∀ y, ({ t with sources := t.sources ++ [x] } : State).latched y ↔ s.latched y ∨ y = x := by
    intro y; rw [← hl y]; cases y <;> exact Iff.rfl
  refine ⟨?_, fun y => ?_, fun ix k => ?_⟩
  · show (t.sources ++ [x]).Nodup
    rw [← hs]
    refine List.nodup_append'.mpr ⟨h1, List.nodup_singleton x, ?_⟩
    intro y hy hyx
    rw [List.mem_singleton] at hyx
    exact hx ((h2 x).mp (hyx ▸ hy))
  · rw [hl', ← h2 y]
    show y ∈ t.sources ++ [x] ↔ _
    rw [← hs, List.mem_append, List.mem_singleton]
  · obtain ⟨a, b⟩ := hf ix k
    exact b.trans (h3 ix a)

/-- A presence report latched for an entry in use (R58). -/
theorem filed_latchPresence (s : State) (ix : StationIx) (p : Presence) (r : Bool)
    (hu : (s.station ix).state ≠ .free ∧ (s.station ix).state ≠ .retiring) : Filed s (s.latchPresence ix p r) := by
  unfold State.latchPresence
  split
  · next hn =>
    refine Filed.trans (t := { (s.onStation ix fun st =>
        { st with latch := some { presence := p, changeCount := 1, restarted := r, time := s.partTime } }) with
          sources := s.sources ++ [.station ix] }) ?_ (filed_draw _)
    generalize hf : (fun st : Station => { st with latch := some { presence := p, changeCount := 1, restarted := r, time := s.partTime } }) = f
    have hk : ∀ j, ((s.onStation ix f).station j).line = (s.station j).line ∧ ((s.onStation ix f).station j).address = (s.station j).address ∧
        ((s.onStation ix f).station j).state = (s.station j).state := by
      intro j
      subst hf
      by_cases h : ix = j
      · subst h; simp
      · simp [h]
    refine ⟨⟨fun j k => ⟨(hk j).2.2 ▸ k, (hk j).1, (hk j).2.1⟩, id, fun _ => id, id, ?_, id, id⟩, fun j => (hk j).2.2⟩
    refine latches_filled (s := s) (t := s.onStation ix f) (.station ix) rfl (by simp [State.latched, hn]) ?_ ?_
    · intro y
      subst hf
      cases y with
      | station j =>
        by_cases h : ix = j
        · subst h; simp [State.latched]
        · simp [State.latched, h, Ne.symm h]
      | line l => simp [State.latched]
      | watch w => simp [State.latched]
    · intro j k
      rw [(hk j).2.2] at k
      refine ⟨k, ?_⟩
      by_cases h : ix = j
      · subst h; exact absurd k (by simp [hu])
      · simp [h]
  · next old hn =>
    refine ⟨⟨fun j k => ?_, id, fun _ => id, id, ?_, id, id⟩, fun j => ?_⟩
    · by_cases h : ix = j
      · subst h; simpa using k
      · simpa [h] using k
    · rintro ⟨h1, h2, h3⟩
      refine ⟨h1, fun x => (h2 x).trans ?_, fun j k => ?_⟩
      · cases x with
        | station j =>
          by_cases h : ix = j
          · subst h; simp [State.latched, hn]
          · simp [State.latched, h]
        | line l => exact Iff.rfl
        | watch w => exact Iff.rfl
      · by_cases h : ix = j
        · subst h; exact absurd (by simpa using k) (by simp [hu])
        · simp only [station_onStation, if_neg h] at k ⊢
          exact h3 j k
    · by_cases h : ix = j
      · subst h; simp
      · simp [h]

/-- A line report latched (R53). -/
theorem filed_latchLine (s : State) (l : LineNo) (c : LineCondition) (k : LineCause) : Filed s (s.latchLine l c k) := by
  unfold State.latchLine
  split
  · next hn =>
    refine Filed.trans (t := { (s.onEngine l fun e =>
        { e with latch := some { condition := c, cause := k, time := s.partTime, changeCount := 1 } }) with
          sources := s.sources ++ [.line l] }) ?_ (filed_draw _)
    refine ⟨⟨fun _ h => ⟨h, rfl, rfl⟩, id, fun _ => id, id, ?_, id, id⟩, fun _ => rfl⟩
    refine latches_filled (s := s) (t := s.onEngine l _) (.line l) rfl (by simp [State.latched, hn]) ?_ fun _ h => ⟨h, rfl⟩
    intro y
    cases y with
    | line j =>
      by_cases h : l = j
      · subst h; simp [State.latched]
      · simp [State.latched, h, Ne.symm h]
    | station ix => simp [State.latched]
    | watch w => simp [State.latched]
  · next old hn =>
    refine ⟨⟨fun _ h => ⟨h, rfl, rfl⟩, id, fun _ => id, id, ?_, id, id⟩, fun _ => rfl⟩
    rintro ⟨h1, h2, h3⟩
    refine ⟨h1, fun x => (h2 x).trans ?_, h3⟩
    cases x with
    | line j =>
      by_cases h : l = j
      · subst h; simp [State.latched, hn]
      · simp [State.latched, h]
    | station ix => exact Iff.rfl
    | watch w => exact Iff.rfl

/-- A watch entry written with a hit where it had one, and with none where it had none. -/
theorem filed_setWatch (s : State) (w : WatchNo) (e : Watch) (h : e.hit.isSome = (s.watch w).hit.isSome) : Filed s (s.setWatch w e) := by
  refine ⟨⟨fun _ h => ⟨h, rfl, rfl⟩, id, fun _ => id, id, ?_, id, id⟩, fun _ => rfl⟩
  rintro ⟨h1, h2, h3⟩
  refine ⟨h1, fun x => (h2 x).trans ?_, h3⟩
  cases x with
  | watch v =>
    by_cases k : w = v
    · subst k; simp [State.latched, h]
    · simp [State.latched, k]
  | station ix => exact Iff.rfl
  | line l => exact Iff.rfl

/-- A watch entry written with no hit, and its place in the pending list gone with the one it had (R160). -/
theorem filed_unhitWatch (s : State) (w : WatchNo) (e : Watch) (h : e.hit = none) : Filed s ((s.setWatch w e).dropSource (.watch w)) := by
  refine ⟨⟨fun _ h => ⟨h, rfl, rfl⟩, id, fun _ => id, id, ?_, id, id⟩, fun _ => rfl⟩
  rintro ⟨h1, h2, h3⟩
  refine ⟨h1.filter _, fun x => ?_, h3⟩
  show x ∈ s.sources.filter (fun y => y != .watch w) ↔ _
  rw [List.mem_filter, h2 x]
  cases x with
  | watch v =>
    show (s.watch v).hit.isSome = true ∧ _ ↔ ((s.setWatch w e).watch v).hit.isSome = true
    by_cases k : w = v
    · subst k; simp [h]
    · simp [k, Ne.symm k]
  | station ix => simp [State.latched, State.dropSource]; rfl
  | line l => simp [State.latched, State.dropSource]; rfl

theorem filed_freeWatch (s : State) (w : WatchNo) : Filed s (s.freeWatch w) := filed_unhitWatch s w _ rfl

theorem filed_freeWatches (s : State) (ix : StationIx) : Filed s (s.freeWatches ix) := by
  refine Filed.foldl _ (fun s w => ?_) _ s
  split
  · exact filed_freeWatch s w
  · exact Filed.refl s

/-- One watch entry judged (R139, R140). -/
theorem filed_judgeWatch (s : State) (ix : StationIx) (b : Option Word) (word : Word) (t : PartTime) (w : WatchNo) :
    Filed s (s.judgeWatch ix b word t w) := by
  unfold State.judgeWatch
  simp only
  split
  · split
    · next hit hh => exact filed_setWatch s w _ (by simp [hh])
    · next hn =>
      refine Filed.trans (t := { (s.setWatch w { s.watch w with
          state := .pending, hit := some { previous := b, matching := word, latest := word, repeats := 0, time := t } }) with
            sources := s.sources ++ [.watch w] }) ?_ (filed_draw _)
      refine ⟨⟨fun _ h => ⟨h, rfl, rfl⟩, id, fun _ => id, id, ?_, id, id⟩, fun _ => rfl⟩
      refine latches_filled (s := s) (t := s.setWatch w _) (.watch w) rfl (by simp [State.latched, hn]) ?_ fun _ h => ⟨h, rfl⟩
      intro y
      cases y with
      | watch j =>
        by_cases h : w = j
        · subst h; simp [State.latched]
        · simp [State.latched, h, Ne.symm h]
      | station ix => simp [State.latched]
      | line l => simp [State.latched]
  · exact Filed.refl s

theorem filed_judgeWatches (s : State) (ix : StationIx) (b : Option Word) (word : Word) (t : PartTime) :
    Filed s (s.judgeWatches ix b word t) :=
  Filed.foldl _ (fun s w => filed_judgeWatch s ix b word t w) _ s

/-! ## Groups and deliveries -/

theorem filed_clearLapsed (s : State) (ix : StationIx) (g : GroupNo) : Filed s (s.clearLapsed ix g) := by
  unfold State.clearLapsed
  exact filed_onStation s ix _ (by exact fun _ => rfl) (by exact fun _ => rfl) (by exact fun _ => rfl) (by exact fun _ => rfl)

theorem indices_withState (gr : Group) (ix : StationIx) (st : MemberState) :
    (gr.withState ix st).members.map (fun m => m.station.index) = gr.members.map fun m => m.station.index := by
  unfold Group.withState
  rw [List.map_map]
  apply List.map_congr_left
  intro m _
  simp only [Function.comp]
  split <;> rfl

/-- A member's state changed in its place. -/
theorem filed_withState (s : State) (g : GroupNo) (ix : StationIx) (st : MemberState) :
    Filed s (s.setGroup g ((s.group g).withState ix st)) := by
  refine filed_setGroup s g _ fun h => ⟨?_, by rw [indices_withState]; exact h.2⟩
  simpa [Group.withState] using h.1

/-- A member removed from its list. -/
theorem filed_without (s : State) (g : GroupNo) (ix : StationIx) : Filed s (s.setGroup g ((s.group g).without ix)) := by
  refine filed_setGroup s g _ fun h => ⟨(List.length_filter_le _ _).trans h.1, ?_⟩
  exact h.2.sublist ((List.filter_sublist).map _)

theorem filed_joinCompleted (s : State) (g : GroupNo) (ix : StationIx) (o : OrderOutcome) : Filed s (s.joinCompleted g ix o) := by
  unfold State.joinCompleted
  split
  · simp only
    refine Filed.trans ?_ (filed_clearLapsed _ ix g)
    split
    · exact filed_withState s g ix _
    · exact filed_without s g ix
  · exact Filed.refl s

theorem filed_leaveCompleted (s : State) (g : GroupNo) (ix : StationIx) : Filed s (s.leaveCompleted g ix) := by
  unfold State.leaveCompleted
  split
  · exact (filed_without s g ix).trans (filed_clearLapsed _ ix g)
  · exact Filed.refl s

theorem filed_setMember (s : State) (n : Word) (k : Nat) (f : DeliveryMember → DeliveryMember) : Filed s (s.setMember n k f) := by
  unfold State.setMember
  exact filed_updateDelivery s n _ fun _ => rfl

theorem filed_checkDelivery (s : State) (n : Word) : Filed s (s.checkDelivery n) := by
  unfold State.checkDelivery
  split
  · exact Filed.refl s
  · split
    · exact (filed_eraseDelivery s _).trans (filed_fillReservation _ _ _ _)
    · exact Filed.refl s

theorem filed_freePass (s : State) (n : Word) (l : LineNo) : Filed s (s.freePass n l) := by
  unfold State.freePass
  exact ((filed_filterOrders s _).trans (filed_updateDelivery _ n _ (by exact fun _ => rfl))).trans (filed_checkDelivery _ n)

theorem filed_reviewPass (s : State) (n : Word) (l : LineNo) : Filed s (s.reviewPass n l) := by
  unfold State.reviewPass
  split
  · split
    · exact Filed.refl s
    · exact filed_freePass s n l
  · exact Filed.refl s

theorem filed_settleMember (s : State) (ix : StationIx) (f : Fate) (g : GroupNo) : Filed s (s.settleMember ix f g) := by
  unfold State.settleMember
  split
  · exact Filed.refl s
  · split
    · exact Filed.refl s
    · split
      · exact filed_setMember s _ _ _
      · exact (filed_setMember s _ _ _).trans (filed_reviewPass _ _ _)

theorem filed_deliveriesStationDown (s : State) (ix : StationIx) : Filed s (s.deliveriesStationDown ix) :=
  Filed.foldl _ (fun s g => filed_settleMember s ix .unreached g) _ s

theorem filed_lapseGroup (s : State) (ix : StationIx) (g : GroupNo) : Filed s (s.lapseGroup ix g) := by
  unfold State.lapseGroup
  refine Filed.trans ?_ (filed_settleMember _ ix .dropped g)
  split
  · exact (filed_withState s g ix .lapsed).trans
      (filed_onStation _ ix _ (by exact fun _ => rfl) (by exact fun _ => rfl) (by exact fun _ => rfl) (by exact fun _ => rfl))
  · exact Filed.refl s

theorem filed_lapse (s : State) (ix : StationIx) : Filed s (s.lapse ix) :=
  Filed.foldl _ (fun s g => filed_lapseGroup s ix g) _ s

theorem filed_leaveAllGroups (s : State) (ix : StationIx) : Filed s (s.leaveAllGroups ix) :=
  Filed.foldl _ (fun s g => (filed_without s g ix).trans (filed_settleMember _ ix .dropped g)) _ s

theorem filed_deliveryLineStop (s : State) (n : Word) (l : LineNo) : Filed s (s.deliveryLineStop n l) := by
  unfold State.deliveryLineStop
  exact (filed_updateDelivery s n _ (by exact fun _ => rfl)).trans (filed_freePass _ n l)

theorem filed_stepResult (s : State) (l : LineNo) (n : Word) (step : PassStep) (r : TxResult) : Filed s (s.stepResult l n step r) := by
  unfold State.stepResult
  split
  · simp only
    have q := filed_updatePass s n l
      (fun p => { p with state := OrderState.queued, passStep := none, nextStep := if r.outcome = .sent then PassNext.members else p.nextStep })
      (by exact fun _ => rfl) (by exact fun _ => rfl) fun _ => by simp
    split
    · exact q.trans (filed_deliveryLineStop _ n l)
    · exact q.trans (filed_reviewPass _ n l)
  · simp only
    have q := fun f => (filed_setMember s n ‹Nat› f).trans (filed_updatePass _ n l
      (fun p => { p with state := OrderState.queued, passStep := none }) (by exact fun _ => rfl) (by exact fun _ => rfl) fun _ => by simp)
    split
    · exact (q _).trans (filed_deliveryLineStop _ n l)
    · exact (q _).trans (filed_reviewPass _ n l)

theorem filed_cancelDelivery (s : State) (n : Word) : Filed s (s.cancelDelivery n) := by
  unfold State.cancelDelivery
  exact ((filed_filterOrders s _).trans (filed_updateDelivery _ n _ (by exact fun _ => rfl))).trans (filed_checkDelivery _ n)

/-! ## Orders -/

/-- The number an acceptance gives is in no use and not 0 (R81). -/
theorem numberToGive_fresh (s : State) (hb : s.RecordsBounded) (hc : s.orderCounter ≠ 0) :
    s.numberToGive ≠ 0 ∧ s.numberToGive ∉ s.numbersInUse := by
  have hlen : s.numbersInUse.length ≤ 44 := by
    have := hb.1; have := hb.2
    simp only [Config.orderRecords, Config.deliveryRecords] at *
    simp [State.numbersInUse]; omega
  have hex : ∃ k, k < 45 ∧ nextNumber^[k] s.orderCounter ∉ s.numbersInUse := by
    by_contra hno
    push Not at hno
    have hsub : ((List.range 45).map fun k => nextNumber^[k] s.orderCounter) ⊆ s.numbersInUse := by
      intro n hn
      obtain ⟨k, hk, rfl⟩ := List.mem_map.mp hn
      exact hno k (List.mem_range.mp hk)
    have hnd : ((List.range 45).map fun k => nextNumber^[k] s.orderCounter).Nodup := by
      refine List.Nodup.map_on ?_ List.nodup_range
      intro i hi j hj h
      exact next_iter_inj _ hc i j (by have := List.mem_range.mp hi; omega) (by have := List.mem_range.mp hj; omega) h
    have := (hnd.subperm hsub).length_le
    simp at this; omega
  obtain ⟨k, _, h1, h2, _⟩ := search_spec s.numbersInUse 45 s.orderCounter hex
  unfold State.numberToGive
  rw [h1]
  refine ⟨?_, h2⟩
  cases k with
  | zero => exact hc
  | succ k => rw [Function.iterate_succ_apply']; exact nextNumber_ne _

theorem mem_orderNumbers {s : State} {n : Word} (h : n ∈ s.orderNumbers) : n ∈ s.numbersInUse := by
  unfold State.orderNumbers at h
  obtain ⟨r, hr, rfl⟩ := List.mem_map.mp h
  exact List.mem_append_left _ (List.mem_map.mpr ⟨r, List.mem_of_mem_filter hr, rfl⟩)

/-- An acceptance that passed its checks for one record (R86). -/
theorem filed_acceptOrder (s : State) (o : NewOrder) (ho : o.kind ≠ .groupPass) (hr : s.resourceRefusal 1 o.blocks = none) :
    Filed s (s.acceptOrder o) := by
  refine ⟨⟨fun _ h => ⟨h, rfl, rfl⟩, id, ?_, ?_, id, id, (keeps_acceptOrder s o ho hr).records⟩, fun _ => rfl⟩
  · rintro hb ⟨h1, h2, h3, h4⟩
    obtain ⟨f0, fu⟩ := numberToGive_fresh s hb h4
    have e : (s.acceptOrder o).orderNumbers = s.orderNumbers ++ [s.numberToGive] := by
      simp [State.orderNumbers, State.acceptOrder, List.filter_append, ho]
    refine ⟨?_, ?_, h3, ?_⟩
    · rw [e]
      show ((s.orderNumbers ++ [s.numberToGive]) ++ s.deliveries.map Delivery.number).Nodup
      rw [List.append_assoc, List.perm_append_comm.append_left _ |>.nodup_iff, ← List.append_assoc, List.nodup_append']
      refine ⟨h1, List.nodup_singleton _, ?_⟩
      intro n hn hm
      rw [List.mem_singleton] at hm
      subst hm
      rcases List.mem_append.mp hn with k | k
      · exact fu (mem_orderNumbers k)
      · exact fu (List.mem_append_right _ k)
    · rw [e, List.mem_append, List.mem_singleton]
      rintro (k | k)
      · exact h2 k
      · exact f0 k.symm
    · exact nextNumber_ne _
  · intro k r hm hk
    rcases List.mem_append.mp hm with h | h
    · exact k r h hk
    · rw [List.mem_singleton] at h; subst h; exact absurd hk ho

theorem filed_handOff (s : State) (r : OrderRecord) (o : OrderOutcome) : Filed s (s.handOff r o) := by
  unfold State.handOff
  split
  · exact filed_joinCompleted s _ _ _
  · exact filed_leaveCompleted s _ _
  · split
    · unfold State.collectDone
      split
      · exact Filed.refl s
      · exact filed_onStation s _ _ (by exact fun _ => rfl) (by exact fun _ => rfl) (by exact fun _ => rfl) (by exact fun _ => rfl)
    · exact Filed.refl s
  · exact Filed.refl s

theorem filed_completeOrder (s : State) (n : Word) (c : Completion) : Filed s (s.completeOrder n c) := by
  unfold State.completeOrder
  split
  · exact Filed.refl s
  · simp only
    exact (((filed_handOff s _ _).trans (filed_removeOrder _ n)).trans (filed_pool _ _)).trans (filed_fillReservation _ _ _ _)

theorem filed_endStationOrders (s : State) (ix : StationIx) (o : OrderOutcome) : Filed s (s.endStationOrders ix o) :=
  Filed.foldl (fun s (r : OrderRecord) => s.completeOrder r.number (.unsent o)) (fun s r => filed_completeOrder s r.number _) _ s

theorem filed_endLineQueues (s : State) (l : LineNo) (o : OrderOutcome) : Filed s (s.endLineQueues l o) := by
  refine Filed.foldl _ (fun s r => ?_) _ s
  split
  · exact filed_deliveryLineStop s _ l
  · exact filed_completeOrder s _ _

/-! ## Stations -/

theorem latch_enter (st : Station) (n : StationState) : (st.enter n).latch = st.latch ∧ (st.enter n).line = st.line ∧
    (st.enter n).address = st.address ∧ (st.enter n).state = n := ⟨rfl, rfl, rfl, rfl⟩

/-- An entry in use enters another state of use (R57), with what a rule sets beside it. -/
theorem booked_enter (s : State) (ix : StationIx) (n : StationState) (f : Station → Station)
    (hf : ∀ st, (f st).line = st.line ∧ (f st).address = st.address ∧ (f st).latch = st.latch ∧ (f st).state = n)
    (hs : (s.station ix).state ≠ .free) (hn : n ≠ .free ∧ n ≠ .retiring) : Booked s (s.onStation ix f) :=
  booked_onStation s ix f (fun st => (hf st).1) (fun st => (hf st).2.1) (fun st => (hf st).2.2.1) hs
    (by rw [(hf _).2.2.2]; exact hn)

theorem state_onStation (s : State) (ix : StationIx) (f : Station → Station) : ((s.onStation ix f).station ix) = f (s.station ix) := by
  simp

theorem filed_claimCollect (s : State) (ix : StationIx) : Filed s (s.claimCollect ix) := by
  unfold State.claimCollect
  split
  · exact filed_onStation s ix _ (by exact fun _ => rfl) (by exact fun _ => rfl) (by exact fun _ => rfl) (by exact fun _ => rfl)
  · next h =>
    exact (filed_acceptOrder s _ (by simp [State.collectOrder]) h).trans
      (filed_onStation _ ix _ (by exact fun _ => rfl) (by exact fun _ => rfl) (by exact fun _ => rfl) (by exact fun _ => rfl))

theorem filed_applyCollect (s : State) (ix : StationIx) (d : Bool) : Filed s (s.applyCollect ix d) := by
  unfold State.applyCollect
  simp only
  split
  · exact Filed.refl s
  · split
    · exact Filed.refl s
    · split
      · exact filed_onStation s ix _ (by exact fun _ => rfl) (by exact fun _ => rfl) (by exact fun _ => rfl) (by exact fun _ => rfl)
      · split
        · exact Filed.refl s
        · exact filed_claimCollect s ix

/-- A station in use gone MISSING or SUSPENDED: its orders end, its deliveries follow, and presence DOWN may be latched (R62, R74). -/
theorem booked_stationDown (s : State) (ix : StationIx) (n : StationState) (o : OrderOutcome) (hs : (s.station ix).state ≠ .free)
    (hn : n ≠ .free ∧ n ≠ .retiring) (latch : Bool) :
    let t := ((s.onStation ix fun st => st.enter n).endStationOrders ix o).deliveriesStationDown ix
    Booked s (if latch then t.latchPresence ix .down false else t) := by
  have h1 : Booked s (s.onStation ix fun st => st.enter n) := booked_enter s ix n _ (by exact fun _ => ⟨rfl, rfl, rfl, rfl⟩) hs hn
  have h2 := (filed_endStationOrders (s.onStation ix fun st => st.enter n) ix o).trans (filed_deliveriesStationDown _ ix)
  have h3 := h2.states ix
  rw [state_onStation] at h3
  have h3 : _ = n := h3
  intro t
  split
  · exact (h1.trans h2.toBooked).trans (filed_latchPresence _ _ _ _ ⟨by rw [h3]; exact hn.1, by rw [h3]; exact hn.2⟩).toBooked
  · exact h1.trans h2.toBooked

theorem booked_becomeMissing (s : State) (ix : StationIx) (hs : (s.station ix).state ≠ .free) : Booked s (s.becomeMissing ix) :=
  booked_stationDown s ix .missing .stationDown hs (by decide) _

theorem booked_takeOutOfUse (s : State) (ix : StationIx) (hs : (s.station ix).state ≠ .free) : Booked s (s.takeOutOfUse ix) :=
  booked_stationDown s ix .suspended .suspended hs (by decide) _

theorem booked_stationRestarted (s : State) (ix : StationIx) (hs : (s.station ix).state ≠ .free) : Booked s (s.stationRestarted ix) :=
  (booked_enter s ix .resync _ (by exact fun _ => ⟨rfl, rfl, rfl, rfl⟩) hs (by decide)).trans (filed_lapse _ ix).toBooked

theorem booked_takeStatus (s : State) (ix : StationIx) (word : Word) (d r : Bool) (t : PartTime) (hs : (s.station ix).state ≠ .free) :
    Booked s (s.takeStatus ix word d r t) := by
  unfold State.takeStatus
  simp only
  have h : Booked s (if r = true then s.stationRestarted ix else s) := by
    split
    · exact booked_stationRestarted s ix hs
    · exact Booked.refl s
  exact h.trans (((filed_judgeWatches _ ix _ word t).trans (filed_applyCollect _ ix d)).trans
    (filed_onStation _ ix _ (by exact fun _ => rfl) (by exact fun _ => rfl) (by exact fun _ => rfl) (by exact fun _ => rfl))).toBooked

theorem booked_clearAcknowledged (s : State) (ix : StationIx) (hs : (s.station ix).state ≠ .free) : Booked s (s.clearAcknowledged ix) := by
  unfold State.clearAcknowledged
  simp only
  have h1 := (filed_onStation s ix (fun st => { st with sendBit := false, fetchBit := false }) (by exact fun _ => rfl) (by exact fun _ => rfl)
    (by exact fun _ => rfl) (by exact fun _ => rfl)).trans (filed_lapse _ ix)
  generalize ((s.onStation ix fun st => { st with sendBit := false, fetchBit := false }).lapse ix) = v at h1
  have h2 : Booked v (v.onStation ix fun st => st.enter .online) :=
    booked_enter v ix .online _ (by exact fun _ => ⟨rfl, rfl, rfl, rfl⟩) (by rw [h1.states]; exact hs) (by decide)
  have h3 : ((v.onStation ix fun st => st.enter .online).station ix).state = .online := by rw [state_onStation]; rfl
  refine Booked.trans ?_
    (filed_onStation _ ix _ (by exact fun _ => rfl) (by exact fun _ => rfl) (by exact fun _ => rfl) (by exact fun _ => rfl)).toBooked
  split
  · exact (h1.toBooked.trans h2).trans (filed_latchPresence _ _ _ _ (by rw [h3]; decide)).toBooked
  · exact h1.toBooked.trans h2

theorem booked_applyResult (s : State) (ix : StationIx) (r : TxResult) (hs : (s.station ix).state ≠ .free) : Booked s (s.applyResult ix r) := by
  unfold State.applyResult
  split
  · split
    · exact booked_takeStatus s ix _ _ _ _ hs
    · exact Booked.refl s
  · exact booked_clearAcknowledged s ix hs
  · exact (filed_onStation s ix _ (by exact fun _ => rfl) (by exact fun _ => rfl) (by exact fun _ => rfl) (by exact fun _ => rfl)).toBooked
  · exact (filed_onStation s ix _ (by exact fun _ => rfl) (by exact fun _ => rfl) (by exact fun _ => rfl) (by exact fun _ => rfl)).toBooked
  · split
    · exact booked_enter s ix .resync _ (by exact fun _ => ⟨rfl, rfl, rfl, rfl⟩) hs (by decide)
    · exact Booked.refl s

theorem afterResult_same (st : Station) (r : TxResult) : (st.afterResult r).line = st.line ∧ (st.afterResult r).address = st.address ∧
    (st.afterResult r).latch = st.latch ∧ (st.afterResult r).state = st.state := by
  unfold Station.afterResult
  split
  · exact ⟨rfl, rfl, rfl, rfl⟩
  · split <;> exact ⟨rfl, rfl, rfl, rfl⟩

/-- A RETIRING entry becomes FREE with nothing latched (R73); the latch rule needs the pending list's invariant. -/
theorem booked_retire (s : State) (ix : StationIx) (hs : (s.station ix).state = .retiring) : Booked s (s.setStation ix Station.cleared) := by
  refine ⟨fun j hj => ?_, id, fun _ => id, id, fun h => ?_, id, id⟩
  · by_cases h : ix = j
    · subst h; simp [Station.cleared] at hj
    · simp only [station_setStation, if_neg h] at hj ⊢
      exact ⟨hj, trivial, trivial⟩
  · exact (booked_clearStation s ix (h.2.2 ix (Or.inr hs))).latches h

theorem booked_stationResult (s : State) (ix : StationIx) (r : TxResult) : Booked s (s.stationResult ix r) := by
  unfold State.stationResult
  split
  · exact Booked.refl s
  · exact Booked.refl s
  · next h => exact booked_retire s ix h
  · next h1 h2 h3 =>
    have h := filed_onStation s ix (fun st => st.afterResult r) (fun st => (afterResult_same st r).1)
      (fun st => (afterResult_same st r).2.1) (fun st => (afterResult_same st r).2.2.1) (fun st => (afterResult_same st r).2.2.2)
    have hf : ((s.onStation ix fun st => st.afterResult r).station ix).state ≠ .free := by
      rw [h.states]; exact h1
    simp only
    split
    · exact h.toBooked.trans (booked_becomeMissing _ ix hf)
    · exact h.toBooked.trans (booked_applyResult _ ix r hf)

theorem booked_stationLineStop (s : State) (l : LineNo) (ix : StationIx) : Booked s (s.stationLineStop l ix) := by
  unfold State.stationLineStop
  simp only
  split
  · next h =>
    have hs : (s.station ix).state ≠ .free := by
      intro hf; simp [hf] at h
    have h1 : Booked s (s.onStation ix fun st => { st.enter .probing with collectDue := false }) :=
      booked_enter s ix .probing _ (by exact fun _ => ⟨rfl, rfl, rfl, rfl⟩) hs (by decide)
    split
    · refine h1.trans (filed_latchPresence _ _ _ _ ?_).toBooked
      rw [state_onStation]
      exact ⟨by simp [Station.enter], by simp [Station.enter]⟩
    · exact h1
  · exact Booked.refl s

theorem booked_stationsLineStop (s : State) (l : LineNo) : Booked s (s.stationsLineStop l) :=
  Booked.foldl _ (fun s ix => booked_stationLineStop s l ix) _ s

theorem booked_lineStopped (s : State) (l : LineNo) (o : OrderOutcome) : Booked s (s.lineStopped l o) :=
  (filed_endLineQueues s l o).toBooked.trans (booked_stationsLineStop _ l)

/-! ## Engines -/

theorem filed_advanceCycle (l : LineNo) (fuel : Nat) : ∀ s : State, Filed s (State.advanceCycle l fuel s) := by
  induction fuel with
  | zero => exact fun s => Filed.refl s
  | succ k ih =>
    intro s
    unfold State.advanceCycle
    split
    · split
      · exact Filed.refl s
      · exact (filed_onEngine s l _ (by exact fun _ => rfl)).trans (ih _)
    · split
      · exact (filed_onEngine s l _ (by exact fun _ => rfl)).trans (ih _)
      · exact Filed.refl s

theorem filed_pollListJoined (s : State) (l : LineNo) : Filed s (s.pollListJoined l) := by
  unfold State.pollListJoined
  split
  · exact filed_onEngine s l _ fun _ => rfl
  · exact Filed.refl s

theorem filed_takePoll (s : State) (l : LineNo) (ix : StationIx) : Filed s (s.takePoll l ix) := by
  unfold State.takePoll
  exact filed_onEngine s l _ (by exact fun _ => rfl)

theorem filed_takeEntry (s : State) (l : LineNo) (r : OrderRecord) : Filed s (s.takeEntry l r) := by
  unfold State.takeEntry
  split
  · split
    · unfold State.takePass
      simp only
      split
      · exact (filed_updatePass s _ l _ (by exact fun _ => rfl) (by exact fun _ => rfl) fun _ => by simp [OrderRecord.withStep]).trans
          (filed_onEngine _ l _ (by exact fun _ => rfl))
      · exact ((filed_setMember s _ _ _).trans (filed_updatePass _ _ l _ (by exact fun _ => rfl) (by exact fun _ => rfl) fun _ => by
          simp [OrderRecord.withStep])).trans (filed_onEngine _ l _ (by exact fun _ => rfl))
      · exact Filed.refl s
    · exact Filed.refl s
  · unfold State.takeOrder
    split
    · exact Filed.refl s
    · exact (filed_updateOrder s _ _ (by exact fun _ => rfl) (by exact fun _ => rfl)).trans (filed_onEngine _ l _ (by exact fun _ => rfl))

/-- Work selection changes no table but by taking work (R38). -/
theorem filed_selectWork (s : State) (l : LineNo) : Filed s (s.selectWork l) := by
  unfold State.selectWork
  split
  · obtain ⟨n, hn⟩ := cycleAtSelection_advance s l
    rw [hn]
    simp only
    split
    · exact (filed_advanceCycle l n s).trans (filed_takeEntry _ l _)
    · exact (filed_advanceCycle l n s).trans (filed_takePoll _ l _)
    · exact filed_advanceCycle l n s
  · exact Filed.refl s

theorem booked_endTransaction (s : State) (l : LineNo) (o : TxOutcome) (late atEnd : Bool) : Booked s (s.endTransaction l o late atEnd) := by
  unfold State.endTransaction
  split
  · exact Booked.refl s
  · simp only
    refine Booked.trans ?_ (filed_onEngine _ l _ (by exact fun _ => rfl)).toBooked
    have hu : ∀ (o : Option StationIx) (r : TxResult), Booked s (match o with
        | some ix => s.stationResult ix r
        | none => s) := by
      intro o r
      cases o with
      | none => exact Booked.refl s
      | some ix => exact booked_stationResult s ix r
    split
    · exact hu _ _
    · exact (hu _ _).trans (filed_completeOrder _ _ _).toBooked
    · exact (hu _ _).trans (filed_stepResult _ _ _ _ _).toBooked

theorem booked_attemptEnd (s : State) (l : LineNo) (c : AttemptClass) (heard : Bool) : Booked s (s.attemptEnd l c heard) := by
  unfold State.attemptEnd
  split
  · exact Booked.refl s
  · simp only
    have h : ∀ t r, Booked s (s.onEngine l fun e => e.afterAttempt t r) := fun _ _ => (filed_onEngine s l _ (by exact fun _ => rfl)).toBooked
    split
    · exact (h _ _).trans (booked_endTransaction _ l _ _ _)
    · split
      · refine (h _ _).trans (filed_onEngine _ l _ fun e => ?_).toBooked
        cases c <;> rfl
      · exact (h _ _).trans (booked_endTransaction _ l _ _ _)

theorem filed_holdLine (s : State) (l : LineNo) : Filed s (s.holdLine l) :=
  (filed_onEngine s l _ (by exact fun _ => rfl)).trans (filed_latchLine _ l _ _)

end Machine

end Sys2Proof
end

