-- ==== Sys2Proof/Laws/TableRequests.lean ====
section
/-! SUPPORT. What the requests, the host link and the ends of attempts may do to the tables and to the report list. -/

namespace Sys2Proof

namespace Machine

/-! ## Requests -/

theorem booked_withStation (s : State) (a b : Octet) (f : StationIx → State × Answer)
    (h : ∀ ix, (s.station ix).state ≠ .free → Booked s (f ix).1) : Booked s (s.withStation a b f).1 := by
  unfold State.withStation
  split
  · split
    · next hx => exact h _ (findStation_some hx).1
    · exact Booked.refl s
  · exact Booked.refl s

theorem booked_setLinkRateOwner (b : List Octet) (s : State) : Booked s (setLinkRateOwner b s).1 := by
  unfold setLinkRateOwner; split <;> (try split) <;> exact Booked.refl s

theorem booked_restartOwner (b : List Octet) (s : State) : Booked s (restartOwner b s).1 := by
  unfold restartOwner
  split
  · split
    · exact ⟨fun _ h => ⟨h, rfl, rfl⟩, id, fun _ => id, id, id, id, id⟩
    · exact Booked.refl s
  · exact Booked.refl s

theorem booked_lineSetOwner (b : List Octet) (s : State) : Booked s (lineSetOwner b s).1 := by
  unfold lineSetOwner
  split
  · split
    · exact Booked.refl s
    · simp only
      split
      · exact Booked.refl s
      · split
        · exact Booked.refl s
        · dsimp only
          exact (filed_onEngine s _ _ (by exact fun _ => rfl)).toBooked
  · exact Booked.refl s

theorem booked_lineStartOwner (b : List Octet) (s : State) : Booked s (lineStartOwner b s).1 := by
  unfold lineStartOwner
  split
  · split
    · exact Booked.refl s
    · split
      · exact Booked.refl s
      · dsimp only
        unfold State.startLine
        have h := fun l => filed_onEngine s l LineEngine.started (by exact fun _ => rfl)
        simp only
        split
        · exact ((h _).trans (filed_holdLine _ _)).toBooked
        · exact ((h _).trans (filed_onEngine _ _ _ (by exact fun _ => rfl))).toBooked
  · exact Booked.refl s

/-- A transaction ended by a stop, and what the stop reaches (R28, R29, R48). -/
theorem booked_stopWith (s : State) (l : LineNo) (f : LineEngine → LineEngine) (o : TxOutcome) (e : OrderOutcome)
    (hf : ∀ e, (f e).latch = e.latch) : Booked s (((s.onEngine l f).endTransaction l o false false).lineStopped l e) :=
  ((filed_onEngine s l f hf).toBooked.trans (booked_endTransaction _ l _ _ _)).trans (booked_lineStopped _ l _)

theorem booked_stopAtOnce (s : State) (l : LineNo) : Booked s (s.stopAtOnce l) :=
  (booked_stopWith s l _ _ _ (by exact fun _ => rfl)).trans (filed_latchLine _ l _ _).toBooked

theorem booked_stopLine (s : State) (l : LineNo) : Booked s (s.stopLine l) := by
  have h : Booked s (s.stopDriving l) := booked_stopWith s l _ _ _ (by exact fun _ => rfl)
  unfold State.stopLine
  split
  · exact Booked.refl s
  · exact Booked.refl s
  · exact h
  · exact h
  · exact booked_stopAtOnce s l
  · exact booked_stopAtOnce s l
  · exact booked_stopAtOnce s l
  · exact booked_stopAtOnce s l

theorem booked_lineStopOwner (b : List Octet) (s : State) : Booked s (lineStopOwner b s).1 := by
  unfold lineStopOwner
  split
  · split
    · exact Booked.refl s
    · split
      · exact Booked.refl s
      · exact booked_stopLine s _
  · exact Booked.refl s

theorem booked_lineStatusOwner (b : List Octet) (s : State) : Booked s (lineStatusOwner b s).1 := by
  unfold lineStatusOwner
  split
  · split
    · exact Booked.refl s
    · split
      · exact Booked.refl s
      · simp only
        split
        · exact (filed_onEngine s _ _ (by exact fun _ => rfl)).toBooked
        · exact Booked.refl s
  · exact Booked.refl s

/-- STATION REMOVE strips an entry of everything that names it (R72); its latch goes with its place. -/
theorem stripStation_filed (s : State) (ix : StationIx) : Filed s (s.stripStation ix) := by
  have h := ((filed_endStationOrders s ix .removed).trans (filed_leaveAllGroups _ ix)).trans (filed_freeWatches _ ix)
  unfold State.stripStation
  generalize ((s.endStationOrders ix .removed).leaveAllGroups ix).freeWatches ix = v at h
  refine h.trans ?_
  have key : ∀ j, (((v.dropSource (.station ix)).onStation ix fun st => { st with latch := none }).station j).unlatched =
      (v.station j).unlatched := by
    intro j
    by_cases k : ix = j
    · subst k; simp [Station.unlatched]
    · simp [k]
  refine ⟨⟨fun j k => ?_, id, fun _ => id, id, ?_, id, id⟩, fun j => (unlatched_station_eq (key j)).2.2⟩
  · have := unlatched_station_eq (key j)
    exact ⟨this.2.2 ▸ k, this.1, this.2.1⟩
  · rintro ⟨h1, h2, h3⟩
    refine ⟨h1.filter _, fun x => ?_, fun j k => ?_⟩
    · show x ∈ v.sources.filter (fun y => y != .station ix) ↔ _
      rw [List.mem_filter, h2 x]
      cases x with
      | station j =>
        by_cases k : ix = j
        · subst k; simp [State.latched]
        · simp [State.latched, k, Ne.symm k]
      | line l => simp [State.latched]
      | watch w => simp [State.latched]
    · by_cases e : ix = j
      · subst e; simp
      · rw [(unlatched_station_eq (key j)).2.2] at k
        have := h3 j k
        simpa [e] using this

theorem stripStation_latch (s : State) (ix : StationIx) : ((s.stripStation ix).station ix).latch = none := by
  simp [State.stripStation]

theorem booked_removeStation (s : State) (ix : StationIx) (hs : (s.station ix).state ≠ .free) : Booked s (s.removeStation ix) := by
  unfold State.removeStation
  have hb := stripStation_filed s ix
  have hl := stripStation_latch s ix
  generalize s.stripStation ix = v at hb hl
  split
  · refine hb.toBooked.trans ⟨fun j k => ?_, id, fun _ => id, id, ?_, id, id⟩
    · by_cases e : ix = j
      · subst e; simp only [station_onStation, if_true]; exact ⟨by rw [hb.states]; exact hs, rfl, rfl⟩
      · simp only [station_onStation, if_neg e] at k ⊢; exact ⟨k, trivial, trivial⟩
    · rintro ⟨h1, h2, h3⟩
      refine ⟨h1, fun x => (h2 x).trans ?_, fun j k => ?_⟩
      · cases x with
        | station j =>
          by_cases e : ix = j
          · subst e; simp [State.latched, Station.enter]
          · simp [State.latched, e]
        | line l => exact Iff.rfl
        | watch w => exact Iff.rfl
      · by_cases e : ix = j
        · subst e; simpa [Station.enter] using hl
        · simp only [station_onStation, if_neg e] at k ⊢; exact h3 j k
  · exact hb.toBooked.trans (booked_clearStation v ix hl)

theorem booked_stationRemoveOwner (b : List Octet) (s : State) : Booked s (stationRemoveOwner b s).1 := by
  unfold stationRemoveOwner
  split
  · refine booked_withStation s _ _ _ fun ix h => ?_
    split
    · exact Booked.refl s
    · exact (booked_removeStation s ix h).trans (filed_selectWork _ _).toBooked
  · exact Booked.refl s

theorem booked_stationSuspendOwner (b : List Octet) (s : State) : Booked s (stationSuspendOwner b s).1 := by
  unfold stationSuspendOwner
  split
  · refine booked_withStation s _ _ _ fun ix h => ?_
    split
    · exact Booked.refl s
    · dsimp only
      unfold State.suspendStation
      split
      · exact Booked.refl s
      · exact (booked_takeOutOfUse s ix h).trans (filed_selectWork _ _).toBooked
  · exact Booked.refl s

theorem booked_stationResumeOwner (b : List Octet) (s : State) : Booked s (stationResumeOwner b s).1 := by
  unfold stationResumeOwner
  split
  · refine booked_withStation s _ _ _ fun ix h => ?_
    split
    · exact Booked.refl s
    · exact ((booked_enter s ix .probing _ (by exact fun _ => ⟨rfl, rfl, rfl, rfl⟩) h (by decide)).trans
        (filed_pollListJoined _ _).toBooked).trans (filed_selectWork _ _).toBooked
  · exact Booked.refl s

theorem booked_stationSetOwner (b : List Octet) (s : State) : Booked s (stationSetOwner b s).1 := by
  unfold stationSetOwner
  split
  · split
    · refine booked_withStation s _ _ _ fun ix h => ?_
      split
      · exact Booked.refl s
      · dsimp only
        exact (filed_onStation s ix _ (by exact fun _ => rfl) (by exact fun _ => rfl) (by exact fun _ => rfl)
          (by exact fun _ => rfl)).toBooked
    · exact Booked.refl s
  · exact Booked.refl s

theorem booked_takeHostOrder (s : State) (ix : StationIx) (k : OrderKind) (p : Priority) (d : List Octet) (n : Nat)
    (hk : k ≠ .groupPass) : Booked s (s.takeHostOrder ix k p d n).1 := by
  unfold State.takeHostOrder
  split
  · exact Booked.refl s
  · next h =>
    exact ((filed_acceptOrder s _ (by simpa [State.hostOrder] using hk) (orderRefusal_eq_none h).2).trans
      (filed_selectWork _ _)).toBooked

theorem booked_sendOwner (b : List Octet) (s : State) : Booked s (sendOwner b s).1 := by
  unfold sendOwner
  split
  · split
    · exact Booked.refl s
    · split
      · exact Booked.refl s
      · split
        · exact Booked.refl s
        · exact booked_withStation s _ _ _ fun ix _ => booked_takeHostOrder s ix _ _ _ _ (by simp)
  · exact Booked.refl s

theorem booked_fetchOwner (b : List Octet) (s : State) : Booked s (fetchOwner b s).1 := by
  unfold fetchOwner
  split
  · split
    · exact Booked.refl s
    · split
      · exact Booked.refl s
      · exact booked_withStation s _ _ _ fun ix _ => booked_takeHostOrder s ix _ _ _ _ (by simp)
  · exact Booked.refl s

theorem booked_cancelOrder (s : State) (r : OrderRecord) : Booked s (s.cancelOrder r).1 := by
  unfold State.cancelOrder
  split
  · exact ((filed_completeOrder s _ _).trans (filed_selectWork _ _)).toBooked
  · split
    · exact (filed_updateOrder s _ _ (by exact fun _ => rfl) (by exact fun _ => rfl)).toBooked
    · refine Booked.trans ?_ (filed_selectWork _ _).toBooked
      refine (filed_onEngine s _ _ fun e => ?_).toBooked.trans (booked_endTransaction _ _ _ _ _)
      unfold LineEngine.cancelledAtOnce; split <;> rfl

theorem filed_selectLines (s : State) (ls : List LineNo) : Filed s (ls.foldl (fun s l => s.selectWork l) s) :=
  Filed.foldl _ (fun s l => filed_selectWork s l) _ _

theorem booked_cancelOwner (b : List Octet) (s : State) : Booked s (cancelOwner b s).1 := by
  unfold cancelOwner
  split
  · split
    · exact booked_cancelOrder s _
    · unfold State.cancelNumberedDelivery
      split
      · exact Booked.refl s
      · dsimp only
        unfold State.selectAll
        exact ((filed_cancelDelivery s _).trans (filed_selectLines _ _)).toBooked
    · exact Booked.refl s
  · exact Booked.refl s

theorem booked_takeMemberOrder (s : State) (ix : StationIx) (g : GroupNo) (k : OrderKind) (hk : k ≠ .groupPass)
    (h : s.resourceRefusal 1 0 = none) : Booked s (s.takeMemberOrder ix g k).1 :=
  ((filed_acceptOrder s _ (by simpa [State.hostOrder] using hk) h).trans (filed_selectWork _ _)).toBooked

theorem filed_joining (s : State) (g : GroupNo) (ix : StationIx) (h : (s.group g).addRefusal ix = none) :
    Filed s (s.setGroup g ((s.group g).joining (s.stationRef ix))) := by
  have hix : (s.stationRef ix).index = ix := rfl
  unfold Group.joining
  split
  · rw [hix]; exact filed_withState s g ix _
  · next hn =>
    rw [hix] at hn
    refine filed_setGroup s g _ fun k => ?_
    simp only [Group.addRefusal, hn] at h
    split at h
    · next hl =>
      refine ⟨by simpa using hl, ?_⟩
      simp only [List.map_append, List.map_cons, List.map_nil]
      rw [List.nodup_append']
      refine ⟨k.2, List.nodup_singleton _, ?_⟩
      intro i hi hj
      rw [List.mem_singleton] at hj
      obtain ⟨m, hm, rfl⟩ := List.mem_map.mp hi
      have := List.find?_eq_none.mp hn m hm
      simp [hix] at hj
      simp [hj] at this
    · simp at h

theorem booked_addMember (s : State) (g : GroupNo) (ix : StationIx) : Booked s (s.addMember g ix).1 := by
  unfold State.addMember
  split
  · exact Booked.refl s
  · exact Booked.refl s
  · exact Booked.refl s
  · exact Booked.refl s
  · next h1 h2 =>
    refine (filed_joining s g ix h1).toBooked.trans (booked_takeMemberOrder _ ix g .join (by simp) ?_)
    rw [resourceRefusal_setGroup]
    exact h2

theorem booked_memberAddOwner (b : List Octet) (s : State) : Booked s (memberAddOwner b s).1 := by
  unfold memberAddOwner
  split
  · split
    · exact booked_withStation s _ _ _ fun ix _ => booked_addMember s _ ix
    · exact Booked.refl s
  · exact Booked.refl s

theorem booked_dropMember (s : State) (g : GroupNo) (ix : StationIx) : Booked s (s.dropMember g ix).1 := by
  unfold State.dropMember
  split
  · exact Booked.refl s
  · exact Booked.refl s
  · split
    · exact Booked.refl s
    · exact Booked.refl s
    · exact ((filed_without s g ix).trans (filed_clearLapsed _ ix g)).toBooked
    · split
      · exact Booked.refl s
      · next h =>
        refine (filed_withState s g ix _).toBooked.trans (booked_takeMemberOrder _ ix g .leave (by simp) ?_)
        rw [resourceRefusal_setGroup]
        exact (orderRefusal_eq_none h).2

theorem booked_memberDropOwner (b : List Octet) (s : State) : Booked s (memberDropOwner b s).1 := by
  unfold memberDropOwner
  split
  · split
    · exact booked_withStation s _ _ _ fun ix _ => booked_dropMember s _ ix
    · exact Booked.refl s
  · exact Booked.refl s

/-- A delivery accepted takes a number of its own, and its passes are QUEUED with no step (R118, R120). -/
theorem filed_acceptDelivery (s : State) (g : GroupNo) (p : Priority) (d : List Octet)
    (h : s.groupRefusal g d.length = none) : Filed s (s.acceptDelivery (s.newDelivery g p d) d) := by
  have hz : ((waitingLines (s.snapshotOf g)).map (passRecord s.numberToGive p)).filter (fun r => r.kind != OrderKind.groupPass) = [] := by
    rw [List.filter_eq_nil_iff]
    intro r hr
    obtain ⟨l, _, rfl⟩ := List.mem_map.mp hr
    simp [passRecord]
  have eo : (s.acceptDelivery (s.newDelivery g p d) d).orderNumbers = s.orderNumbers := by
    unfold State.orderNumbers
    show (((s.orders ++ (waitingLines (s.snapshotOf g)).map (passRecord s.numberToGive p)).filter _).map _) = _
    rw [List.filter_append, hz, List.append_nil]
  have ed : (s.acceptDelivery (s.newDelivery g p d) d).deliveries.map Delivery.number = s.deliveries.map Delivery.number ++ [s.numberToGive] := by
    show (s.deliveries ++ [s.newDelivery g p d]).map _ = _
    simp [State.newDelivery]
  have hm := (filed_setGroup s g { s.group g with seq := (s.group g).seq + 1 } id).members
  refine ⟨⟨fun _ k => ⟨k, rfl, rfl⟩, hm, ?_, ?_, id, id, (keeps_acceptDelivery s g p d h).records⟩, fun _ => rfl⟩
  · rintro hb ⟨h1, h2, h3, h4⟩
    obtain ⟨f0, fu⟩ := numberToGive_fresh s hb h4
    refine ⟨?_, eo ▸ h2, ?_, nextNumber_ne _⟩
    · rw [eo, ed, ← List.append_assoc, List.nodup_append']
      refine ⟨h1, List.nodup_singleton _, ?_⟩
      intro n hn hm
      rw [List.mem_singleton] at hm
      subst hm
      rcases List.mem_append.mp hn with k | k
      · exact fu (mem_orderNumbers k)
      · exact fu (List.mem_append_right _ k)
    · rw [ed, List.mem_append, List.mem_singleton]
      rintro (k | k)
      · exact h3 k
      · exact f0 k.symm
  · intro k r hr hk
    rcases List.mem_append.mp hr with q | q
    · exact k r q hk
    · obtain ⟨l, _, rfl⟩ := List.mem_map.mp q
      simp [passRecord]

theorem booked_groupSendOwner (b : List Octet) (s : State) : Booked s (groupSendOwner b s).1 := by
  unfold groupSendOwner
  split
  · split
    · exact Booked.refl s
    · split
      · split
        · exact Booked.refl s
        · unfold State.takeDelivery
          split
          · exact Booked.refl s
          · next h => exact ((filed_acceptDelivery s _ _ _ h).trans (filed_selectLines _ _)).toBooked
      · exact Booked.refl s
  · exact Booked.refl s

theorem booked_watchClearOwner (b : List Octet) (s : State) : Booked s (watchClearOwner b s).1 := by
  unfold watchClearOwner
  split
  · split
    · exact Booked.refl s
    · split
      · exact Booked.refl s
      · exact (filed_freeWatch s _).toBooked
  · exact Booked.refl s

theorem booked_watchRearmOwner (b : List Octet) (s : State) : Booked s (watchRearmOwner b s).1 := by
  unfold watchRearmOwner
  split
  · split
    · exact Booked.refl s
    · split
      · exact Booked.refl s
      · unfold State.rearmWatch
        simp only
        split
        · exact Booked.refl s
        · exact (filed_unhitWatch s _ _ rfl).toBooked
  · exact Booked.refl s

/-- The queries change nothing. -/
theorem booked_queryOwners (b : List Octet) (s : State) : (identifyOwner b s).1 = s ∧ (partStatusOwner b s).1 = s ∧
    (stationQueryOwner b s).1 = s ∧ (orderQueryOwner b s).1 = s ∧ (groupQueryOwner b s).1 = s ∧ (watchQueryOwner b s).1 = s := by
  refine ⟨?_, ?_, ?_, ?_, ?_, ?_⟩
  · unfold identifyOwner; split <;> rfl
  · unfold partStatusOwner; split <;> rfl
  · unfold stationQueryOwner
    split
    · unfold State.withStation
      split
      · split <;> rfl
      · rfl
    · rfl
  · unfold orderQueryOwner
    split
    · split <;> rfl
    · rfl
  · unfold groupQueryOwner
    split
    · split <;> rfl
    · rfl
  · unfold watchQueryOwner
    split
    · split <;> rfl
    · rfl

/-! ## The two requests that fill an entry -/

theorem findStation_none {s : State} {l : LineNo} {a : Octet} (h : s.findStation l a = none) (ix : StationIx)
    (hs : (s.station ix).state ≠ .free) (hl : (s.station ix).line = l) : (s.station ix).address ≠ a := by
  intro ha
  have := List.find?_eq_none.mp h ix (List.mem_finRange ix)
  simp [hs, hl, ha] at this

theorem Booked.tables {s t : State} (h : Booked s t) (hr : s.RecordsBounded) (k : s.TablesSound) : t.TablesSound := by
  obtain ⟨k1, k2, k3, k4, k5⟩ := k
  refine ⟨fun i j hi hj hl ha => ?_, h.members k2, h.numbers hr k3, h.passes k4, h.latches k5⟩
  obtain ⟨a1, a2, a3⟩ := h.names i hi
  obtain ⟨b1, b2, b3⟩ := h.names j hj
  exact k1 i j a1 b1 (a2 ▸ b2 ▸ hl) (a3 ▸ b3 ▸ ha)

/-- A FREE entry filled with a line and address that no other entry has, and nothing latched (R71). -/
theorem tables_fillStation (s : State) (ix : StationIx) (st : Station) (hf : (s.station ix).state = .free) (hp : st.latch = none)
    (hn : s.findStation st.line st.address = none) (k : s.TablesSound) : (s.setStation ix st).TablesSound := by
  obtain ⟨k1, k2, k3, k4, k5⟩ := k
  have hl : (s.station ix).latch = none := k5.2.2 ix (Or.inl hf)
  have no : ∀ j, ix ≠ j → (s.station j).state ≠ .free → (s.station j).line = st.line → (s.station j).address ≠ st.address :=
    fun j _ hs hl => findStation_none hn j hs hl
  refine ⟨fun i j hi hj hli hai => ?_, k2, k3, k4, k5.1, fun x => (k5.2.1 x).trans ?_, fun j hj => ?_⟩
  · by_cases ei : ix = i
    · by_cases ej : ix = j
      · exact ei ▸ ej
      · subst ei
        simp only [station_setStation, if_true, if_neg ej] at hi hj hli hai
        exact absurd hai.symm (no j ej hj hli.symm)
    · by_cases ej : ix = j
      · subst ej
        simp only [station_setStation, if_true, if_neg ei] at hi hj hli hai
        exact absurd hai (no i ei hi hli)
      · simp only [station_setStation, if_neg ei, if_neg ej] at hi hj hli hai
        exact k1 i j hi hj hli hai
  · cases x with
    | station j =>
      by_cases e : ix = j
      · subst e; simp [State.latched, hl, hp]
      · simp [State.latched, e]
    | line l => exact Iff.rfl
    | watch w => exact Iff.rfl
  · by_cases e : ix = j
    · subst e; simpa using hp
    · simp only [station_setStation, if_neg e] at hj ⊢; exact k5.2.2 j hj

/-- STATION ADD keeps every table, and the report list in order (R71). -/
theorem tables_stationAddOwner (b : List Octet) (s : State) :
    (s.RecordsBounded → s.TablesSound → (stationAddOwner b s).1.TablesSound) ∧
    (s.ReportsInOrder → (stationAddOwner b s).1.ReportsInOrder) := by
  unfold stationAddOwner
  split
  · split
    · split
      · exact ⟨fun _ => id, id⟩
      · exact ⟨fun _ => id, id⟩
      · next ix hnone hfree =>
        have hf : (s.station ix).state = .free := by simpa using List.find?_some hfree
        have hb := fun st l => (filed_pollListJoined (s.setStation ix st) l).trans (filed_selectWork _ l)
        exact ⟨fun h k => (hb _ _).toBooked.tables h (tables_fillStation s ix _ hf rfl hnone k), (hb _ _).reports⟩
    · exact ⟨fun _ => id, id⟩
  · exact ⟨fun _ => id, id⟩

/-- WATCH SET fills a FREE entry, which has no hit (R134, R135). -/
theorem booked_watchSetOwner (b : List Octet) (s : State) (h : s.HitsPending) : Booked s (watchSetOwner b s).1 := by
  unfold watchSetOwner
  split
  · split
    · exact Booked.refl s
    · split
      · refine booked_withStation s _ _ _ fun ix _ => ?_
        unfold State.setWatchOn
        split
        · exact Booked.refl s
        · split
          · exact Booked.refl s
          · next w hw =>
            have hf : (s.watch w).state = .free := by simpa using List.find?_some hw
            refine (filed_setWatch s w _ ?_).toBooked
            have := h w
            rw [hf] at this
            cases hh : (s.watch w).hit with
            | none => rfl
            | some x => simp [hh] at this
      · exact Booked.refl s
  · exact Booked.refl s

/-! ## The host side -/

/-- A change of the host side alone touches no table. -/
theorem tables_host {s t : State} (hst : t.stations = s.stations) (hgr : t.groups = s.groups) (ho : t.orders = s.orders)
    (hd : t.deliveries = s.deliveries) (hc : t.orderCounter = s.orderCounter) (hs : t.sources = s.sources)
    (he : t.engines = s.engines) (hw : t.watches = s.watches) (k : s.TablesSound) : t.TablesSound := by
  have e : t.TablesSound = s.TablesSound := by
    unfold State.TablesSound State.AddressesDistinct State.MembersListed State.NumbersDistinct State.orderNumbers State.PassesQueued
      State.SourcesLatched State.station State.group
    have : t.latched = s.latched := by
      funext x; cases x <;> simp [State.latched, State.station, State.engine, State.watch, hst, he, hw]
    rw [hst, hgr, ho, hd, hc, hs, this]
  rw [e]; exact k

/-! ## The report list at the host link -/

/-- The transmitter's choice keeps the report list in order: a report goes into transmission as the offer (R163, R181). -/
theorem inOrder_choose (s : State) (b : Bool) (h : s.ReportsInOrder) : (s.choose b).ReportsInOrder := by
  unfold State.choose
  split
  · exact h
  · next hx =>
    simp only [Bool.or_eq_true, not_or, Bool.not_eq_true, Option.isSome_eq_false_iff, Option.isNone_iff_eq_none] at hx
    obtain ⟨h1, h2, h3, h4⟩ := h
    have h2' : s.sentCount ≤ 8 := by simpa [State.windowUsed, hx.2, Config.sendWindow] using h2
    have frame : ∀ (f : WaitingFrame) (q : List WaitingFrame), ({ s with replyQueue := q, tx := some f.start } : State).ReportsInOrder := by
      intro f q
      refine ⟨h1, ?_, h3, ?_⟩
      · cases f <;> exact h2'
      · intro n hn; cases f <;> simp [WaitingFrame.start] at hn
    have report : ∀ r, s.offer = some r → ({ s with tx := some (.report r.number false) } : State).ReportsInOrder := by
      intro r hr
      unfold State.offer at hr
      split at hr
      · simp at hr
      · next hw =>
        refine ⟨h1, ?_, h3, ?_⟩
        · simp [Config.sendWindow, State.windowUsed, hx.2] at hw
          show s.sentCount + 1 ≤ 8
          omega
        · intro n hn
          simp at hn
          exact ⟨r, hr, hn⟩
    split
    · exact ⟨h1, h2, h3, h4⟩
    · next hr => exact report _ hr
    · exact frame _ _
    · next hr =>
      split
      · exact report _ hr
      · exact frame _ _

theorem inOrder_transmit (s : State) (h : s.ReportsInOrder) : s.transmit.ReportsInOrder := by
  unfold State.transmit
  split
  · exact inOrder_choose s _ h
  · exact inOrder_choose s _ h

/-- A change of the host side that leaves the transmission as it is. -/
theorem inOrder_host {s t : State} (hr : t.reports = s.reports) (hc : t.reportCounter = s.reportCounter) (hx : t.tx = s.tx)
    (h : s.ReportsInOrder) : t.ReportsInOrder := by
  unfold State.ReportsInOrder State.windowUsed State.sentCount at *
  rw [hr, hc, hx]; exact h

/-- A frame that is no report has left (R182). -/
theorem inOrder_txNone (s : State) (h : s.ReportsInOrder) : ({ s with tx := none } : State).ReportsInOrder :=
  ⟨h.1, (Nat.le_add_right _ _).trans h.2.1, h.2.2.1, fun n hn => by simp at hn⟩

/-- Two places of the list with one number are one place: the list is shorter than the counter's range (R155, R158). -/
theorem place_of_number {s : State} (h : s.ReportsInOrder) (hl : s.reports.length ≤ 48) {i j : Nat} {a b : Report}
    (ha : s.reports[i]? = some a) (hb : s.reports[j]? = some b) (hn : a.number = b.number) : i = j := by
  have hi : i < s.reports.length := (List.getElem?_eq_some_iff.mp ha).1
  have hj : j < s.reports.length := (List.getElem?_eq_some_iff.mp hb).1
  rw [h.2.2.1 i a ha, h.2.2.1 j b hb] at hn
  have e : octet (s.reports.length - i) = octet (s.reports.length - j) := by
    generalize octet (s.reports.length - i) = x at hn ⊢
    generalize octet (s.reports.length - j) = y at hn ⊢
    generalize s.reportCounter = c at hn
    bv_omega
  have e2 := congrArg BitVec.toNat e
  simp only [octet, BitVec.toNat_ofNat] at e2
  omega

/-- The last octet of the first QUEUED report has left: it is SENT, and no other (R182). -/
theorem inOrder_markSent (s : State) (n : Octet) (h : s.ReportsInOrder) (hl : s.reports.length ≤ 48) (ht : s.tx = some (.report n false)) :
    ({ s with tx := none, reports := markSent s.reports n false } : State).ReportsInOrder := by
  have h' := h
  obtain ⟨h1, h2, h3, h4⟩ := h
  obtain ⟨r, hr, hrn⟩ := h4 n ht
  obtain ⟨hrs, ahead, behind, hsplit, hahead⟩ := List.find?_eq_some_iff_append.mp hr
  simp only [Bool.not_eq_eq_eq_not, Bool.not_true] at hrs
  have hsent : ∀ a ∈ ahead, a.sent = true := fun a ha => by simpa using hahead a ha
  rw [hsplit, List.pairwise_append] at h1
  obtain ⟨_, hb, _⟩ := h1
  rw [List.pairwise_cons] at hb
  have hun : ∀ q ∈ behind, q.sent = false := fun q hq => by
    cases hs : q.sent with
    | false => rfl
    | true => have := hb.1 q hq hs; rw [hrs] at this; exact absurd this (by simp)
  have hplace : s.reports[ahead.length]? = some r := by rw [hsplit]; simp
  have hno : ∀ q ∈ ahead ++ behind, q.number ≠ n := by
    intro q hq hqn
    rcases List.mem_append.mp hq with k | k
    · obtain ⟨i, hi⟩ := List.getElem?_of_mem k
      have hi' : s.reports[i]? = some q := by
        rw [hsplit, List.getElem?_append_left (List.getElem?_eq_some_iff.mp hi).1]; exact hi
      have := place_of_number h' hl hi' hplace (hqn.trans hrn.symm)
      have := (List.getElem?_eq_some_iff.mp hi).1
      omega
    · obtain ⟨i, hi⟩ := List.getElem?_of_mem k
      have hi' : s.reports[ahead.length + (i + 1)]? = some q := by
        rw [hsplit, List.getElem?_append_right (by omega)]; simpa using hi
      have := place_of_number h' hl hi' hplace (hqn.trans hrn.symm)
      omega
  have hmark : markSent s.reports n false = ahead ++ { r with sent := true } :: behind := by
    have same : ∀ l : List Report, (∀ q ∈ l, q.number ≠ n) →
        (l.map fun r => if r.number = n && !false then { r with sent := true } else r) = l := by
      intro l hq
      conv_rhs => rw [← List.map_id l]
      apply List.map_congr_left
      intro q hm
      simp [hq q hm]
    unfold markSent
    rw [hsplit, List.map_append, List.map_cons, same ahead fun q hq => hno q (List.mem_append_left _ hq),
      same behind fun q hq => hno q (List.mem_append_right _ hq)]
    simp [hrn]
  rw [hmark]
  refine ⟨?_, ?_, ?_, fun m hm => by simp at hm⟩
  · show (ahead ++ { r with sent := true } :: behind).Pairwise _
    rw [List.pairwise_append, List.pairwise_cons]
    refine ⟨?_, ⟨fun q hq hs => rfl, ?_⟩, fun a ha q hq hs => hsent a ha⟩
    · exact List.Pairwise.imp_of_mem (R := fun _ _ => True) (fun {a b} ha _ _ _ => hsent a ha) (List.pairwise_of_forall (by simp))
    · exact hb.2
  · show (ahead ++ { r with sent := true } :: behind).countP Report.sent + 0 ≤ 8
    have : s.windowUsed ≤ 8 := h2
    simp only [State.windowUsed, ht, State.sentCount, hsplit, List.countP_append, List.countP_cons, hrs] at this ⊢
    simp at this ⊢
    omega
  · intro k q hq
    have hlen : (ahead ++ { r with sent := true } :: behind).length = s.reports.length := by rw [hsplit]; simp
    show q.number = s.reportCounter - octet ((ahead ++ { r with sent := true } :: behind).length - k)
    rw [hlen]
    have hq : (ahead ++ { r with sent := true } :: behind)[k]? = some q := hq
    by_cases hk : k = ahead.length
    · subst hk
      have : q = { r with sent := true } := by simpa using hq.symm
      subst this
      exact h3 _ r hplace
    · refine h3 k q ?_
      rw [hsplit]
      rcases Nat.lt_or_gt_of_ne hk with hlt | hgt
      · rw [List.getElem?_append_left hlt] at hq ⊢; exact hq
      · rw [List.getElem?_append_right hgt.le] at hq ⊢
        obtain ⟨m, hm⟩ := Nat.exists_eq_succ_of_ne_zero (show k - ahead.length ≠ 0 by omega)
        rw [hm] at hq ⊢
        simpa using hq

/-- The confirmed reports are the list's first k, for every one ahead of a SENT report is SENT (R155, R165). -/
theorem withoutConfirmed_eq_drop {s : State} {n : Octet} {k : Nat} (h : s.ReportsInOrder) (hk : confirmedCount s.reports n = some k) :
    (∀ r ∈ s.reports.take k, r.sent = true) ∧ withoutConfirmed s.reports k = s.reports.drop k := by
  unfold confirmedCount at hk
  obtain ⟨i, hi, rfl⟩ := Option.map_eq_some_iff.mp hk
  rw [List.findIdx?_eq_some_iff_getElem] at hi
  obtain ⟨hlt, hsent, _⟩ := hi
  simp only [Bool.and_eq_true] at hsent
  have all : ∀ r ∈ s.reports.take (i + 1), r.sent = true := by
    intro r hr
    obtain ⟨j, hj, rfl⟩ := List.mem_iff_getElem.mp hr
    simp only [List.length_take] at hj
    rw [List.getElem_take]
    rcases Nat.lt_or_ge j i with hji | hji
    · exact List.pairwise_iff_getElem.mp h.1 j i (by omega) hlt hji hsent.2
    · have : j = i := by omega
      subst this; exact hsent.2
  refine ⟨all, ?_⟩
  unfold withoutConfirmed
  rw [List.filter_eq_nil_iff.mpr (fun r hr => by simp [all r hr]), List.nil_append]

/-- A confirmation leaves the rest of the list in order, and draws fill the freed slots (R165, R161). -/
theorem inOrder_confirm (s : State) (n : Octet) (k : Nat) (h : s.ReportsInOrder) (hk : confirmedCount s.reports n = some k) :
    (s.confirm k).ReportsInOrder := by
  obtain ⟨all, hd⟩ := withoutConfirmed_eq_drop h hk
  unfold State.confirm
  refine (filed_draw _).reports ?_
  rw [hd]
  obtain ⟨h1, h2, h3, h4⟩ := h
  refine ⟨h1.sublist (List.drop_sublist _ _), ?_, ?_, ?_⟩
  · refine le_trans ?_ h2
    unfold State.windowUsed State.sentCount
    exact Nat.add_le_add_right ((List.drop_sublist k s.reports).countP_le) _
  · intro j r hj
    have hj : (s.reports.drop k)[j]? = some r := hj
    rw [List.getElem?_drop] at hj
    rw [h3 _ r hj]
    show _ = s.reportCounter - octet ((s.reports.drop k).length - j)
    rw [List.length_drop, Nat.sub_sub]
  · intro m hm
    obtain ⟨r, hr, hn⟩ := h4 m hm
    refine ⟨r, ?_, hn⟩
    show (s.reports.drop k).find? _ = some r
    have : s.reports.find? (fun q => !q.sent) = ((s.reports.take k).find? fun q => !q.sent).or
        ((s.reports.drop k).find? fun q => !q.sent) := by
      rw [← List.find?_append, List.take_append_drop]
    rw [this, List.find?_eq_none.mpr (fun q hq => by simp [all q hq])] at hr
    exact hr

/-- REPORT RESEND returns every SENT report to QUEUED, and marks the one in transmission (R166). -/
theorem inOrder_resend (s : State) (h : s.ReportsInOrder) : s.resend.ReportsInOrder := by
  obtain ⟨_, _, h3, _⟩ := h
  have hu : ∀ r ∈ s.resend.reports, r.sent = false := by
    intro r hr
    obtain ⟨q, _, rfl⟩ := List.mem_map.mp hr
    rfl
  refine ⟨?_, ?_, ?_, ?_⟩
  · exact List.Pairwise.imp_of_mem (R := fun _ _ => True) (fun {a b} _ hb _ hs => absurd hs (by simp [hu b hb]))
      (List.pairwise_of_forall (by simp))
  · have : s.resend.sentCount = 0 := List.countP_eq_zero.mpr fun r hr => by simp [hu r hr]
    unfold State.windowUsed
    rw [this]
    split <;> simp [Config.sendWindow]
  · intro k r hr
    have hr : (s.reports.map fun r => { r with sent := false })[k]? = some r := hr
    rw [List.getElem?_map] at hr
    obtain ⟨q, hq, rfl⟩ := Option.map_eq_some_iff.mp hr
    have hlen : s.resend.reports.length = s.reports.length := by simp [State.resend]
    rw [hlen]
    exact h3 k q hq
  · intro n hn
    simp only [State.resend, Option.map_eq_some_iff] at hn
    obtain ⟨t, _, ht⟩ := hn
    cases t <;> simp [Transmission.resend] at ht

/-- The part's start has one report, in transmission at once (R168). -/
theorem inOrder_restarted (s : State) (c : StartCause) (r : Octet) : (s.restarted c r).ReportsInOrder := by
  unfold State.restarted
  refine inOrder_transmit _ (inOrder_pushReport _ _ _ _ ?_)
  exact ⟨List.Pairwise.nil, Nat.zero_le _, fun k r h => by simp [State.cleared] at h, fun n h => by simp [State.cleared] at h⟩

/-- The tables of the reset state are sound: nothing is in use. -/
theorem tables_cleared (s : State) : s.cleared.TablesSound := by
  have hst : ∀ ix, s.cleared.station ix = Station.cleared := fun ix => by simp [State.cleared, State.reset, State.station]
  have hen : ∀ l, s.cleared.engine l = LineEngine.reset (s.engine l).fault := fun l => by simp [State.cleared, State.engine]
  have hwa : ∀ w, s.cleared.watch w = Watch.cleared := fun w => by simp [State.cleared, State.reset, State.watch]
  have hgr : ∀ g, (s.cleared.group g).members = [] := fun g => by simp [State.cleared, State.reset, State.group]
  refine ⟨fun i j hi => ?_, fun g => ?_, ?_, fun r hr => ?_, List.nodup_nil, fun x => ?_, fun ix _ => ?_⟩
  · rw [hst] at hi; simp [Station.cleared] at hi
  · rw [hgr]; simp
  · exact ⟨List.nodup_nil, List.not_mem_nil, List.not_mem_nil, show (1 : Word) ≠ 0 by decide⟩
  · simp [State.cleared, State.reset] at hr
  · refine ⟨fun h => by simp [State.cleared, State.reset] at h, fun h => ?_⟩
    cases x with
    | station ix => simp [State.latched, hst, Station.cleared] at h
    | line l => simp [State.latched, hen, LineEngine.reset] at h
    | watch w => simp [State.latched, hwa, Watch.cleared] at h
  · rw [hst]; rfl

/-! ## Commands whole -/

/-- What a command may do to the tables and to the report list, where the stores are sound. -/
structure Tabled (s t : State) : Prop where
  tables : s.HitsPending → s.RecordsBounded → s.TablesSound → t.TablesSound
  reports : s.ReportsInOrder → t.ReportsInOrder

theorem Booked.tabled {s t : State} (h : Booked s t) : Tabled s t := ⟨fun _ r => h.tables r, h.reports⟩

theorem Filed.tabled {s t : State} (h : Filed s t) : Tabled s t := h.toBooked.tabled

theorem Tabled.refl (s : State) : Tabled s s := ⟨fun _ _ => id, id⟩

theorem Tabled.trans {s t u : State} (h : Tabled s t) (q : Safe s t) (k : Tabled t u) : Tabled s u :=
  ⟨fun a b c => k.tables (q.hits a) (q.records b) (h.tables a b c), k.reports ∘ h.reports⟩

theorem tabled_choose (s : State) (b : Bool) : Tabled s (s.choose b) := by
  refine ⟨fun _ _ k => ?_, inOrder_choose s b⟩
  unfold State.choose
  split
  · exact k
  · split
    · exact k
    · exact tables_host rfl rfl rfl rfl rfl rfl rfl rfl k
    · exact tables_host rfl rfl rfl rfl rfl rfl rfl rfl k
    · split <;> exact tables_host rfl rfl rfl rfl rfl rfl rfl rfl k

theorem tabled_transmit (s : State) : Tabled s s.transmit := by
  refine ⟨fun a b k => ?_, inOrder_transmit s⟩
  unfold State.transmit
  split
  · exact tables_host rfl rfl rfl rfl rfl rfl rfl rfl ((tabled_choose s (Config.reportOfferFirst s.choices)).tables a b k)
  · exact (tabled_choose s _).tables a b k

/-- A change of the host link's fields alone, the transmission not among them. -/
theorem tabled_host {s t : State}
    (h : t = { s with
      pending := t.pending, resetAsserted := t.resetAsserted, partTime := t.partTime, linkRate := t.linkRate, rx := t.rx
      inputQueue := t.inputQueue, restarting := t.restarting, replyQueue := t.replyQueue, choices := t.choices }) :
    Tabled s t := by
  rw [h]; exact ⟨fun _ _ k => tables_host rfl rfl rfl rfl rfl rfl rfl rfl k, fun k => inOrder_host rfl rfl rfl k⟩

/-- A request served: what its owner may do, then its reply and the transmitter's choice. -/
theorem tabled_serve (s : State) (f : HostFrame) (owner : State → State × Answer) (h : ∀ t, Tabled t (owner t).1)
    (ho : ∀ t, Owned t (owner t).1) : Tabled s (s.serve f owner) := by
  unfold State.serve
  split
  · exact Tabled.refl s
  · next t ht =>
    have q : Tabled s t ∧ Safe s t := by
      unfold State.takeFrame at ht
      split at ht
      · simp at ht
      · split at ht
        · split at ht
          · simp only [Option.some.injEq] at ht; subst ht; exact ⟨Tabled.refl s, Safe.refl s⟩
          · simp at ht
        · split at ht
          · simp only [Option.some.injEq] at ht; subst ht; exact ⟨tabled_host rfl, safe_host rfl rfl⟩
          · simp at ht
    have put : ∀ (u : State) (a : Answer), Tabled u (u.putReply f a) := fun u a => tabled_host rfl
    have puts : ∀ (u : State) (a : Answer), Safe u (u.putReply f a) := fun u a => safe_host rfl rfl
    split
    · exact Tabled.trans (q.1.trans q.2 (put _ _)) (q.2.trans (puts _ _)) (tabled_transmit _)
    · exact Tabled.trans ((q.1.trans q.2 (h t)).trans (q.2.trans (ho t).toSafe) (put _ _))
        ((q.2.trans (ho t).toSafe).trans (puts _ _)) (tabled_transmit _)

theorem tabled_out (s : State) (f : State → State) (h : Tabled s (f s)) : Tabled s (s.whenOutOfReset f) := by
  unfold State.whenOutOfReset; split; exact Tabled.refl s; exact h

theorem tabled_watchSet (b : List Octet) (s : State) : Tabled s (watchSetOwner b s).1 := by
  refine ⟨fun h r => (booked_watchSetOwner b s h).tables r, ?_⟩
  unfold watchSetOwner
  split
  · split
    · exact id
    · split
      · unfold State.withStation
        split
        · split
          · dsimp only
            unfold State.setWatchOn
            split
            · exact id
            · split
              · exact id
              · exact inOrder_host rfl rfl rfl
          · exact id
        · exact id
      · exact id
  · exact id

theorem tabled_confirm (b : List Octet) (s : State) : Tabled s (reportConfirmOwner b s).1 := by
  unfold reportConfirmOwner
  split
  · split
    · exact Tabled.refl s
    · next k hk =>
      refine ⟨fun _ r h => ?_, fun h => inOrder_confirm s _ k h hk⟩
      unfold State.confirm
      exact (filed_draw _).toBooked.tables (s := { s with reports := withoutConfirmed s.reports k }) r (tables_host rfl rfl rfl rfl rfl rfl rfl rfl h)
  · exact Tabled.refl s

theorem tabled_resend (b : List Octet) (s : State) : Tabled s (reportResendOwner b s).1 := by
  unfold reportResendOwner
  split
  · exact ⟨fun _ _ h => tables_host rfl rfl rfl rfl rfl rfl rfl rfl h, inOrder_resend s⟩
  · exact Tabled.refl s

theorem tabled_raise (s : State) (r : NoticeReason) (t : Octet) : Tabled s (s.raiseNotice r t) := by
  unfold State.raiseNotice; split <;> exact tabled_host rfl

theorem tabled_cut (s : State) : Tabled s s.cutByGap := by
  unfold State.cutByGap
  split
  · exact Tabled.refl s
  · exact Tabled.trans (t := { s with rx := .hunt }) (tabled_host rfl) (safe_host rfl rfl) (tabled_raise _ _ _)

theorem tabled_discard (s : State) (r : NoticeReason) : Tabled s (s.discard r) :=
  Tabled.trans (t := { s with rx := .hunt }) (tabled_host rfl) (safe_host rfl rfl) (tabled_raise _ _ _)

theorem tabled_receive (s : State) (o : Octet) (m : Bool) : Tabled s (s.receive o m) := by
  unfold State.receive
  split
  · split
    · exact tabled_host rfl
    · exact Tabled.refl s
  · unfold State.takeLength
    split
    · exact tabled_host rfl
    · exact tabled_discard s _
  · exact tabled_host rfl
  · exact tabled_host rfl
  · unfold State.judgeFrame
    split
    · exact tabled_discard s _
    · split
      · exact tabled_discard s _
      · exact tabled_host rfl

theorem tabled_none (s : State) : Tabled s { s with tx := none } :=
  ⟨fun _ _ h => tables_host rfl rfl rfl rfl rfl rfl rfl rfl h, inOrder_txNone s⟩

/-- A frame's last octet has left: the tables and, where the list is no longer than the report queue, its order are kept. -/
theorem frameSent_ok (s : State) (t : Transmission) (ht : s.tx = some t) :
    (s.HitsPending → s.RecordsBounded → s.TablesSound → (s.frameSent t).TablesSound) ∧
    (s.reports.length ≤ 48 → s.ReportsInOrder → (s.frameSent t).ReportsInOrder) := by
  have lift : ∀ u, Tabled s u →
      (s.HitsPending → s.RecordsBounded → s.TablesSound → u.TablesSound) ∧
      (s.reports.length ≤ 48 → s.ReportsInOrder → u.ReportsInOrder) := fun u h => ⟨h.1, fun _ => h.2⟩
  unfold State.frameSent
  split
  · split
    · next code _ =>
      refine lift _ ((tabled_none s).trans (safe_host rfl rfl) ?_)
      unfold State.switchRate
      split
      · exact Tabled.refl _
      · exact Tabled.trans (t := { s with tx := none, linkRate := code }) (tabled_host rfl) (safe_host rfl rfl) (tabled_cut _)
    · exact lift _ (tabled_none s)
  · exact lift _ (tabled_none s)
  · next n resent =>
    refine ⟨fun _ _ h => tables_host rfl rfl rfl rfl rfl rfl rfl rfl h, fun hl h => ?_⟩
    cases resent with
    | false => exact inOrder_markSent s n h hl ht
    | true =>
      have : markSent s.reports n true = s.reports := by simp [markSent]
      rw [this]; exact inOrder_txNone s h

theorem tabled_restarted (s : State) (c : StartCause) (r : Octet) : Tabled s (s.restarted c r) := by
  refine ⟨fun a b h => ?_, fun _ => inOrder_restarted s c r⟩
  unfold State.restarted
  have q := safe_cleared s
  have h1 := tables_cleared s
  have h2 := (filed_pushReport ({ s.cleared with resetAsserted := false, linkRate := r } : State) (.partStarted c 0) [] 0).toBooked.tables
    (q.records b) (tables_host rfl rfl rfl rfl rfl rfl rfl rfl h1)
  exact (tabled_transmit _).tables (q.hits a) (q.records b) h2

theorem tabled_finish (s : State) (l : LineNo) (c : AttemptClass) (b : Bool) (hs : (s.engine l).state = .awaiting) :
    Tabled s (s.finishAttempt l c b) := by
  unfold State.finishAttempt
  exact ((booked_attemptEnd s l c b).trans (filed_selectWork _ l).toBooked).tabled.trans
    ((owned_attemptEnd s l c b hs).trans (owned_selectWork _ l)).toSafe (tabled_transmit _)

theorem tabled_awaiting (s : State) (l : LineNo) (f : State → Transaction → Reception → State)
    (h : ∀ t r, (s.engine l).state = .awaiting → Tabled s (f s t r)) : Tabled s (s.whenAwaiting l f) := by
  refine tabled_out s _ ?_
  split
  · next hs _ _ => exact h _ _ hs
  · exact Tabled.refl s

theorem tabled_setReception (s : State) (l : LineNo) (r : Reception) : Tabled s (s.setReception l r) :=
  (filed_onEngine s l _ (by exact fun _ => rfl)).tabled

theorem tabled_reply (s : State) (l : LineNo) (t : Transaction) (r : Reception) (c : DropChar)
    (hs : (s.engine l).state = .awaiting) : Tabled s (s.replyCharacter l t r c) := by
  unfold State.replyCharacter
  split
  · exact tabled_setReception s l _
  · exact Tabled.refl s
  · exact tabled_setReception s l _
  · exact tabled_finish s l _ _ hs
  · split
    · exact tabled_setReception s l _
    · exact tabled_setReception s l _
    · exact tabled_finish s l _ _ hs
  · exact Tabled.refl s

end Machine

end Sys2Proof
end

