-- ==== Sys2Proof/Tests/Slice0.lean ====
section
/-! SUPPORT. The model's own tests: the well-formedness checks, octets the spec writes out, one step of each command, and a state that meets the hypotheses of each statement. -/

namespace Sys2Proof

namespace Tests

set_option Elab.async false

open Machine

/-! ## Small states -/

/-- The part after a reset, with PART STARTED sent and confirmed. -/
def idle : State :=
  { State.reset with tx := none, reports := [] }

/-- A station entry. -/
def entry (l : LineNo) (a : Octet) (state : StationState) : Station :=
  { Station.cleared with line := l, address := a, state := state }

/-- A station as records hold it. -/
def ref (ix : StationIx) (l : LineNo) (a : Octet) : StationRef :=
  { index := ix, line := l, address := a }

/-- An engine in a state, with a transaction and a reception. -/
def engineIn (state : LineState) (tx : Option Transaction) (reception : Option Reception) : LineEngine :=
  { LineEngine.reset false with state := state, tx := tx, reception := reception, cycleState := .running }

/-- Stations in every state on line 0, which is IDLE in its guard; one on line 3 at the highest address; one on line 1, which is OFF. -/
def table : State :=
  ((((((((((idle.setStation 0 (entry 0 1 .online)).setStation 1 (entry 0 2 .probing)).setStation 2
    (entry 0 3 .retiring)).setStation 3 (entry 0 4 .missing)).setStation 4 (entry 0 5 .suspended)).setStation 5
    (entry 0 6 .resync)).setStation 6 (entry 3 239 .online)).setStation 7 (entry 1 5 .probing)).setEngine 0
    { engineIn .idle none none with guardRunning := true }).setEngine 3 { engineIn .idle none none with guardRunning := true })

/-- An order record with its blocks. -/
def record (n : Word) (kind : OrderKind) (state : OrderState) (ix : StationIx) (l : LineNo) (a : Octet) : OrderRecord :=
  { number := n, kind := kind, source := .host, priority := .normal, line := l, station := some (ref ix l a), group := none,
    state := state, cancelFlag := false, length := 0, blocks := [], nextStep := .groupData, passStep := none }

/-- A number of waiting orders, numbered from 1. -/
def waiting (n : Nat) : List OrderRecord :=
  (List.range n).map fun k => record (BitVec.ofNat 16 (k + 1)) .send .queued 7 1 5

/-- A pass on a line. -/
def passOn (n : Word) (l : LineNo) (next : PassNext) (step : Option PassStep) : OrderRecord :=
  { record n .groupPass .queued 0 l 0 with source := .delivery, station := none, nextStep := next, passStep := step }

/-- A member of a snapshot. -/
def snap (ix : StationIx) (l : LineNo) (a : Octet) (state : DeliveryMemberState) : DeliveryMember :=
  { station := ref ix l a, state := state, attempts := 0, repaired := false, fate := none }

/-- A delivery of group 0 with its snapshot. -/
def deliveryTo (n : Word) (outstanding : Nat) (snapshot : List DeliveryMember) : Delivery :=
  { number := n, group := 0, seq := 1, priority := .normal, cancelling := false, length := 0, blocks := [], excluded := 0,
    outstanding := outstanding, snapshot := snapshot, roster := [] }

/-- A transaction in flight. -/
def txOn (kind : TxKind) (work : TxWork) (station : Option StationIx) (a : Octet) (type : FrameType) : Transaction :=
  { kind := kind, work := work, station := station, target := a,
    frame := { address := a, type := type, bit := false, payload := [] }, attemptLimit := 3, attemptsUsed := 0, heard := false,
    lastHeard := none, whollySent := 0, lastResult := none, suspended := false }

/-- Line 0 polls station 1. -/
def pollOne : Transaction :=
  txOn .poll .pollStep (some 0) 1 .poll

/-- A watch of station 0 with one condition on bit 15. -/
def watchOn (state : WatchState) (c : Condition) (combine : Combine) (hit : Option Hit) : Watch :=
  { state := state, station := some (ref 0 0 1), conditions := (Vector.replicate 16 .ignore).set 15 c, combine := combine,
    oneShot := false, hit := hit }

/-- A hit on the word 1. -/
def oneHit : Hit :=
  { previous := some 0, matching := 1, latest := 1, repeats := 255, time := 0 }

/-- A report of a number. -/
def reportOf (n : Octet) (sent : Bool) : Report :=
  { number := n, items := .partStarted .pin 0, blocks := [], length := 0, sent := sent }

/-- A reply that waits. -/
def okReply : Reply :=
  { kind := 0x82, tag := 1, code := .ok, data := [], rate := none }

/-- A notice that waits. -/
def gapNotice : Notice :=
  { reason := .gap, tag := 0, count := 255 }

/-- The state after a command; the state itself where the command stops. -/
def after (i : Instr) (s : State) : State :=
  match exec i s with
  | .next t => t
  | .fault _ => s
  | .refused _ => s

/-- The state with the transmitter busy sending a notice, so that a reply and a report that come together both wait (R181). -/
def busy (s : State) : State :=
  { s with tx := some (.notice gapNotice) }

/-- The BODY of the reply to a request, queued behind a notice in transmission. -/
def answered (i : Instr) (s : State) : Option (List Octet) :=
  match (after i (busy s)).replyQueue.getLast? with
  | some (.reply r) => some r.frame.body
  | _ => none

/-- The request unit can take the frame of `i` in `s` with an empty input queue, which leaves `s` as it is [log 4]. -/
def takes (i : Instr) (s : State) : Bool :=
  match i.frame with
  | some f =>
      !s.resetAsserted && !decide (Config.replyPlaces ≤ s.replyPlacesInUse) && s.inputQueue.isEmpty && decide (s.rx = .hunt) &&
        !s.restarting && decide (f.body.length ≤ 140)
  | none => false

/-- What `takes` computes is what the statements assume. -/
theorem taken_of_takes {i : Instr} {s : State} (h : takes i s = true) : Taken i s s := by
  unfold takes at h
  cases hf : i.frame with
  | none => rw [hf] at h; cases h
  | some f =>
      rw [hf] at h
      simp only [Bool.and_eq_true, Bool.not_eq_true', decide_eq_true_eq, decide_eq_false_iff_not, List.isEmpty_iff] at h
      obtain ⟨⟨⟨⟨⟨reset, places⟩, queue⟩, rx⟩, restarting⟩, body⟩ := h
      exact ⟨f, hf, by simp [State.takeFrame, reset, places, queue, rx, restarting, body], restarting⟩

/-! ## Well-formedness and decoding -/

/-- A body of 140 octets fits a host frame. -/
theorem test_wellFormed_longest_body : (Instr.send 1 (List.replicate 140 0)).wellFormed = true := by decide +kernel

/-- A body of 141 octets does not. -/
theorem test_illFormed_body_too_long : (Instr.send 1 (List.replicate 141 0)).wellFormed = false := by decide +kernel

/-- UNKNOWN_KIND with the KIND of a reply is a command. -/
theorem test_wellFormed_unknown_kind : (Instr.unknownKind 0xE0 1 []).wellFormed = true := by decide

/-- UNKNOWN_KIND with the KIND of a request is not. -/
theorem test_illFormed_known_kind : (Instr.unknownKind 0x61 1 []).wellFormed = false := by decide

/-- No word spells a command. -/
theorem test_no_word_spells_a_command : decodeTableWord 8 0x30 = none ∧ idle.withFetchWord 8 0x30 = idle := ⟨rfl, rfl⟩

/-! ## Octets that the spec writes out -/

/-- The CRC's check value (R8). -/
theorem test_crc_check_value : crc [0x31, 0x32, 0x33, 0x34, 0x35, 0x36, 0x37, 0x38, 0x39] = 0x29B1 := by decide +kernel

/-- The host's SEND frame of section 9.7: SOF, LEN, KIND, TAG, BODY and the CRC, 14 octets. -/
theorem test_host_frame_of_section_9_7 :
    (frameOctets ⟨0x30, 0x2A, [0, 7, 0, 0, 3, 0x10, 0x20, 0x30]⟩).take 12 =
      [0xD4, 0x0A, 0x30, 0x2A, 0, 7, 0, 0, 3, 0x10, 0x20, 0x30] ∧
    (frameOctets ⟨0x30, 0x2A, [0, 7, 0, 0, 3, 0x10, 0x20, 0x30]⟩).length = 14 := by decide +kernel

/-- The first octets of a GROUP DATA frame to group 6 with sequence 0 (section 5.12, R5, R7): 46 characters for 40 octets. -/
theorem test_group_data_frame_of_section_5_12 :
    let f : DropFrame := { address := 0xF6, type := .groupData, bit := false, payload := 0x60 :: List.replicate 40 7 }
    f.octets.take 4 = [0xF6, 0x70, 41, 0x60] ∧ f.octets.length = 46 := by decide +kernel

/-- The worked poll of section 1.11 at the default rate: the POLL is 5 characters, the window runs 24, the reply takes 8 and the
guard 2; with no answer the next transmission begins at 319 bit times. -/
theorem test_poll_of_section_1_11 :
    let poll : DropFrame := { address := 5, type := .poll, bit := false, payload := [] }
    let status : DropFrame := { address := 5, type := .status, bit := false, payload := [0, 1, 0] }
    let p := LineParams.default
    poll.octets.take 3 = [5, 0x10, 0] ∧ poll.bits.length = 5 * 11 ∧
    poll.bits.take 22 =
      [false, true, false, true, false, false, false, false, false, true, true,
       false, false, false, false, false, true, false, false, false, false, true] ∧
    frameTime p poll + windowTime p = 319 * bitTime p ∧
    frameTime p poll + charTimes p 1 + frameTime p status + guardTime p = 176 * bitTime p := by decide +kernel

/-- A character time at each rate code, in hundredths of a microsecond, on a drop line (R3) and on the host link (R170). -/
theorem test_character_times :
    ([0, 1, 2, 3, 4, 5, 6, 7].map fun code : Octet => hundredths (charTimes { LineParams.default with rate := code } 1)) =
      [114583, 57292, 28646, 19097, 14323, 9549, 4774, 2387] ∧
    ([0, 1, 2, 3, 4, 5].map fun code : Octet => hundredths (hostCharTimes code 1)) =
      [26042, 17361, 8681, 4340, 2170, 1085] := by decide +kernel

/-- A receiver takes the two first characters of a frame, each with its times (R1, R2). -/
theorem test_receiver_takes_characters :
    DropReceiver.reset.samples 100 (characterBits 5 true ++ [true, true] ++ characterBits 0x10 false) =
      (.ready, [{ char := .header 5, start := 100, stop := 111 }, { char := .body 0x10, start := 113, stop := 124 }]) := by
  decide +kernel

/-- A line clear heard is one break: after it no start bit is taken until the input is at mark (R2, R13). A stop bit at space in
any other character is a framing error. -/
theorem test_receiver_break :
    DropReceiver.ready.samples 0 lineClearBits = (.ready, [{ char := .breakChar, start := 0, stop := 11 }]) ∧
    (DropReceiver.ready.samples 0 (List.replicate 24 false)).1 = .holdOff ∧
    (DropReceiver.ready.samples 0 [false, true, false, false, false, false, false, false, false, false, false]).2 =
      [{ char := .framingError, start := 0, stop := 11 }] := by decide +kernel

/-- Two characters of the host link, one after the other, and a break: no start bit is taken until the input is at mark (R170, R174). -/
theorem test_hostReceiver :
    HostReceiver.ready.samples
        ([false, false, false, true, false, true, false, true, true, true, false] ++ List.replicate 8 true ++ [true]) =
      (.ready, [(0xD4, true), (0xFF, true)]) ∧
    HostReceiver.ready.samples (List.replicate 24 false ++ [true, false]) = (.taking 1 0, [(0, false)]) := by decide +kernel

/-- A gap of exactly 30 bit times inside a frame is no failure, one of 31 is; after a break it is measured from the break's end, and
in HUNT nothing is (R174). -/
theorem test_hostGap :
    let s : State := { idle with rx := .body 4 [0x30, 9] 0 }
    (s.hostHear { receiver := .ready, ended := 100 } 129 true).2 = none ∧
    (s.hostHear { receiver := .ready, ended := 100 } 130 true).2 = some .hostGapTimeout ∧
    s.hostHear { receiver := .ready, ended := 100 } 130 false = ({ receiver := .taking 1 0, ended := 100 }, none) ∧
    s.hostHear { receiver := .holdOff, ended := 100 } 130 false = ({ receiver := .holdOff, ended := 131 }, none) ∧
    (idle.hostHear { receiver := .ready, ended := 100 } 900 true).2 = none := by decide +kernel

/-- A character that has begun as the link rate changes is abandoned; what is left of it is no start bit (R171) [log 27]. -/
theorem test_hostReceiver_rate :
    let s : State := { idle with tx := some (.reply { okReply with rate := some 5 }) }
    (HostReceiver.taking 4 6).across .hostFrameSent s = .holdOff ∧
    (HostReceiver.taking 4 6).across .hostFrameSent { s with linkRate := 5 } = .taking 4 6 ∧
    HostReceiver.holdOff.samples [false, false, true, true, false] = (.taking 1 0, []) := by decide +kernel

/-- The suspended octet of LINE STATUS is 0 where no transaction is in flight [log 25]. -/
theorem test_noTransaction : transactionOctets none = [0xFF, 0xFF, 0, 0] := by decide +kernel

/-- A STARTING engine drives its line clear, an IDLE one and the host link at rest are at mark (R1, R13, R170). -/
theorem test_outputs :
    ((List.range 36).map (engineIn .starting none none).dataOut) = lineClearBits ++ [true] ∧
    (engineIn .idle none none).dataOut 7 = true ∧ idle.hostDataOut 0 = true ∧ State.reset.hostDataOut 0 = false := by decide +kernel

/-- The part after the release of RESET is the part after reset (R188). -/
theorem test_reset_release_gives_reset : after .resetRelease (after .resetAssert State.reset) = State.reset := by decide +kernel

/-! ## One step of each command -/

/-- IDENTIFY answers the fixed codes and capacities (R184). -/
theorem test_identify :
    answered (.identify 9 []) idle = some [0, 0x52, 0x04, 0x16, 1, 4, 96, 16, 24, 32, 40, 4, 160, 48] := by decide +kernel

/-- PART STATUS of the idle part (R185). -/
theorem test_partStatus : answered (.partStatus 9 []) idle = some [0, 0, 0, 0, 0, 40, 160, 48, 0, 0, 1, 4] := by decide +kernel

/-- SET LINK RATE answers the code in force and the code requested (R171). -/
theorem test_setLinkRate : answered (.setLinkRate 9 [5]) idle = some [0, 2, 5] := by decide +kernel

/-- The rate changes as the reply's last octet leaves (R171). -/
theorem test_setLinkRate_takes_effect :
    (after (.setLinkRate 9 [5]) idle).linkRate = 2 ∧
    (after .hostFrameSent (after (.setLinkRate 9 [5]) idle)).linkRate = 5 := by decide +kernel

/-- RESTART is accepted (R186). -/
theorem test_restart : answered (.restart 9 [1]) idle = some [0] ∧ (after (.restart 9 [1]) idle).restarting = true := by
  decide +kernel

/-- LINE SET of an OFF line (R26). -/
theorem test_lineSet :
    answered (.lineSet 9 [1, 7, 255, 7, 15, 15, 255, 255, 255]) table = some [0] ∧
    answered (.lineSet 9 [1, 7, 3, 7, 15, 15, 255, 255, 255]) table = some [3] := by decide +kernel

/-- LINE START of an OFF line with FAULT released (R27). -/
theorem test_lineStart :
    answered (.lineStart 9 [1]) table = some [0] ∧ ((after (.lineStart 9 [1]) table).engine 1).state = .starting := by
  decide +kernel

/-- LINE STOP of an IDLE line: OFF at once, its stations PROBING, a LINE EVENT and one DOWN report for each that was present
(R28, R29, R69). -/
theorem test_lineStop :
    let t := after (.lineStop 9 [0]) (busy table)
    (t.engine 0).state = .off ∧ (t.station 0).state = .probing ∧ (t.station 3).state = .probing ∧
    (t.station 4).state = .suspended ∧ t.reports.length = 3 := by decide +kernel

/-- LINE STATUS has 35 octets after the result code (R194). -/
theorem test_lineStatus : (answered (.lineStatus 9 [3, 1]) table).map List.length = some 36 := by decide +kernel

/-- STATION ADD fills the FREE entry of lowest index (R71). -/
theorem test_stationAdd :
    answered (.stationAdd 9 [2, 239, 2, 1]) table = some [0, 8] ∧
    ((after (.stationAdd 9 [2, 239, 2, 1]) table).station 8).state = .probing := by decide +kernel

/-- STATION REMOVE with no transaction in flight leaves the entry FREE (R72). -/
theorem test_stationRemove :
    answered (.stationRemove 9 [3, 239]) table = some [0, 0, 0] ∧
    (after (.stationRemove 9 [3, 239]) table).station 6 = Station.cleared := by decide +kernel

/-- STATION SUSPEND of an ONLINE station latches DOWN, drawn at once (R74, R161). -/
theorem test_stationSuspend :
    answered (.stationSuspend 9 [0, 1]) table = some [0, 0] ∧
    (after (.stationSuspend 9 [0, 1]) (busy table)).reports.length = 1 := by decide +kernel

/-- STATION SUSPEND of an entry already SUSPENDED selects no work on its line, though a poll cycle could begin there (R74). -/
theorem test_stationSuspend_again :
    let s := table.setEngine 0 { engineIn .idle none none with cycleState := .complete }
    s.cycleMayBegin 0 = true ∧ (after (.stationSuspend 9 [0, 5]) s).engine 0 = s.engine 0 := by decide +kernel

/-- A station that joins an empty poll list begins a cycle whose floor has passed, after a hold too; one that joins others leaves the
cycle to work selection (R45) [log 20]. -/
theorem test_join_begins_cycle_of_empty_list :
    let held := fun l e => table.setEngine l { engineIn e (some pollOne) none with cycleState := .complete }
    ((after (.stationAdd 9 [2, 1, 0, 0]) (held 2 .sending)).engine 2).cycleCount = 1 ∧
    ((after (.stationAdd 9 [2, 1, 0, 0]) (held 2 .starting)).engine 2).cycleCount = 1 ∧
    ((after (.stationAdd 9 [0, 9, 0, 0]) (held 0 .sending)).engine 0).cycleCount = 0 := by decide +kernel

/-- STATION RESUME (R76). -/
theorem test_stationResume :
    answered (.stationResume 9 [0, 5]) table = some [0] ∧
    ((after (.stationResume 9 [0, 5]) table).station 4).state = .probing := by decide +kernel

/-- STATION SET (R77). -/
theorem test_stationSet :
    answered (.stationSet 9 [0, 1, 2, 1]) table = some [0] ∧
    ((after (.stationSet 9 [0, 1, 2, 1]) table).station 0).pollClass = .slow := by decide +kernel

/-- STATION QUERY of an ONLINE station that has told nothing yet (R78, R194). -/
theorem test_stationQuery :
    answered (.stationQuery 9 [0, 1]) table =
      some [0, 0, 0, 1, 2, 1, 0, 0, 0, 0, 0, 0, 0, 0, 0, 0, 0, 0xFF, 0, 0, 0, 0xFF, 0, 0, 0] := by decide +kernel

/-- The SEND of section 9.7, accepted as number 17. -/
theorem test_send_of_section_9_7 :
    let s := { table with orderCounter := 17 }.setStation 0 (entry 0 7 .online)
    answered (.send 0x2A [0, 7, 0, 0, 3, 0x10, 0x20, 0x30]) s = some [0x00, 0x00, 0x11] ∧
    (after (.send 0x2A [0, 7, 0, 0, 3, 0x10, 0x20, 0x30]) s).pool = [(0, 0x10), (1, 0x20), (2, 0x30)] := by decide +kernel

/-- Its reply's frame, of 9 octets, and the same request with the reserved octet 1 (section 9.7). -/
theorem test_send_replies_of_section_9_7 :
    let s := { table with orderCounter := 17 }.setStation 0 (entry 0 7 .online)
    (after (.send 0x2A [0, 7, 0, 0, 3, 0x10, 0x20, 0x30]) s).sendingOctets.take 7 = [0xD4, 5, 0xB0, 0x2A, 0x00, 0x00, 0x11] ∧
    (after (.send 0x2A [0, 7, 0, 0, 3, 0x10, 0x20, 0x30]) s).sendingOctets.length = 9 ∧
    (after (.send 0x2A [0, 7, 0, 1, 3, 0x10, 0x20, 0x30]) s).sendingOctets.take 5 = [0xD4, 3, 0xB0, 0x2A, 0x01] := by
  decide +kernel

/-- FETCH takes 4 blocks (R152). -/
theorem test_fetch :
    answered (.fetch 9 [3, 239, 1, 0]) table = some [0, 0, 1] ∧
    (after (.fetch 9 [3, 239, 1, 0]) table).freeBlocks.length = 156 := by decide +kernel

/-- CANCEL of a waiting SEND completes it AT ONCE (R100). -/
theorem test_cancel :
    answered (.cancel 9 [0, 1]) { table with orders := waiting 1, reserved := 1 } = some [0, 1, 1] ∧
    answered (.cancel 9 [0, 2]) { table with orders := waiting 1, reserved := 1 } = some [4] := by decide +kernel

/-- ORDER QUERY of the second order in a queue (R103). -/
theorem test_orderQuery :
    answered (.orderQuery 9 [0, 2]) { table with orders := waiting 2, reserved := 2 } =
      some [0, 0, 2, 1, 1, 0, 7, 1, 5, 0xFF, 1, 1, 0xFF, 0, 0, 0, 0] := by decide +kernel

/-- MEMBER ADD makes a JOINING member and a JOIN order (R109). -/
theorem test_memberAdd :
    answered (.memberAdd 9 [15, 3, 239]) table = some [0, 0, 1] ∧
    ((after (.memberAdd 9 [15, 3, 239]) table).group 15).members = [⟨ref 6 3 239, .joining⟩] := by decide +kernel

/-- MEMBER DROP of a LAPSED member removes it at once, with order number 0 (R111). -/
theorem test_memberDrop :
    answered (.memberDrop 9 [15, 3, 239]) (table.setGroup 15 { members := [⟨ref 6 3 239, .lapsed⟩], seq := 0 }) =
      some [0, 0, 0] := by decide +kernel

/-- The GROUP SEND of section 5.12: delivery 52, sequence 0, snapshot 3, waiting 3, unreached 0, excluded 1. -/
theorem test_groupSend_of_section_5_12 :
    let s := ((((({ idle with orderCounter := 52, reserved := 1, orders := [record 50 .join .queued 3 3 11] } : State).setStation 0
      (entry 3 2 .online)).setStation 1 (entry 3 5 .online)).setStation 2 (entry 3 8 .online)).setGroup 6
        { members := [⟨ref 0 3 2, .active⟩, ⟨ref 3 3 11, .joining⟩, ⟨ref 1 3 5, .active⟩, ⟨ref 2 3 8, .active⟩], seq := 15 }).setEngine 3
          { engineIn .idle none none with guardRunning := true }
    answered (.groupSend 9 (6 :: 0 :: 0 :: 40 :: List.replicate 40 7)) s = some [0, 0, 52, 0, 3, 3, 0, 1] ∧
    (after (.groupSend 9 (6 :: 0 :: 0 :: 40 :: List.replicate 40 7)) s).freeBlocks.length = 158 := by decide +kernel

/-- GROUP QUERY of a group with one ACTIVE member (R114). -/
theorem test_groupQuery :
    answered (.groupQuery 9 [15]) (table.setGroup 15 { members := [⟨ref 6 3 239, .active⟩], seq := 15 }) =
      some [0, 15, 15, 1, 0xFF, 0, 0, 0xFF, 0, 0, 1, 6, 3, 239, 0x20, 0] := by decide +kernel

/-- WATCH SET arms the FREE entry of lowest number (R143). -/
theorem test_watchSet :
    answered (.watchSet 9 ([0, 1] ++ List.replicate 15 0 ++ [3, 1, 1])) table = some [0, 0] ∧
    (((after (.watchSet 9 ([0, 1] ++ List.replicate 15 0 ++ [3, 1, 1])) table).watch 0).conditions[0]) = .rise := by
  decide +kernel

/-- WATCH CLEAR answers the state the entry had (R143). -/
theorem test_watchClear :
    answered (.watchClear 9 [31]) (table.setWatch 31 (watchOn .pending .high .all (some oneHit))) = some [0, 2] := by decide +kernel

/-- WATCH REARM of a SPENT entry (R144). -/
theorem test_watchRearm :
    answered (.watchRearm 9 [31]) (table.setWatch 31 (watchOn .spent .high .all none)) = some [0, 3] ∧
    ((after (.watchRearm 9 [31]) (table.setWatch 31 (watchOn .spent .high .all none))).watch 31).state = .armed := by decide +kernel

/-- WATCH QUERY of a FREE entry (R145). -/
theorem test_watchQuery : answered (.watchQuery 9 [31]) table = some [0, 31, 0] := by decide +kernel

/-- REPORT CONFIRM frees the SENT reports up to the one named (R165, section 7.9). -/
theorem test_reportConfirm :
    answered (.reportConfirm 9 [103])
      { table with reports := (List.range 8).map fun k => reportOf (100 + octet k) true } = some [0, 4, 4] := by decide +kernel

/-- REPORT RESEND returns them to QUEUED, and marks the report in transmission (R166). -/
theorem test_reportResend :
    (after (.reportResend 9 []) { table with reports := [reportOf 104 true, reportOf 105 false], tx := some (.report 105 false) }).tx =
      some (.report 105 true) ∧
    ((after (.reportResend 9 []) { table with reports := [reportOf 104 true], tx := some (.report 105 false) }).reports.map
      Report.sent) = [false] := by decide +kernel

/-- A KIND that names no request (R192). -/
theorem test_unknownKind : answered (.unknownKind 0xE0 9 [1, 2, 3]) table = some [2] := by decide +kernel

/-- The receiver opens a frame at SOF, and at nothing else (R173). -/
theorem test_hostCharacter :
    (after (.hostCharacter 0xD4 true) idle).rx = .length 0 ∧ (after (.hostCharacter 0xD4 false) idle).rx = .hunt := by decide +kernel

/-- A gap inside a frame raises a notice (R174, R176). -/
theorem test_hostGapTimeout :
    (after .hostGapTimeout { idle with rx := .body 4 [0x30, 9] 0 }).tx = some (.notice { reason := .gap, tag := 9, count := 1 }) := by
  decide +kernel

/-- A report becomes SENT as its last octet leaves (R182). -/
theorem test_hostFrameSent : (after .hostFrameSent State.reset).reports.map Report.sent = [true] := by decide +kernel

/-- RESTART takes effect with cause REQUEST (R187, R168). -/
theorem test_restartEffect :
    (after .restartEffect { idle with restarting := true, linkRate := 5 }) =
      { State.reset with reports := [partStarted .request], linkRate := 5 } := by decide +kernel

/-- RESET holds the part (R188). -/
theorem test_resetAssert : (after .resetAssert table).orders = [] ∧ (after .resetAssert table).resetAsserted = true := by decide +kernel

/-- RESET released with the input already released changes nothing [log 3]. -/
theorem test_resetRelease : after .resetRelease table = table := by decide +kernel

/-- FAULT asserted at an IDLE line: HELD, with the hold timer (R46). -/
theorem test_faultAssert :
    ((after (.faultAssert 0) table).engine 0).state = .held ∧ ((after (.faultAssert 0) table).engine 0).holdRunning = true := by
  decide +kernel

/-- FAULT released at a HELD line: STARTING (R47). -/
theorem test_faultRelease :
    ((after (.faultRelease 0) (after (.faultAssert 0) table)).engine 0).state = .starting := by decide +kernel

/-- The hold expires: OFF with HOLD EXPIRED (R48). -/
theorem test_holdExpiry :
    ((after (.holdExpiry 0) (after (.faultAssert 0) table)).engine 0).offCause = .holdExpired := by decide +kernel

/-- The hold timer counts milliseconds, 100 to a step of its limit, and its expiry comes as the last one passes (R48, R183). -/
theorem test_holdTimer :
    let held := after (.faultAssert 0)
      ((table.setEngine 0 { engineIn .idle none none with params := { LineParams.default with holdLimit := 20 } }))
    (held.engine 0).holdLeft = 2000 ∧ ((held.elapse 700).engine 0).holdLeft = 1300 ∧
    (after (.holdExpiry 0) (held.elapse 700)).partTime = held.partTime + 2000 := by decide +kernel

/-- A line clear ends: IDLE, and the poll cycle of a line just started begins with cycle count 0 (R27). -/
theorem test_lineClearEnd :
    let t := after (.lineClearEnd 1) (after (.lineStart 9 [1]) table)
    (t.engine 1).state = .sending ∧ (t.engine 1).cycleCount = 0 ∧ (t.engine 1).tx.map Transaction.kind = some .clear := by
  decide +kernel

/-- A frame's end opens the reply window (R31). -/
theorem test_dropFrameEnd :
    (after (.dropFrameEnd 0) (table.setEngine 0 (engineIn .sending (some pollOne) none))).engine 0 =
      engineIn .awaiting (some pollOne) (some .window) := by decide +kernel

/-- A header with the station's address opens the reply (R16); with another it is a wrong station's (R17). -/
theorem test_replyCharacter :
    let s := table.setEngine 0 (engineIn .awaiting (some pollOne) (some .window))
    ((after (.replyCharacter 0 (.header 1)) s).engine 0).reception = some (.opened [1]) ∧
    ((after (.replyCharacter 0 (.header 2)) s).engine 0).reception = some (.discarding .wrongStation false) := by decide +kernel

/-- A stray header is counted (R21). -/
theorem test_strayCharacter : ((after (.strayCharacter 0 (.header 9)) table).engine 0).stats.strayFrames = 1 := by decide +kernel

/-- The window ends with no reply: the poll, of one attempt, counts a miss (R16, R61). -/
theorem test_replyWindowExpiry :
    ((after (.replyWindowExpiry 0 false)
      (table.setEngine 0 (engineIn .awaiting (some { pollOne with attemptLimit := 1 }) (some .window)))).station 0).missCount = 1 := by
  decide +kernel

/-- A gap in an open reply ends the attempt, heard (R17, R18). -/
theorem test_replyGapTimeout :
    let t := after (.replyGapTimeout 0) (table.setEngine 0 (engineIn .awaiting (some pollOne) (some (.opened [1]))))
    (t.engine 0).stats.corruptFrames = 1 ∧ (t.engine 0).guardRunning = true ∧ (t.engine 0).state = .idle := by decide +kernel

/-- A corrupt reply ends its attempt as the line falls quiet (R18). -/
theorem test_corruptQuietEnd :
    ((after (.corruptQuietEnd 0)
      (table.setEngine 0 (engineIn .awaiting (some pollOne) (some (.discarding .check true))))).engine 0).tx.map
        Transaction.attemptsUsed = some 1 := by decide +kernel

/-- The busy delay ends: the next attempt (R33). -/
theorem test_busyDelayExpiry :
    ((after (.busyDelayExpiry 0)
      (table.setEngine 0 { engineIn .backoff (some pollOne) none with busyRunning := true })).engine 0).state = .sending := by
  decide +kernel

/-- A busy delay of 50 ms, of which 20 have passed, ends 30 ms later; another line's cycle floor falls with it (R33, R183). -/
theorem test_busyDelay_counts :
    let s := ((table.setEngine 0 { engineIn .backoff (some pollOne) none with busyRunning := true, busyLeft := 50 }).setEngine 3
      { engineIn .idle none none with floorLeft := 40 }).elapse 20
    let t := after (.busyDelayExpiry 0) s
    (s.engine 0).busyLeft = 30 ∧ (t.partTime - s.partTime, (t.engine 0).busyLeft, (t.engine 3).floorLeft) = (30, 0, 0) := by
  decide +kernel

/-- The guard ends (R15, R38): station 1, NORMAL, is not due in cycle 0, so the CLEAR of station 2 is taken (R42, R43). -/
theorem test_guardExpiry :
    ((after (.guardExpiry 0) table).engine 0).tx.map (fun t => (t.kind, t.target)) = some (.clear, 2) := by decide +kernel

/-- The cycle floor ends: the next cycle (R44). -/
theorem test_cycleFloorExpiry :
    ((after (.cycleFloorExpiry 0)
      (table.setEngine 0 { engineIn .idle none none with cycleState := .complete, floorRunning := true, floorLeft := 1 })).engine 0).cycleCount
        = 1 := by decide +kernel

/-! ## A state and operands that meet the hypotheses of each statement -/

/-- StepRunsFrontCommand. -/
theorem witness_StepRunsFrontCommand :
    ({ idle with pending := [.hostGapTimeout] } : State).pending = .hostGapTimeout :: [] := rfl

/-- RequestsTakenAndAnswered: three and four reply places in use, another frame at the head, RESTARTING, and a refusal. -/
theorem witness_RequestsTakenAndAnswered :
    let s : State := { idle with inputQueue := [⟨1, 9, []⟩], replyQueue := List.replicate 3 (.reply okReply) }
    let full : State := { s with replyQueue := List.replicate 4 (.reply okReply) }
    (s.resetAsserted = false ∧ s.replyPlacesInUse < 4 ∧ (⟨2, 9, []⟩ : HostFrame) ≠ ⟨1, 9, []⟩) ∧
    (full.inputQueue = ⟨1, 9, []⟩ :: [] ∧ 4 ≤ full.replyPlacesInUse) ∧
    ((Instr.identify 9 []).wellFormed = true ∧
      ({ s with restarting := true } : State).takeFrame ⟨1, 9, []⟩ = some { s with restarting := true, inputQueue := [] }) ∧
    s.takeFrame ⟨1, 9, []⟩ = some { s with inputQueue := [] } := by decide +kernel

/-- EveryStepAnswersNext: no command waiting, RESET released and asserted. -/
theorem witness_EveryStepAnswersNext :
    (idle.pending = [] ∧ idle.resetAsserted = false) ∧
    (after .resetAssert idle).pending = [] ∧ (after .resetAssert idle).resetAsserted = true := by decide +kernel

/-- UnknownKindRefused: the notice kind. -/
theorem witness_UnknownKindRefused :
    (0x7F : Octet) ∉ requestKinds ∧ Taken (.unknownKind 0x7F 9 (List.replicate 140 0)) idle idle :=
  ⟨by decide, taken_of_takes (by decide +kernel)⟩

/-- BodyFormatsChecked: a body one octet long and one short, SEND and GROUP SEND beside their length octet, and above their limits. -/
theorem witness_BodyFormatsChecked_lengths :
    (fixedBodyLength (.lineStatus 9 [0]) = some 2 ∧ Taken (.lineStatus 9 [0]) idle idle) ∧
    Taken (.send 9 [0, 1, 0, 0]) idle idle ∧
    Taken (.send 9 ([0, 1, 0, 0, 120] ++ List.replicate 119 0)) idle idle ∧
    Taken (.groupSend 9 [0, 0, 0]) idle idle ∧
    Taken (.groupSend 9 ([0, 0, 0, 119] ++ List.replicate 120 0)) idle idle ∧
    ((List.replicate 121 (0 : Octet)).length = (121 : Octet).toNat ∧
      Taken (.send 9 (0 :: 1 :: 0 :: 0 :: 121 :: List.replicate 121 0)) idle idle) ∧
    ((List.replicate 120 (0 : Octet)).length = (120 : Octet).toNat ∧
      Taken (.groupSend 9 (0 :: 0 :: 0 :: 120 :: List.replicate 120 0)) idle idle) :=
  ⟨⟨rfl, taken_of_takes (by decide +kernel)⟩, taken_of_takes (by decide +kernel), taken_of_takes (by decide +kernel),
   taken_of_takes (by decide +kernel), taken_of_takes (by decide +kernel),
   ⟨by decide +kernel, taken_of_takes (by decide +kernel)⟩, by decide +kernel, taken_of_takes (by decide +kernel)⟩

/-- BodyFormatsChecked: reserved octets of 1, option bits above the lowest, a truth field of 2. -/
theorem witness_BodyFormatsChecked_reserved :
    Taken (.send 9 [0, 1, 0, 1, 0]) idle idle ∧ Taken (.fetch 9 [0, 1, 0, 1]) idle idle ∧
    Taken (.groupSend 9 [0, 0, 1, 0]) idle idle ∧ Taken (.lineStatus 9 [0, 2]) idle idle ∧
    Taken (.stationAdd 9 [0, 1, 0, 2]) idle idle :=
  ⟨taken_of_takes (by decide +kernel), taken_of_takes (by decide +kernel), taken_of_takes (by decide +kernel),
   taken_of_takes (by decide +kernel), taken_of_takes (by decide +kernel)⟩

/-- BodyFormatsChecked: a poll class of 3, in STATION ADD and STATION SET. -/
theorem witness_BodyFormatsChecked_class :
    Taken (.stationAdd 9 [0, 1, 3, 1]) idle idle ∧ Taken (.stationSet 9 [0, 1, 3, 1]) idle idle ∧
    Taken (.stationSet 9 [0, 1, 2, 2]) idle idle ∧ 2 < (3 : Octet).toNat ∧ 1 < (2 : Octet).toNat :=
  ⟨taken_of_takes (by decide +kernel), taken_of_takes (by decide +kernel), taken_of_takes (by decide +kernel), by decide, by decide⟩

/-- IdentifyAnswered: the empty body, and one octet. -/
theorem witness_IdentifyAnswered : Taken (.identify 9 []) idle idle ∧ Taken (.identify 9 [0]) idle idle :=
  ⟨taken_of_takes (by decide +kernel), taken_of_takes (by decide +kernel)⟩

/-- SetLinkRateTakesEffectAtReply: codes 5 and 6, and a reply that brings another rate. -/
theorem witness_SetLinkRateTakesEffectAtReply :
    Taken (.setLinkRate 9 [5]) idle idle ∧ Taken (.setLinkRate 9 [6]) idle idle ∧
    ({ idle with tx := some (.reply { okReply with rate := some 5 }) } : State).linkRate ≠ 5 :=
  ⟨taken_of_takes (by decide +kernel), taken_of_takes (by decide +kernel), by decide⟩

/-- SetLinkRateTakesEffectAtReply: a reply that brings another rate while a character has begun, and one that names the rate in force. -/
theorem witness_SetLinkRateTakesEffectAtReply_character :
    let s := fun (code : Octet) => ({ idle with tx := some (.reply { okReply with rate := some code }) } : State)
    ((s 5).resetAsserted = false ∧ (5 : Octet) ≠ (s 5).linkRate ∧ HostReceiver.taking 4 6 ≠ .ready) ∧
    (s 2).linkRate = 2 ∧ ∀ count bits, HostReceiver.ready ≠ .taking count bits :=
  ⟨⟨rfl, by decide, by decide⟩, rfl, fun _ _ => by simp⟩

/-- SetLinkRateTakesEffectAtReply: another rate with the receiver in HUNT and in a frame, and the rate in force. -/
theorem witness_SetLinkRateTakesEffectAtReply_sent :
    let s := fun (code : Octet) (rx : Receiver) => ({ idle with tx := some (.reply { okReply with rate := some code }), rx := rx } : State)
    ((s 5 .hunt).tx = some (.reply { okReply with rate := some 5 }) ∧ (5 : Octet) ≠ (s 5 .hunt).linkRate ∧ (s 5 .hunt).rx = .hunt) ∧
    (s 5 (.body 4 [0x30, 9] 0)).rx = .body 4 (0x30 :: 9 :: []) 0 ∧ (2 : Octet) = (s 2 .hunt).linkRate :=
  ⟨⟨rfl, by decide, rfl⟩, rfl, rfl⟩

/-- RestartAcceptedAndTakesEffect: scope 1 and scope 0, RESTARTING with nothing left to send, and with a reply in transmission. -/
theorem witness_RestartAcceptedAndTakesEffect :
    Taken (.restart 9 [1]) idle idle ∧ Taken (.restart 9 [0]) idle idle ∧
    (let s : State := { idle with restarting := true }
     s.resetAsserted = false ∧ s.restarting = true ∧ s.inputQueue = [] ∧ s.replyQueue = [] ∧ s.tx = none) ∧
    ({ idle with restarting := true, tx := some (.reply okReply) } : State).tx ≠ none :=
  ⟨taken_of_takes (by decide +kernel), taken_of_takes (by decide +kernel), ⟨rfl, rfl, rfl, rfl, rfl⟩, by decide⟩

/-- ResetHoldsAndReleases: RESET asserted. -/
theorem witness_ResetHoldsAndReleases :
    (after .resetAssert table).resetAsserted = true ∧ Instr.hostGapTimeout ≠ .resetAssert ∧ Instr.hostGapTimeout ≠ .resetRelease ∧
    ∀ l : LineNo, Instr.hostGapTimeout ≠ .faultAssert l ∧ Instr.hostGapTimeout ≠ .faultRelease l :=
  ⟨by decide +kernel, by decide, by decide, fun l => ⟨by simp, by simp⟩⟩

/-- LineParameterRanges: each limit's two sides. -/
theorem witness_LineParameterRanges :
    ({ rate := 7, window := 4, retryLimit := 7, missLimit := 1, guard := 15, busyDelay := 1, cycleFloor := 255, holdLimit := 0 } :
      LineParams).inRange = true ∧
    ({ rate := 0, window := 255, retryLimit := 0, missLimit := 15, guard := 1, busyDelay := 255, cycleFloor := 0, holdLimit := 255 } :
      LineParams).inRange = true ∧
    ({ LineParams.default with rate := 8 }).inRange = false ∧ ({ LineParams.default with window := 3 }).inRange = false ∧
    ({ LineParams.default with retryLimit := 8 }).inRange = false ∧ ({ LineParams.default with missLimit := 16 }).inRange = false ∧
    ({ LineParams.default with missLimit := 0 }).inRange = false ∧ ({ LineParams.default with guard := 16 }).inRange = false ∧
    ({ LineParams.default with guard := 0 }).inRange = false ∧ ({ LineParams.default with busyDelay := 0 }).inRange = false := by
  decide

/-- LineParameterRanges: the rate codes at their two ends. -/
theorem witness_LineParameterRanges_rates :
    LineParams.default.rate.toNat ≤ 7 ∧ ({ LineParams.default with rate := 7 } : LineParams).rate.toNat ≤ 7 := by decide

/-- TransmitterChoice: a busy transmitter; a reply alone, a report alone, neither, both; a window of seven and of eight. -/
theorem witness_TransmitterChoice :
    State.reset.tx ≠ none ∧
    (let s : State := { idle with replyQueue := [.reply okReply] }
     s.resetAsserted = false ∧ s.tx = none ∧ s.offer = none) ∧
    (let s : State := { idle with reports := List.replicate 7 (reportOf 1 true) ++ [reportOf 2 false] }
     s.tx = none ∧ s.replyQueue = [] ∧ s.offer = some (reportOf 2 false)) ∧
    (let s : State := { idle with reports := List.replicate 8 (reportOf 1 true) ++ [reportOf 2 false] }
     s.tx = none ∧ s.replyQueue = [] ∧ s.offer = none) ∧
    (let s : State := { idle with replyQueue := [.reply okReply], reports := [reportOf 2 false] }
     s.tx = none ∧ s.offer = some (reportOf 2 false)) := by decide +kernel

/-- LastOctetLeaves: a reply, a notice, and a report with and without a RESEND meanwhile. -/
theorem witness_LastOctetLeaves :
    ({ idle with tx := some (.reply okReply) } : State).tx = some (.reply okReply) ∧ okReply.rate = none ∧
    ({ idle with tx := some (.notice gapNotice) } : State).tx = some (.notice gapNotice) ∧
    State.reset.tx = some (.report 0 false) ∧ ({ State.reset with tx := some (.report 0 true) } : State).tx = some (.report 0 true) :=
  ⟨rfl, rfl, rfl, rfl, rfl⟩

/-- LastOctetLeaves: no frame, and a report of each kind in transmission. -/
theorem witness_LastOctetLeaves_octets :
    let sends := fun items : ReportItems =>
      let r : Report := { number := 3, items := items, blocks := [], length := 0, sent := false }
      let s : State := { idle with reports := [reportOf 2 true, r], tx := some (.report 3 false) }
      s.reports.find? (fun q => q.number = r.number) = some r
    idle.tx = none ∧ sends (.partStarted .pin 0) ∧
    sends (.orderDone ((record 1 .send .done 0 0 1).report
      { outcome := .corrupt .check, attempts := 1, uncertain := true, lateCancel := false, payload := [] } 0)) ∧
    sends (.deliveryDone ((deliveryTo 7 0 [snap 0 0 1 .accepted]).report 0)) ∧
    sends (.stationPresence (ref 0 0 1) { presence := .up, changeCount := 1, restarted := true, time := 0 } 0x8000) ∧
    sends (.watchHit 31 (some (ref 0 0 1)) oneHit true) ∧
    sends (.lineEvent 3 { condition := .held, cause := .faultAsserted, time := 0, changeCount := 1 }) := by decide +kernel

/-- ReceiverAssemblesFrame: a body of 140 octets, three frames queued. -/
theorem witness_ReceiverAssemblesFrame :
    let f : HostFrame := ⟨1, 9, List.replicate 140 0xD4⟩
    let s : State := { idle with inputQueue := List.replicate 3 ⟨1, 9, []⟩ }
    f.body.length ≤ 140 ∧ s.resetAsserted = false ∧ s.restarting = false ∧ s.rx = .hunt ∧ s.inputQueue.length < 4 ∧
    s.transmit = s := by decide +kernel

/-- ReceiverTakesCharacter: LEN at its limits, the last octet of BODY and one before, the CRC agreeing and not, a full queue. -/
theorem witness_ReceiverTakesCharacter :
    (({ idle with restarting := true } : State).restarting = true ∧ idle.restarting = false ∧ idle.rx = .hunt) ∧
    ((2 : Octet).toNat = 2 ∧ (142 : Octet).toNat = 142 ∧ ¬ 2 ≤ (1 : Octet).toNat ∧ ¬ (143 : Octet).toNat ≤ 142) ∧
    (([1, 9] : List Octet).length + 1 = (3 : Octet).toNat ∧ ([1] : List Octet).length + 1 ≠ (3 : Octet).toNat) ∧
    (crc [2, 1, 9] = wordOf ((crc [2, 1, 9]).extractLsb' 8 8) ((crc [2, 1, 9]).extractLsb' 0 8) ∧ crc [2, 1, 9] ≠ wordOf 0 0) ∧
    4 ≤ (List.replicate 4 (⟨1, 9, []⟩ : HostFrame)).length := by decide +kernel

/-- GapAndNotices: each state of the receiver; one notice place in use and two, with a count at its limit. -/
theorem witness_GapAndNotices :
    (idle.rx = .hunt ∧ ({ idle with rx := .body 3 [1] 0 } : State).rx = .body 3 [1] 0) ∧
    ({ idle with replyQueue := [.notice gapNotice] } : State).noticePlacesInUse < 2 ∧
    (let s : State := { idle with replyQueue := [.notice gapNotice, .notice gapNotice, .reply okReply] }
     2 ≤ s.noticePlacesInUse ∧ s.replyQueue = [.notice gapNotice] ++ .notice gapNotice :: [okReply].map .reply) := by decide +kernel

/-- GapAndNotices: a character, the rate codes' ends, and each thing the host link's receiver may be doing. -/
theorem witness_GapAndNotices_bits :
    ((1022 : BitVec 10).getLsbD 0 = false ∧ (0 : BitVec 10).getLsbD 0 = false ∧ (0 : Octet).toNat ≤ 5 ∧ (5 : Octet).toNat ≤ 5) ∧
    (idle.resetAsserted = false ∧ (HostReceiver.holdOff = .ready ∨ HostReceiver.holdOff = .holdOff)) ∧
    (0 + 30 < 30 + 1 ∧ ¬ 0 + 30 < 29 + 1) ∧ 8 < 9 := by decide +kernel

/-- LineSetChecksAndSets: line 4 and line 3; an engine not OFF, OFF with a parameter out of range and in range. -/
theorem witness_LineSetChecksAndSets :
    let p := LineParams.default
    let i := fun line : Octet => Instr.lineSet 9 [line, p.rate, p.window, p.retryLimit, p.missLimit, p.guard, p.busyDelay,
      p.cycleFloor, p.holdLimit]
    (Taken (i 4) table table ∧ 3 < (4 : Octet).toNat) ∧ (Taken (i 3) table table ∧ (table.engine 3).state ≠ .off) ∧
    (Taken (i 1) table table ∧ (table.engine 1).state = .off ∧ p.inRange = true) ∧
    ({ p with window := 3 } : LineParams).inRange = false :=
  ⟨⟨taken_of_takes (by decide +kernel), by decide⟩, ⟨taken_of_takes (by decide +kernel), by decide +kernel⟩,
   ⟨taken_of_takes (by decide +kernel), by decide +kernel, by decide⟩, by decide⟩

/-- LineStartByFault: line 4, an engine not OFF, OFF with FAULT released and asserted. -/
theorem witness_LineStartByFault :
    let faulty := idle.setEngine 3 (LineEngine.reset true)
    (Taken (.lineStart 9 [4]) table table ∧ Taken (.lineStart 9 [3]) table table ∧ (table.engine 3).state ≠ .off) ∧
    (Taken (.lineStart 9 [1]) table table ∧ (table.engine 1).state = .off ∧ (table.engine 1).fault = false) ∧
    Taken (.lineStart 9 [3]) faulty faulty ∧ (faulty.engine 3).state = .off ∧ (faulty.engine 3).fault = true ∧
    (LineEngine.reset true).Coherent ∧ faulty.engine 3 = LineEngine.reset true :=
  ⟨⟨taken_of_takes (by decide +kernel), taken_of_takes (by decide +kernel), by decide +kernel⟩,
   ⟨taken_of_takes (by decide +kernel), by decide +kernel, by decide +kernel⟩, taken_of_takes (by decide +kernel),
   by decide +kernel, by decide +kernel, (sound_reset true).1, by decide +kernel⟩

/-- LineStopByState: each engine state. -/
theorem witness_LineStopByState :
    let s := fun state => table.setEngine 3 (engineIn state none none)
    (Taken (.lineStop 9 [4]) table table ∧ Taken (.lineStop 9 [1]) table table ∧ (table.engine 1).state = .off) ∧
    (Taken (.lineStop 9 [3]) (s .stopping) (s .stopping) ∧ ((s .stopping).engine 3).state = .stopping) ∧
    (Taken (.lineStop 9 [3]) (s .starting) (s .starting) ∧ ((s .starting).engine 3).state = .starting) ∧
    Taken (.lineStop 9 [3]) (s .held) (s .held) ∧ ((s .held).engine 3).state = .held :=
  ⟨⟨taken_of_takes (by decide +kernel), taken_of_takes (by decide +kernel), by decide +kernel⟩,
   ⟨taken_of_takes (by decide +kernel), by decide +kernel⟩, ⟨taken_of_takes (by decide +kernel), by decide +kernel⟩,
   taken_of_takes (by decide +kernel), by decide +kernel⟩

/-- StopMovesStations: an ONLINE and a SUSPENDED station of the line, one of another line; a transaction in flight. -/
theorem witness_StopMovesStations :
    ((table.station 0).line = 0 ∧ (table.station 0).state ∈ [StationState.online, .resync, .missing]) ∧
    ((table.station 4).line = 0 ∧ (table.station 4).state ∉ [StationState.online, .resync, .missing]) ∧
    (table.station 6).line ≠ 0 ∧
    ((table.setEngine 0 (engineIn .awaiting (some pollOne) none)).engine 0).tx = some pollOne ∧ (1 : LineNo) ≠ 0 := by decide +kernel

/-- StopMovesStations: a present station of the line, a MISSING one, and one of another line in ONLINE. -/
theorem witness_StopMovesStations_moves :
    ((table.station 5).line = 0 ∧ (table.station 5).state = .resync) ∧
    ((table.station 3).line = 0 ∧ (table.station 3).state = .missing) ∧
    (table.station 6).line ≠ 0 ∧ (table.station 1).state ∉ [StationState.online, .resync, .missing] := by decide +kernel

/-- FaultInputAndHold: FAULT asserted and released, RESET asserted, and the engine's states; the hold timer running and not. -/
theorem witness_FaultInputAndHold :
    let s := fun state fault => table.setEngine 3 { engineIn state none none with fault := fault }
    let held := table.setEngine 3 { engineIn .held none none with fault := true, holdRunning := true, holdLeft := 1 }
    (((s .idle true).engine 3).fault = true ∧ ((s .idle false).engine 3).fault = false) ∧
    ((after .resetAssert (s .idle false)).resetAsserted = true ∧ ((after .resetAssert (s .idle true)).engine 3).fault = true ∧
      ((after .resetAssert (s .idle false)).engine 3).fault = false) ∧
    (((s .off false).engine 3).state = .off ∧ ((s .stopping false).engine 3).state = .stopping ∧
      ((s .backoff false).engine 3).state = .backoff ∧ ((s .off false).resetAsserted = false)) ∧
    ((s .off true).engine 3).state ≠ .held ∧ (held.engine 3).state = .held ∧ (held.engine 3).holdRunning = true ∧
    ((s .held true).engine 3).holdRunning = false := by decide +kernel

/-- LineClearEnds: STARTING with the cycle awaited and not, with a transaction and without; STOPPING; another state. -/
theorem witness_LineClearEnds :
    let s := fun tx awaited => table.setEngine 3 { engineIn .starting tx none with cycleAwaited := awaited }
    (((s none true).engine 3).state = .starting ∧ ((s none true).engine 3).cycleAwaited = true ∧ ((s none true).engine 3).tx = none) ∧
    (((s (some pollOne) false).engine 3).cycleAwaited = false ∧ ((s (some pollOne) false).engine 3).tx = some pollOne) ∧
    ((table.setEngine 3 (engineIn .stopping none none)).engine 3).state = .stopping ∧
    (table.engine 3).state ≠ .starting ∧ (table.engine 3).state ≠ .stopping := by decide +kernel

/-- LineClearEnds: an engine that drives a line clear. -/
theorem witness_LineClearEnds_driving :
    (engineIn .starting (some pollOne) none).state = .starting ∧ (engineIn .stopping none none).state = .stopping := ⟨rfl, rfl⟩

/-- FramesAndReplyWindows: a poll and a GROUP DATA in SENDING; each reception of an AWAITING engine. -/
theorem witness_FramesAndReplyWindows :
    let group := txOn .groupData (.pass 1 .groupData) none 0xF0 .groupData
    let s := fun r => table.setEngine 0 (engineIn .awaiting (some pollOne) (some r))
    (((table.setEngine 0 (engineIn .sending (some pollOne) none)).engine 0).state = .sending ∧ pollOne.kind ≠ .groupData ∧
      group.kind = .groupData ∧ ((table.setEngine 0 (engineIn .sending (some group) none)).engine 0).tx = some group ∧
      (table.engine 0).state ≠ .sending) ∧
    (((s .window).engine 0).state = .awaiting ∧ ((s .window).engine 0).tx = some pollOne ∧
      ((s .window).engine 0).reception = some .window) ∧
    ((s .lastCharacter).engine 0).reception = some .lastCharacter ∧ ((s (.opened [1])).engine 0).reception = some (.opened [1]) ∧
    ((s (.discarding .gap true)).engine 0).reception = some (.discarding .gap true) := by decide +kernel

/-- `breakChar` is no header, as FramesAndReplyWindows asks. -/
theorem witness_FramesAndReplyWindows_character : ∀ a, DropChar.breakChar ≠ .header a := fun a => by simp

/-- OpenReplyChecked: a reply open by one, two, and more octets; the length octet at 120 and 121; the CRC agreeing and not. -/
theorem witness_OpenReplyChecked :
    let s := fun got => table.setEngine 0 (engineIn .awaiting (some pollOne) (some (.opened got)))
    (((s [1]).engine 0).state = .awaiting ∧ ((s [1]).engine 0).tx = some pollOne ∧
      ((s [1]).engine 0).reception = some (.opened [1])) ∧
    (120 < (121 : Octet).toNat ∧ (120 : Octet).toNat ≤ 120) ∧
    (([] : List Octet).length < (0 : Octet).toNat + 1 ∧ ([5, 6] : List Octet).length < (2 : Octet).toNat + 1) ∧
    ([1, 0xB0, 0, 0x11] : List Octet) = 1 :: 0xB0 :: 0 :: ([] ++ [0x11]) ∧ ([] : List Octet).length = (0 : Octet).toNat ∧
    wordOf ((crc [1, 0xB0, 0]).extractLsb' 8 8) ((crc [1, 0xB0, 0]).extractLsb' 0 8) = crc [1, 0xB0, 0] ∧
    wordOf 0 0 ≠ crc [1, 0xB0, 0] := by decide +kernel

/-- RepliesRecognisedAndJudged: the four types and another one, with and without their payloads; a good, a FULL and an unexpected reply. -/
theorem witness_RepliesRecognisedAndJudged :
    ((0xA0 : Octet) >>> 4 = 10 ∧ (0xB1 : Octet) >>> 4 = 11 ∧ (0xC0 : Octet) >>> 4 = 12 ∧ (0x31 : Octet) >>> 4 = 3) ∧
    ((0xD0 : Octet) >>> 4 ∉ ([3, 10, 11, 12] : List Octet) ∧ ([5] : List Octet) ∉ ([[1], [2], [3], [4]] : List (List Octet)) ∧
      ([1, 2] : List Octet).length ≠ 3) ∧
    judgeReply .send true (some (.ack true)) = .good (.ack true) ∧
    judgeReply .send true (some (.nak .full)) = .nakFull ∧
    judgeReply .send true (some (.ack false)) ≠ .good (.ack false) ∧ judgeReply .send true (some (.ack false)) ≠ .nakFull := by
  decide

/-- AttemptCourse: an attempt left, the last attempt, and a cancel flag set. -/
theorem witness_AttemptCourse :
    let send := txOn .send (.order 1) (some 0) 1 .data
    let last := { send with attemptsUsed := 2 }
    let s := { table with orders := [record 1 .send .active 0 0 1] }.setEngine 0 (engineIn .awaiting (some send) (some .window))
    let cancelled : State := { s with orders := [{ record 1 .send .active 0 0 1 with cancelFlag := true }] }
    ((s.engine 0).tx = some send ∧ send.attemptsUsed + 1 < send.attemptLimit ∧ s.cancelFlagOf send.work = false) ∧
    (¬ last.attemptsUsed + 1 < last.attemptLimit ∧ ((s.setEngine 0 (engineIn .awaiting (some last) none)).engine 0).tx = some last) ∧
    cancelled.cancelFlagOf send.work = true ∧ ∀ reply, AttemptClass.noReply ≠ .good reply :=
  ⟨by decide +kernel, by decide +kernel, by decide +kernel, fun _ => by simp⟩

/-- AttemptCourse: a poll step, a pass step, and an order no longer in use. -/
theorem witness_AttemptCourse_work :
    pollOne.work = .pollStep ∧ (txOn .groupCheck (.pass 7 (.member 0)) (some 0) 1 .groupCheck).work = .pass 7 (.member 0) ∧
    table.findOrder 1 = none := by decide +kernel

/-- TransactionEndsInOrder: the work of a poll step, an order and a pass, with a station and without. -/
theorem witness_TransactionEndsInOrder :
    let group := txOn .groupData (.pass 1 .groupData) none 0xF0 .groupData
    let send := txOn .send (.order 1) (some 0) 1 .data
    let s := fun t => table.setEngine 0 (engineIn .awaiting (some t) none)
    (((s pollOne).engine 0).tx = some pollOne ∧ pollOne.work = .pollStep ∧ pollOne.station = some 0) ∧
    (((s send).engine 0).tx = some send ∧ send.work = .order 1) ∧
    ((s group).engine 0).tx = some group ∧ group.station = none ∧ group.work = .pass 1 .groupData := by decide +kernel

/-- StrayCharactersCounted: IDLE, BACKOFF, and another state. -/
theorem witness_StrayCharactersCounted :
    (table.resetAsserted = false ∧ (table.engine 0).state = .idle ∧ (1 : Octet) ≠ 0) ∧
    ((table.setEngine 0 (engineIn .backoff (some pollOne) none)).engine 0).state = .backoff ∧
    (table.engine 1).state ≠ .idle ∧ (table.engine 1).state ≠ .backoff := by decide +kernel

/-- StrayCharactersCounted: a character of each class, engines that listen and that do not, and two characters with a gap. -/
theorem witness_StrayCharactersCounted_received :
    ((0x600 : BitVec 11) ≠ 0 ∧ (0x600 : BitVec 11).getLsbD 10 = true ∧ (0x600 : BitVec 11).getLsbD 9 = true ∧
      (0x400 : BitVec 11).getLsbD 9 = false ∧ (0x200 : BitVec 11).getLsbD 10 = false ∧ (0x600 : BitVec 11).getLsbD 0 = false) ∧
    ((engineIn .awaiting (some pollOne) none).state ∈ [LineState.idle, .awaiting, .backoff] ∧
      (engineIn .sending (some pollOne) none).state ∉ [LineState.idle, .awaiting, .backoff]) ∧
    ({ char := .header 1, start := 0, stop := 11 } : ReceivedChar).stop ≤
      ({ char := .body 1, start := 33, stop := 44 } : ReceivedChar).start ∧
    gapFails 22 = false ∧ gapFails 23 = true := by decide

/-- TimersEnd: each timer running and stopped, in the states that each clause names. -/
theorem witness_TimersEnd :
    let back := fun guard busy => table.setEngine 0
      { engineIn .backoff (some pollOne) none with guardRunning := guard, busyRunning := busy, busyLeft := if busy then 50 else 0 }
    let floor := fun l => table.setEngine l { engineIn .idle none none with cycleState := .complete, floorRunning := true }
    ((table.engine 1).guardRunning = false ∧ (table.engine 0).guardRunning = true ∧ (table.engine 0).state = .idle ∧
      (table.engine 0).tx = none) ∧
    (((table.setEngine 0 { engineIn .idle (some pollOne) none with guardRunning := true }).engine 0).tx ≠ none) ∧
    (((back true true).engine 0).guardRunning = true ∧ ((back true true).engine 0).busyRunning = true ∧
      ((back true false).engine 0).busyRunning = false ∧ ((back false true).engine 0).guardRunning = false ∧
      (table.engine 0).busyRunning = false) ∧
    (table.engine 0).floorRunning = false ∧
    (((floor 0).engine 0).floorRunning = true ∧ ((floor 0).engine 0).cycleState = .complete ∧
      ((floor 0).engine 0).state ∈ [LineState.idle, .sending, .awaiting, .backoff] ∧ ∃ ix, (floor 0).onPollList 0 ix = true) ∧
    ((floor 2).engine 2).floorRunning = true ∧ ¬ ∃ ix, (floor 2).onPollList 2 ix = true := by decide +kernel

/-- PollDueByClass: every state and class, and the count at its wrap. -/
theorem witness_PollDueByClass :
    (entry 0 1 .probing).state = .probing ∧ (entry 0 1 .online).state = .online ∧
    (entry 0 1 .online).pollClass = .normal ∧ ({ entry 0 1 .online with pollClass := .fast } : Station).pollClass = .fast ∧
    ({ entry 0 1 .online with pollClass := .slow } : Station).pollClass = .slow ∧ (entry 0 1 .missing).state = .missing ∧
    (65535 + (entry 0 1 .online).address.toNat) % 4 = 0 ∧ (entry 0 1 .online).due (BitVec.ofNat 16 65535) = true ∧
    (65536 + (entry 0 16 .missing).address.toNat) % 16 = 0 ∧ (entry 0 16 .missing).due (BitVec.ofNat 16 65536) = true ∧
    (entry 0 1 .suspended).state.polled = false := by decide

/-- PollStepsAndCycles: a station due, none due; an ONLINE station and another; cycles that go on, end, and begin. -/
theorem witness_PollStepsAndCycles :
    let s := fun cursor floor => table.setEngine 0 { engineIn .idle none none with cursor := cursor, floorLeft := floor }
    let complete := fun floor => table.setEngine 0 { engineIn .idle none none with cycleState := .complete, floorLeft := floor }
    ((s 0 0).pollDue 0 = some 1 ∧ (s 6 1).pollDue 0 = none ∧ ((s 6 1).engine 0).cycleState = .running) ∧
    ((table.station 0).state = .online ∧ (table.station 1).state ≠ .online) ∧
    ((s 0 0).pollDue 0 ≠ none) ∧
    (¬ (((s 6 1).engine 0).floorLeft = 0 ∧ ∃ ix, (s 6 1).onPollList 0 ix = true)) ∧
    (((s 6 0).engine 0).floorLeft = 0 ∧ ∃ ix, (s 6 0).onPollList 0 ix = true) ∧
    (((complete 1).engine 0).cycleState = .complete ∧ ((complete 1).engine 0).floorLeft ≠ 0) ∧
    ((complete 0).engine 0).floorLeft = 0 ∧ ∃ ix, (complete 0).onPollList 0 ix = true := by decide +kernel

/-- PollStepsAndCycles: a list of one station, which it has just joined, in a running line and after a hold; a list of more. -/
theorem witness_PollStepsAndCycles_join :
    let s := fun l state => table.setEngine l { engineIn state (some pollOne) none with cycleState := .complete }
    ((s 3 .sending).engine 3).state ∈ [LineState.idle, .sending, .awaiting, .backoff] ∧ ((s 3 .starting).engine 3).cycleAwaited = false ∧
    ((s 3 .sending).engine 3).cycleState = .complete ∧ ((s 3 .sending).engine 3).floorLeft = 0 ∧
    (allStations.filter fun ix => (s 3 .sending).onPollList 3 ix).length = 1 ∧
    (allStations.filter fun ix => (s 0 .sending).onPollList 0 ix).length ≠ 1 := by decide +kernel

/-- WorkSelectedInOrder: engines that select nothing; an urgent entry, a normal one, and a poll step, after POLL and after NOT POLL;
a poll cycle whose floor has passed. -/
theorem witness_WorkSelectedInOrder :
    let urgent := { record 1 .send .queued 0 0 1 with priority := .urgent }
    let normal := record 2 .send .queued 0 0 1
    let s := fun orders previous => { table with orders := orders }.setEngine 0
      { engineIn .idle none none with previousPoll := previous }
    let passed := table.setEngine 0 { engineIn .idle none none with cycleState := .complete }
    ((table.engine 0).guardRunning = true ∧ (table.engine 1).state ≠ .idle ∧
      ((s [] true).engine 0).state = .idle ∧ ((s [] true).engine 0).tx = none ∧ ((s [] true).engine 0).guardRunning = false) ∧
    ((s [normal, urgent] true).oldestDispatchable 0 .urgent = some urgent ∧
      (s [normal, urgent] true).oldestDispatchable 0 .normal = some normal ∧ (s [normal] true).oldestDispatchable 0 .urgent = none) ∧
    ((State.advanceCycle 0 40 (s [] false)).pollDue 0 = some 1 ∧ ((s [] false).engine 0).previousPoll = false ∧
      ((s [] true).engine 0).previousPoll = true ∧ (s [] true).oldestDispatchable 0 .normal = none) ∧
    (State.advanceCycle 2 40 (idle.setEngine 2 (engineIn .idle none none))).pollDue 2 = none ∧
    ((passed.engine 0).cycleState = .complete ∧ (passed.engine 0).floorLeft = 0 ∧ ∃ ix, passed.onPollList 0 ix = true) ∧
    (normal.kind ≠ .groupPass ∧ normal.station = some (ref 0 0 1)) := by decide +kernel

/-- WorkSelectedInOrder: a pass whose next step is GROUP DATA, and one whose current member's station is ONLINE. -/
theorem witness_WorkSelectedInOrder_pass :
    let d := deliveryTo 7 1 [snap 1 0 2 .accepted, snap 0 0 1 .waiting]
    let s : State := { table with deliveries := [d], orders := [passOn 7 0 .members none] }
    (passOn 7 0 .groupData none).kind = .groupPass ∧ s.findDelivery 7 = some d ∧
    d.current 0 = some (1, snap 0 0 1 .waiting) ∧ (s.station 0).state = .online ∧
    s.dispatchable (passOn 7 0 .members none) = true ∧ s.dispatchable (passOn 7 0 .groupData none) = true := by decide +kernel

/-- WorkSelectedInOrder: the passes of a state QUEUED as the last clause asks. -/
theorem witness_WorkSelectedInOrder_queued :
    let s : State := { table with orders := [passOn 7 0 .members none] }
    s.PassesQueued ∧ passOn 7 0 .members none ∈ s.orders :=
  ⟨fun r hr _ => by
    obtain rfl := List.mem_singleton.mp hr
    exact ⟨fun _ => rfl, fun _ => rfl⟩, List.mem_singleton.mpr rfl⟩

/-- OrderTaken: an engine that drives a frame, and one that drives nothing. -/
theorem witness_OrderTaken_driving :
    (engineIn .sending (some pollOne) none).state = .sending ∧ (engineIn .sending (some pollOne) none).tx = some pollOne ∧
    (engineIn .awaiting (some pollOne) none).state ∉ [LineState.sending, .starting, .stopping] := by decide

/-- OrderTaken: an order of each kind. -/
theorem witness_OrderTaken :
    (record 1 .send .queued 0 0 1).station = some (ref 0 0 1) ∧ (record 1 .send .queued 0 0 1).kind = .send ∧
    (record 1 .fetch .queued 0 0 1).kind = .fetch ∧ ({ record 1 .join .queued 0 0 1 with group := some 15 } : OrderRecord).group = some 15 ∧
    (record 1 .leave .queued 0 0 1).kind = .leave := by decide

/-- StationChecksInOrder: line 3 and 4, address 0, 1, 239 and 240; a name not in use; a RETIRING and a SUSPENDED entry. -/
theorem witness_StationChecksInOrder :
    (Taken (.stationRemove 9 [4, 1]) table table ∧ 3 < (4 : Octet).toNat ∧ Taken (.stationSet 9 [3, 0, 0, 0]) table table ∧
      Taken (.stationQuery 9 [3, 240]) table table ∧ 239 < (240 : Octet).toNat) ∧
    (Taken (.stationSuspend 9 [3, 1]) table table ∧ table.findStation 3 1 = none) ∧
    (Taken (.stationSuspend 9 [0, 3]) table table ∧ table.findStation 0 3 = some 2 ∧ (table.station 2).state = .retiring ∧
      Instr.stationSuspend 9 [0, 3] ≠ .stationQuery 9 [0, 3]) ∧
    Taken (.stationResume 9 [3, 239]) table table ∧ table.findStation 3 239 = some 6 ∧ (table.station 6).state ≠ .suspended :=
  ⟨⟨taken_of_takes (by decide +kernel), by decide, taken_of_takes (by decide +kernel), taken_of_takes (by decide +kernel), by decide⟩,
   ⟨taken_of_takes (by decide +kernel), by decide +kernel⟩,
   ⟨taken_of_takes (by decide +kernel), by decide +kernel, by decide +kernel, by decide⟩,
   taken_of_takes (by decide +kernel), by decide +kernel, by decide +kernel⟩

/-- StationChecksInOrder: STATION SET with operands that cannot be set, and STATION QUERY of a RETIRING entry. -/
theorem witness_StationChecksInOrder_settable :
    Taken (.stationSet 9 [3, 239, 3, 1]) table table ∧ ¬ ((3 : Octet).toNat ≤ 2 ∧ (1 : Octet).toNat ≤ 1) ∧
    Taken (.stationSet 9 [3, 239, 2, 1]) table table ∧ (2 : Octet).toNat ≤ 2 ∧
    Taken (.stationQuery 9 [0, 3]) table table ∧ table.findStation 0 3 = some 2 :=
  ⟨taken_of_takes (by decide +kernel), by decide, taken_of_takes (by decide +kernel), by decide, taken_of_takes (by decide +kernel),
   by decide +kernel⟩

/-- A table with no FREE entry. -/
def fullTable : State :=
  { idle with stations := Vector.replicate 96 (entry 1 5 .probing) }

/-- StationAdded: values out of range by one; a name in use; a full table; the lowest FREE entry and the last one. -/
theorem witness_StationAdded :
    (Taken (.stationAdd 9 [3, 239, 3, 1]) table table ∧ 2 < (3 : Octet).toNat ∧ Taken (.stationAdd 9 [3, 239, 2, 2]) table table) ∧
    (Taken (.stationAdd 9 [3, 239, 2, 1]) table table ∧ (2 : Octet) = PollClass.slow.code ∧ (1 : Octet) = truth true ∧
      table.findStation 3 239 = some 6) ∧
    (Taken (.stationAdd 9 [3, 239, 2, 1]) fullTable fullTable ∧ fullTable.findStation 3 239 = none ∧
      ∀ ix, (fullTable.station ix).state ≠ .free) ∧
    (Taken (.stationAdd 9 [3, 1, 2, 1]) table table ∧ table.findStation 3 1 = none ∧ (table.station 8).state = .free ∧
      ∀ j : StationIx, j.val < 8 → (table.station j).state ≠ .free) ∧
    let last := fullTable.setStation 95 Station.cleared
    (last.station 95).state = .free ∧ ∀ j : StationIx, j.val < 95 → (last.station j).state ≠ .free :=
  ⟨⟨taken_of_takes (by decide +kernel), by decide, taken_of_takes (by decide +kernel)⟩,
   ⟨taken_of_takes (by decide +kernel), rfl, rfl, by decide +kernel⟩,
   ⟨taken_of_takes (by decide +kernel), by decide +kernel, by decide +kernel⟩,
   ⟨taken_of_takes (by decide +kernel), by decide +kernel, by decide +kernel, by decide +kernel⟩, by decide +kernel, by decide +kernel⟩

/-- StationRemoved: a station with a transaction in flight, and one without. -/
theorem witness_StationRemoved :
    let s := table.setEngine 0 (engineIn .awaiting (some pollOne) (some .window))
    (Taken (.stationRemove 9 [0, 1]) s s ∧ s.names 0 1 0 ∧ (s.station 0).state ≠ .retiring ∧ s.inFlight 0 = true) ∧
    Taken (.stationRemove 9 [3, 239]) s s ∧ s.names 3 239 6 ∧ s.inFlight 6 = false :=
  ⟨⟨taken_of_takes (by decide +kernel), ⟨by decide, by decide, by decide +kernel⟩, by decide +kernel, by decide +kernel⟩,
   taken_of_takes (by decide +kernel), ⟨by decide, by decide, by decide +kernel⟩, by decide +kernel⟩

/-- StationSuspendResumeSet: a station SUSPENDED, ONLINE, RESYNC, and neither. -/
theorem witness_StationSuspendResumeSet :
    (Taken (.stationSuspend 9 [0, 5]) table table ∧ table.names 0 5 4 ∧ (table.station 4).state = .suspended ∧
      Taken (.stationResume 9 [0, 5]) table table) ∧
    (Taken (.stationSuspend 9 [3, 239]) table table ∧ table.names 3 239 6 ∧ (table.station 6).state = .online) ∧
    (table.station 5).state = .resync ∧ (table.station 1).state ∈ [StationState.probing, .online, .resync, .missing] ∧
    Taken (.stationSet 9 [0, 1, PollClass.slow.code, truth true]) table table ∧ (table.station 0).state ≠ .retiring :=
  ⟨⟨taken_of_takes (by decide +kernel), ⟨by decide, by decide, by decide +kernel⟩, by decide +kernel, taken_of_takes (by decide +kernel)⟩,
   ⟨taken_of_takes (by decide +kernel), ⟨by decide, by decide, by decide +kernel⟩, by decide +kernel⟩, by decide +kernel,
   by decide +kernel, taken_of_takes (by decide +kernel), by decide +kernel⟩

/-- The result of a poll that met no reply. -/
def unanswered : TxResult :=
  { kind := .poll, work := .pollStep, station := some 0, outcome := .noReply, lateCancel := false, attemptsUsed := 1,
    heard := false, lastHeard := none, whollySent := 1, unanswered := true }

/-- MissesCounted: a FREE, SUSPENDED and RETIRING entry; an unanswered result at the miss limit and one short of it, from PROBING,
ONLINE and RESYNC; a heard result. -/
theorem witness_MissesCounted :
    ((table.station 8).state = .free ∧ (table.station 4).state = .suspended ∧ (table.station 2).state = .retiring) ∧
    ((table.station 0).state ∈ [StationState.probing, .online, .resync, .missing] ∧ unanswered.unanswered = true ∧
      unanswered.heard = false ∧ { unanswered with unanswered := false, heard := true }.heard = true) ∧
    ((table.engine 0).params.missLimit.toNat ≤ min (2 + 1) 15 ∧ ¬ (table.engine 0).params.missLimit.toNat ≤ min (1 + 1) 15 ∧
      (table.station 0).state ≠ .missing) ∧
    (table.station 1).state = .probing ∧ (table.station 0).state = .online ∧ (table.station 5).state = .resync := by decide +kernel

/-- ResultsTaken: each kind of result; a CLEAR's ACK from each state, with a membership that lapses and with none. -/
theorem witness_ResultsTaken :
    let send : TxResult := { unanswered with kind := .send }
    let join : TxResult := { unanswered with kind := .join }
    let doubt := fun s : State => s.onStation 5 fun st => { st with resyncCause := some .doubt }
    let joined := table.setGroup 15 { members := [⟨ref 5 0 6, .active⟩], seq := 0 }
    (send.kind = .send ∧ 0 < send.whollySent ∧ (table.station 0).state = .online ∧ send.outcome = .noReply) ∧
    (join.kind ∉ [TxKind.poll, .clear, .send, .fetch] ∧ unanswered.kind ≠ .send) ∧
    ((table.station 1).state = .probing ∧ (table.station 3).state = .missing ∧ (table.station 5).state = .resync) ∧
    (((doubt table).station 5).resyncCause = some .doubt ∧
      ¬ ∃ g : GroupNo, ∃ m ∈ ((doubt table).group g).members, m.station.index = 5 ∧ m.state = .active) ∧
    ((doubt joined).station 5).state = .resync ∧
    ∃ g : GroupNo, ∃ m ∈ ((doubt joined).group g).members, m.station.index = 5 ∧ m.state = .active := by decide +kernel

/-- A poll's result is no reply, as ResultsTaken asks. -/
theorem witness_ResultsTaken_outcome : ∀ reply, unanswered.outcome ≠ .good reply := fun _ => by simp [unanswered]

/-- The table with orders, reservations and blocks held. -/
def loaded (orders reserved held : Nat) : State :=
  { table with orders := waiting orders ++ [{ record 99 .send .queued 7 1 5 with blocks := List.range held }], reserved := reserved }

/-- OrderChecksAndAcceptance: each refusal in its turn and acceptance, with each count at its limit. -/
theorem witness_OrderChecksAndAcceptance :
    let i := fun line a priority : Octet => Instr.fetch 9 [line, a, priority, 0]
    let off := table.setStation 7 (entry 1 5 .online)
    (Taken (i 0 1 2) table table ∧ 1 < (2 : Octet).toNat ∧ Taken (i 3 240 1) table table ∧ Taken (i 3 1 1) table table ∧
      table.findStation 3 1 = none) ∧
    (Taken (i 0 5 1) table table ∧ (table.station 4).state = .suspended ∧ (table.station 2).state = .retiring ∧
      (table.station 3).state = .missing ∧ off.findStation 1 5 = some 7 ∧ (off.engine 1).state = .off) ∧
    (Taken (i 3 239 1) (loaded 39 0 0) (loaded 39 0 0) ∧ 40 ≤ (loaded 39 0 0).orders.length ∧
      (loaded 38 39 157).orders.length < 40 ∧ (loaded 38 39 157).freeBlocks.length < 4 ∧
      (loaded 38 40 156).freeBlocks.length = 4 ∧ 40 ≤ (loaded 38 40 156).slotsInUse) ∧
    (Taken (i 3 239 1) (loaded 38 39 156) (loaded 38 39 156) ∧ (loaded 38 39 156).findStation 3 239 = some 6 ∧
      ((loaded 38 39 156).station 6).state = .online ∧ ((loaded 38 39 156).engine 3).state = .idle ∧
      (loaded 38 39 156).slotsInUse < 40) ∧
    Taken (.send 9 (3 :: 239 :: 1 :: 0 :: 120 :: List.replicate 120 7)) (loaded 38 39 156) (loaded 38 39 156) ∧
    (List.replicate 120 (7 : Octet)).length = (120 : Octet).toNat :=
  ⟨⟨taken_of_takes (by decide +kernel), by decide, taken_of_takes (by decide +kernel), taken_of_takes (by decide +kernel), by decide +kernel⟩,
   ⟨taken_of_takes (by decide +kernel), by decide +kernel, by decide +kernel, by decide +kernel, by decide +kernel, by decide +kernel⟩,
   ⟨taken_of_takes (by decide +kernel), by decide +kernel, by decide +kernel, by decide +kernel, by decide +kernel, by decide +kernel⟩,
   ⟨taken_of_takes (by decide +kernel), by decide +kernel, by decide +kernel, by decide +kernel, by decide +kernel⟩,
   taken_of_takes (by decide +kernel), by decide +kernel⟩

/-- PayloadStoredInBlocks: one holder of the blocks 1 to 4, and a payload of 128 octets in four blocks. -/
theorem witness_PayloadStoredInBlocks :
    let s : State := { idle with orders := [{ record 1 .fetch .queued 0 0 1 with blocks := [1, 2, 3, 4] }] }
    (s.heldBlocks.Nodup ∧ ∀ b ∈ s.heldBlocks, b < Config.bufferBlocks) ∧ Memory.wf [(0, 7)] = true ∧
    (0 ∉ (blockAddresses [1, 2]).take 33 ∧ 64 ∉ (blockAddresses [1, 2]).take 32) ∧
    ([159, 0, 5, 3] : List Nat).Nodup ∧ (List.replicate 128 (7 : Octet)).length ≤ 32 * [159, 0, 5, 3].length ∧
    127 < 32 * [159, 0, 5, 3].length := by decide +kernel

/-- NumbersGiven: 44 numbers in use, from the counter's value on. -/
theorem witness_NumbersGiven :
    let s : State := { idle with orders := waiting 40, deliveries := [deliveryTo 41 0 [], deliveryTo 42 0 [], deliveryTo 43 0 [],
      deliveryTo 44 0 []] }
    (s.orders.length ≤ Config.orderRecords ∧ s.deliveries.length ≤ Config.deliveryRecords) ∧ s.orderCounter ≠ 0 ∧
    s.numberToGive = 45 := by decide +kernel

/-- CancelByState: a number not in use; an order QUEUED, and ACTIVE in SENDING, BACKOFF and HELD; a delivery, cancelled already and not. -/
theorem witness_CancelByState :
    let active := fun state => { table with orders := [record 1 .send .active 0 0 1] }.setEngine 0
      (engineIn state (some (txOn .send (.order 1) (some 0) 1 .data)) none)
    let delivery : State := { table with deliveries := [deliveryTo 7 1 [snap 0 0 1 .waiting]] }
    let cancelled : State := { table with deliveries := [{ deliveryTo 7 1 [snap 0 0 1 .checking] with cancelling := true }] }
    (Taken (.cancel 9 [0, 0]) table table ∧ table.findOrder 0 = none ∧ table.findDelivery 0 = none) ∧
    (Taken (.cancel 9 [0, 1]) (loaded 1 2 0) (loaded 1 2 0) ∧ (loaded 1 2 0).findOrder (wordOf 0 1) = some (record 1 .send .queued 7 1 5)) ∧
    (Taken (.cancel 9 [0, 1]) (active .sending) (active .sending) ∧ (active .sending).findOrder 1 = some (record 1 .send .active 0 0 1) ∧
      ((active .sending).engine 0).state = .sending ∧ ((active .backoff).engine 0).state = .backoff ∧
      ((active .held).engine 0).state ∈ [LineState.idle, .held, .starting]) ∧
    (Taken (.cancel 9 [0, 7]) delivery delivery ∧ (delivery.findDelivery (wordOf 0 7)).isSome = true ∧ delivery.findOrder 7 = none) ∧
    cancelled.findDelivery 7 = some { deliveryTo 7 1 [snap 0 0 1 .checking] with cancelling := true } :=
  ⟨⟨taken_of_takes (by decide +kernel), by decide +kernel, by decide +kernel⟩, ⟨taken_of_takes (by decide +kernel), by decide +kernel⟩,
   ⟨taken_of_takes (by decide +kernel), by decide +kernel, by decide +kernel, by decide +kernel, by decide +kernel⟩,
   ⟨taken_of_takes (by decide +kernel), by decide +kernel, by decide +kernel⟩, by decide +kernel⟩

/-- OrderCompletes: an order in use; each kind at the hand-off; a collect FETCH whose station is FREE and one whose station is not. -/
theorem witness_OrderCompletes :
    (loaded 1 2 0).findOrder 1 = some (record 1 .send .queued 7 1 5) ∧ OrderOutcome.accepted ≠ .data ∧
    (record 1 .fetch .queued 8 0 9).source = .host ∧ (record 1 .fetch .queued 8 0 9).station = some (ref 8 0 9) ∧
    ({ record 1 .fetch .queued 8 0 9 with source := .collect } : OrderRecord).source = .collect ∧ (table.station 8).state = .free ∧
    (table.station 0).state ≠ .free ∧ unanswered.outcome ≠ .sent ∧
    (∀ word d t, unanswered.outcome ≠ .good (.status word d t)) ∧ unanswered.outcome ≠ .good (.nak .missed) ∧
    unanswered.outcome ≠ .good (.nak .full) :=
  ⟨by decide +kernel, by decide, rfl, rfl, rfl, by decide +kernel, by decide +kernel, by decide, fun _ _ _ => by simp [unanswered],
   by decide, by decide⟩

/-- OrderCompletes: two queued orders of one station and an ACTIVE one, with numbers of their own. -/
theorem witness_OrderCompletes_queued :
    let s : State := { table with orders := [record 1 .send .queued 0 0 1, record 2 .send .active 0 0 1,
      { record 3 .send .queued 0 0 1 with priority := .urgent }] }
    s.NumbersDistinct ∧ (s.endStationOrders 0 .removed).orders = [record 2 .send .active 0 0 1] := by
  constructor
  · unfold State.NumbersDistinct; decide +kernel
  · decide +kernel

/-- MemberRequests: values at and beyond their limits; a delivery in flight; a member in each state and none; a full list. -/
theorem witness_MemberRequests :
    let with' := fun state => table.setGroup 15 { members := [⟨ref 6 3 239, state⟩], seq := 0 }
    let full := table.setGroup 15 { members := List.replicate 24 ⟨ref 0 0 1, .active⟩, seq := 0 }
    let delivering : State := { with' .active with deliveries := [{ deliveryTo 7 0 [] with group := 15 }] }
    (Taken (.memberAdd 9 [16, 3, 239]) table table ∧ 15 < (16 : Octet).toNat ∧ Taken (.memberDrop 9 [15, 4, 239]) table table ∧
      Taken (.memberAdd 9 [15, 3, 1]) table table ∧ table.findStation 3 1 = none) ∧
    (Taken (.memberAdd 9 [15, 3, 239]) table table ∧ table.findStation 3 239 = some 6 ∧ (table.group 15).memberOf 6 = none ∧
      (table.group 15).members.length < 24 ∧ table.deliveryOf 15 = none) ∧
    (Taken (.memberDrop 9 [15, 3, 239]) delivering delivering ∧ (delivering.deliveryOf 15).isSome = true) ∧
    ((full.group 15).memberOf 6 = none ∧ 24 ≤ (full.group 15).members.length) ∧
    (((with' .joining).group 15).memberOf 6 = some ⟨ref 6 3 239, .joining⟩ ∧
      ((with' .lapsed).group 15).memberOf 6 = some ⟨ref 6 3 239, .lapsed⟩ ∧
      ((with' .active).group 15).memberOf 6 = some ⟨ref 6 3 239, .active⟩) ∧
    (Taken (.memberDrop 9 [15, 3, 239]) (with' .active) (with' .active) ∧ (with' .active).slotsInUse < 40) ∧
    (loaded 39 0 0).orders.length = 40 ∧ 40 ≤ (loaded 0 40 0).slotsInUse :=
  ⟨⟨taken_of_takes (by decide +kernel), by decide, taken_of_takes (by decide +kernel), taken_of_takes (by decide +kernel), by decide +kernel⟩,
   ⟨taken_of_takes (by decide +kernel), by decide +kernel, by decide +kernel, by decide +kernel, by decide +kernel⟩,
   ⟨taken_of_takes (by decide +kernel), by decide +kernel⟩, by decide +kernel, by decide +kernel,
   ⟨taken_of_takes (by decide +kernel), by decide +kernel⟩, by decide +kernel, by decide +kernel⟩

/-- GroupSendRules: values beyond their limits; each refusal; acceptance with one WAITING and one UNREACHED member. -/
theorem witness_GroupSendRules :
    let i := fun group priority : Octet => Instr.groupSend 9 (group :: priority :: 0 :: 119 :: List.replicate 119 7)
    let group := fun (s : State) members => s.setGroup 15 { members := members, seq := 15 }
    let online : Member := ⟨ref 6 3 239, .active⟩
    let missing : Member := ⟨ref 3 0 4, .active⟩
    let four : State := { table with deliveries := List.replicate 4 (deliveryTo 7 0 []) }
    let good := group (loaded 38 39 156) [online, missing]
    (List.replicate 119 (7 : Octet)).length = (119 : Octet).toNat ∧
    (Taken (i 16 0) table table ∧ Taken (i 15 2) table table) ∧
    (four.deliveryOf 0).isSome = true ∧ 4 ≤ four.deliveries.length ∧ four.deliveryOf 15 = none ∧
    (Taken (i 15 1) table table ∧ (table.group 15).members = []) ∧
    (Taken (i 15 1) (group table [missing]) (group table [missing]) ∧ (table.station 3).state = .missing) ∧
    (40 < (loaded 39 0 0).orders.length + 1 ∧ (loaded 38 0 157).freeBlocks.length < 4 ∧ 40 ≤ (loaded 0 40 0).slotsInUse) ∧
    Taken (i 15 1) good good ∧ (good.station 6).state = .online ∧ (good.engine 3).state = .idle ∧
    good.orders.length + 1 = 40 ∧ good.freeBlocks.length = 4 ∧ good.slotsInUse = 39 :=
  ⟨by decide +kernel, ⟨taken_of_takes (by decide +kernel), taken_of_takes (by decide +kernel)⟩, by decide +kernel, by decide +kernel,
   by decide +kernel, ⟨taken_of_takes (by decide +kernel), by decide +kernel⟩, ⟨taken_of_takes (by decide +kernel), by decide +kernel⟩,
   by decide +kernel, taken_of_takes (by decide +kernel), by decide +kernel, by decide +kernel, by decide +kernel, by decide +kernel,
   by decide +kernel⟩

/-- PassSteps: a pass before its GROUP DATA, at a WAITING and at a REPAIRING member; outcomes that end a step, and those of a line's stop. -/
theorem witness_PassSteps :
    let s := fun state => ({ table with deliveries := [deliveryTo 7 1 [snap 0 0 1 .accepted, snap 5 0 6 state]] } : State)
    let d := fun state => deliveryTo 7 1 [snap 0 0 1 .accepted, snap 5 0 6 state]
    (passOn 7 0 .groupData none).kind = .groupPass ∧ (s .waiting).findDelivery (passOn 7 0 .groupData none).number = some (d .waiting) ∧
    (passOn 7 0 .groupData none).nextStep = .groupData ∧ (passOn 7 0 .members none).nextStep = .members ∧
    (d .waiting).current 0 = some (1, snap 5 0 6 .waiting) ∧ (d .repairing).current 0 = some (1, snap 5 0 6 .repairing) ∧
    (TxOutcome.busy ≠ .aborted ∧ TxOutcome.busy ≠ .lineFault) := by decide +kernel

/-- DeliveryCompletes: a delivery settled, and one that is not for each reason; each outcome; a pass with a step, one unsettled, one settled. -/
theorem witness_DeliveryCompletes :
    let d := fun n state => deliveryTo 7 n [snap 0 0 1 .accepted, snap 5 0 6 state]
    let s := fun delivery pass => ({ table with deliveries := [delivery], orders := [pass] } : State)
    ((d 0 .dropped).outstanding = 0 ∧ ∀ m ∈ (d 0 .dropped).snapshot, m.state.terminal = true) ∧
    (¬ (d 1 .dropped).outstanding = 0 ∧ ¬ ∀ m ∈ (d 0 .repairing).snapshot, m.state.terminal = true) ∧
    ((∀ m ∈ (d 0 .accepted).snapshot, m.state = .accepted) ∧ (∃ m ∈ (d 0 .refused).snapshot, m.state ≠ .accepted) ∧
      [snap 0 0 1 .unreached] ≠ [] ∧ ∀ m ∈ [snap 0 0 1 .unreached], m.state ≠ .accepted) ∧
    ((s (d 1 .dropped) (passOn 7 0 .members none)).findDelivery 7 = some (d 1 .dropped) ∧
      (s (d 1 .dropped) (passOn 7 0 .members none)).findPass 7 0 = some (passOn 7 0 .members none)) ∧
    (passOn 7 0 .members none).passStep = none ∧ (passOn 7 0 .members (some (.member 1))).passStep ≠ none := by decide +kernel

/-- MembersSettled: a member ACTIVE, JOINING and LEAVING, and none. -/
theorem witness_MembersSettled :
    let s := fun state => table.setGroup 15 { members := [⟨ref 6 3 239, state⟩], seq := 0 }
    (∃ m, ((s .active).group 15).memberOf 6 = some m ∧ m.state = .active) ∧ OrderOutcome.refused ≠ .accepted ∧
    ((s .joining).group 15).memberOf 6 = some ⟨ref 6 3 239, .joining⟩ ∧
    ((s .leaving).group 15).memberOf 6 = some ⟨ref 6 3 239, .leaving⟩ ∧ (table.group 15).memberOf 6 = none :=
  ⟨⟨⟨ref 6 3 239, .active⟩, by decide +kernel⟩, by decide, by decide +kernel, by decide +kernel, by decide +kernel⟩

/-- MembersSettled: a station's open member of a delivery, with a step in flight and without, and one that is terminal. -/
theorem witness_MembersSettled_delivery :
    let d := fun state => deliveryTo 7 1 [snap 6 3 239 .accepted, snap 5 0 6 state]
    let s := fun state step => ({ table with deliveries := [d state], orders := [passOn 7 0 .members step] } : State)
    let steps := fun (v : State) => v.orders.any fun r => r.kind = .groupPass && r.number = 7 && r.passStep = some (.member 1)
    table.deliveryOf 0 = none ∧ (s .waiting none).deliveryOf 0 = some (d .waiting) ∧
    (∀ m ∈ (d .dropped).snapshot, m.station.index = 5 → m.state.terminal = true) ∧
    (d .waiting).snapshot[1]? = some (snap 5 0 6 .waiting) ∧ (snap 5 0 6 .waiting).state.terminal = false ∧
    steps (s .checking (some (.member 1))) = true ∧ steps (s .waiting none) = false := by decide +kernel

/-- MembersSettled: before the open member stand members of other stations alone. -/
theorem witness_MembersSettled_first :
    ∀ k q, k < 1 → ((deliveryTo 7 1 [snap 6 3 239 .accepted, snap 5 0 6 .waiting]).snapshot)[k]? = some q →
      q.station.index = (5 : StationIx) → q.state.terminal = true := by
  intro k q hk hq _
  obtain rfl : k = 0 := by omega
  obtain rfl : snap 6 3 239 .accepted = q := Option.some.inj hq
  rfl

/-- WatchMatches: the first poll of section 6.6, ANY and ALL, and a watch with every condition IGNORE. -/
theorem witness_WatchMatches :
    (watchOn .armed .rise .any none).combine = .any ∧ (watchOn .armed .rise .all none).combine = .all ∧
    (watchOn .armed .rise .all none).matches (some 0x7FFF) 0x8000 = true ∧
    (watchOn .armed .rise .all none).matches none 0x8000 = false ∧
    ∀ b : Fin 16, (watchOn .armed .ignore .all none).conditions[b] = .ignore := by decide

/-- WatchRequests: values beyond their limits; a name not in use, RETIRING, a full watch table, the lowest FREE entry; each state. -/
theorem witness_WatchRequests :
    let codes : List Octet := 5 :: List.replicate 15 0
    let full : State := { table with watches := Vector.replicate 32 (watchOn .spent .high .all none) }
    let one := table.setWatch 31 (watchOn .pending .high .all (some oneHit))
    (codes.length = 16 ∧ Taken (.watchSet 9 (3 :: 239 :: (6 :: List.replicate 15 0) ++ [1, 1])) table table ∧ 5 < (6 : Octet).toNat ∧
      Taken (.watchSet 9 (3 :: 239 :: codes ++ [2, 1])) table table ∧ Taken (.watchSet 9 (3 :: 239 :: codes ++ [1, 2])) table table) ∧
    (Taken (.watchSet 9 (3 :: 239 :: codes ++ [1, 1])) table table ∧
      codes = (((Vector.replicate 16 Condition.ignore).set 15 .change).toList.map Condition.code).reverse ∧
      (1 : Octet) = Combine.any.code ∧ (1 : Octet) = truth true ∧ table.findStation 3 239 = some 6) ∧
    (table.findStation 3 1 = none ∧ table.findStation 0 3 = some 2 ∧ (table.station 2).state = .retiring) ∧
    ((∀ w, (full.watch w).state ≠ .free) ∧ (table.watch 0).state = .free ∧ ∀ v : WatchNo, v.val < 0 → (table.watch v).state ≠ .free) ∧
    (Taken (.watchRearm 9 [32]) table table ∧ Taken (.watchClear 9 [31]) table table ∧ (table.watch 31).state = .free) ∧
    (Taken (.watchRearm 9 [31]) one one ∧ (one.watch 31).state = .pending ∧ Taken (.watchClear 9 [31]) full full) ∧
    (full.watch 31).state = .spent ∧ ((table.setWatch 31 (watchOn .armed .high .all none)).watch 31).state = .armed :=
  ⟨⟨rfl, taken_of_takes (by decide +kernel), by decide, taken_of_takes (by decide +kernel), taken_of_takes (by decide +kernel)⟩,
   ⟨taken_of_takes (by decide +kernel), by decide, rfl, rfl, by decide +kernel⟩, by decide +kernel, by decide +kernel,
   ⟨taken_of_takes (by decide +kernel), taken_of_takes (by decide +kernel), by decide +kernel⟩,
   ⟨taken_of_takes (by decide +kernel), by decide +kernel, taken_of_takes (by decide +kernel)⟩, by decide +kernel, by decide +kernel⟩

/-- WatchHitsAndCollection: an ARMED and a PENDING entry that match, one that does not; the collect option off, on, outstanding; each shortage. -/
theorem witness_WatchHitsAndCollection :
    let s := fun w => table.setWatch 31 w
    let collecting := fun (s : State) outstanding => s.setStation 0
      { entry 0 1 .online with collect := true, collectOutstanding := outstanding }
    (((s (watchOn .armed .high .all none)).watch 31).station = some (ref 0 0 1) ∧
      ((s (watchOn .armed .high .all none)).watch 31).hit = none ∧ (watchOn .armed .high .all none).matches none 0x8000 = true) ∧
    ((watchOn .pending .high .all (some oneHit)).hit = some oneHit ∧ (watchOn .pending .high .all (some oneHit)).matches none 0x8000 = true ∧
      (watchOn .armed .high .all none).matches none 0x7FFF = false ∧ (table.watch 31).state = .free) ∧
    ((table.station 0).collect = false ∧ ((collecting table true).station 0).collectOutstanding = true) ∧
    (((collecting (loaded 38 39 156) false).station 0).collectOutstanding = false ∧
      (loaded 38 39 156).orders.length < 40 ∧ 4 ≤ (loaded 38 39 156).freeBlocks.length ∧ (loaded 38 39 156).slotsInUse < 40) ∧
    40 ≤ (loaded 39 39 156).orders.length ∧ (loaded 38 39 157).freeBlocks.length < 4 ∧ 40 ≤ (loaded 38 40 156).slotsInUse := by
  decide +kernel

/-- ReportConfirmAndResend: a number that is SENT behind another SENT one, one that is QUEUED. -/
theorem witness_ReportConfirmAndResend :
    let s : State := { idle with reports := [reportOf 255 true, reportOf 0 true, reportOf 1 false] }
    (Taken (.reportConfirm 9 [1]) s s ∧ ∀ r ∈ s.reports, r.number = 1 → r.sent = false) ∧
    (Taken (.reportConfirm 9 [0]) s s ∧ s.reports = [reportOf 255 true] ++ reportOf 0 true :: [reportOf 1 false] ∧
      ∀ q ∈ [reportOf 255 true], ¬ (q.number = 0 ∧ q.sent = true)) ∧
    Taken (.reportResend 9 []) s s :=
  ⟨⟨taken_of_takes (by decide +kernel), by decide +kernel⟩, ⟨taken_of_takes (by decide +kernel), rfl, by decide⟩,
   taken_of_takes (by decide +kernel)⟩

/-- LatchesAndDraws: an empty latch and a full one at its count's limit; no source, no FREE slot, and a source of each kind at the head. -/
theorem witness_LatchesAndDraws :
    let line : LineLatch := { condition := .held, cause := .faultAsserted, time := 0, changeCount := 255 }
    let presence : PresenceLatch := { presence := .down, changeCount := 255, restarted := true, time := 0 }
    let s := (((table.onEngine 3 fun e => { e with latch := some line }).onStation 6 fun st => { st with latch := some presence }).setWatch
      31 (watchOn .pending .high .all (some oneHit)))
    let at' := fun source => ({ s with sources := [source] } : State)
    ((table.engine 3).latch = none ∧ (table.station 6).latch = none ∧ table.sources = []) ∧
    ((s.engine 3).latch = some line ∧ (s.station 6).latch = some presence ∧ (s.watch 31).hit = some oneHit) ∧
    ((at' (.line 3)).sources = .line 3 :: [] ∧ (at' (.line 3)).freeSlots ≠ 0 ∧ (at' (.station 6)).sources = .station 6 :: [] ∧
      (at' (.watch 31)).sources = .watch 31 :: []) ∧
    (loaded 0 48 0).freeSlots = 0 ∧ (loaded 0 47 0).freeSlots = 1 := by decide +kernel

/-- QueriesAnswered: each query, its numbers at and beyond their limits; an order QUEUED and ACTIVE, a delivery; a watch FREE and not. -/
theorem witness_QueriesAnswered :
    let active : State := { table with orders := [record 1 .send .active 0 0 1] }
    let delivery : State := { table with deliveries := [deliveryTo 7 0 []] }
    let one := table.setWatch 31 (watchOn .pending .high .all (some oneHit))
    (Taken (.partStatus 9 []) table table ∧ Taken (.lineStatus 9 [4, 1]) table table ∧ Taken (.lineStatus 9 [3, 1]) table table ∧
      Taken (.lineStatus 9 [3, 0]) table table ∧ Taken (.stationQuery 9 [3, 239]) table table ∧ table.names 3 239 6) ∧
    (Taken (.orderQuery 9 [0, 1]) table table ∧ table.findOrder 1 = none ∧ table.findDelivery 1 = none) ∧
    (Taken (.orderQuery 9 [0, 1]) (loaded 1 2 0) (loaded 1 2 0) ∧
      (loaded 1 2 0).findOrder (wordOf 0 1) = some (record 1 .send .queued 7 1 5)) ∧
    (Taken (.orderQuery 9 [0, 1]) active active ∧ active.findOrder (wordOf 0 1) = some (record 1 .send .active 0 0 1)) ∧
    (Taken (.orderQuery 9 [0, 7]) delivery delivery ∧ delivery.findOrder (wordOf 0 7) = none ∧
      delivery.findDelivery (wordOf 0 7) = some (deliveryTo 7 0 [])) ∧
    (Taken (.groupQuery 9 [16]) table table ∧ Taken (.groupQuery 9 [15]) table table ∧ table.deliveryOf 15 = none) ∧
    (Taken (.watchQuery 9 [32]) table table ∧ Taken (.watchQuery 9 [31]) table table ∧ (table.watch 31).state = .free) ∧
    Taken (.watchQuery 9 [31]) one one ∧ (one.watch 31).state ≠ .free :=
  ⟨⟨taken_of_takes (by decide +kernel), taken_of_takes (by decide +kernel), taken_of_takes (by decide +kernel),
    taken_of_takes (by decide +kernel), taken_of_takes (by decide +kernel), ⟨by decide, by decide, by decide +kernel⟩⟩,
   ⟨taken_of_takes (by decide +kernel), by decide +kernel, by decide +kernel⟩, ⟨taken_of_takes (by decide +kernel), by decide +kernel⟩,
   ⟨taken_of_takes (by decide +kernel), by decide +kernel⟩, ⟨taken_of_takes (by decide +kernel), by decide +kernel, by decide +kernel⟩,
   ⟨taken_of_takes (by decide +kernel), taken_of_takes (by decide +kernel), by decide +kernel⟩,
   ⟨taken_of_takes (by decide +kernel), taken_of_takes (by decide +kernel), by decide +kernel⟩, taken_of_takes (by decide +kernel),
   by decide +kernel⟩

/-- QueriesAnswered: an order QUEUED behind another, and a group with a delivery in flight. -/
theorem witness_QueriesAnswered_more :
    let s : State := { table with orders := waiting 2 }
    let d := { deliveryTo 7 1 [snap 6 3 239 .waiting] with group := 15, roster := [ref 6 3 239, ref 0 0 1] }
    let v : State := { table.setGroup 15 { members := [⟨ref 6 3 239, .active⟩], seq := 1 } with deliveries := [d] }
    (s.findOrder (wordOf 0 2) = some (record 2 .send .queued 7 1 5) ∧
      s.orders = [record 1 .send .queued 7 1 5] ++ record 2 .send .queued 7 1 5 :: [] ∧
      ∀ q ∈ [record 1 .send .queued 7 1 5], q.named (wordOf 0 2) = false) ∧
    (15 : Octet).toNat = (15 : GroupNo).val ∧ v.deliveryOf 15 = some d := by decide +kernel

/-- The invariants' statements (StoresAndPlacesKept, SlotsAccountedKept, BlocksAccountedKept, EnginesCoherentKept): a state that
has them all, from which a step answers a next state. -/
theorem witness_invariants :
    idle.StoresSound ∧ idle.PlacesBounded ∧ idle.SlotsAccounted ∧ idle.BlocksAccounted ∧ idle.EnginesCoherent ∧
    ∃ t, step idle = .next t := by
  refine ⟨⟨rfl, ⟨by decide, by decide⟩, fun w => ?_, fun h => absurd rfl h⟩, ⟨by decide, by decide, by decide⟩,
    ⟨by decide, by decide, by decide⟩, ⟨by decide +kernel, by decide +kernel⟩, fun l => ?_, ⟨_, rfl⟩⟩
  · simp [State.watch, idle, State.reset, Watch.cleared]
  · simp only [State.engine, idle, State.reset, Vector.getElem_replicate, Fin.getElem_fin]
    exact sound_reset false

/-- StoresAndPlacesKept and SlotsAccountedKept: the tables and the report list of the same state. -/
theorem witness_invariants_tables : idle.TablesSound ∧ idle.ReportsInOrder := by
  refine ⟨⟨fun i j hi => ?_, fun g => ?_, ?_, fun r hr => ?_, ⟨List.nodup_nil, fun x => ?_, fun ix _ => ?_⟩⟩, ?_⟩
  · exact absurd (by simp [State.station, idle, State.reset, Station.cleared]) hi
  · simp [State.group, idle, State.reset]
  · simp [State.NumbersDistinct, State.orderNumbers, idle, State.reset]
  · simp [idle, State.reset] at hr
  · cases x <;>
      simp [State.latched, State.station, State.engine, State.watch, idle, State.reset, Station.cleared, LineEngine.reset, Watch.cleared]
  · simp [State.station, idle, State.reset, Station.cleared]
  · refine ⟨by simp [idle], by decide +kernel, fun k r h => ?_, fun n h => ?_⟩
    · simp [idle] at h
    · simp [idle] at h

/-- StoresAndPlacesKept: a state held in reset. -/
theorem witness_HeldInReset : (after .resetAssert idle).HeldInReset ∧ (after .resetAssert idle).resetAsserted = true :=
  ⟨fun _ => ⟨by decide +kernel, rfl, rfl, rfl, rfl, rfl, rfl, rfl, rfl⟩, rfl⟩
end Tests
end Sys2Proof
end

/-! ## The poll cycle: when a station is due (R41, R42) -/

namespace Sys2Proof

namespace Machine

/-- The poll list's states (R41). -/
theorem polled_iff_mem (q : StationState) : q.polled = true ↔ q ∈ [StationState.probing, .online, .resync, .missing] := by
  cases q <;> decide

/-- A divisor of 2^16 sees no difference between a count and the 16 bits kept of it, so a pattern of that period runs on through the
wrap. -/
theorem ofNat_toNat_add_mod {d : Nat} (hd : d ∣ 2 ^ 16) (n a : Nat) : ((BitVec.ofNat 16 n).toNat + a) % d = (n + a) % d := by
  rw [BitVec.toNat_ofNat, Nat.add_mod, Nat.mod_mod_of_dvd n hd, ← Nat.add_mod]

section Due

variable (st : Station) (c : BitVec 16)

theorem due_of_probing_or_resync (h : st.state = .probing ∨ st.state = .resync) : st.due c = true := by
  rcases h with h | h <;> simp [Station.due, h]

theorem due_of_online_fast (h : st.state = .online) (hc : st.pollClass = .fast) : st.due c = true := by
  simp [Station.due, h, hc]

theorem due_online_normal_iff (h : st.state = .online) (hc : st.pollClass = .normal) :
    st.due c = true ↔ (c.toNat + st.address.toNat) % 4 = 0 := by
  simp [Station.due, h, hc]

theorem due_online_slow_iff (h : st.state = .online) (hc : st.pollClass = .slow) :
    st.due c = true ↔ (c.toNat + st.address.toNat) % 16 = 0 := by
  simp [Station.due, h, hc]

theorem due_missing_iff (h : st.state = .missing) : st.due c = true ↔ (c.toNat + st.address.toNat) % 16 = 0 := by
  simp [Station.due, h]

theorem due_of_not_polled (h : st.state.polled = false) : st.due c = false := by
  cases hs : st.state with
  | free | suspended | retiring => simp [Station.due, hs]
  | probing | online | resync | missing => simp [StationState.polled, hs] at h

end Due

/-- Settles O30: `Station.due` by state and class; the periods 4 and 16 divide 2^16. -/
theorem pollDueByClass : Obligations.PollDueByClass := by
  intro st n c
  have fourth := ofNat_toNat_add_mod (d := 4) (by decide) n st.address.toNat
  have sixteenth := ofNat_toNat_add_mod (d := 16) (by decide) n st.address.toNat
  refine ⟨due_of_probing_or_resync st c, due_of_online_fast st c, fun h hc => ?normal, fun h hc => ?slow, fun h => ?missing,
    polled_iff_mem st.state, due_of_not_polled st c⟩
  case normal => rw [due_online_normal_iff st c h hc, fourth]
  case slow => rw [due_online_slow_iff st c h hc, sixteenth]
  case missing => rw [due_missing_iff st c h, sixteenth]

/-! ## The line parameters, the rates and the durations (R3, R25) -/

theorem inRange_iff (p : LineParams) : p.inRange = true ↔
    p.rate.toNat ≤ 7 ∧ (4 ≤ p.window.toNat ∧ p.window.toNat ≤ 255) ∧ p.retryLimit.toNat ≤ 7 ∧
    (1 ≤ p.missLimit.toNat ∧ p.missLimit.toNat ≤ 15) ∧ (1 ≤ p.guard.toNat ∧ p.guard.toNat ≤ 15) ∧
    (1 ≤ p.busyDelay.toNat ∧ p.busyDelay.toNat ≤ 255) ∧ p.cycleFloor.toNat ≤ 255 ∧ p.holdLimit.toNat ≤ 255 := by
  have octet_le : ∀ o : Octet, o.toNat ≤ 255 := fun o => Nat.le_of_lt_succ o.isLt
  simp [LineParams.inRange, octet_le, and_assoc]

@[simp] theorem engine_reset (l : LineNo) : State.reset.engine l = LineEngine.reset false := by
  simp [State.engine, State.reset]

@[simp] theorem engine_freshStart (s : State) (cause : StartCause) (rate : Octet) (l : LineNo) :
    (s.freshStart cause rate).engine l = LineEngine.reset (s.engine l).fault := by
  simp [State.engine, State.freshStart]

/-- Every rate of R3's table divides the clock, so a bit time is a whole number of its periods. -/
theorem dropBaud_dvd_clockHz {code : Octet} (h : code.toNat ≤ 7) : dropBaud code ∣ clockHz := by
  unfold dropBaud
  generalize code.toNat = k at h
  interval_cases k <;> decide

theorem bitTime_mul_dropBaud {p : LineParams} (h : p.rate.toNat ≤ 7) : bitTime p * dropBaud p.rate = clockHz :=
  Nat.div_mul_cancel (dropBaud_dvd_clockHz h)

theorem charTimes_eq (p : LineParams) (n : Nat) : charTimes p n = 11 * n * bitTime p := by
  unfold charTimes; ring

/-- Address, control, length and the two octets of the CRC stand beside the payload (R5). -/
theorem dropFrame_octets_length (f : DropFrame) : f.octets.length = 5 + f.payload.length := by
  simp +arith [DropFrame.octets, wordOctets]

theorem frameTime_eq (p : LineParams) (f : DropFrame) : frameTime p f = 11 * (5 + f.payload.length) * bitTime p := by
  rw [frameTime, charTimes_eq, dropFrame_octets_length]

/-- Settles O11: the durations are multiples of the character time, which is whole because each rate divides the clock. -/
theorem lineParameterRanges : Obligations.LineParameterRanges := by
  refine ⟨rfl, fun l => ?_, fun s cause rate l => ?_, inRange_iff, rfl, fun p h => ?durations⟩
  · rw [engine_reset]; rfl
  · rw [engine_freshStart]; rfl
  case durations =>
    exact ⟨bitTime_mul_dropBaud h, charTimes_eq p, frameTime_eq p, rfl, charTimes_eq p p.guard.toNat, charTimes_eq p p.window.toNat,
      charTimes_eq p 2, charTimes_eq p 125⟩

end Machine

end Sys2Proof

/-! ## When a watch matches (R137, R138) -/

namespace Sys2Proof

namespace Machine

/-! The edge conditions read against the old bit: absent, none of them is true (R137). -/

theorem holds_rise_iff (old : Option Bool) (new : Bool) :
    Condition.rise.holds old new = true ↔ old = some false ∧ new = true := by
  cases old <;> simp [Condition.holds]

theorem holds_fall_iff (old : Option Bool) (new : Bool) :
    Condition.fall.holds old new = true ↔ old = some true ∧ new = false := by
  cases old <;> simp [Condition.holds]

theorem holds_change_iff (old : Option Bool) (new : Bool) :
    Condition.change.holds old new = true ↔ ∃ o, old = some o ∧ o ≠ new := by
  cases old <;> simp [Condition.holds]

/-- A bit's condition judged against the new word and the baseline, as `Watch.matches` judges it. -/
def Watch.bitHolds (w : Watch) (baseline : Option Word) (word : Word) (b : Fin 16) : Bool :=
  w.conditions[b].holds (baseline.map fun o => o.getLsbD b.val) (word.getLsbD b.val)

section Matching

variable (w : Watch) (baseline : Option Word) (word : Word)

theorem mem_bits_iff (b : Fin 16) : b ∈ w.bits ↔ w.conditions[b] ≠ .ignore := by
  simp [Watch.bits]

theorem bits_nonempty_iff : (!w.bits.isEmpty) = true ↔ ∃ b : Fin 16, w.conditions[b] ≠ .ignore := by
  rw [Bool.not_eq_true', List.isEmpty_eq_false_iff_exists_mem]
  exact exists_congr (mem_bits_iff w)

theorem matches_any_iff (h : w.combine = .any) : w.matches baseline word = true ↔
    ∃ b : Fin 16, w.conditions[b] ≠ .ignore ∧ w.bitHolds baseline word b = true := by
  have joined : w.matches baseline word = w.bits.any (w.bitHolds baseline word) := by
    simp only [Watch.matches, h]; rfl
  simp only [joined, List.any_eq_true, mem_bits_iff]

theorem matches_all_iff (h : w.combine = .all) : w.matches baseline word = true ↔
    (∃ b : Fin 16, w.conditions[b] ≠ .ignore) ∧
      ∀ b : Fin 16, w.conditions[b] ≠ .ignore → w.bitHolds baseline word b = true := by
  have joined : w.matches baseline word = (!w.bits.isEmpty && w.bits.all (w.bitHolds baseline word)) := by
    simp only [Watch.matches, h]; rfl
  simp only [joined, Bool.and_eq_true, bits_nonempty_iff, List.all_eq_true, mem_bits_iff]

/-- Under either mode a match needs a condition that takes part in it. -/
theorem exists_condition_of_matches (h : w.matches baseline word = true) : ∃ b : Fin 16, w.conditions[b] ≠ .ignore := by
  cases mode : w.combine with
  | all => exact ((matches_all_iff w baseline word mode).mp h).1
  | any =>
    obtain ⟨b, hb, -⟩ := (matches_any_iff w baseline word mode).mp h
    exact ⟨b, hb⟩

end Matching

/-- Settles O50: R137's table by the condition of each bit, joined by `matches_any_iff` and `matches_all_iff`. -/
theorem watchMatches : Obligations.WatchMatches := by
  intro w baseline word true'
  have judged : ∀ b, w.bitHolds baseline word b = true ↔ true' b := by
    intro b
    simp only [Watch.bitHolds, true']
    cases w.conditions[b] with
    | ignore | low | high => simp [Condition.holds]
    | rise => simp only [holds_rise_iff, Option.map_eq_some_iff, ← exists_and_right, and_assoc]
    | fall => simp only [holds_fall_iff, Option.map_eq_some_iff, ← exists_and_right, and_assoc]
    | change => simp [holds_change_iff]
  refine ⟨fun any => ?any, fun all => ?all, fun ignored => ?ignored⟩
  case any => simp only [matches_any_iff w baseline word any, judged]
  case all => simp only [matches_all_iff w baseline word all, judged]
  case ignored =>
    refine Bool.eq_false_iff.mpr fun h => ?_
    obtain ⟨b, hb⟩ := exists_condition_of_matches w baseline word h
    exact hb (ignored b)

end Machine

end Sys2Proof

/-! ## The host link: a request answered by its owner (R172, R178), and IDENTIFY (R184) -/

namespace Sys2Proof

namespace Machine

/-- A request whose owner leaves the taken state as it is and answers one code and its data is served by that reply alone. -/
theorem serve_eq_answering {i : Instr} {f : HostFrame} {s u : State} {owner : State → State × Answer} {code : ResultCode}
    {data : List Octet} (hf : i.frame = some f) (ht : Taken i s u)
    (ho : owner u = (u, { code := code, data := data, rate := none })) : s.serve f owner = u.answering i code data := by
  obtain ⟨g, hg, taken, running⟩ := ht
  obtain rfl : f = g := Option.some.inj (hf.symm.trans hg)
  simp only [serve_taken taken running, ho, State.answering, hf, State.replied]

theorem exec_identify (tag : Octet) (body : List Octet) (s : State) :
    exec (.identify tag body) s = .next (s.serve ⟨0x01, tag, body⟩ (identifyOwner body)) := rfl

theorem identifyOwner_nil (u : State) : identifyOwner [] u = (u, accept Config.identity) := rfl

theorem identifyOwner_of_ne_nil {body : List Octet} (h : body ≠ []) (u : State) :
    identifyOwner body u = (u, refuse .badFormat) := by
  cases body with
  | nil => exact absurd rfl h
  | cons o os => rfl

/-- Settles O6: IDENTIFY's owner changes nothing, so the reply alone is added (`serve_eq_answering`). -/
theorem identifyAnswered : Obligations.IdentifyAnswered := by
  intro tag s u
  refine ⟨fun taken => ?empty, fun body nonempty taken => ?filled⟩
  case empty => rw [exec_identify, serve_eq_answering rfl taken (identifyOwner_nil u), Config.identity]
  case filled => rw [exec_identify, serve_eq_answering rfl taken (identifyOwner_of_ne_nil nonempty u)]

end Machine

end Sys2Proof

/-! ## Bodies checked (R190, R191) and an unknown KIND (R192) -/

namespace Sys2Proof

namespace Machine

/-- A request that `exec` hands to its owner is answered as that owner answers it, where the owner changes nothing: `serve_eq_answering`
for the whole command. -/
theorem exec_eq_answering {i : Instr} {f : HostFrame} {s u : State} {owner : State → State × Answer} {code : ResultCode}
    {data : List Octet} (served : exec i s = .next (s.serve f owner)) (hf : i.frame = some f) (taken : Taken i s u)
    (answered : owner u = (u, { code := code, data := data, rate := none })) :
    exec i s = .next (u.answering i code data) := by
  rw [served, serve_eq_answering hf taken answered]

/-! ### A KIND of no request -/

theorem exec_unknownKind_of_not_mem {kind : Octet} (unknown : kind ∉ requestKinds) (tag : Octet) (body : List Octet) (s : State) :
    exec (.unknownKind kind tag body) s = .next (s.serve ⟨kind, tag, body⟩ fun t => (t, refuse .unknownKind)) :=
  if_neg (by simpa using unknown)

/-- Settles O4: outside the 28 KINDs the owner is the refusal itself (`exec_unknownKind_of_not_mem`). -/
theorem unknownKindRefused : Obligations.UnknownKindRefused := by
  refine ⟨by decide, by decide, by decide, by decide, fun kind tag body s u unknown taken => ⟨?answer, ?reply⟩⟩
  case answer => exact exec_eq_answering (exec_unknownKind_of_not_mem unknown tag body s) rfl taken rfl
  case reply => exact ⟨_, rfl, rfl⟩

/-! ### Requests of a fixed length -/

/-- WATCH SET counts the eighteen octets after the two that name its station. -/
theorem watchSetOwner_of_length_ne {body : List Octet} (h : body.length ≠ 20) (u : State) :
    watchSetOwner body u = (u, refuse .badFormat) := by
  match body, h with
  | line :: address :: rest, h => exact if_pos (by simpa using h)
  | [], _ | [_], _ => rfl

/-- Each owner names every octet of its body, so that its second equation refuses a body of any other length (R191). -/
theorem exec_of_fixedBodyLength_ne {i : Instr} {f : HostFrame} {n : Nat} {s u : State} (hf : i.frame = some f)
    (fixed : fixedBodyLength i = some n) (length : f.body.length ≠ n) (taken : Taken i s u) :
    exec i s = .next (u.answering i .badFormat []) := by
  have refused {owner : State → State × Answer} (served : exec i s = .next (s.serve f owner))
      (answered : owner u = (u, refuse .badFormat)) : exec i s = .next (u.answering i .badFormat []) :=
    exec_eq_answering served hf taken answered
  have otherBody {os : List Octet} (h : os.length = n) (e : f.body = os) : False := length (e ▸ h)
  cases i <;> cases hf <;> cases fixed
  case identify => exact refused rfl (identifyOwner.eq_2 _ u (otherBody rfl))
  case partStatus => exact refused rfl (partStatusOwner.eq_2 _ u (otherBody rfl))
  case setLinkRate => exact refused rfl (setLinkRateOwner.eq_2 _ u fun _ => otherBody rfl)
  case restart => exact refused rfl (restartOwner.eq_2 _ u fun _ => otherBody rfl)
  case lineSet => exact refused rfl (lineSetOwner.eq_2 _ u fun _ _ _ _ _ _ _ _ _ => otherBody rfl)
  case lineStart => exact refused rfl (lineStartOwner.eq_2 _ u fun _ => otherBody rfl)
  case lineStop => exact refused rfl (lineStopOwner.eq_2 _ u fun _ => otherBody rfl)
  case lineStatus => exact refused rfl (lineStatusOwner.eq_2 _ u fun _ _ => otherBody rfl)
  case stationAdd => exact refused rfl (stationAddOwner.eq_2 _ u fun _ _ _ _ => otherBody rfl)
  case stationRemove => exact refused rfl (stationRemoveOwner.eq_2 _ u fun _ _ => otherBody rfl)
  case stationSuspend => exact refused rfl (stationSuspendOwner.eq_2 _ u fun _ _ => otherBody rfl)
  case stationResume => exact refused rfl (stationResumeOwner.eq_2 _ u fun _ _ => otherBody rfl)
  case stationSet => exact refused rfl (stationSetOwner.eq_2 _ u fun _ _ _ _ => otherBody rfl)
  case stationQuery => exact refused rfl (stationQueryOwner.eq_2 _ u fun _ _ => otherBody rfl)
  case fetch => exact refused rfl (fetchOwner.eq_2 _ u fun _ _ _ _ => otherBody rfl)
  case cancel => exact refused rfl (cancelOwner.eq_2 _ u fun _ _ => otherBody rfl)
  case orderQuery => exact refused rfl (orderQueryOwner.eq_2 _ u fun _ _ => otherBody rfl)
  case memberAdd => exact refused rfl (memberAddOwner.eq_2 _ u fun _ _ _ => otherBody rfl)
  case memberDrop => exact refused rfl (memberDropOwner.eq_2 _ u fun _ _ _ => otherBody rfl)
  case groupQuery => exact refused rfl (groupQueryOwner.eq_2 _ u fun _ => otherBody rfl)
  case watchSet => exact refused rfl (watchSetOwner_of_length_ne length u)
  case watchClear => exact refused rfl (watchClearOwner.eq_2 _ u fun _ => otherBody rfl)
  case watchRearm => exact refused rfl (watchRearmOwner.eq_2 _ u fun _ => otherBody rfl)
  case watchQuery => exact refused rfl (watchQueryOwner.eq_2 _ u fun _ => otherBody rfl)
  case reportConfirm => exact refused rfl (reportConfirmOwner.eq_2 _ u fun _ => otherBody rfl)
  case reportResend => exact refused rfl (reportResendOwner.eq_2 _ u (otherBody rfl))

/-! ### SEND and GROUP SEND beside their length octet -/

theorem sendOwner_of_malformed {reserved n : Octet} {payload : List Octet} (h : reserved ≠ 0 ∨ payload.length ≠ n.toNat)
    (line address priority : Octet) (u : State) :
    sendOwner (line :: address :: priority :: reserved :: n :: payload) u = (u, refuse .badFormat) :=
  if_pos (by simpa using h)

theorem sendOwner_of_length {body : List Octet} (h : body.length < 5 ∨ body.length ≠ 5 + (body.getD 4 0).toNat) (u : State) :
    sendOwner body u = (u, refuse .badFormat) := by
  match body, h with
  | line :: address :: priority :: reserved :: n :: payload, h =>
    exact sendOwner_of_malformed (.inr (by simp at h; omega)) line address priority u
  | [], _ | [_], _ | [_, _], _ | [_, _, _], _ | [_, _, _, _], _ => rfl

theorem sendOwner_above_limit {n : Octet} {payload : List Octet} (agree : payload.length = n.toNat) (above : 120 < n.toNat)
    (line address priority : Octet) (u : State) :
    sendOwner (line :: address :: priority :: 0 :: n :: payload) u = (u, refuse .badValue) := by
  cases h : priorityOf priority <;> simp [sendOwner, h, agree, above]

theorem groupSendOwner_of_malformed {reserved n : Octet} {payload : List Octet} (h : reserved ≠ 0 ∨ payload.length ≠ n.toNat)
    (group priority : Octet) (u : State) :
    groupSendOwner (group :: priority :: reserved :: n :: payload) u = (u, refuse .badFormat) :=
  if_pos (by simpa using h)

theorem groupSendOwner_of_length {body : List Octet} (h : body.length < 4 ∨ body.length ≠ 4 + (body.getD 3 0).toNat) (u : State) :
    groupSendOwner body u = (u, refuse .badFormat) := by
  match body, h with
  | group :: priority :: reserved :: n :: payload, h =>
    exact groupSendOwner_of_malformed (.inr (by simp at h; omega)) group priority u
  | [], _ | [_], _ | [_, _], _ | [_, _, _], _ => rfl

theorem groupSendOwner_above_limit {n : Octet} {payload : List Octet} (agree : payload.length = n.toNat) (above : 119 < n.toNat)
    (group priority : Octet) (u : State) :
    groupSendOwner (group :: priority :: 0 :: n :: payload) u = (u, refuse .badValue) := by
  cases hg : groupOf group <;> cases hp : priorityOf priority <;> simp [groupSendOwner, hg, hp, agree, above]

/-! ### Reserved octets, option bits, truth fields and poll classes -/

theorem fetchOwner_of_reserved {reserved : Octet} (h : reserved ≠ 0) (line address priority : Octet) (u : State) :
    fetchOwner [line, address, priority, reserved] u = (u, refuse .badFormat) :=
  if_pos (by simpa using h)

/-- An octet above 1 has a bit set above its lowest (R190). -/
theorem and_fe_ne_zero {o : Octet} (h : 1 < o.toNat) : o &&& 0xFE ≠ 0 := by
  revert o; decide +kernel

theorem lineStatusOwner_of_unnamed_option {options : Octet} (h : 1 < options.toNat) (line : Octet) (u : State) :
    lineStatusOwner [line, options] u = (u, refuse .badFormat) :=
  if_pos (by simpa using and_fe_ne_zero h)

/-- An octet above 2 names no poll class (R197). -/
theorem pollClassOf_none {o : Octet} (h : 2 < o.toNat) : pollClassOf o = none := by
  revert o; decide +kernel

theorem pollClassOf_or_truthOf_none {pollClass collect : Octet} (h : 2 < pollClass.toNat ∨ 1 < collect.toNat) :
    pollClassOf pollClass = none ∨ truthOf collect = none :=
  h.imp pollClassOf_none (truthOf_none collect)

theorem stationAddOwner_of_options {pollClass collect : Octet} (h : 2 < pollClass.toNat ∨ 1 < collect.toNat)
    (line address : Octet) (u : State) : stationAddOwner [line, address, pollClass, collect] u = (u, refuse .badValue) := by
  have absent := pollClassOf_or_truthOf_none h
  unfold stationAddOwner
  dsimp only
  split
  next hc hk => simp [hc, hk] at absent
  next => rfl

theorem stationSetOwner_of_options {pollClass collect : Octet} (h : 2 < pollClass.toNat ∨ 1 < collect.toNat)
    (line address : Octet) (u : State) : stationSetOwner [line, address, pollClass, collect] u = (u, refuse .badValue) := by
  have absent := pollClassOf_or_truthOf_none h
  unfold stationSetOwner
  dsimp only
  split
  next hc hk => simp [hc, hk] at absent
  next => rfl

/-- Settles O5: each check stands in the request's owner ahead of anything it changes, so `exec_eq_answering` gives the reply. -/
theorem bodyFormatsChecked : Obligations.BodyFormatsChecked := by
  refine ⟨⟨?fixed, ?sendLength, ?groupSendLength, ?sendLimit, ?groupSendLimit⟩,
    ?sendReserved, ?fetchReserved, ?groupSendReserved, ?lineStatusOption, ?stationOptions⟩
  case fixed => exact fun i f n s u hf fixed length taken => exec_of_fixedBodyLength_ne hf fixed length taken
  case sendLength => exact fun tag body s u taken h => exec_eq_answering rfl rfl taken (sendOwner_of_length h u)
  case groupSendLength => exact fun tag body s u taken h => exec_eq_answering rfl rfl taken (groupSendOwner_of_length h u)
  case sendLimit =>
    intro tag line address priority n payload s u agree above i taken
    exact exec_eq_answering rfl rfl taken (sendOwner_above_limit agree above line address priority u)
  case groupSendLimit =>
    intro tag group priority n payload s u agree above i taken
    exact exec_eq_answering rfl rfl taken (groupSendOwner_above_limit agree above group priority u)
  case sendReserved =>
    intro tag line address priority reserved n payload s u h i taken
    exact exec_eq_answering rfl rfl taken (sendOwner_of_malformed (.inl h) line address priority u)
  case fetchReserved =>
    intro tag line address priority reserved s u h i taken
    exact exec_eq_answering rfl rfl taken (fetchOwner_of_reserved h line address priority u)
  case groupSendReserved =>
    intro tag group priority reserved n payload s u h i taken
    exact exec_eq_answering rfl rfl taken (groupSendOwner_of_malformed (.inl h) group priority u)
  case lineStatusOption =>
    intro tag line options s u h i taken
    exact exec_eq_answering rfl rfl taken (lineStatusOwner_of_unnamed_option h line u)
  case stationOptions =>
    intro tag line address pollClass collect s u i h named taken
    obtain rfl | rfl := named
    · exact exec_eq_answering rfl rfl taken (stationAddOwner_of_options h line address u)
    · exact exec_eq_answering rfl rfl taken (stationSetOwner_of_options h line address u)

end Machine

end Sys2Proof

/-! ## Every command keeps the invariants (O57 to O60) -/

namespace Sys2Proof

namespace Machine

/-! ### What a command may do -/

/-- What a command other than RESET's may do: it keeps the invariants of the stores, of the engines and of the places, the tables
and the report list where these rest on sound stores, and the RESET input's level. -/
structure Lawful (s t : State) : Prop extends Safe s t, PlacesKept s t where
  tables : s.HitsPending → s.RecordsBounded → s.TablesSound → t.TablesSound
  reports : s.SlotsAccounted → s.ReportsInOrder → t.ReportsInOrder
  reset : t.resetAsserted = s.resetAsserted

theorem Lawful.refl (s : State) : Lawful s s :=
  ⟨Safe.refl s, PlacesKept.refl s, fun _ _ => id, fun _ => id, rfl⟩

theorem Lawful.trans {s t u : State} (h : Lawful s t) (k : Lawful t u) : Lawful s u where
  toSafe := h.toSafe.trans k.toSafe
  toPlacesKept := h.toPlacesKept.trans k.toPlacesKept
  tables hits records sound := k.tables (h.hits hits) (h.records records) (h.tables hits records sound)
  reports slots order := k.reports (h.slots slots) (h.reports slots order)
  reset := k.reset.trans h.reset

theorem Owned.resetAsserted {s t : State} (h : Owned s t) : t.resetAsserted = s.resetAsserted :=
  congrArg LinkSide.resetAsserted h.link

/-- A change of the drop side is lawful. -/
theorem Owned.lawful {s t : State} (h : Owned s t) (k : Tabled s t) : Lawful s t :=
  ⟨h.toSafe, h.placesKept, k.tables, fun _ => k.reports, h.resetAsserted⟩

theorem choose_resetAsserted (s : State) (b : Bool) : (s.choose b).resetAsserted = s.resetAsserted := by
  unfold State.choose
  split
  · rfl
  · split
    · rfl
    · rfl
    · rfl
    · split <;> rfl

theorem transmit_resetAsserted (s : State) : s.transmit.resetAsserted = s.resetAsserted := by
  unfold State.transmit
  split <;> exact choose_resetAsserted s _

theorem lawful_choose (s : State) (b : Bool) : Lawful s (s.choose b) :=
  ⟨safe_choose s b, placesKept_choose s b, (tabled_choose s b).tables, fun _ => (tabled_choose s b).reports, choose_resetAsserted s b⟩

theorem lawful_transmit (s : State) : Lawful s s.transmit :=
  ⟨safe_transmit s, placesKept_transmit s, (tabled_transmit s).tables, fun _ => (tabled_transmit s).reports,
    transmit_resetAsserted s⟩

theorem takeFrame_resetAsserted {s u : State} {f : HostFrame} (h : s.takeFrame f = some u) : u.resetAsserted = s.resetAsserted := by
  unfold State.takeFrame at h
  split at h
  · cases h
  · split at h <;> split at h <;> cases h <;> rfl

theorem serve_resetAsserted (s : State) (f : HostFrame) {owner : State → State × Answer} (owned : ∀ t, Owned t (owner t).1) :
    (s.serve f owner).resetAsserted = s.resetAsserted := by
  unfold State.serve
  split
  · rfl
  · next u taken =>
    split
    · exact (transmit_resetAsserted _).trans (takeFrame_resetAsserted (u := u) taken)
    · exact (transmit_resetAsserted _).trans ((owned u).resetAsserted.trans (takeFrame_resetAsserted taken))

theorem lawful_serve (s : State) (f : HostFrame) {owner : State → State × Answer} (owned : ∀ t, Owned t (owner t).1)
    (tabled : ∀ t, Tabled t (owner t).1) : Lawful s (s.serve f owner) where
  toSafe := safe_serve s f owner owned
  toPlacesKept := placesKept_serve s f owner owned
  tables := (tabled_serve s f owner tabled owned).tables
  reports _ := (tabled_serve s f owner tabled owned).reports
  reset := serve_resetAsserted s f owned

/-- What an event does while the RESET input is released. -/
theorem lawful_whenOutOfReset {s : State} {f : State → State} (h : s.resetAsserted = false → Lawful s (f s)) :
    Lawful s (s.whenOutOfReset f) := by
  unfold State.whenOutOfReset
  split
  · exact Lawful.refl s
  · next released => exact h (by simpa using released)

theorem lawful_whenAwaiting {s : State} {l : LineNo} {f : State → Transaction → Reception → State}
    (h : ∀ t r, (s.engine l).state = .awaiting → Lawful s (f s t r)) : Lawful s (s.whenAwaiting l f) := by
  refine lawful_whenOutOfReset fun _ => ?_
  split
  next awaiting _ _ => exact h _ _ awaiting
  next => exact Lawful.refl s

/-! ### The events of the host link -/

theorem raiseNotice_resetAsserted (s : State) (r : NoticeReason) (tag : Octet) :
    (s.raiseNotice r tag).resetAsserted = s.resetAsserted := by
  unfold State.raiseNotice; split <;> rfl

theorem cutByGap_resetAsserted (s : State) : s.cutByGap.resetAsserted = s.resetAsserted := by
  unfold State.cutByGap
  split
  · rfl
  · exact raiseNotice_resetAsserted _ _ _

theorem discard_resetAsserted (s : State) (r : NoticeReason) : (s.discard r).resetAsserted = s.resetAsserted :=
  raiseNotice_resetAsserted _ _ _

theorem receive_resetAsserted (s : State) (o : Octet) (mark : Bool) : (s.receive o mark).resetAsserted = s.resetAsserted := by
  unfold State.receive
  split
  · split <;> rfl
  · unfold State.takeLength
    split
    · rfl
    · exact discard_resetAsserted s _
  · rfl
  · rfl
  · unfold State.judgeFrame
    split
    · exact discard_resetAsserted s _
    · split
      · exact discard_resetAsserted s _
      · rfl

theorem frameSent_resetAsserted (s : State) (t : Transmission) : (s.frameSent t).resetAsserted = s.resetAsserted := by
  unfold State.frameSent
  split
  · split
    · unfold State.switchRate
      split
      · rfl
      · exact cutByGap_resetAsserted _
    · rfl
  · rfl
  · rfl

theorem restarted_resetAsserted (s : State) (c : StartCause) (r : Octet) : (s.restarted c r).resetAsserted = false :=
  transmit_resetAsserted _

theorem lawful_receive (s : State) (o : Octet) (mark : Bool) : Lawful s (s.receive o mark) :=
  ⟨safe_receive s o mark, placesKept_receive s o mark, (tabled_receive s o mark).tables, fun _ => (tabled_receive s o mark).reports,
    receive_resetAsserted s o mark⟩

theorem lawful_cutByGap (s : State) : Lawful s s.cutByGap :=
  ⟨safe_cutByGap s, placesKept_cut s, (tabled_cut s).tables, fun _ => (tabled_cut s).reports, cutByGap_resetAsserted s⟩

/-- The reports of an accounted store fit the report queue, so that a number names one of them. -/
theorem reports_length_le {s : State} (h : s.SlotsAccounted) : s.reports.length ≤ 48 :=
  le_trans (Nat.le_add_left _ _) h.2.2

theorem lawful_frameSent (s : State) (t : Transmission) (sending : s.tx = some t) : Lawful s (s.frameSent t) :=
  ⟨safe_frameSent s t, placesKept_sent s t, (frameSent_ok s t sending).1, fun slots => (frameSent_ok s t sending).2 (reports_length_le slots),
    frameSent_resetAsserted s t⟩

theorem lawful_restarted (s : State) (c : StartCause) (r : Octet) (released : s.resetAsserted = false) :
    Lawful s (s.restarted c r) :=
  ⟨safe_restarted s c r, placesKept_restarted s c r, (tabled_restarted s c r).tables, fun _ => (tabled_restarted s c r).reports,
    (restarted_resetAsserted s c r).trans released.symm⟩

/-! ### The events of a line -/

theorem lawful_selectWork (s : State) (l : LineNo) : Lawful s (s.selectWork l) :=
  (owned_selectWork s l).lawful (filed_selectWork s l).tabled

/-- Work selected and then the transmitter's choice, the end of most events of a line. -/
theorem Lawful.selectTransmit {s t : State} (h : Lawful s t) (l : LineNo) : Lawful s (t.selectWork l).transmit :=
  (h.trans (lawful_selectWork t l)).trans (lawful_transmit _)

theorem Lawful.transmit {s t : State} (h : Lawful s t) : Lawful s t.transmit :=
  h.trans (lawful_transmit t)

theorem lawful_elapse (s : State) (n : Nat) : Lawful s (s.elapse n) :=
  (owned_elapse s n).lawful (filed_elapse s n).tabled

/-- An engine changed but for its latch, its soundness kept. -/
theorem lawful_onEngine (s : State) (l : LineNo) (f : LineEngine → LineEngine)
    (sound : (s.engine l).Sound → (f (s.engine l)).Sound) (latch : ∀ e, (f e).latch = e.latch) : Lawful s (s.onEngine l f) :=
  (owned_onEngine s l f sound).lawful (filed_onEngine s l f latch).tabled

theorem lawful_setFault (s : State) (l : LineNo) (b : Bool) : Lawful s (s.onEngine l fun e => { e with fault := b }) :=
  lawful_onEngine s l _ (sound_fault _ b) fun _ => rfl

theorem filed_finishStop (s : State) (l : LineNo) : Filed s (s.finishStop l) :=
  (filed_onEngine s l _ (by exact fun _ => rfl)).trans (filed_latchLine _ l _ _)

theorem lawful_finishStop (s : State) (l : LineNo) (h : (s.engine l).state = .stopping) : Lawful s (s.finishStop l) :=
  (owned_finishStop s l h).lawful (filed_finishStop s l).tabled

theorem filed_assertFault (s : State) (l : LineNo) : Filed s (s.assertFault l) := by
  have level : Filed s (s.onEngine l fun e => { e with fault := true }) := filed_onEngine s l _ fun _ => rfl
  unfold State.assertFault
  dsimp only
  cases (s.engine l).state with
  | off | held => exact level
  | stopping => exact level.trans (filed_finishStop _ l)
  | starting | idle | sending | awaiting | backoff => exact level.trans (filed_holdLine _ l)

theorem filed_releaseFault (s : State) (l : LineNo) : Filed s (s.releaseFault l) := by
  have level : Filed s (s.onEngine l fun e => { e with fault := false }) := filed_onEngine s l _ fun _ => rfl
  unfold State.releaseFault
  dsimp only
  split
  · exact level.trans ((filed_onEngine _ l _ (by exact fun _ => rfl)).trans (filed_latchLine _ l _ _))
  · exact level

theorem booked_expireHold (s : State) (l : LineNo) : Booked s (s.expireHold l) :=
  (booked_stopWith s l (fun e => e.enterOff .holdExpired) .lineFault .lineFault fun _ => rfl).trans (filed_latchLine _ l _ _).toBooked

theorem latch_cycleAfterClear (e : LineEngine) (now : PartTime) : (e.cycleAfterClear now).latch = e.latch := by
  unfold LineEngine.cycleAfterClear; split <;> rfl

theorem latch_leaveStarting (e : LineEngine) (now : PartTime) : (e.leaveStarting now).latch = e.latch := by
  unfold LineEngine.leaveStarting; split <;> exact latch_cycleAfterClear e now

theorem filed_floorEnds (s : State) (l : LineNo) : Filed s (s.floorEnds l) := by
  have stopped : Filed s (s.onEngine l fun e => { e with floorRunning := false, floorLeft := 0 }) := filed_onEngine s l _ fun _ => rfl
  unfold State.floorEnds
  dsimp only
  split
  · exact stopped.trans (filed_onEngine _ l _ (by exact fun _ => rfl))
  · exact stopped

theorem booked_frameEnds (s : State) (l : LineNo) (t : Transaction) : Booked s (s.frameEnds l t) := by
  unfold State.frameEnds
  split
  · exact (filed_onEngine s l _ (by exact fun _ => rfl)).toBooked.trans (booked_endTransaction _ l _ _ _)
  · exact (filed_onEngine s l _ (by exact fun _ => rfl)).toBooked

theorem lawful_finishAttempt (s : State) (l : LineNo) (c : AttemptClass) (heard : Bool) (awaiting : (s.engine l).state = .awaiting) :
    Lawful s (s.finishAttempt l c heard) :=
  ((owned_attemptEnd s l c heard awaiting).lawful (booked_attemptEnd s l c heard).tabled).selectTransmit l

theorem lawful_setReception (s : State) (l : LineNo) (r : Reception) (awaiting : (s.engine l).state = .awaiting) :
    Lawful s (s.setReception l r) :=
  (owned_setReception s l r awaiting).lawful (tabled_setReception s l r)

theorem lawful_replyCharacter (s : State) (l : LineNo) (t : Transaction) (r : Reception) (c : DropChar)
    (awaiting : (s.engine l).state = .awaiting) : Lawful s (s.replyCharacter l t r c) := by
  unfold State.replyCharacter
  split
  · exact lawful_setReception s l _ awaiting
  · exact Lawful.refl s
  · exact lawful_setReception s l _ awaiting
  · exact lawful_finishAttempt s l _ _ awaiting
  · split
    · exact lawful_setReception s l _ awaiting
    · exact lawful_setReception s l _ awaiting
    · exact lawful_finishAttempt s l _ _ awaiting
  · exact Lawful.refl s

theorem latch_strayCharacter (e : LineEngine) (c : DropChar) : (e.strayCharacter c).latch = e.latch := by
  unfold LineEngine.strayCharacter; split <;> rfl

/-! ### Every command -/

/-- An owner that changes nothing is lawful: the query owners. -/
theorem tabled_of_eq {s t : State} (h : t = s) : Tabled s t := h ▸ Tabled.refl s

theorem tabled_watchQueryOwner (b : List Octet) (s : State) : Tabled s (watchQueryOwner b s).1 :=
  tabled_of_eq (booked_queryOwners b s).2.2.2.2.2

theorem tabled_stationAddOwner (b : List Octet) (s : State) : Tabled s (stationAddOwner b s).1 :=
  ⟨fun _ => (tables_stationAddOwner b s).1, (tables_stationAddOwner b s).2⟩

theorem lawful_unknownKind (s : State) (kind tag : Octet) (body : List Octet) :
    ∃ t, exec (.unknownKind kind tag body) s = .next t ∧ Lawful s t := by
  change ∃ t, execUnknownKind kind tag body s = .next t ∧ Lawful s t
  unfold execUnknownKind
  split
  · exact ⟨s, rfl, Lawful.refl s⟩
  · exact ⟨_, rfl, lawful_serve s _ Owned.refl Tabled.refl⟩

/-- Every request is answered by an owner that is lawful. -/
theorem lawful_request (i : Instr) (f : HostFrame) (hf : i.frame = some f) (s : State) : ∃ t, exec i s = .next t ∧ Lawful s t := by
  have served {owner : State → State × Answer} (e : exec i s = .next (s.serve f owner)) (owned : ∀ t, Owned t (owner t).1)
      (tabled : ∀ t, Tabled t (owner t).1) : ∃ t, exec i s = .next t ∧ Lawful s t := ⟨_, e, lawful_serve s f owned tabled⟩
  cases i <;> cases hf
  case identify tag b => exact served rfl (owned_identifyOwner b) fun t => tabled_of_eq (booked_queryOwners b t).1
  case partStatus tag b => exact served rfl (owned_partStatusOwner b) fun t => tabled_of_eq (booked_queryOwners b t).2.1
  case setLinkRate tag b => exact served rfl (owned_setLinkRateOwner b) fun t => (booked_setLinkRateOwner b t).tabled
  case restart tag b => exact served rfl (owned_restartOwner b) fun t => (booked_restartOwner b t).tabled
  case lineSet tag b => exact served rfl (owned_lineSetOwner b) fun t => (booked_lineSetOwner b t).tabled
  case lineStart tag b => exact served rfl (owned_lineStartOwner b) fun t => (booked_lineStartOwner b t).tabled
  case lineStop tag b => exact served rfl (owned_lineStopOwner b) fun t => (booked_lineStopOwner b t).tabled
  case lineStatus tag b => exact served rfl (owned_lineStatusOwner b) fun t => (booked_lineStatusOwner b t).tabled
  case stationAdd tag b => exact served rfl (owned_stationAddOwner b) (tabled_stationAddOwner b)
  case stationRemove tag b => exact served rfl (owned_stationRemoveOwner b) fun t => (booked_stationRemoveOwner b t).tabled
  case stationSuspend tag b => exact served rfl (owned_stationSuspendOwner b) fun t => (booked_stationSuspendOwner b t).tabled
  case stationResume tag b => exact served rfl (owned_stationResumeOwner b) fun t => (booked_stationResumeOwner b t).tabled
  case stationSet tag b => exact served rfl (owned_stationSetOwner b) fun t => (booked_stationSetOwner b t).tabled
  case stationQuery tag b => exact served rfl (owned_stationQueryOwner b) fun t => tabled_of_eq (booked_queryOwners b t).2.2.1
  case send tag b => exact served rfl (owned_sendOwner b) fun t => (booked_sendOwner b t).tabled
  case fetch tag b => exact served rfl (owned_fetchOwner b) fun t => (booked_fetchOwner b t).tabled
  case cancel tag b => exact served rfl (owned_cancelOwner b) fun t => (booked_cancelOwner b t).tabled
  case orderQuery tag b => exact served rfl (owned_orderQueryOwner b) fun t => tabled_of_eq (booked_queryOwners b t).2.2.2.1
  case memberAdd tag b => exact served rfl (owned_memberAddOwner b) fun t => (booked_memberAddOwner b t).tabled
  case memberDrop tag b => exact served rfl (owned_memberDropOwner b) fun t => (booked_memberDropOwner b t).tabled
  case groupSend tag b => exact served rfl (owned_groupSendOwner b) fun t => (booked_groupSendOwner b t).tabled
  case groupQuery tag b => exact served rfl (owned_groupQueryOwner b) fun t => tabled_of_eq (booked_queryOwners b t).2.2.2.2.1
  case watchSet tag b => exact served rfl (owned_watchSetOwner b) (tabled_watchSet b)
  case watchClear tag b => exact served rfl (owned_watchClearOwner b) fun t => (booked_watchClearOwner b t).tabled
  case watchRearm tag b => exact served rfl (owned_watchRearmOwner b) fun t => (booked_watchRearmOwner b t).tabled
  case watchQuery tag b => exact served rfl (owned_watchQueryOwner b) (tabled_watchQueryOwner b)
  case reportConfirm tag b => exact served rfl (owned_reportConfirmOwner b) (tabled_confirm b)
  case reportResend tag b => exact served rfl (owned_reportResendOwner b) (tabled_resend b)
  case unknownKind tag b => exact lawful_unknownKind s _ tag b

/-- Every event but those of RESET is lawful: out of reset its own operation, and in reset nothing. -/
theorem lawful_event (i : Instr) (hf : i.frame = none) (asserts : i ≠ .resetAssert) (releases : i ≠ .resetRelease) (s : State) :
    ∃ t, exec i s = .next t ∧ Lawful s t := by
  have event {t : State} (e : exec i s = .next t) (h : Lawful s t) : ∃ t, exec i s = .next t ∧ Lawful s t := ⟨t, e, h⟩
  cases i <;> cases hf
  case resetAssert => exact absurd rfl asserts
  case resetRelease => exact absurd rfl releases
  case hostCharacter o mark =>
    refine event rfl (lawful_whenOutOfReset fun _ => ?_)
    split
    · exact Lawful.refl s
    · exact (lawful_receive s o mark).transmit
  case hostGapTimeout => exact event rfl (lawful_whenOutOfReset fun _ => (lawful_cutByGap s).transmit)
  case hostFrameSent =>
    refine event rfl (lawful_whenOutOfReset fun _ => ?_)
    split
    · exact Lawful.refl s
    · next t sending => exact (lawful_frameSent s t sending).trans (lawful_choose _ false)
  case restartEffect =>
    refine event rfl (lawful_whenOutOfReset fun released => ?_)
    split
    · exact lawful_restarted s _ _ released
    · exact Lawful.refl s
  case faultAssert l =>
    refine event rfl ?_
    split
    · exact Lawful.refl s
    · split
      · exact lawful_setFault s l true
      · exact ((owned_assertFault s l).lawful (filed_assertFault s l).tabled).transmit
  case faultRelease l =>
    refine event rfl ?_
    split
    · exact Lawful.refl s
    · split
      · exact lawful_setFault s l false
      · exact ((owned_releaseFault s l).lawful (filed_releaseFault s l).tabled).transmit
  case holdExpiry l =>
    refine event rfl (lawful_whenOutOfReset fun _ => ?_)
    split
    · exact ((lawful_elapse s _).trans ((owned_expireHold _ l).lawful (booked_expireHold _ l).tabled)).transmit
    · exact Lawful.refl s
  case lineClearEnd l =>
    refine event rfl (lawful_whenOutOfReset fun _ => ?_)
    split
    next starting =>
      exact ((owned_leaveStarting s l starting).lawful
        (filed_onEngine s l _ fun e => latch_leaveStarting e _).tabled).selectTransmit l
    next stopping => exact (lawful_finishStop s l stopping).transmit
    next => exact Lawful.refl s
  case dropFrameEnd l =>
    refine event rfl (lawful_whenOutOfReset fun _ => ?_)
    split
    next t sending _ => exact ((owned_frameEnds s l t sending).lawful (booked_frameEnds s l t).tabled).transmit
    next => exact Lawful.refl s
  case replyCharacter l c => exact event rfl (lawful_whenAwaiting fun t r awaiting => lawful_replyCharacter s l t r c awaiting)
  case strayCharacter l c =>
    exact event rfl (lawful_whenOutOfReset fun _ =>
      lawful_onEngine s l _ (sound_strayCharacter _ c) fun e => latch_strayCharacter e c)
  case replyWindowExpiry l receiving =>
    refine event rfl (lawful_whenAwaiting fun t r awaiting => ?_)
    split
    · split
      · exact lawful_setReception s l _ awaiting
      · exact lawful_finishAttempt s l _ _ awaiting
    · exact Lawful.refl s
  case replyGapTimeout l =>
    refine event rfl (lawful_whenAwaiting fun t r awaiting => ?_)
    split
    · exact lawful_finishAttempt s l _ _ awaiting
    · exact Lawful.refl s
  case corruptQuietEnd l =>
    refine event rfl (lawful_whenAwaiting fun t r awaiting => ?_)
    split
    · exact lawful_finishAttempt s l _ _ awaiting
    · exact Lawful.refl s
  case busyDelayExpiry l =>
    refine event rfl (lawful_whenOutOfReset fun _ => ?_)
    split
    · next h =>
      have backoff : (s.engine l).state = .backoff := by simp only [Bool.and_eq_true, decide_eq_true_eq] at h; exact h.1
      refine (lawful_elapse s _).trans (lawful_onEngine _ l _ ?_ fun _ => rfl)
      exact sound_busyDelayEnds _ (by rw [engine_elapse]; exact backoff)
    · exact Lawful.refl s
  case guardExpiry l =>
    refine event rfl (lawful_whenOutOfReset fun _ => ?_)
    split
    · exact (lawful_onEngine s l _ (sound_guardEnds _) fun _ => rfl).selectTransmit l
    · exact Lawful.refl s
  case cycleFloorExpiry l =>
    refine event rfl (lawful_whenOutOfReset fun _ => ?_)
    split
    · exact ((lawful_elapse s _).trans ((owned_floorEnds _ l).lawful (filed_floorEnds _ l).tabled)).selectTransmit l
    · exact Lawful.refl s

theorem exec_resetAssert (s : State) : exec .resetAssert s = .next { s.cleared with resetAsserted := true } := rfl

theorem exec_resetRelease (s : State) :
    exec .resetRelease s = .next (if s.resetAsserted then s.restarted .pin 2 else s) := rfl

/-- What a command does: RESET clears the part, its release starts it, and every other command is lawful. -/
theorem exec_cases (i : Instr) (s : State) :
    (∃ t, exec i s = .next t ∧ Lawful s t) ∨
    (i = .resetAssert ∧ exec i s = .next { s.cleared with resetAsserted := true }) ∨
    (i = .resetRelease ∧ s.resetAsserted = true ∧ exec i s = .next (s.restarted .pin 2)) := by
  cases hf : i.frame with
  | some f => exact .inl (lawful_request i f hf s)
  | none =>
    by_cases asserts : i = .resetAssert
    · exact .inr (.inl ⟨asserts, asserts ▸ exec_resetAssert s⟩)
    by_cases releases : i = .resetRelease
    · subst releases
      cases asserted : s.resetAsserted with
      | false => exact .inl ⟨s, by simp [exec_resetRelease, asserted], Lawful.refl s⟩
      | true => exact .inr (.inr ⟨rfl, rfl, by simp [exec_resetRelease, asserted]⟩)
    · exact .inl (lawful_event i hf asserts releases s)

end Machine

end Sys2Proof

/-! ### Every step -/

namespace Sys2Proof

namespace Machine

theorem step_idle {s : State} (h : s.pending = []) : step s = .next s.tick := by
  unfold step; rw [h]

theorem step_command {s : State} {c : Instr} {rest : List Instr} (h : s.pending = c :: rest) :
    step s = exec c { s with pending := rest } := by
  unfold step; rw [h]

/-- Settles O1: the equation of `step` for a queue that is not empty. -/
theorem stepRunsFrontCommand : Obligations.StepRunsFrontCommand := fun _ _ _ h => step_command h

theorem lawful_tick (s : State) : Lawful s s.tick := lawful_whenOutOfReset fun _ => lawful_elapse s 1

/-- A property of the state that the commands that wait do not touch is kept by every step when every lawful change, RESET and
its release keep it. -/
theorem kept_of_lawful {Inv : State → Prop} (queue : ∀ (s : State) (rest : List Instr), Inv s → Inv { s with pending := rest })
    (lawful : ∀ {s t : State}, Lawful s t → Inv s → Inv t) (asserted : ∀ s : State, Inv s → Inv { s.cleared with resetAsserted := true })
    (released : ∀ s : State, Inv s → Inv (s.restarted .pin 2)) : Kept Inv := by
  intro s t inv stepped
  cases waiting : s.pending with
  | nil =>
    obtain rfl : s.tick = t := Host.Outcome.next.inj ((step_idle waiting).symm.trans stepped)
    exact lawful (lawful_tick s) inv
  | cons c rest =>
    have inv' := queue s rest inv
    rw [step_command waiting] at stepped
    obtain ⟨u, e, law⟩ | ⟨-, e⟩ | ⟨-, -, e⟩ := exec_cases c { s with pending := rest } <;>
      obtain rfl := Host.Outcome.next.inj (e.symm.trans stepped)
    · exact lawful law inv'
    · exact asserted _ inv'
    · exact released _ inv'

/-! ### The invariants kept (O57 to O60) -/

theorem safe_resetAsserted (s : State) : Safe s { s.cleared with resetAsserted := true } :=
  (safe_cleared s).trans (safe_host rfl rfl)

/-- What every change of the stores keeps, every step keeps. -/
theorem kept_of_safe {Inv : State → Prop} (queue : ∀ (s : State) (rest : List Instr), Inv s → Inv { s with pending := rest })
    (safe : ∀ {s t : State}, Safe s t → Inv s → Inv t) : Kept Inv :=
  kept_of_lawful queue (fun law => safe law.toSafe) (fun s => safe (safe_resetAsserted s)) fun s => safe (safe_restarted s .pin 2)

/-- Settles O59. -/
theorem blocksAccountedKept : Obligations.BlocksAccountedKept :=
  kept_of_safe (fun _ _ => id) Safe.blocks

theorem driverEnable_iff (e : LineEngine) :
    e.driverEnable = true ↔ e.state = .starting ∨ e.state = .sending ∨ e.state = .stopping := by
  simp [LineEngine.driverEnable, or_assoc]

/-- Settles O60. -/
theorem enginesCoherentKept : Obligations.EnginesCoherentKept :=
  ⟨kept_of_safe (fun _ _ => id) Safe.engines, driverEnable_iff⟩

theorem reportsInOrder_resetAsserted (s : State) : ({ s.cleared with resetAsserted := true } : State).ReportsInOrder := by
  refine ⟨List.Pairwise.nil, Nat.zero_le _, fun k r h => ?_, fun n h => ?_⟩
  · cases h
  · cases h

/-- Settles O58: the order of the report list rests on the accounts of its slots, since a report in transmission is named by its number. -/
theorem slotsAccountedKept : Obligations.SlotsAccountedKept := by
  refine ⟨kept_of_safe (fun _ _ => id) Safe.slots, kept_of_lawful (fun _ _ => id) ?lawful ?asserted ?released⟩
  case lawful => exact fun law ⟨slots, order⟩ => ⟨law.slots slots, law.reports slots order⟩
  case asserted => exact fun s ⟨slots, _⟩ => ⟨(safe_resetAsserted s).slots slots, reportsInOrder_resetAsserted s⟩
  case released => exact fun s ⟨slots, _⟩ => ⟨(safe_restarted s _ _).slots slots, inOrder_restarted s _ _⟩

theorem Safe.storesSound {s t : State} (h : Safe s t) (k : s.StoresSound) : t.StoresSound := by
  obtain ⟨pool, records, hits, draws⟩ := k
  exact ⟨h.pool pool, h.records records, h.hits hits, h.draws draws⟩

theorem placesBounded_resetAsserted (s : State) : ({ s.cleared with resetAsserted := true } : State).PlacesBounded :=
  ⟨Nat.zero_le _, Nat.zero_le _, Nat.zero_le _⟩

theorem placesBoundedKept : Kept State.PlacesBounded :=
  kept_of_lawful (fun _ _ => id) (fun law => law.places) (fun s _ => placesBounded_resetAsserted s) fun s => (placesKept_restarted s _ _).places

theorem tablesSoundKept : Kept fun s => s.StoresSound ∧ s.TablesSound := by
  have kept {s t : State} (safe : Safe s t) (tables : s.HitsPending → s.RecordsBounded → s.TablesSound → t.TablesSound)
      (h : s.StoresSound ∧ s.TablesSound) : t.StoresSound ∧ t.TablesSound := by
    obtain ⟨stores, sound⟩ := h
    have ⟨_, records, hits, _⟩ := stores
    exact ⟨safe.storesSound stores, tables hits records sound⟩
  refine kept_of_lawful (fun _ _ => id) (fun law => kept law.toSafe law.tables) (fun s => kept (safe_resetAsserted s) fun _ _ _ => ?_)
    fun s => kept (safe_restarted s _ _) (tabled_restarted s _ _).tables
  exact tables_host rfl rfl rfl rfl rfl rfl rfl rfl (tables_cleared s)

/-! ### The part held in reset (R188) -/

theorem engine_cleared (s : State) (l : LineNo) : s.cleared.engine l = LineEngine.reset (s.engine l).fault := by
  simp [State.cleared, State.engine]

theorem heldInReset_resetAsserted (s : State) : ({ s.cleared with resetAsserted := true } : State).HeldInReset := by
  refine fun _ => ⟨fun l => ?_, rfl, rfl, rfl, rfl, rfl, rfl, rfl, rfl⟩
  have e : ({ s.cleared with resetAsserted := true } : State).engine l = LineEngine.reset (s.engine l).fault := engine_cleared s l
  rw [e]; exact ⟨rfl, rfl⟩

theorem heldInReset_of_released {s : State} (h : s.resetAsserted = false) : s.HeldInReset := by
  intro asserted; rw [h] at asserted; cases asserted

/-- The FAULT levels alone are recorded while RESET is asserted [log 9]. -/
theorem exec_faultAssert_inReset (l : LineNo) {s : State} (h : s.resetAsserted = true) :
    exec (.faultAssert l) s = .next (if (s.engine l).fault then s else s.onEngine l fun e => { e with fault := true }) := by
  change execFaultAssert l s = _
  simp [execFaultAssert, h]

theorem exec_faultRelease_inReset (l : LineNo) {s : State} (h : s.resetAsserted = true) :
    exec (.faultRelease l) s = .next (if !(s.engine l).fault then s else s.onEngine l fun e => { e with fault := false }) := by
  change execFaultRelease l s = _
  simp [execFaultRelease, h]

theorem heldInReset_setFault {s : State} (held : s.HeldInReset) (l : LineNo) (b : Bool) :
    (s.onEngine l fun e => { e with fault := b }).HeldInReset := by
  intro asserted
  obtain ⟨off, rest⟩ := held asserted
  refine ⟨fun m => ?_, rest⟩
  rw [engine_onEngine]
  split
  · exact off m
  · exact off m

/-- A step in reset leaves the part held, unless it is the release; out of reset only RESET asserts the input. -/
theorem heldInResetKept : Kept State.HeldInReset := by
  intro s t held stepped
  cases waiting : s.pending with
  | nil =>
    obtain rfl : s.tick = t := Host.Outcome.next.inj ((step_idle waiting).symm.trans stepped)
    cases reset : s.resetAsserted with
    | false => exact heldInReset_of_released ((lawful_tick s).reset.trans reset)
    | true => simpa [State.tick, State.whenOutOfReset, reset] using held
  | cons c rest =>
    rw [step_command waiting] at stepped
    have held' : ({ s with pending := rest } : State).HeldInReset := held
    generalize ({ s with pending := rest } : State) = u at held' stepped
    obtain ⟨v, e, law⟩ | ⟨-, e⟩ | ⟨-, -, e⟩ := exec_cases c u <;>
      obtain rfl := Host.Outcome.next.inj (e.symm.trans stepped)
    · cases reset : u.resetAsserted with
      | false => exact heldInReset_of_released (law.reset.trans reset)
      | true =>
        obtain rfl | rfl | ⟨l, rfl | rfl⟩ | rfl := exec_heldInReset c u v reset e
        · exact heldInReset_of_released (by cases (e.symm.trans (exec_resetRelease u)); simp [reset, restarted_resetAsserted])
        · cases e.symm.trans (exec_resetAssert u); exact heldInReset_resetAsserted u
        · cases e.symm.trans (exec_faultAssert_inReset l reset)
          split
          · exact held'
          · exact heldInReset_setFault held' l true
        · cases e.symm.trans (exec_faultRelease_inReset l reset)
          split
          · exact held'
          · exact heldInReset_setFault held' l false
        · exact held'
    · exact heldInReset_resetAsserted u
    · exact heldInReset_of_released (restarted_resetAsserted u _ _)

/-- Settles O57. -/
theorem storesAndPlacesKept : Obligations.StoresAndPlacesKept :=
  ⟨kept_of_safe (fun _ _ => id) Safe.storesSound, placesBoundedKept, heldInResetKept, tablesSoundKept⟩

end Machine

end Sys2Proof

/-! ## The state after reset, RESET held and released, and time (O3, O9, O10, O56) -/

namespace Sys2Proof

namespace Machine

/-! ### The state after reset -/

theorem station_reset (ix : StationIx) : State.reset.station ix = Station.cleared := by
  simp [State.reset, State.station]

theorem group_reset (g : GroupNo) : State.reset.group g = { members := [], seq := 0 } := by
  simp [State.reset, State.group]

theorem watch_reset (w : WatchNo) : State.reset.watch w = Watch.cleared := by
  simp [State.reset, State.watch]

theorem heldBlocks_reset : State.reset.heldBlocks = [] := rfl

theorem freeBlocks_length_reset : State.reset.freeBlocks.length = 160 := by
  simp [State.freeBlocks, heldBlocks_reset, Config.bufferBlocks]

/-- Settles O10: the tables read by their reset lemmas; the other fields are written out in `State.reset`. -/
theorem stateAfterReset : Obligations.StateAfterReset := by
  refine ⟨fun l => ?_, station_reset, rfl, rfl, fun g => ?_, rfl, watch_reset, freeBlocks_length_reset,
    rfl, rfl, rfl, rfl, rfl, rfl, rfl, rfl, rfl, rfl, rfl⟩
  · rw [engine_reset]; exact ⟨rfl, rfl, rfl, rfl, rfl, rfl, rfl, rfl, ⟨rfl, rfl, rfl, rfl⟩, rfl, rfl, rfl, rfl⟩
  · rw [group_reset]; exact ⟨rfl, rfl, rfl⟩

/-! ### The invariants after reset -/

theorem storesSound_reset : State.reset.StoresSound := by
  refine ⟨rfl, ⟨Nat.zero_le _, Nat.zero_le _⟩, fun w => ?_, fun h => absurd rfl h⟩
  rw [watch_reset]; simp [Watch.cleared]

theorem addressesDistinct_reset : State.reset.AddressesDistinct :=
  fun i _ hi => absurd (congrArg Station.state (station_reset i)) hi

theorem membersListed_reset : State.reset.MembersListed := by
  intro g; rw [group_reset]; exact ⟨Nat.zero_le _, List.nodup_nil⟩

theorem not_latched_reset (x : Source) : ¬ State.reset.latched x := by
  cases x with
  | station ix => simp [State.latched, station_reset, Station.cleared]
  | line l => simp [State.latched, engine_reset, LineEngine.reset]
  | watch w => simp [State.latched, watch_reset, Watch.cleared]

theorem sourcesLatched_reset : State.reset.SourcesLatched := by
  refine ⟨List.nodup_nil, fun x => iff_of_false List.not_mem_nil (not_latched_reset x), fun ix _ => ?_⟩
  rw [station_reset]; rfl

theorem tablesSound_reset : State.reset.TablesSound :=
  ⟨addressesDistinct_reset, membersListed_reset, ⟨List.nodup_nil, List.not_mem_nil, List.not_mem_nil, by decide⟩,
    fun _ h => absurd h List.not_mem_nil, sourcesLatched_reset⟩

/-- PART STARTED is the one report, QUEUED and in transmission. -/
theorem reportsInOrder_reset : State.reset.ReportsInOrder := by
  refine ⟨List.pairwise_singleton _ _, by decide, fun k r h => ?_, fun n h => ?_⟩
  · obtain ⟨rfl, rfl⟩ : k = 0 ∧ partStarted .pin = r := by
      cases k with
      | zero => exact ⟨rfl, Option.some.inj h⟩
      | succ k => cases h
    rfl
  · cases h; exact ⟨partStarted .pin, rfl, rfl⟩

/-- Settles O56. -/
theorem invariantsHoldAtReset : Obligations.InvariantsHoldAtReset := by
  refine ⟨storesSound_reset, ⟨rfl, Nat.zero_le _, by decide⟩, ⟨List.nodup_nil, fun b h => absurd h List.not_mem_nil⟩, fun l => ?_,
    ⟨Nat.zero_le _, Nat.zero_le _, Nat.zero_le _⟩, heldInReset_of_released rfl, tablesSound_reset, reportsInOrder_reset⟩
  rw [engine_reset]; exact sound_reset false

/-! ### RESET (R188) and RESTART (R186, R187) -/

theorem station_cleared (s : State) (ix : StationIx) : s.cleared.station ix = Station.cleared := station_reset ix

/-- PART STARTED is the only report and the reply queue is empty, so that it goes to the idle transmitter at once. -/
theorem restarted_eq_freshStart (s : State) (cause : StartCause) (rate : Octet) : s.restarted cause rate = s.freshStart cause rate := by
  rfl

/-- Settles O9. -/
theorem resetHoldsAndReleases : Obligations.ResetHoldsAndReleases := by
  refine ⟨fun s => ⟨_, exec_resetAssert s, rfl, heldInReset_resetAsserted s, fun l => ?_, station_cleared s⟩, fun s h => ?_,
    fun i s h asserts releases faults => ?_⟩
  · exact (congrArg LineEngine.fault (engine_cleared s l) : _)
  · rw [exec_resetRelease, if_pos h, restarted_eq_freshStart]
  · obtain ⟨t, e, -⟩ | ⟨rfl, -⟩ | ⟨rfl, -⟩ := exec_cases i s
    · obtain rfl | rfl | ⟨l, rfl | rfl⟩ | rfl := exec_heldInReset i s t h e
      · exact absurd rfl releases
      · exact absurd rfl asserts
      · exact absurd rfl (faults l).1
      · exact absurd rfl (faults l).2
      · exact e
    · exact absurd rfl asserts
    · exact absurd rfl releases

theorem exec_restartEffect (s : State) :
    exec .restartEffect s = .next (s.whenOutOfReset fun s => if s.restartDue then s.restarted .request s.linkRate else s) := rfl

theorem exec_restart (tag : Octet) (body : List Octet) (s : State) :
    exec (.restart tag body) s = .next (s.serve ⟨0x04, tag, body⟩ (restartOwner body)) := rfl

theorem restartDue_iff (s : State) :
    s.restartDue = true ↔ s.restarting = true ∧ s.inputQueue = [] ∧ s.replyQueue = [] ∧ s.tx = none := by
  simp [State.restartDue, and_assoc]

/-- A request whose owner changes the state and accepts is answered on the changed state. -/
theorem exec_eq_answering_of_changed {i : Instr} {f : HostFrame} {s u v : State} {owner : State → State × Answer} {code : ResultCode}
    {data : List Octet} (served : exec i s = .next (s.serve f owner)) (hf : i.frame = some f) (taken : Taken i s u)
    (answered : owner u = (v, { code := code, data := data, rate := none })) : exec i s = .next (v.answering i code data) := by
  obtain ⟨g, hg, ht, running⟩ := taken
  obtain rfl : f = g := Option.some.inj (hf.symm.trans hg)
  rw [served, serve_taken ht running, answered]
  simp only [State.answering, hf, State.replied]

/-- Settles O8. -/
theorem restartAcceptedAndTakesEffect : Obligations.RestartAcceptedAndTakesEffect := by
  refine ⟨fun tag s u taken => ?accepted, fun tag scope s u other taken => ?refused, fun s released running input replies idle => ?due,
    fun s notYet => ?early⟩
  case accepted => exact exec_eq_answering_of_changed (exec_restart tag _ s) rfl taken rfl
  case refused => exact exec_eq_answering (exec_restart tag _ s) rfl taken (if_neg other)
  case due =>
    have due := (restartDue_iff s).2 ⟨running, input, replies, idle⟩
    simp [exec_restartEffect, State.whenOutOfReset, released, due, restarted_eq_freshStart]
  case early =>
    have notDue : ¬ s.restartDue = true := by
      rw [restartDue_iff]
      rintro ⟨running, input, replies, idle⟩
      simp [running, input, replies, idle] at notYet
    simp [exec_restartEffect, State.whenOutOfReset, notDue]

/-! ### Time (R183) -/

theorem resetAsserted_pending (s : State) : ({ s.cleared with resetAsserted := true } : State).pending = s.pending := rfl

/-- Every command answers a next state, and the commands that wait stay as they were. -/
theorem exec_answers_next (i : Instr) (s : State) : ∃ t, exec i s = .next t ∧ t.pending = s.pending := by
  obtain ⟨t, e, law⟩ | ⟨-, e⟩ | ⟨-, -, e⟩ := exec_cases i s
  · exact ⟨t, e, law.pend⟩
  · exact ⟨_, e, resetAsserted_pending s⟩
  · exact ⟨_, e, (placesKept_restarted s .pin 2).pend⟩

theorem tick_released {s : State} (h : s.resetAsserted = false) : s.tick = s.elapse 1 := by
  simp [State.tick, State.whenOutOfReset, h]

theorem tick_asserted {s : State} (h : s.resetAsserted = true) : s.tick = s := by
  simp [State.tick, State.whenOutOfReset, h]

theorem tick_iterate (n : Nat) : ∀ {s : State}, s.resetAsserted = false → State.tick^[n] s = s.elapse n := by
  induction n with
  | zero => intro s _; exact (elapse_zero s).symm
  | succ n ih =>
    intro s released
    rw [Function.iterate_succ_apply, tick_released released, ih (s := s.elapse 1) released, elapse_elapse, Nat.add_comm]

/-- Settles O3. -/
theorem everyStepAnswersNext : Obligations.EveryStepAnswersNext := by
  refine ⟨exec_answers_next, fun s idle => ⟨fun released => ?_, fun asserted => ?_⟩, fun s n released =>
    ⟨tick_iterate n released, elapse_partTime s n, fun l => engine_elapse s n l⟩⟩
  · rw [step_idle idle, tick_released released]; rfl
  · rw [step_idle idle, tick_asserted asserted]

end Machine

end Sys2Proof

/-! ## The host link: the transmitter, the receiver and the link rate (O7, O12 to O16) -/

namespace Sys2Proof

namespace Machine

/-! ### The transmitter's choice (R181) -/

theorem choose_of_busy {s : State} (h : s.tx ≠ none) (b : Bool) : s.choose b = s := by
  unfold State.choose
  rw [if_pos (by simp [Option.isSome_iff_ne_none.mpr h])]

/-- The choice of a transmitter that is idle and not held. -/
theorem choose_of_idle {s : State} (released : s.resetAsserted = false) (idle : s.tx = none) (b : Bool) :
    s.choose b = match s.replyQueue, s.offer with
      | [], none => s
      | [], some r => { s with tx := some (.report r.number false) }
      | f :: rest, none => { s with replyQueue := rest, tx := some f.start }
      | f :: rest, some r =>
          if b then { s with tx := some (.report r.number false) } else { s with replyQueue := rest, tx := some f.start } := by
  unfold State.choose
  rw [if_neg (by simp [released, idle])] <;> rfl

theorem choose_of_nothing {s : State} (queue : s.replyQueue = []) (offer : s.offer = none) (b : Bool) : s.choose b = s := by
  unfold State.choose
  split
  · rfl
  · rw [queue, offer]

theorem transmit_of_not_open {s : State} (h : s.openChoice = false) : s.transmit = s.choose false := by
  unfold State.transmit; rw [if_neg (by simp [h])]

theorem transmit_of_busy {s : State} (h : s.tx ≠ none) : s.transmit = s := by
  rw [transmit_of_not_open (by simp [State.openChoice, Option.isNone_iff_eq_none, h]), choose_of_busy h]

/-- The offer (R163): the first QUEUED report, while the window has room and the part is not RESTARTING. -/
theorem offer_eq_some_iff (s : State) (r : Report) :
    s.offer = some r ↔ s.restarting = false ∧ s.windowUsed < 8 ∧ s.reports.find? (fun q => !q.sent) = some r := by
  cases hr : s.restarting
  · by_cases room : s.windowUsed < 8
    · simp [State.offer, hr, Config.sendWindow, room, Nat.not_le.mpr room]
    · simp [State.offer, hr, Config.sendWindow, room, Nat.not_lt.mp room]
  · simp [State.offer, hr]

/-- Settles O12. -/
theorem transmitterChoice : Obligations.TransmitterChoice := by
  refine ⟨fun s busy => ⟨transmit_of_busy busy, choose_of_busy busy false⟩, fun s f rest released idle queue => ?reply,
    fun s f rest released idle queue offer => ?replyAlone, fun s r released idle queue offer => ?reportAlone,
    fun s queue offer => ?nothing, fun s f rest r released idle queue offer => ?both, offer_eq_some_iff⟩
  case reply => rw [choose_of_idle released idle, queue]; cases s.offer <;> rfl
  case replyAlone =>
    rw [transmit_of_not_open (by simp [State.openChoice, offer]), choose_of_idle released idle, queue, offer]
  case reportAlone =>
    rw [transmit_of_not_open (by simp [State.openChoice, queue]), choose_of_idle released idle, queue, offer]
  case nothing => rw [transmit_of_not_open (by simp [State.openChoice, queue]), choose_of_nothing queue offer]
  case both =>
    have opens : s.openChoice = true := by simp [State.openChoice, released, idle, queue, offer]
    unfold State.transmit
    rw [if_pos opens, choose_of_idle released idle, queue, offer]
    cases Config.reportOfferFirst s.choices
    · exact .inl rfl
    · exact .inr rfl

/-! ### The last octet of a frame (R182), and the octets of frames (R172, R195) -/

theorem exec_hostFrameSent {s : State} {t : Transmission} (released : s.resetAsserted = false) (sending : s.tx = some t) :
    exec .hostFrameSent s = .next ((s.frameSent t).choose false) := by
  change execHostFrameSent s = _
  simp [execHostFrameSent, State.whenOutOfReset, released, sending]

theorem frameSent_reply (s : State) {r : Reply} (h : r.rate = none) : s.frameSent (.reply r) = { s with tx := none } := by
  simp [State.frameSent, h]

theorem frameSent_rate (s : State) {r : Reply} {code : Octet} (h : r.rate = some code) :
    s.frameSent (.reply r) = ({ s with tx := none } : State).switchRate code := by
  simp [State.frameSent, h]

theorem markSent_resent (reports : List Report) (n : Octet) : markSent reports n true = reports := by simp [markSent]

theorem markSent_queued (reports : List Report) (n : Octet) :
    markSent reports n false = reports.map fun r => if r.number = n then { r with sent := true } else r := by simp [markSent]

/-- A host frame's octets, its LEN counting KIND, TAG and BODY (R172). -/
theorem frameOctets_eq (f : HostFrame) :
    frameOctets f = 0xD4 :: octet (2 + f.body.length) :: f.kind :: f.tag :: f.body ++
      wordOctets (crc (octet (2 + f.body.length) :: f.kind :: f.tag :: f.body)) := by
  rw [Nat.add_comm 2]; rfl

theorem sendingOctets_report {s : State} {r : Report} {resent : Bool} (sending : s.tx = some (.report r.number resent))
    (listed : s.reports.find? (fun q => q.number = r.number) = some r) :
    s.sendingOctets = frameOctets (r.frame (s.reportPayload r)) := by
  simp [State.sendingOctets, sending, listed]

theorem flagPair_eq_add (a b : Bool) : flagPair a b = (if a then 1 else 0) + (if b then 2 else 0) := by
  cases a <;> cases b <;> rfl

theorem attemptsOctet_eq_add (n : Nat) (repaired : Bool) :
    attemptsOctet n repaired = (octet n &&& 0x1F) + (if repaired then 0x80 else 0) := by
  have bits : ∀ o : Octet, (o &&& 0x1F) ||| 0x80 = (o &&& 0x1F) + 0x80 := by decide +kernel
  cases repaired
  · simp [attemptsOctet, truth]
  · exact bits (octet n)

theorem optionalOctet_cause (o : OrderOutcome) :
    optionalOctet (o.cause.map CorruptCause.code) = match o with
      | .corrupt cause => cause.code
      | _ => 0xFF := by
  cases o <;> rfl

theorem optionalOctet_group (g : Option GroupNo) :
    optionalOctet (g.map groupOctetOf) = match g with
      | some g => octet g.val
      | none => 0xFF := by
  cases g <;> rfl

theorem identityOctets_eq (st : Option StationRef) :
    identityOctets st = match st with
      | some st => [octet st.index.val, octet st.line.val, st.address]
      | none => [0xFF, 0xFF, 0xFF] := by
  cases st <;> rfl

/-- A report in transmission is its frame, the number as TAG and the mark ahead of its body (R193). -/
theorem sendingOctets_of_frame {s : State} {r : Report} {resent : Bool} {kind : Octet} {body : List Octet}
    (sending : s.tx = some (.report r.number resent)) (listed : s.reports.find? (fun q => q.number = r.number) = some r)
    (h : r.frame (s.reportPayload r) = ⟨kind, r.number, 0xFF :: body⟩) :
    s.sendingOctets = 0xD4 :: octet (2 + (0xFF :: body).length) :: kind :: r.number :: (0xFF :: body) ++
      wordOctets (crc (octet (2 + (0xFF :: body).length) :: kind :: r.number :: (0xFF :: body))) := by
  rw [sendingOctets_report sending listed, h]
  exact frameOctets_eq _

/-- Settles O13: each frame in transmission is `frameOctets_eq` of the frame that its holder gives. -/
theorem lastOctetLeaves : Obligations.LastOctetLeaves := by
  refine ⟨fun s released => ⟨fun r sending still => ?_, fun n sending => ?_, fun n sending => ?_, fun n sending => ?_⟩,
    fun s => ⟨fun idle => ?_, fun r sending => ?_, fun n sending => ?_, fun r resent sending listed => ?reports⟩⟩
  · rw [exec_hostFrameSent released sending, frameSent_reply s still]
  · exact exec_hostFrameSent released sending
  · rw [exec_hostFrameSent released sending, State.frameSent, markSent_queued]
  · rw [exec_hostFrameSent released sending, State.frameSent, markSent_resent]
  · simp [State.sendingOctets, idle]
  · simp only [State.sendingOctets, sending]; exact frameOctets_eq r.frame
  · simp only [State.sendingOctets, sending]; exact frameOctets_eq n.frame
  case reports =>
    refine ⟨fun cause time items => sendingOctets_of_frame sending listed ?_,
      fun d items => sendingOctets_of_frame sending listed ?_, fun d items => sendingOctets_of_frame sending listed ?_,
      fun st latch lapsed items => sendingOctets_of_frame sending listed ?_,
      fun w st hit oneShot items => sendingOctets_of_frame sending listed ?_, fun l latch items => sendingOctets_of_frame sending listed ?_⟩
    · rw [Report.frame, items]; rfl
    · rw [Report.frame, items]
      simp only [ReportItems.kindOctet, ReportItems.octets, flagPair_eq_add, optionalOctet_cause, optionalOctet_group,
        identityOctets_eq, State.reportPayload, List.append_assoc, List.cons_append, List.nil_append] <;> rfl
    · rw [Report.frame, items]
      simp only [ReportItems.kindOctet, ReportItems.octets, attemptsOctet_eq_add, List.append_assoc, List.cons_append, List.nil_append]
      rfl
    · rw [Report.frame, items]
      simp only [ReportItems.kindOctet, ReportItems.octets, List.append_assoc]
      rfl
    · rw [Report.frame, items]
      simp only [ReportItems.kindOctet, ReportItems.octets, identityOctets_eq]
      rfl
    · rw [Report.frame, items]; rfl

/-! ### The CRC and the receiver (R8, R173 to R175, R186) -/

/-- An octet taken into the CRC is its bits taken in one by one, the most significant first: after eight turns nothing of the octet is
left beside the register. -/
theorem crcOctet_eq_bits (c : Word) (o : Octet) :
    crcOctet c o = ([7, 6, 5, 4, 3, 2, 1, 0].map fun k => o.getLsbD k).foldl
      (fun (c : Word) (bit : Bool) => if c.getLsbD 15 = bit then c <<< 1 else (c <<< 1) ^^^ 0x1021) c := by
  have range8 : List.range 8 = [0, 1, 2, 3, 4, 5, 6, 7] := rfl
  simp only [crcOctet, range8, List.foldl_cons, List.foldl_nil, List.map_cons, List.map_nil, crcBit_xor]
  simp [← BitVec.shiftLeft_add]

/-- One character taken by a receiver that has nothing waiting for the transmitter changes the receiver and the input queue alone. -/
theorem exec_hostCharacter_quiet {s : State} {r r' : Receiver} {q : List HostFrame} {o : Octet} (released : s.resetAsserted = false)
    (running : s.restarting = false) (quiet : s.transmit = s)
    (taken : ({ s with rx := r } : State).receive o true = { s with rx := r', inputQueue := q }) :
    exec (.hostCharacter o true) { s with rx := r } = .next { s with rx := r', inputQueue := q } := by
  rw [hostCharacter_taken { s with rx := r } o true released running, taken, transmit_rxq, quiet]

theorem execAll_cons {i : Instr} {is : List Instr} {s t : State} (h : exec i s = .next t) : execAll (i :: is) s = execAll is t := by
  rw [execAll, h]

/-- The octets of KIND, TAG and BODY, the last of which ends the frame's count. -/
theorem execAll_body {s : State} (released : s.resetAsserted = false) (running : s.restarting = false) (quiet : s.transmit = s)
    (len : Octet) (rest : List Instr) : ∀ (os : List Octet) (got : List Octet), os ≠ [] → got.length + os.length = len.toNat →
    execAll (os.map (fun o => .hostCharacter o true) ++ rest) { s with rx := .body len got s.partTime } =
      execAll rest { s with rx := .check len (got ++ os) none s.partTime }
  | [], _, nonempty, _ => absurd rfl nonempty
  | [o], got, _, count => by
    refine execAll_cons (exec_hostCharacter_quiet released running quiet ?_)
    have full : (got ++ [o]).length = len.toNat := by simpa using count
    simp only [State.receive, bodyOctet, if_pos full]
  | o :: p :: os, got, _, count => by
    have unfinished : (got ++ [o]).length ≠ len.toNat := by simp at count ⊢; omega
    have first : exec (.hostCharacter o true) { s with rx := .body len got s.partTime } =
        .next { s with rx := .body len (got ++ [o]) s.partTime } := by
      refine exec_hostCharacter_quiet released running quiet ?_
      simp only [State.receive, bodyOctet, if_neg unfinished]
    rw [List.map_cons, List.cons_append, execAll_cons first, execAll_body released running quiet len rest (p :: os) (got ++ [o]) (by simp)
      (by simp at count ⊢; omega), List.append_assoc, List.singleton_append]

theorem frameOf_cons (f : HostFrame) : frameOf (f.kind :: f.tag :: f.body) = f := rfl

/-- A frame's two CRC octets, sent high octet first, are judged against the CRC of LEN to BODY (R175). -/
theorem judgeFrame_of_crc {s : State} {len : Octet} {got : List Octet} (room : s.inputQueue.length < 4) :
    s.judgeFrame len got (crc (len :: got)) = { s with rx := .hunt, inputQueue := s.inputQueue ++ [frameOf got] } := by
  rw [State.judgeFrame, if_neg (by simp), if_neg (Nat.not_le.mpr (show s.inputQueue.length < Config.inputQueueFrames from room))]

theorem toNat_frameLength {f : HostFrame} (fits : f.body.length ≤ 140) : (octet (2 + f.body.length)).toNat = 2 + f.body.length := by
  simp only [octet, BitVec.toNat_ofNat]; omega

/-- Settles O14: SOF, LEN, the octets of the frame (`execAll_body`) and its CRC, each taken in turn. -/
theorem receiverAssemblesFrame : Obligations.ReceiverAssemblesFrame := by
  refine ⟨⟨rfl, by decide +kernel, fun os o => ?_⟩, frameOctets_eq, fun f s fits released running hunting room quiet => ?_⟩
  · rw [crc_append, crcOctet_eq_bits]
  · have len := toNat_frameLength fits
    have sof : exec (.hostCharacter 0xD4 true) s = .next { s with rx := .length s.partTime } := by
      rw [hostCharacter_taken s _ _ released running]
      simp only [State.receive, hunting, decide_true, Bool.and_self, if_true]
      exact congrArg Host.Outcome.next ((transmit_rxq s _ s.inputQueue).trans (by rw [quiet]))
    have length : exec (.hostCharacter (octet (2 + f.body.length)) true) { s with rx := .length s.partTime } =
        .next { s with rx := .body (octet (2 + f.body.length)) [] s.partTime } :=
      exec_hostCharacter_quiet released running quiet (if_pos (by omega))
    have high (h : Octet) : exec (.hostCharacter h true)
        { s with rx := .check (octet (2 + f.body.length)) (f.kind :: f.tag :: f.body) none s.partTime } =
          .next { s with rx := .check (octet (2 + f.body.length)) (f.kind :: f.tag :: f.body) (some h) s.partTime } :=
      exec_hostCharacter_quiet released running quiet rfl
    have low {h o : Octet} (w : wordOf h o = crc (octet (2 + f.body.length) :: f.kind :: f.tag :: f.body)) :
        exec (.hostCharacter o true)
          { s with rx := .check (octet (2 + f.body.length)) (f.kind :: f.tag :: f.body) (some h) s.partTime } =
          .next { s with rx := .hunt, inputQueue := s.inputQueue ++ [f] } := by
      refine exec_hostCharacter_quiet released running quiet ?_
      simp only [State.receive, w]
      exact judgeFrame_of_crc room
    have content := execAll_body released running quiet (octet (2 + f.body.length))
      ((wordOctets (crc (octet (2 + f.body.length) :: f.kind :: f.tag :: f.body))).map fun o => .hostCharacter o true)
      (f.kind :: f.tag :: f.body) [] (by simp) (by simp [len]; omega)
    rw [← List.map_append, List.nil_append] at content
    rw [frameOctets_eq, List.cons_append, List.cons_append, List.map_cons, List.map_cons, execAll_cons sof, execAll_cons length, content]
    rw [wordOctets, List.map_cons, List.map_cons, execAll_cons (high _), execAll_cons (low (word_octets _)), List.map_nil, execAll]
    congr 2
    exact hunting.symm

/-! ### A character by the receiver's state (R173 to R175, R186) -/

/-- Settles O15: the equation of `State.receive` for each state of the receiver. -/
theorem receiverTakesCharacter : Obligations.ReceiverTakesCharacter := by
  intro s o mark released
  refine ⟨fun restarting => ?restarting, fun running => ?running⟩
  case restarting =>
    change execHostCharacter o mark s = _
    simp [execHostCharacter, State.whenOutOfReset, released, restarting]
  case running =>
    rw [hostCharacter_taken s o mark released running]
    refine ⟨fun h sof => ?_, fun h other => ?_, fun ended h fits => ?_, fun ended h misfit => ?_, fun len got ended h last => ?_,
      fun len got ended h more => ?_, fun len got ended h => ?_, fun len high got ended h => ⟨fun bad => ?_, fun good full => ?_,
        fun good room => ?_⟩⟩
    · simp only [State.receive, h, sof, decide_true, Bool.and_self, if_true]
    · simp only [State.receive, h]
      rw [if_neg (by simpa using other)]
    · simp only [State.receive, h, State.takeLength, if_pos fits]
    · simp only [State.receive, h, State.takeLength, if_neg misfit]; simp only [State.discard, h, Receiver.tag]
    · simp only [State.receive, h, bodyOctet, List.length_append, List.length_singleton, if_pos last]
    · simp only [State.receive, h, bodyOctet, List.length_append, List.length_singleton, if_neg more]
    · simp only [State.receive, h]
    · simp only [State.receive, h, State.judgeFrame, bne_iff_ne, ne_eq, bad, not_false_eq_true, if_true]
      simp only [State.discard, h, Receiver.tag]
    · have full' : Config.inputQueueFrames ≤ s.inputQueue.length := full
      simp only [State.receive, h, State.judgeFrame, good, bne_self_eq_false, Bool.false_eq_true, if_false, if_pos full']
      simp only [State.discard, h, Receiver.tag]
    · have judged := judgeFrame_of_crc (len := len) (got := got) room
      simp only [State.receive, h, ← good, judged, frameOf]

/-! ### Gaps and notices (R174, R176) -/

theorem exec_hostGapTimeout {s : State} (released : s.resetAsserted = false) :
    exec .hostGapTimeout s = .next s.cutByGap.transmit := by
  change execHostGapTimeout s = _
  simp [execHostGapTimeout, State.whenOutOfReset, released]

theorem cutByGap_of_hunt {s : State} (h : s.rx = .hunt) : s.cutByGap = s := by
  simp only [State.cutByGap, h]

theorem cutByGap_of_frame {s : State} (h : s.rx ≠ .hunt) :
    s.cutByGap = ({ s with rx := .hunt } : State).raiseNotice .gap s.rx.tag := by
  unfold State.cutByGap
  split
  next hunting => exact absurd hunting h
  next => rfl

/-- A partial frame is cut by a gap, with the tag it holds. -/
theorem exec_hostGapTimeout_of_frame {s : State} {r : Receiver} {tag : Octet} (released : s.resetAsserted = false) (h : s.rx = r)
    (frame : r ≠ .hunt) (tagged : r.tag = tag) :
    exec .hostGapTimeout s = .next (({ s with rx := .hunt } : State).raiseNotice .gap tag).transmit := by
  subst h tagged
  rw [exec_hostGapTimeout released, cutByGap_of_frame frame]

theorem tag_of_short {len : Octet} {got : List Octet} {ended : PartTime} (h : got.length < 2) : (Receiver.body len got ended).tag = 0 := by
  simp [Receiver.tag, List.getD, List.getElem?_eq_none (Nat.le_of_lt_succ h)]

/-- The bits of a character up to its ninth give no command, and the tenth gives the character (R170). -/
theorem sample_taking (count : Nat) (bits : BitVec 10) (level : Bool) :
    (count < 9 → ∃ bits', (HostReceiver.taking count bits).sample level = (.taking (count + 1) bits', none)) ∧
    ∃ o mark, ((HostReceiver.taking 9 bits).sample level).2 = some (o, mark) :=
  ⟨fun h => ⟨_, if_pos h⟩, _, _, rfl⟩

/-- Settles O16. -/
theorem gapAndNotices : Obligations.GapAndNotices := by
  refine ⟨fun s released => ⟨fun h => ?_, fun ended h => ?_, fun len kind tag more ended h => ?_, fun len got ended h short => ?_,
    fun len kind tag more high ended h => ?_⟩, fun s reason tag room => if_pos room, fun s reason tag n ahead behind full queue => ?_,
    hostSamples_character, ?rates, fun s ended time released => ⟨fun receiver waits => ?_, ?_, ?_, fun count bits level h => ?_⟩⟩
  · rw [exec_hostGapTimeout released, cutByGap_of_hunt h]
  · exact exec_hostGapTimeout_of_frame released h nofun rfl
  · exact exec_hostGapTimeout_of_frame released h nofun rfl
  · exact exec_hostGapTimeout_of_frame released h nofun (tag_of_short short)
  · exact exec_hostGapTimeout_of_frame released h nofun rfl
  · rw [State.raiseNotice, if_neg (Nat.not_lt.mpr (show Config.noticePlaces ≤ s.noticePlacesInUse from full)), queue, countDiscard_append]
  case rates => decide +kernel
  · have marked : receiver.sample true = (.ready, none) := by obtain rfl | rfl := waits <;> rfl
    intro i
    rw [hostHear_quiet s i time true released (congrArg Prod.snd marked)]
    simp only [i, marked, reduceCtorEq, if_false, decide_true, Bool.true_and, Bool.and_eq_true, bne_iff_ne, hostGapFails, decide_eq_true_eq,
      lt_tsub_iff_left]
  · exact hostHear_quiet s _ time false released rfl
  · exact hostHear_quiet s _ time false released rfl
  · refine ⟨?_, ?_⟩
    · obtain ⟨bits', goesOn⟩ := (sample_taking count bits level).1 h
      rw [hostHear_quiet s _ time level released (congrArg Prod.snd goesOn), goesOn]
      rfl
    · obtain ⟨o, mark, char⟩ := (sample_taking count bits level).2
      rw [hostHear_character s _ time level o mark released char]
      exact ⟨o, mark, rfl, rfl⟩

/-! ### SET LINK RATE (R171) -/

theorem exec_setLinkRate (tag : Octet) (body : List Octet) (s : State) :
    exec (.setLinkRate tag body) s = .next (s.serve ⟨0x03, tag, body⟩ (setLinkRateOwner body)) := rfl

theorem setLinkRateOwner_of_le {code : Octet} (h : code.toNat ≤ 5) (u : State) :
    setLinkRateOwner [code] u = (u, { code := .ok, data := [u.linkRate, code], rate := some code }) := if_pos h

theorem setLinkRateOwner_of_lt {code : Octet} (h : 5 < code.toNat) (u : State) :
    setLinkRateOwner [code] u = (u, refuse .badValue) := if_neg (Nat.not_le.mpr h)

/-- The last octet of a reply that brings a link rate. -/
theorem exec_hostFrameSent_rate {s : State} {r : Reply} {code : Octet} (released : s.resetAsserted = false)
    (sending : s.tx = some (.reply r)) (rate : r.rate = some code) :
    exec .hostFrameSent s = .next ((({ s with tx := none } : State).switchRate code).choose false) := by
  rw [exec_hostFrameSent released sending, frameSent_rate s rate]

theorem switchRate_same {s : State} {code : Octet} (h : code = s.linkRate) : s.switchRate code = s := if_pos h

theorem switchRate_other {s : State} {code : Octet} (h : code ≠ s.linkRate) :
    s.switchRate code = ({ s with linkRate := code } : State).cutByGap := if_neg h

theorem raiseNotice_rate (s : State) (r : NoticeReason) (tag : Octet) :
    (s.raiseNotice r tag).linkRate = s.linkRate ∧ (s.raiseNotice r tag).rx = s.rx := by
  unfold State.raiseNotice; split <;> exact ⟨rfl, rfl⟩

/-- A frame cut or none begun, the receiver is in HUNT and the link rate as it was. -/
theorem cutByGap_rate (s : State) : s.cutByGap.linkRate = s.linkRate ∧ s.cutByGap.rx = .hunt := by
  by_cases h : s.rx = .hunt
  · rw [cutByGap_of_hunt h]; exact ⟨rfl, h⟩
  · rw [cutByGap_of_frame h]; exact raiseNotice_rate _ _ _

theorem rateSwitches_iff {s : State} {r : Reply} {code : Octet} (released : s.resetAsserted = false)
    (sending : s.tx = some (.reply r)) (rate : r.rate = some code) : s.rateSwitches = true ↔ code ≠ s.linkRate := by
  simp [State.rateSwitches, released, sending, rate]

/-- Settles O7. -/
theorem setLinkRateTakesEffectAtReply : Obligations.SetLinkRateTakesEffectAtReply := by
  refine ⟨fun tag code s u taken => ⟨fun named => ?_, fun above => ?_⟩, fun s r code released sending rate =>
    ⟨fun other => ?_, fun other hunting => ?_, fun len kind tag more ended other frame => ?_, fun same => ?_,
      fun receiver => ⟨fun same => ?_, fun other => ⟨fun count bits begun => ?_, fun waits => ?_⟩⟩⟩⟩
  · obtain ⟨f, hf, ht, running⟩ := taken
    cases hf
    rw [exec_setLinkRate, serve_taken ht running, setLinkRateOwner_of_le named]
  · exact exec_eq_answering (exec_setLinkRate tag _ s) rfl taken (setLinkRateOwner_of_lt above u)
  · refine ⟨_, exec_hostFrameSent_rate released sending rate, ?_⟩
    rw [choose_linkRate, choose_rx, switchRate_other (s := { s with tx := none }) other]
    exact cutByGap_rate _
  · rw [exec_hostFrameSent_rate released sending rate, switchRate_other (s := { s with tx := none }) other,
      cutByGap_of_hunt (s := { s with tx := none, linkRate := code }) hunting]
  · rw [exec_hostFrameSent_rate released sending rate, switchRate_other (s := { s with tx := none }) other,
      cutByGap_of_frame (s := { s with tx := none, linkRate := code }) (by rw [frame]; exact nofun)]
    simp only [frame, Receiver.tag, List.getD_cons_succ, List.getD_cons_zero]
  · rw [exec_hostFrameSent_rate released sending rate, switchRate_same (s := { s with tx := none }) same]
  · exact if_neg fun switches => (rateSwitches_iff released sending rate).1 switches same
  · exact (if_pos ((rateSwitches_iff released sending rate).2 other)).trans (begun ▸ rfl)
  · refine (if_pos ((rateSwitches_iff released sending rate).2 other)).trans ?_
    cases receiver with
    | ready | holdOff => rfl
    | taking count bits => exact absurd rfl (waits count bits)

end Machine

end Sys2Proof

/-! ## Lines: parameters, start, stop, FAULT, hold and line clear (O17 to O22) -/

namespace Sys2Proof

namespace Machine

/-- A refusal leaves the taken state as it is (R179). -/
theorem exec_eq_refused {i : Instr} {f : HostFrame} {s u : State} {owner : State → State × Answer} {code : ResultCode}
    (served : exec i s = .next (s.serve f owner)) (hf : i.frame = some f) (taken : Taken i s u)
    (refused : owner u = (u, refuse code)) : exec i s = .next (u.answering i code []) :=
  exec_eq_answering served hf taken refused

/-! ### LINE SET and LINE START (R26, R27) -/

theorem exec_lineSet (tag : Octet) (body : List Octet) (s : State) :
    exec (.lineSet tag body) s = .next (s.serve ⟨0x10, tag, body⟩ (lineSetOwner body)) := rfl

/-- Settles O17. -/
theorem lineSetChecksAndSets : Obligations.LineSetChecksAndSets := by
  intro tag line p s u i taken
  refine ⟨fun high => ?_, fun l named => ⟨fun running => ?_, fun off outside => ?_, fun off inside => ?_⟩⟩
  · exact exec_eq_refused (exec_lineSet tag _ s) rfl taken (by simp [lineSetOwner, lineOf_none line high])
  · exact exec_eq_refused (exec_lineSet tag _ s) rfl taken (by simp [lineSetOwner, lineOf_eq line l named, running])
  · exact exec_eq_refused (exec_lineSet tag _ s) rfl taken (by simp [lineSetOwner, lineOf_eq line l named, off, outside])
  · exact exec_eq_answering_of_changed (exec_lineSet tag _ s) rfl taken
      (by simp only [lineSetOwner, lineOf_eq line l named, off, inside, bne_self_eq_false, Bool.not_true, Bool.false_eq_true, if_false]; rfl)

theorem exec_lineStart (tag : Octet) (body : List Octet) (s : State) :
    exec (.lineStart tag body) s = .next (s.serve ⟨0x11, tag, body⟩ (lineStartOwner body)) := rfl

theorem lineStartOwner_of_off {line : Octet} {l : LineNo} (named : line.toNat = l.val) {u : State} (off : (u.engine l).state = .off) :
    lineStartOwner [line] u = (u.startLine l, accept []) := by
  simp [lineStartOwner, lineOf_eq line l named, off]

/-- An OFF engine has no transaction, no reception and no timer, so that entering HELD only sets its state and its hold (R23, R46). -/
theorem enterHeld_of_off {e : LineEngine} (off : e.state = .off) (coherent : e.Coherent) :
    e.enterHeld = { e with state := .held, holdRunning := e.params.holdLimit != 0, holdLeft := holdTime e.params } := by
  obtain ⟨idle, -, -, awaiting, -, -, -, -, busy, -, -⟩ := coherent
  obtain ⟨tx, guard, busyOff, floor, -⟩ := idle off
  have reception : e.reception = none := by
    cases h : e.reception with
    | none => rfl
    | some r => simp [h, off] at awaiting
  obtain ⟨⟩ := e
  simp_all [LineEngine.enterHeld, LineEngine.suspend]

/-- Settles O18. -/
theorem lineStartByFault : Obligations.LineStartByFault := by
  intro tag line s u i taken
  refine ⟨fun high => ?_, fun l named => ⟨fun running => ?_, fun off released => ?_, fun off asserted coherent => ?_⟩⟩
  · exact exec_eq_refused (exec_lineStart tag _ s) rfl taken (by simp [lineStartOwner, lineOf_none line high])
  · exact exec_eq_refused (exec_lineStart tag _ s) rfl taken (by simp [lineStartOwner, lineOf_eq line l named, running])
  · refine exec_eq_answering_of_changed (exec_lineStart tag _ s) rfl taken ((lineStartOwner_of_off named off).trans ?_)
    rw [State.startLine, if_neg (by simp [released]), onEngine_onEngine]
    rfl
  · refine exec_eq_answering_of_changed (exec_lineStart tag _ s) rfl taken ((lineStartOwner_of_off named off).trans ?_)
    have held := enterHeld_of_off (e := (u.engine l).started) off coherent
    rw [State.startLine, if_pos asserted, State.holdLine, onEngine_onEngine, onEngine_congr u l _ (fun e => { e.started with
      state := .held, holdRunning := e.started.params.holdLimit != 0, holdLeft := holdTime e.started.params }) held]
    rfl

/-! ### LINE STOP (R28, R29) -/

theorem enterOff_eq_stopped (cause : OffCause) : (fun e : LineEngine => e.enterOff cause) = fun e => e.stopped cause := rfl

theorem enterStopping_eq_stopped : LineEngine.enterStopping = fun e => { e.stopped e.offCause with state := .stopping } := rfl

theorem lineStopped_eq_stopReaches (s : State) (l : LineNo) (cause : OrderOutcome) : s.lineStopped l cause = s.stopReaches l cause := rfl

theorem exec_lineStop (tag : Octet) (body : List Octet) (s : State) :
    exec (.lineStop tag body) s = .next (s.serve ⟨0x12, tag, body⟩ (lineStopOwner body)) := rfl

theorem lineStopOwner_of_running {line : Octet} {l : LineNo} (named : line.toNat = l.val) {u : State} (h : (u.engine l).state ≠ .off) :
    lineStopOwner [line] u = (u.stopLine l, accept []) := by
  simp [lineStopOwner, lineOf_eq line l named, h]

theorem stopLine_stopping {s : State} {l : LineNo} (h : (s.engine l).state = .stopping) : s.stopLine l = s := by
  simp only [State.stopLine, h]

theorem stopLine_driving {s : State} {l : LineNo} (h : (s.engine l).state = .sending ∨ (s.engine l).state = .starting) :
    s.stopLine l = s.stopDriving l := by
  obtain h | h := h <;> simp only [State.stopLine, h]

theorem stopLine_atOnce {s : State} {l : LineNo} (h : (s.engine l).state ∈ [LineState.awaiting, .backoff, .idle, .held]) :
    s.stopLine l = s.stopAtOnce l := by
  simp only [List.mem_cons, List.not_mem_nil, or_false] at h
  obtain h | h | h | h := h <;> simp only [State.stopLine, h]

/-- Settles O19. -/
theorem lineStopByState : Obligations.LineStopByState := by
  intro tag line s u i taken
  refine ⟨fun high => ?_, fun l named => ⟨fun off => ?_, fun stopping => ?_, fun driving => ?_, fun atOnce => ?_⟩⟩
  · exact exec_eq_refused (exec_lineStop tag _ s) rfl taken (by simp [lineStopOwner, lineOf_none line high])
  · exact exec_eq_refused (exec_lineStop tag _ s) rfl taken (by simp [lineStopOwner, lineOf_eq line l named, off])
  · exact exec_eq_answering (exec_lineStop tag _ s) rfl taken
      ((lineStopOwner_of_running named (by simp [stopping])).trans (by rw [stopLine_stopping stopping]; rfl))
  · refine exec_eq_answering_of_changed (exec_lineStop tag _ s) rfl taken
      ((lineStopOwner_of_running named ?_).trans (by rw [stopLine_driving driving]; rfl))
    obtain h | h := driving <;> simp [h]
  · refine exec_eq_answering_of_changed (exec_lineStop tag _ s) rfl taken
      ((lineStopOwner_of_running named ?_).trans (by rw [stopLine_atOnce atOnce]; rfl))
    rintro off
    simp [off] at atOnce

/-! ### A transaction's end (R35) -/

/-- What a transaction's result does before the engine lets the transaction go (R35): the station table takes it, then the order
store or the delivery unit. -/
def State.handOn (s : State) (l : LineNo) (t : Transaction) (r : TxResult) : State :=
  let u := match t.station with
    | some ix => s.stationResult ix r
    | none => s
  match t.work with
  | .pollStep => u
  | .order n => u.orderResult n r
  | .pass n step => u.stepResult l n step r

/-- The engine without the transaction that has ended, its statistic raised (R35, R50). -/
def LineEngine.letGo (e : LineEngine) : LineEngine :=
  { e with tx := none, stats := { e.stats with transactions := statUp e.stats.transactions } }

theorem endTransaction_of_none {s : State} {l : LineNo} (h : (s.engine l).tx = none) (o : TxOutcome) (late atEnd : Bool) :
    s.endTransaction l o late atEnd = s := by
  simp only [State.endTransaction, h]

theorem endTransaction_of_some {s : State} {l : LineNo} {t : Transaction} (h : (s.engine l).tx = some t) (o : TxOutcome)
    (late atEnd : Bool) :
    s.endTransaction l o late atEnd = (s.handOn l t (t.result o late atEnd)).onEngine l LineEngine.letGo := by
  simp only [State.endTransaction, h]
  rfl

theorem keeps_handOn (s : State) (l : LineNo) (t : Transaction) (r : TxResult) : Keeps s (s.handOn l t r) := by
  have station : Keeps s (match t.station with
      | some ix => s.stationResult ix r
      | none => s) := by
    cases t.station with
    | none => exact Keeps.refl s
    | some ix => exact keeps_stationResult s ix r
  unfold State.handOn
  cases t.work with
  | pollStep => exact station
  | order n => exact station.trans (keeps_orderResult _ n r)
  | pass n step => exact station.trans (keeps_stepResult _ l n step r)

/-! ### The stations of a stopped line (R69) -/

/-- A station of a stopped line leaves the poll for PROBING, in ONLINE, RESYNC and MISSING alone (R69). -/
def Station.lineStopped (st : Station) (l : LineNo) : Station :=
  if st.line = l ∧ st.state ∈ [StationState.online, .resync, .missing] then
    { st with state := .probing, missCount := 0, collectDue := false }
  else st

theorem enter_probing (st : Station) :
    { st.enter .probing with collectDue := false } = { st with state := .probing, missCount := 0, collectDue := false } := rfl

theorem stationLineStop_present {s : State} {l : LineNo} {ix : StationIx} (line : (s.station ix).line = l)
    (h : (s.station ix).state = .online ∨ (s.station ix).state = .resync) :
    s.stationLineStop l ix =
      (s.onStation ix fun st => { st with state := .probing, missCount := 0, collectDue := false }).latchPresence ix .down false := by
  obtain h | h := h <;> simp only [State.stationLineStop, line, h, StationState.present] <;> rfl

theorem stationLineStop_missing {s : State} {l : LineNo} {ix : StationIx} (line : (s.station ix).line = l)
    (h : (s.station ix).state = .missing) :
    s.stationLineStop l ix = s.onStation ix fun st => { st with state := .probing, missCount := 0, collectDue := false } := by
  simp only [State.stationLineStop, line, h, StationState.present]; rfl

theorem stationLineStop_other {s : State} {l : LineNo} {ix : StationIx}
    (h : (s.station ix).line ≠ l ∨ (s.station ix).state ∉ [StationState.online, .resync, .missing]) : s.stationLineStop l ix = s := by
  unfold State.stationLineStop
  rw [if_neg]
  simp only [List.mem_cons, List.not_mem_nil, or_false] at h
  simp only [Bool.and_eq_true, decide_eq_true_eq, Bool.or_eq_true, or_assoc]
  tauto

/-- But for its latch, a station of a stopped line is moved and every other station is as it was. -/
theorem unlatched_stationLineStop (s : State) (l : LineNo) (ix k : StationIx) :
    ((s.stationLineStop l ix).station k).unlatched =
      if ix = k then ((s.station k).lineStopped l).unlatched else (s.station k).unlatched := by
  have moved : ((s.onStation ix fun st => { st with state := .probing, missCount := 0, collectDue := false }).station k).unlatched =
      if ix = k then ({ s.station k with state := .probing, missCount := 0, collectDue := false } : Station).unlatched
      else (s.station k).unlatched := by
    rw [station_onStation]; split <;> rfl
  by_cases h : (s.station ix).line = l ∧ (s.station ix).state ∈ [StationState.online, .resync, .missing]
  · have after : ix = k → (s.station k).lineStopped l = { s.station k with state := .probing, missCount := 0, collectDue := false } :=
      fun e => e ▸ if_pos h
    have lands : ((s.stationLineStop l ix).station k).unlatched =
        ((s.onStation ix fun st => { st with state := .probing, missCount := 0, collectDue := false }).station k).unlatched := by
      obtain ⟨line, states⟩ := h
      simp only [List.mem_cons, List.not_mem_nil, or_false] at states
      obtain h | h | h := states
      · rw [stationLineStop_present line (.inl h), unlatched_latchPresence]
      · rw [stationLineStop_present line (.inr h), unlatched_latchPresence]
      · rw [stationLineStop_missing line h]
    rw [lands, moved]
    split
    next e => rw [after e]
    next => rfl
  · rw [stationLineStop_other (by tauto)]
    split
    next e => subst e; rw [Station.lineStopped, if_neg h]
    next => rfl

theorem lineStopped_congr {a b : Station} (h : a.unlatched = b.unlatched) (l : LineNo) :
    (a.lineStopped l).unlatched = (b.lineStopped l).unlatched := by
  obtain ⟨line, -, state⟩ := unlatched_station_eq h
  have moves : (a.line = l ∧ a.state ∈ [StationState.online, .resync, .missing]) ↔
      b.line = l ∧ b.state ∈ [StationState.online, .resync, .missing] := by rw [line, state]
  unfold Station.lineStopped
  simp only [moves]
  split
  · exact congrArg (fun st : Station => { st with state := .probing, missCount := 0, collectDue := false, latch := none }) h
  · exact h

/-- Entries that differ in their latch alone. -/
theorem eq_of_unlatched {a b : Station} (h : a.unlatched = b.unlatched) : a = { b with latch := a.latch } := by
  obtain ⟨⟩ := a
  obtain ⟨⟩ := b
  simp only [Station.unlatched, Station.mk.injEq] at h
  simp [h]

/-- Over stations without repeats, each is moved once. -/
theorem unlatched_stationsFold (l : LineNo) (k : StationIx) : ∀ (ixs : List StationIx) (s : State), ixs.Nodup →
    ((ixs.foldl (fun t ix => t.stationLineStop l ix) s).station k).unlatched =
      if k ∈ ixs then ((s.station k).lineStopped l).unlatched else (s.station k).unlatched
  | [], _, _ => rfl
  | ix :: ixs, s, distinct => by
    obtain ⟨fresh, distinct⟩ := List.nodup_cons.mp distinct
    have first := unlatched_stationLineStop s l ix k
    rw [List.foldl_cons, unlatched_stationsFold l k ixs _ distinct]
    by_cases e : ix = k
    · subst e
      rw [if_neg fresh, if_pos List.mem_cons_self, first, if_pos rfl]
    · rw [if_neg e] at first
      simp only [List.mem_cons, Ne.symm e, false_or]
      split
      · exact lineStopped_congr first l
      · exact first

theorem unlatched_stationsLineStop (s : State) (l : LineNo) (k : StationIx) :
    ((s.stationsLineStop l).station k).unlatched = ((s.station k).lineStopped l).unlatched :=
  (unlatched_stationsFold l k allStations s (List.nodup_finRange 96)).trans (if_pos (List.mem_finRange k))

/-- Settles O20. -/
theorem stopMovesStations : Obligations.StopMovesStations := by
  refine ⟨fun s l => rfl, fun s l ix => ⟨stationLineStop_present, stationLineStop_missing, stationLineStop_other⟩, fun s l ix => ?moves,
    fun s l o late atEnd => ?ends⟩
  case moves =>
    intro before after moves
    have same : after = { before.lineStopped l with latch := after.latch } := eq_of_unlatched (unlatched_stationsLineStop s l ix)
    generalize after.latch = latch at same
    rw [same]
    by_cases h : moves
    · have moved : before.lineStopped l = { before with state := .probing, missCount := 0, collectDue := false } := if_pos h
      rw [moved]
      exact ⟨fun _ => ⟨rfl, rfl, rfl⟩, fun other => absurd h other, rfl, rfl, rfl, rfl, rfl, rfl, rfl, rfl, rfl⟩
    · have stays : before.lineStopped l = before := if_neg h
      rw [stays]
      exact ⟨fun moved => absurd moved h, fun _ => ⟨rfl, rfl, rfl⟩, rfl, rfl, rfl, rfl, rfl, rfl, rfl, rfl, rfl⟩
  case ends =>
    cases tx : (s.engine l).tx with
    | none =>
      rw [endTransaction_of_none tx]
      exact ⟨tx, rfl, fun t busy => (by cases busy), fun k _ => ⟨rfl, rfl⟩⟩
    | some t =>
      rw [endTransaction_of_some tx]
      have kept (k : LineNo) := unlatched_eq ((keeps_handOn s l t (t.result o late atEnd)).engines k)
      obtain ⟨state, -, stats⟩ := kept l
      simp only [engine_onEngine, if_true]
      refine ⟨rfl, state, fun t' _ => ?_, fun k other => ?_⟩
      · exact congrArg (fun st : LineStats => statUp st.transactions) stats
      · rw [if_neg (Ne.symm other)]
        exact ⟨(kept k).1, (kept k).2.1⟩

/-! ### The FAULT input and the hold (R46 to R49) -/

theorem exec_faultAssert (l : LineNo) (s : State) :
    exec (.faultAssert l) s = .next (if (s.engine l).fault then s
      else if s.resetAsserted then s.onEngine l fun e => { e with fault := true } else (s.assertFault l).transmit) := rfl

theorem exec_faultRelease (l : LineNo) (s : State) :
    exec (.faultRelease l) s = .next (if !(s.engine l).fault then s
      else if s.resetAsserted then s.onEngine l fun e => { e with fault := false } else (s.releaseFault l).transmit) := rfl

theorem exec_holdExpiry {l : LineNo} {s : State} (released : s.resetAsserted = false) :
    exec (.holdExpiry l) s = .next (if (s.engine l).state = .held && (s.engine l).holdRunning then
      ((s.elapse (s.engine l).holdLeft).expireHold l).transmit else s) := by
  change execHoldExpiry l s = _
  simp only [execHoldExpiry, State.whenOutOfReset, released, Bool.false_eq_true, if_false]

theorem assertFault_quiet {s : State} {l : LineNo} (h : (s.engine l).state = .off ∨ (s.engine l).state = .held) :
    s.assertFault l = s.onEngine l fun e => { e with fault := true } := by
  obtain h | h := h <;> simp only [State.assertFault, h]

theorem assertFault_stopping {s : State} {l : LineNo} (h : (s.engine l).state = .stopping) :
    s.assertFault l = (s.onEngine l fun e => { e.stopped .stopped with fault := true }).latchLine l .off .stopped := by
  simp only [State.assertFault, h, State.finishStop, onEngine_onEngine]
  rfl

/-- In every state in which the line runs it is HELD, its transaction suspended and its timers stopped (R46). -/
theorem assertFault_running {s : State} {l : LineNo} (h : (s.engine l).state ∈ [LineState.starting, .idle, .sending, .awaiting, .backoff]) :
    s.assertFault l = (s.onEngine l fun e =>
      { e.stopped e.offCause with
        state := .held, fault := true, holdRunning := e.params.holdLimit != 0, holdLeft := 100 * e.params.holdLimit.toNat
        tx := e.tx.map fun t => { t with suspended := true } }).latchLine l .held .faultAsserted := by
  have held : s.assertFault l = (s.onEngine l fun e => { e with fault := true }).holdLine l := by
    simp only [List.mem_cons, List.not_mem_nil, or_false] at h
    obtain h | h | h | h | h := h <;> simp only [State.assertFault, h]
  rw [held, State.holdLine, onEngine_onEngine]
  rfl

theorem releaseFault_held {s : State} {l : LineNo} (h : (s.engine l).state = .held) :
    s.releaseFault l = (s.onEngine l fun e => { e with fault := false, state := .starting, holdRunning := false, holdLeft := 0 }).latchLine
      l .running .faultReleased := by
  simp only [State.releaseFault, h, if_true, onEngine_onEngine]

theorem releaseFault_other {s : State} {l : LineNo} (h : (s.engine l).state ≠ .held) :
    s.releaseFault l = s.onEngine l fun e => { e with fault := false } := by
  simp only [State.releaseFault, h, if_false]

/-- Settles O21. -/
theorem faultInputAndHold : Obligations.FaultInputAndHold := by
  refine ⟨fun s l => ⟨fun same => ?_, fun other asserted => ?_, fun other released => ?asserts⟩,
    fun s l => ⟨fun same => ?_, fun other asserted => ?_, fun other released => ?releases⟩, fun s l released => ?expires⟩
  · rw [exec_faultAssert, if_pos same]
  · rw [exec_faultAssert, if_neg (by simp [other]), if_pos asserted]
  case asserts =>
    rw [exec_faultAssert, if_neg (by simp [other]), if_neg (by simp [released])]
    exact ⟨fun h => by rw [assertFault_quiet h], fun h => by rw [assertFault_stopping h], fun h => by rw [assertFault_running h]⟩
  · rw [exec_faultRelease, if_pos (by simp [same])]
  · rw [exec_faultRelease, if_neg (by simp [other]), if_pos asserted]
  case releases =>
    rw [exec_faultRelease, if_neg (by simp [other]), if_neg (by simp [released])]
    exact ⟨fun h => by rw [releaseFault_other h], fun h => by rw [releaseFault_held h]⟩
  case expires =>
    rw [exec_holdExpiry released]
    refine ⟨fun held running => ?_, fun h => ?_⟩
    · rw [if_pos (by simp [held, running])]; rfl
    · rw [if_neg]
      obtain h | h := h <;> simp [h]

/-! ### The end of a line clear (R13, R27, R28, R47) -/

theorem driveBits_lineClear {e : LineEngine} (h : e.state = .starting ∨ e.state = .stopping) : e.driveBits = lineClearBits := by
  obtain h | h := h <;> simp only [LineEngine.driveBits, h]

/-- 24 bit times of space, then mark: 11 of the line clear and all that follow it. -/
theorem lineClearBits_getD (time : Nat) : lineClearBits.getD time true = true ↔ 24 ≤ time := by
  have during : ∀ t < 35, (lineClearBits.getD t true = true ↔ 24 ≤ t) := by decide
  by_cases h : time < 35
  · exact during time h
  · have after : lineClearBits.getD time true = true := List.getD_eq_default _ _ (Nat.not_lt.mp h)
    exact iff_of_true after (by omega)

theorem exec_lineClearEnd {l : LineNo} {s : State} (released : s.resetAsserted = false) :
    exec (.lineClearEnd l) s = .next (match (s.engine l).state with
      | .starting => ((s.onEngine l fun e => e.leaveStarting s.partTime).selectWork l).transmit
      | .stopping => (s.finishStop l).transmit
      | _ => s) := by
  change execLineClearEnd l s = _
  simp only [execLineClearEnd, State.whenOutOfReset, released, Bool.false_eq_true, if_false] <;> rfl

/-- The poll cycle as a line clear ends, in the two cases of R27 and R47. -/
theorem eq_cycleAfterClear {e after : LineEngine} {now : PartTime}
    (awaited : e.cycleAwaited = true → after = { e with
      cycleAwaited := false, cursor := 0, cycleStart := some now, cycleState := .running, floorLeft := e.params.cycleFloor.toNat
      floorRunning := false })
    (goesOn : e.cycleAwaited = false → after = { e with floorRunning := e.cycleState = .complete && 0 < e.floorLeft }) :
    after = e.cycleAfterClear now := by
  unfold LineEngine.cycleAfterClear
  by_cases h : e.cycleAwaited = true
  · rw [if_pos h]; exact awaited h
  · rw [if_neg h]; exact goesOn (by simpa using h)

theorem cycleAfterClear_tx (e : LineEngine) (now : PartTime) : (e.cycleAfterClear now).tx = e.tx := by
  unfold LineEngine.cycleAfterClear; split <;> rfl

/-- Settles O22. -/
theorem lineClearEnds : Obligations.LineClearEnds := by
  refine ⟨fun e clear => ?_, fun s l released => ⟨fun starting e awaited goesOn => ?_, fun stopping => ?_, fun other still => ?_⟩⟩
  · have drives := driveBits_lineClear clear
    refine ⟨by rw [drives]; rfl, fun time => ?_, ?_, ?_, fun f driven => by rw [drives]; rfl⟩
    · rw [LineEngine.dataOut, drives]; exact lineClearBits_getD time
    · obtain h | h := clear <;> simp [LineEngine.driverEnable, h]
    · obtain h | h := clear <;> simp [LineEngine.listens, h]
  · have ended := eq_cycleAfterClear awaited goesOn
    rw [exec_lineClearEnd released, starting]
    refine ⟨fun t tx => ?_, fun tx => ?_⟩
    · have busy : (e.tx.map fun t => { t with suspended := false }) = some { t with suspended := false } := by
        rw [ended, cycleAfterClear_tx, tx]; rfl
      have left : (s.engine l).leaveStarting s.partTime = { e with state := .sending, tx := some { t with suspended := false } } := by
        simp only [LineEngine.leaveStarting, tx, LineEngine.suspend, ← ended, busy]
      simp only [State.onEngine, left]
      rw [selectWork_busy _ l (by simp)]
    · have left : (s.engine l).leaveStarting s.partTime = { e with state := .idle } := by
        simp only [LineEngine.leaveStarting, tx, ← ended]
      simp only [State.onEngine, left]
  · rw [exec_lineClearEnd released, stopping]; rfl
  · rw [exec_lineClearEnd released]
    split
    next h => exact absurd h other
    next h => exact absurd h still
    next => rfl

end Machine

end Sys2Proof

/-! ## Attempts, replies and timers of a line (O23 to O29) -/

namespace Sys2Proof

namespace Machine

/-! ### An engine that awaits a reply -/

theorem whenAwaiting_eq {s : State} {l : LineNo} {t : Transaction} {r : Reception} (released : s.resetAsserted = false)
    (awaiting : (s.engine l).state = .awaiting) (tx : (s.engine l).tx = some t) (reception : (s.engine l).reception = some r)
    (f : State → Transaction → Reception → State) : s.whenAwaiting l f = f s t r := by
  simp only [State.whenAwaiting, State.whenOutOfReset, released, Bool.false_eq_true, if_false, awaiting, tx, reception]

theorem exec_replyCharacter {s : State} {l : LineNo} {t : Transaction} {r : Reception} (released : s.resetAsserted = false)
    (awaiting : (s.engine l).state = .awaiting) (tx : (s.engine l).tx = some t) (reception : (s.engine l).reception = some r)
    (c : DropChar) : exec (.replyCharacter l c) s = .next (s.replyCharacter l t r c) :=
  congrArg Host.Outcome.next (whenAwaiting_eq released awaiting tx reception _)

theorem exec_dropFrameEnd {s : State} {l : LineNo} {t : Transaction} (released : s.resetAsserted = false)
    (sending : (s.engine l).state = .sending) (tx : (s.engine l).tx = some t) :
    exec (.dropFrameEnd l) s = .next (s.frameEnds l t).transmit := by
  change execDropFrameEnd l s = _
  simp only [execDropFrameEnd, State.whenOutOfReset, released, Bool.false_eq_true, if_false, sending, tx]

theorem exec_dropFrameEnd_of_ne {s : State} {l : LineNo} (released : s.resetAsserted = false) (other : (s.engine l).state ≠ .sending) :
    exec (.dropFrameEnd l) s = .next s := by
  change execDropFrameEnd l s = _
  simp only [execDropFrameEnd, State.whenOutOfReset, released, Bool.false_eq_true, if_false]
  split
  next sending _ => exact absurd sending other
  next => rfl

theorem frameEnds_groupData {s : State} {l : LineNo} {t : Transaction} (tx : (s.engine l).tx = some t) (kind : t.kind = .groupData) :
    s.frameEnds l t = (s.onEngine l fun e =>
      { e with state := .idle, guardRunning := true, tx := some { t with attemptsUsed := 1, whollySent := 1 } }).endTransaction
        l .sent false true := by
  rw [State.frameEnds, if_pos kind]
  congr 1
  apply onEngine_congr
  simp only [LineEngine.groupDataSent, tx, Option.map_some, Transaction.groupDataSent]

theorem replyCharacter_window {s : State} {l : LineNo} {t : Transaction} {c : DropChar} (h : ∀ a, c ≠ .header a) :
    s.replyCharacter l t .window c = s := by
  cases c with
  | header a => exact absurd rfl (h a)
  | breakChar | framingError | body o => rfl

theorem replyCharacter_lastCharacter {s : State} {l : LineNo} {t : Transaction} {c : DropChar} (h : ∀ a, c ≠ .header a) :
    s.replyCharacter l t .lastCharacter c = s.finishAttempt l .noReply false := by
  cases c with
  | header a => exact absurd rfl (h a)
  | breakChar | framingError | body o => rfl

/-- Settles O23. -/
theorem framesAndReplyWindows : Obligations.FramesAndReplyWindows := by
  refine ⟨fun s l released => ⟨fun t sending tx kind => ?_, fun t sending tx kind => ?_, exec_dropFrameEnd_of_ne released⟩,
    fun s l t released awaiting tx => ⟨fun reception a => ?_, fun reception c other => ?_, fun reception c other => ?_,
      fun reception => ⟨?_, ?_⟩, fun got reception => ?_, fun cause heard reception => ⟨fun c => ?_, ?_⟩⟩⟩
  · rw [exec_dropFrameEnd released sending tx, State.frameEnds, if_neg kind]; rfl
  · rw [exec_dropFrameEnd released sending tx, frameEnds_groupData tx kind]
  · obtain reception | reception := reception <;> rw [exec_replyCharacter released awaiting tx reception] <;> rfl
  · rw [exec_replyCharacter released awaiting tx reception, replyCharacter_window other]
  · rw [exec_replyCharacter released awaiting tx reception, replyCharacter_lastCharacter other]
  · exact congrArg Host.Outcome.next (whenAwaiting_eq released awaiting tx reception _)
  · exact congrArg Host.Outcome.next (whenAwaiting_eq released awaiting tx reception _)
  · exact congrArg Host.Outcome.next (whenAwaiting_eq released awaiting tx reception _)
  · rw [exec_replyCharacter released awaiting tx reception]; cases c <;> rfl
  · exact congrArg Host.Outcome.next (whenAwaiting_eq released awaiting tx reception _)

/-! ### The checks on an open reply (R17) -/

/-- What an open reply becomes by the check of R17 on its next character. -/
def State.openReply (s : State) (l : LineNo) (t : Transaction) : OpenStep → State
  | .goesOn octets => s.setReception l (.opened octets)
  | .corrupt cause => s.setReception l (.discarding cause true)
  | .wellFormed control payload => s.finishAttempt l (judgeReply t.kind t.frame.bit (replyOf control payload)) true

theorem replyCharacter_opened (s : State) (l : LineNo) (t : Transaction) (got : List Octet) (c : DropChar) :
    s.replyCharacter l t (.opened got) c = s.openReply l t (openStep got c) := by
  unfold State.replyCharacter State.openReply
  cases c <;> rfl

theorem openOctets_length {h c len : Octet} (rest : List Octet) (long : 120 < len.toNat) :
    openOctets (h :: c :: len :: rest) = .corrupt .length := if_pos long

theorem openOctets_goesOn {h c len : Octet} {rest : List Octet} (fits : len.toNat ≤ 120) (short : rest.length < len.toNat + 2) :
    openOctets (h :: c :: len :: rest) = .goesOn (h :: c :: len :: rest) := by
  rw [openOctets, if_neg (Nat.not_lt.mpr fits), if_pos short]

/-- The last octet of a frame completes its CRC, which is judged against header, control, length and payload. -/
theorem openOctets_complete {h c len high low : Octet} {payload : List Octet} (fits : len.toNat ≤ 120) (length : payload.length = len.toNat) :
    openOctets (h :: c :: len :: (payload ++ [high, low])) =
      if wordOf high low = crc (h :: c :: len :: payload) then .wellFormed c payload else .corrupt .check := by
  have take : (payload ++ [high, low]).take len.toNat = payload := by rw [← length, List.take_left]
  have drop : (payload ++ [high, low]).drop len.toNat = [high, low] := by rw [← length, List.drop_left]
  have octets : [high, low] = wordOctets (crc (h :: c :: len :: payload)) ↔ wordOf high low = crc (h :: c :: len :: payload) := by
    constructor
    · intro e
      simp only [wordOctets, List.cons.injEq, and_true] at e
      rw [e.1, e.2, word_octets]
    · intro e; rw [← e, octets_word]
  rw [openOctets, if_neg (Nat.not_lt.mpr fits), if_neg (by simp [length])]
  simp only [take, drop, octets]

/-- Settles O24. -/
theorem openReplyChecked : Obligations.OpenReplyChecked := by
  intro s l t got released awaiting tx reception becomes
  have reply {c : DropChar} {step : OpenStep} (h : openStep got c = step) :
      exec (.replyCharacter l c) s = .next (s.openReply l t step) := by
    rw [exec_replyCharacter released awaiting tx reception c, replyCharacter_opened, h]
  refine ⟨reply rfl, reply rfl, fun a => reply rfl, fun h o e => ?_, fun h c o e => ⟨fun long => ?_, fun fits => ?_⟩,
    fun h c len rest o e fits more => ?_, fun h c len payload high low e fits length => ⟨fun bad => ?_, fun good => ?_⟩⟩
  · exact reply (step := .goesOn [h, o]) (by rw [e]; rfl)
  · exact reply (step := .corrupt .length) (by rw [e]; exact openOctets_length [] long)
  · exact reply (step := .goesOn [h, c, o]) (by rw [e]; exact openOctets_goesOn fits (Nat.succ_pos _))
  · exact reply (step := .goesOn (got ++ [o])) (by rw [e]; exact openOctets_goesOn fits (by simpa using more))
  · refine reply (step := .corrupt .check) ?_
    rw [e, openStep]
    simpa only [List.cons_append, List.append_assoc, List.nil_append, if_neg bad] using
      openOctets_complete (h := h) (c := c) (high := high) (low := low) fits length
  · refine reply (step := .wellFormed c payload) ?_
    rw [e, openStep]
    simpa only [List.cons_append, List.append_assoc, List.nil_append, if_pos good] using
      openOctets_complete (h := h) (c := c) (high := high) (low := low) fits length

/-! ### Replies recognised and judged (R10 to R12, R19) -/

theorem replyOf_status {control : Octet} (h : control >>> 4 = 10) (payload : List Octet) :
    replyOf control payload = match payload with
      | [high, low, flags] => some (.status (wordOf high low) (flags.getLsbD 0) (flags.getLsbD 1))
      | _ => none := by
  simp only [replyOf, h, FrameType.code, if_true] <;> rfl

theorem replyOf_ack {control : Octet} (h : control >>> 4 = 11) (payload : List Octet) :
    replyOf control payload = match payload with
      | [] => some (.ack (control.getLsbD 0))
      | _ => none := by
  simp only [replyOf, h, FrameType.code]
  rfl

theorem replyOf_nak {control : Octet} (h : control >>> 4 = 12) (payload : List Octet) :
    replyOf control payload = match payload with
      | [reason] => (nakReasonOf reason).map .nak
      | _ => none := by
  simp only [replyOf, h, FrameType.code]
  rfl

theorem replyOf_data {control : Octet} (h : control >>> 4 = 3) (payload : List Octet) :
    replyOf control payload = some (.data (control.getLsbD 0) payload) := by
  simp only [replyOf, h, FrameType.code]
  rfl

theorem replyOf_other {control : Octet} (h : control >>> 4 ∉ ([3, 10, 11, 12] : List Octet)) (payload : List Octet) :
    replyOf control payload = none := by
  simp only [List.mem_cons, List.not_mem_nil, or_false, not_or] at h
  obtain ⟨data, status, ack, nak⟩ := h
  simp only [replyOf, FrameType.code, status, ack, nak, data, if_false]

/-- The four reasons of a NAK, and no other octet (R10, R196). -/
theorem nakReasonOf_other {o : Octet} (h : o ∉ ([1, 2, 3, 4] : List Octet)) : nakReasonOf o = none := by
  simp only [List.mem_cons, List.not_mem_nil, or_false, not_or] at h
  obtain ⟨refused, full, missed, empty⟩ := h
  simp only [nakReasonOf, refused, full, missed, empty, if_false]

/-- The good, busy and unexpected replies of each kind, from the table of each kind. -/
theorem judgeReply_spec (kind : TxKind) (bit : Bool) (r : DropReply) :
    (judgeReply kind bit (some r) = .good r ↔
      (kind = .poll ∧ ∃ word dataWaiting restarted, r = .status word dataWaiting restarted) ∨
      (kind = .send ∧ r = .ack bit) ∨
      (kind ∈ [TxKind.clear, .join, .leave, .groupCheck, .groupRepair] ∧ ∃ b, r = .ack b) ∨
      (kind ∈ [TxKind.send, .join, .leave, .groupCheck, .groupRepair] ∧ r = .nak .refused) ∨
      (kind = .fetch ∧ ((∃ payload, r = .data bit payload) ∨ r = .nak .empty)) ∨
      (kind = .groupCheck ∧ r = .nak .missed)) ∧
    (judgeReply kind bit (some r) = .nakFull ↔ kind ∈ [TxKind.send, .fetch, .groupCheck, .groupRepair] ∧ r = .nak .full) ∧
    (judgeReply kind bit (some r) ≠ .good r → judgeReply kind bit (some r) ≠ .nakFull →
      judgeReply kind bit (some r) = .corrupt .unexpected) := by
  cases kind with
  | poll => rw [judgeReply_poll]; rcases r with _ | _ | ⟨_ | _ | _ | _⟩ | _ <;> simp
  | clear => rw [judgeReply_clear]; rcases r with _ | _ | ⟨_ | _ | _ | _⟩ | _ <;> simp
  | send => rw [judgeReply_send]; rcases r with _ | a | ⟨_ | _ | _ | _⟩ | _ <;> simp; by_cases a = bit <;> simp [*]
  | fetch => rw [judgeReply_fetch]; rcases r with _ | _ | ⟨_ | _ | _ | _⟩ | ⟨a, _⟩ <;> simp; by_cases a = bit <;> simp [*]
  | join => rw [judgeReply_join]; rcases r with _ | _ | ⟨_ | _ | _ | _⟩ | _ <;> simp
  | leave => rw [judgeReply_leave]; rcases r with _ | _ | ⟨_ | _ | _ | _⟩ | _ <;> simp
  | groupData => rw [judgeReply_groupData]; simp
  | groupCheck => rw [judgeReply_groupCheck]; rcases r with _ | _ | ⟨_ | _ | _ | _⟩ | _ <;> simp
  | groupRepair => rw [judgeReply_groupRepair]; rcases r with _ | _ | ⟨_ | _ | _ | _⟩ | _ <;> simp

/-- Settles O25. -/
theorem repliesRecognisedAndJudged : Obligations.RepliesRecognisedAndJudged := by
  refine ⟨fun control payload => ⟨fun h => ⟨fun high low flags e => ?_, fun length => ?_⟩, fun h => ⟨fun e => ?_, fun nonempty => ?_⟩,
    fun h => ⟨fun e => ?_, fun e => ?_, fun e => ?_, fun e => ?_, fun other => ?_⟩, fun h => replyOf_data h payload,
    fun h => replyOf_other h payload⟩, fun kind bit r => ?judged⟩
  · rw [replyOf_status h, e]
  · rw [replyOf_status h]
    split
    next => exact absurd rfl length
    next => rfl
  · rw [replyOf_ack h, e]
  · rw [replyOf_ack h]
    split
    next => exact absurd rfl nonempty
    next => rfl
  · rw [replyOf_nak h, e]; rfl
  · rw [replyOf_nak h, e]; rfl
  · rw [replyOf_nak h, e]; rfl
  · rw [replyOf_nak h, e]; rfl
  · rw [replyOf_nak h]
    split
    next reason =>
      rw [nakReasonOf_other (o := reason) (by simpa using other)]; rfl
    next => rfl
  case judged =>
    obtain ⟨good, busy, unexpected⟩ := judgeReply_spec kind bit r
    exact ⟨good, busy, unexpected, judgeReply_none kind bit⟩

/-! ### The course of an attempt (R20, R31, R32, R34) -/

theorem startsGuard_eq (c : AttemptClass) : c.startsGuard = (c != .noReply) := by cases c <;> rfl

theorem attempt_eq (st : LineStats) (c : AttemptClass) (retry : Bool) :
    st.attempt c retry = { st with
      retryAttempts := if retry then min (st.retryAttempts + 1) 65535 else st.retryAttempts
      corruptFrames := match c with
        | .corrupt _ => min (st.corruptFrames + 1) 65535
        | _ => st.corruptFrames
      noReplyAttempts := if c = .noReply then min (st.noReplyAttempts + 1) 65535 else st.noReplyAttempts } := by
  cases c <;> rfl

theorem attemptEnd_of_good {s : State} {l : LineNo} {t : Transaction} (tx : (s.engine l).tx = some t) (reply : DropReply) (heard : Bool) :
    s.attemptEnd l (.good reply) heard =
      (s.onEngine l fun e => e.afterAttempt t { outcome := .good reply, heard := heard, whollySent := true, endTime := s.partTime }).endTransaction
        l (.good reply) (s.cancelFlagOf t.work) true := by
  simp only [State.attemptEnd, tx]

theorem attemptEnd_of_failed {s : State} {l : LineNo} {t : Transaction} {c : AttemptClass} (tx : (s.engine l).tx = some t)
    (failed : ∀ reply, c ≠ .good reply) (heard : Bool) :
    s.attemptEnd l c heard =
      let u := s.onEngine l fun e => e.afterAttempt t { outcome := c, heard := heard, whollySent := true, endTime := s.partTime }
      if t.attemptsUsed + 1 < t.attemptLimit ∧ s.cancelFlagOf t.work = false then u.onEngine l fun e => e.goOn c
      else u.endTransaction l (failedOutcome c (s.cancelFlagOf t.work)) false true := by
  cases c with
  | good reply => exact absurd rfl (failed reply)
  | nakFull | corrupt cause | noReply => simp only [State.attemptEnd, tx, Bool.and_eq_true, decide_eq_true_eq, Bool.not_eq_true']

/-- Settles O26. -/
theorem attemptCourse : Obligations.AttemptCourse := by
  intro s l t c heard tx cancel after stats ended left
  have flag : s.cancelFlagOf t.work = cancel := by
    simp only [State.cancelFlagOf, cancel]
    cases t.work <;> rfl
  have recorded : (s.onEngine l fun e => e.afterAttempt t { outcome := c, heard := heard, whollySent := true, endTime := s.partTime }) =
      ended := by
    refine onEngine_congr s l _ _ ?_
    simp only [LineEngine.afterAttempt, startsGuard_eq, attempt_eq, decide_eq_true_eq]
    rfl
  have failing (failed : ∀ reply, c ≠ .good reply) : s.attemptEnd l c heard =
      if left then ended.onEngine l fun e => e.goOn c else ended.endTransaction l (failedOutcome c cancel) false true := by
    rw [attemptEnd_of_failed tx failed, flag, recorded]
  refine ⟨fun reply e => ?_, fun e goes => ?_, fun cause e goes => ?_, fun e goes => ?_, fun stays cancelled failed => ?_,
    fun stays kept => ⟨fun e => ?_, fun cause e => ?_, fun e => ?_⟩, rfl⟩
  · subst e; rw [attemptEnd_of_good tx, flag, recorded]
  · rw [failing (by simp [e]), if_pos goes, e]; rfl
  · rw [failing (by simp [e]), if_pos goes, e]; exact onEngine_id _ l _ rfl
  · rw [failing (by simp [e]), if_pos goes, e]; rfl
  · rw [failing failed, if_neg stays]
    unfold failedOutcome
    rw [if_pos cancelled]
  · rw [failing (by simp [e]), if_neg stays, kept, e]; rfl
  · rw [failing (by simp [e]), if_neg stays, kept, e]; rfl
  · rw [failing (by simp [e]), if_neg stays, kept, e]; rfl

/-- Settles O27. -/
theorem transactionEndsInOrder : Obligations.TransactionEndsInOrder := by
  intro s l t o late atEnd tx r free u station none'
  have taken : (match t.station with
      | some ix => s.stationResult ix r
      | none => s) = u := by
    cases h : t.station with
    | some ix => exact (station ix h).symm
    | none => exact (none' h).symm
  rw [endTransaction_of_some tx]
  have handed : s.handOn l t (t.result o late atEnd) = match t.work with
      | .pollStep => u
      | .order n => u.orderResult n r
      | .pass n step => u.stepResult l n step r := by
    rw [← taken]; rfl
  refine ⟨fun work => ?_, fun n work => ?_, fun n step work => ?_⟩ <;> rw [handed, work] <;> rfl

/-! ### Stray characters (R2, R14, R17, R21) -/

theorem listens_iff (e : LineEngine) : e.listens = true ↔ e.state ∈ [LineState.idle, .awaiting, .backoff] := by
  simp [LineEngine.listens, or_assoc]

theorem exec_strayCharacter {s : State} {l : LineNo} (released : s.resetAsserted = false) (c : DropChar) :
    exec (.strayCharacter l c) s = .next (s.onEngine l fun e => e.strayCharacter c) := by
  change execStrayCharacter l c s = _
  simp only [execStrayCharacter, State.whenOutOfReset, released, Bool.false_eq_true, if_false]

/-- A stray character counted in IDLE and BACKOFF. -/
theorem exec_strayCharacter_counted {s : State} {l : LineNo} (released : s.resetAsserted = false)
    (h : (s.engine l).state = .idle ∨ (s.engine l).state = .backoff) {c : DropChar} {f : LineEngine → LineEngine}
    (counts : { s.engine l with stats := (s.engine l).stats.stray c } = f (s.engine l)) :
    exec (.strayCharacter l c) s = .next (s.onEngine l f) := by
  rw [exec_strayCharacter released, onEngine_congr s l _ f]
  rw [← counts, LineEngine.strayCharacter, if_pos (by simpa using h)]

theorem classify_of_stop {c : BitVec 11} (stop : c.getLsbD 10 = true) :
    classify c = if c.getLsbD 9 then .header (c.extractLsb' 1 8) else .body (c.extractLsb' 1 8) := by
  have nonzero : c ≠ 0 := by rintro rfl; simp at stop
  rw [classify, if_neg nonzero, stop]
  rfl

/-- Settles O28. -/
theorem strayCharactersCounted : Obligations.StrayCharactersCounted := by
  refine ⟨fun c => ⟨fun zero => if_pos zero, fun nonzero space => ?_, fun stop mark => ?_, fun stop mark => ?_, samples_character c⟩,
    fun time => ⟨rfl, rfl, rfl, rfl⟩, fun e r l c time level => ⟨fun h => ?_, fun h => ⟨?_, ?_⟩, fun h => ?_, fun h => ?_⟩,
    fun first second ordered => ⟨Nat.add_sub_cancel' ordered, ?_⟩,
    fun s l released => ⟨fun h => ⟨fun a nonzero => ?_, ?_, ?_, ?_, fun o => ?_⟩, fun idle backoff c => ?_⟩⟩
  · rw [classify, if_neg nonzero, space]; rfl
  · rw [classify_of_stop stop, if_pos mark]
  · rw [classify_of_stop stop, if_neg (by simp [-BitVec.getLsbD_eq_getElem, mark])]
  · rw [LineEngine.hear, if_pos ((listens_iff e).2 h)]
  · rw [LineEngine.hear, if_neg (fun listens => h ((listens_iff e).1 listens))]
  · simp only [List.mem_cons, List.not_mem_nil, or_false, not_or] at h
    cases state : e.state <;> simp [LineEngine.charCommand, state] at h ⊢
  · simp only [LineEngine.charCommand, h]
  · obtain h | h := h <;> simp only [LineEngine.charCommand, h]
  · refine decide_eq_true_iff.trans ?_
    unfold gapBetween
    omega
  · exact exec_strayCharacter_counted released h (by simp only [LineStats.stray, if_neg nonzero]; rfl)
  · exact exec_strayCharacter_counted released h (by simp only [LineStats.stray, if_true]; rfl)
  · exact exec_strayCharacter_counted released h rfl
  · exact (exec_strayCharacter_counted released h (f := id) rfl).trans (by rw [onEngine_id s l id rfl])
  · exact (exec_strayCharacter_counted released h (f := id) rfl).trans (by rw [onEngine_id s l id rfl])
  · rw [exec_strayCharacter released, onEngine_id]
    rw [LineEngine.strayCharacter, if_neg (by simp [idle, backoff])]

/-! ### The ends of timers (R15, R33, R44, R45) -/

theorem exec_guardExpiry {s : State} {l : LineNo} (released : s.resetAsserted = false) :
    exec (.guardExpiry l) s = .next (if (s.engine l).guardRunning then
      ((s.onEngine l LineEngine.guardEnds).selectWork l).transmit else s) := by
  change execGuardExpiry l s = _
  simp only [execGuardExpiry, State.whenOutOfReset, released, Bool.false_eq_true, if_false]

theorem exec_busyDelayExpiry {s : State} {l : LineNo} (released : s.resetAsserted = false) :
    exec (.busyDelayExpiry l) s = .next (if (s.engine l).state = .backoff && (s.engine l).busyRunning then
      (s.elapse (s.engine l).busyLeft).onEngine l LineEngine.busyDelayEnds else s) := by
  change execBusyDelayExpiry l s = _
  simp only [execBusyDelayExpiry, State.whenOutOfReset, released, Bool.false_eq_true, if_false]

theorem exec_cycleFloorExpiry {s : State} {l : LineNo} (released : s.resetAsserted = false) :
    exec (.cycleFloorExpiry l) s = .next (if (s.engine l).floorRunning then
      (((s.elapse (s.engine l).floorLeft).floorEnds l).selectWork l).transmit else s) := by
  change execCycleFloorExpiry l s = _
  simp only [execCycleFloorExpiry, State.whenOutOfReset, released, Bool.false_eq_true, if_false]

theorem selectWork_onEngine_busy (s : State) (l : LineNo) (f : LineEngine → LineEngine) (h : (f (s.engine l)).state ≠ .idle) :
    (s.onEngine l f).selectWork l = s.onEngine l f :=
  selectWork_busy _ l (by simpa using h)

theorem cycles_iff (x : LineState) : x.cycles = true ↔ x ∈ [LineState.idle, .sending, .awaiting, .backoff] := by
  cases x <;> simp [LineState.cycles]

theorem onPollList_of_stations {s t : State} (h : t.stations = s.stations) (l : LineNo) (ix : StationIx) :
    t.onPollList l ix = s.onPollList l ix := by
  unfold State.onPollList State.station
  rw [h]

theorem cycleMayBegin_iff (s : State) (l : LineNo) :
    s.cycleMayBegin l = true ↔ (s.engine l).cycleState = .complete ∧ (s.engine l).floorLeft = 0 ∧ ∃ ix, s.onPollList l ix = true := by
  simp only [State.cycleMayBegin, Bool.and_eq_true, decide_eq_true_eq, pollListLength_pos, and_assoc]

/-- The floor's end begins the next cycle where the engine cycles, its cycle is COMPLETE and the poll list holds a station. -/
theorem floorEnds_eq (s : State) (l : LineNo) :
    s.floorEnds l =
      if (s.engine l).state ∈ [LineState.idle, .sending, .awaiting, .backoff] ∧ (s.engine l).cycleState = .complete ∧
          ∃ ix, s.onPollList l ix = true then
        s.onEngine l fun e => { e with
          cycleCount := e.cycleCount + 1, cursor := 0, cycleStart := some s.partTime, cycleState := .running
          floorLeft := e.params.cycleFloor.toNat, floorRunning := false }
      else s.onEngine l fun e => { e with floorRunning := false, floorLeft := 0 } := by
  have begins : (((s.onEngine l fun e => { e with floorRunning := false, floorLeft := 0 }).engine l).state.cycles &&
      (s.onEngine l fun e => { e with floorRunning := false, floorLeft := 0 }).cycleMayBegin l) = true ↔
      (s.engine l).state ∈ [LineState.idle, .sending, .awaiting, .backoff] ∧ (s.engine l).cycleState = .complete ∧
        ∃ ix, s.onPollList l ix = true := by
    rw [Bool.and_eq_true, cycles_iff, cycleMayBegin_iff]
    simp only [engine_onEngine, if_true, true_and, onPollList_of_stations (onEngine_stations s l _)]
  rw [State.floorEnds]
  simp only [begins, onEngine_onEngine]
  rfl

/-- Settles O29. -/
theorem timersEnd : Obligations.TimersEnd := by
  intro s l released
  rw [exec_guardExpiry released, exec_busyDelayExpiry released, exec_cycleFloorExpiry released]
  refine ⟨fun stopped => ?_, fun runs => ?guard, fun backoff runs => ?_, fun h => ?_, fun stopped => ?_, fun runs => ?floor⟩
  · rw [if_neg (by simp [stopped])]
  case guard =>
    rw [if_pos runs]
    have ends {f : LineEngine → LineEngine} (h : (s.engine l).guardEnds = f (s.engine l)) :
        s.onEngine l LineEngine.guardEnds = s.onEngine l f := onEngine_congr s l _ f h
    refine ⟨fun idle free => ?_, fun idle taken => ?_, fun backoff busy => ?_, fun backoff ended => ?_⟩
    · rw [ends (f := fun e => { e with guardRunning := false }) (by simp [LineEngine.guardEnds, idle, free])]
    · rw [ends (f := fun e => { e with guardRunning := false, state := .sending })
        (by simp [LineEngine.guardEnds, idle, Option.isSome_iff_ne_none.mpr taken]), selectWork_onEngine_busy _ _ _ (by simp)]
    · rw [ends (f := fun e => { e with guardRunning := false }) (by simp [LineEngine.guardEnds, backoff, busy]),
        selectWork_onEngine_busy _ _ _ (by simp [backoff])]
    · rw [ends (f := fun e => { e with guardRunning := false, state := .sending }) (by simp [LineEngine.guardEnds, backoff, ended]),
        selectWork_onEngine_busy _ _ _ (by simp)]
  · rw [if_pos (by simp [backoff, runs])]
    refine congrArg Host.Outcome.next (onEngine_congr _ l _ _ ?_)
    rw [engine_elapse]; rfl
  · rw [if_neg]
    obtain h | h := h <;> simp [h]
  · rw [if_neg (by simp [stopped])]
  case floor =>
    intro begins u
    have same : ((u.engine l).state ∈ [LineState.idle, .sending, .awaiting, .backoff] ∧ (u.engine l).cycleState = .complete ∧
        ∃ ix, u.onPollList l ix = true) ↔ begins := by
      simp only [u, engine_elapse, onPollList_of_stations (elapse_stations s _)]; rfl
    rw [if_pos runs, floorEnds_eq u l]
    exact ⟨fun h => by rw [if_pos (same.2 h)], fun h => by rw [if_neg (fun k => h (same.1 k))]⟩

end Machine

end Sys2Proof

/-! ## The poll cycle, work selection and the order taken (O31 to O33) -/

namespace Sys2Proof

namespace Machine

/-! ### Poll steps (R41, R43, R30) -/

theorem dueAbove_iff (s : State) (l : LineNo) (ix : StationIx) :
    s.dueAbove l ix = true ↔ (s.station ix).line = l ∧ (s.station ix).state.polled = true ∧
      (s.engine l).cursor.toNat < (s.station ix).address.toNat ∧ (s.station ix).due (s.engine l).cycleCount = true := by
  simp only [State.dueAbove, State.onPollList, Bool.and_eq_true, decide_eq_true_eq, and_assoc]

/-- The station due is a candidate, and none has a lower address. -/
theorem dueStation_some {s : State} {l : LineNo} {ix : StationIx} (h : s.dueStation l = some ix) :
    s.dueAbove l ix = true ∧ ∀ other, s.dueAbove l other = true → (s.station ix).address.toNat ≤ (s.station other).address.toNat := by
  obtain ⟨found, lowest, -⟩ := lowestAddress_mem s _ none ix h
  obtain found | found := found
  · cases found
  · exact ⟨(List.mem_filter.mp found).2, fun other due => lowest other (List.mem_filter.mpr ⟨List.mem_finRange other, due⟩)⟩

theorem dueStation_none {s : State} {l : LineNo} (h : s.dueStation l = none) (ix : StationIx) : ¬ s.dueAbove l ix = true := by
  intro due
  have mem : ix ∈ allStations.filter fun ix => s.dueAbove l ix := List.mem_filter.mpr ⟨List.mem_finRange ix, due⟩
  unfold State.dueStation at h
  cases candidates : allStations.filter fun ix => s.dueAbove l ix with
  | nil => rw [candidates] at mem; cases mem
  | cons first rest =>
    rw [candidates, List.foldl_cons] at h
    exact lowestAddress_some s rest first h

theorem pollDue_running {s : State} {l : LineNo} (h : (s.engine l).cycleState = .running) : s.pollDue l = s.dueStation l := if_pos h

theorem pollDue_some {s : State} {l : LineNo} {ix : StationIx} (h : s.pollDue l = some ix) :
    (s.engine l).cycleState = .running ∧ s.dueStation l = some ix := by
  by_cases running : (s.engine l).cycleState = .running
  · exact ⟨running, (pollDue_running running).symm.trans h⟩
  · rw [State.pollDue, if_neg running] at h; cases h

theorem takePoll_eq {s : State} (l : LineNo) {ix : StationIx} {kind : TxKind} {type : FrameType} (limit : ∀ e : LineEngine, e.attemptLimit kind = 1)
    (k : (if (s.station ix).state = .online then TxKind.poll else TxKind.clear) = kind)
    (f : (if (s.station ix).state = .online then FrameType.poll else FrameType.clear) = type) :
    s.takePoll l ix = s.onEngine l fun e =>
      { e with
        cursor := (s.station ix).address, state := .sending, previousPoll := true
        tx := some
          { kind := kind, work := .pollStep, station := some ix, target := (s.station ix).address
            frame := { address := (s.station ix).address, type := type, bit := false, payload := [] }
            attemptLimit := 1, attemptsUsed := 0, heard := false, lastHeard := none, whollySent := 0, lastResult := none
            suspended := false } } := by
  simp only [State.takePoll, k, f]
  refine onEngine_congr s l _ _ ?_
  simp only [LineEngine.take, LineEngine.transaction, limit, bareFrame]

/-! ### Poll cycles (R44, R45) -/

theorem advanceCycle_running_due {s : State} {l : LineNo} (running : (s.engine l).cycleState = .running) (due : s.pollDue l ≠ none) (n : Nat) :
    State.advanceCycle l (n + 1) s = s := by
  rw [pollDue_running running] at due
  rw [State.advanceCycle, if_pos running, if_pos (Option.isSome_iff_ne_none.mpr due)]

theorem advanceCycle_running_done {s : State} {l : LineNo} (running : (s.engine l).cycleState = .running) (none' : s.pollDue l = none) (n : Nat) :
    State.advanceCycle l (n + 1) s = State.advanceCycle l n (s.onEngine l LineEngine.completeCycle) := by
  rw [pollDue_running running] at none'
  rw [State.advanceCycle, if_pos running, if_neg (by simp [none'])]

theorem advanceCycle_complete {s : State} {l : LineNo} (complete : (s.engine l).cycleState = .complete) (n : Nat) :
    State.advanceCycle l (n + 1) s =
      if (s.engine l).floorLeft = 0 ∧ ∃ ix, s.onPollList l ix = true then
        State.advanceCycle l n (s.onEngine l fun e => e.nextCycle s.partTime)
      else s := by
  rw [State.advanceCycle, if_neg (by simp [complete])]
  simp only [cycleMayBegin_iff, complete, true_and]

theorem engine_completeCycle (s : State) (l : LineNo) :
    ((s.onEngine l LineEngine.completeCycle).engine l) = (s.engine l).completeCycle := by simp

theorem pollListJoined_eq (s : State) (l : LineNo) :
    s.pollListJoined l =
      if ((s.engine l).state ∈ [LineState.idle, .sending, .awaiting, .backoff] ∨
            ((s.engine l).state = .starting ∧ (s.engine l).cycleAwaited = false)) ∧
          (s.engine l).cycleState = .complete ∧ (s.engine l).floorLeft = 0 ∧
          (allStations.filter fun ix => s.onPollList l ix).length = 1 then
        s.onEngine l fun e => e.nextCycle s.partTime
      else s := by
  have alone : (allStations.filter fun ix => s.onPollList l ix).length = 1 → ∃ ix, s.onPollList l ix = true := by
    intro one
    rw [← List.countP_eq_length_filter] at one
    exact (pollListLength_pos s l).mp (Nat.lt_of_lt_of_eq Nat.one_pos one.symm)
  unfold State.pollListJoined
  refine if_congr ?_ rfl rfl
  simp only [LineEngine.joinable, Bool.and_eq_true, Bool.or_eq_true, decide_eq_true_eq, Bool.not_eq_true', cycles_iff, cycleMayBegin_iff,
    State.pollListLength, List.countP_eq_length_filter]
  constructor
  · rintro ⟨⟨joinable, one⟩, complete, floor, -⟩; exact ⟨joinable, complete, floor, one⟩
  · rintro ⟨joinable, complete, floor, one⟩; exact ⟨⟨joinable, one⟩, complete, floor, alone one⟩

/-- Settles O31. -/
theorem pollStepsAndCycles : Obligations.PollStepsAndCycles := by
  refine ⟨⟨fun s l => ⟨fun ix due => ?_, fun none' running ix candidate => ?_⟩, fun s l ix => ⟨fun online => ?_, fun other => ?_⟩⟩,
    fun s l turns => ⟨fun running due => ?_, fun running none' still => ?_, fun running none' begins => ?_, fun complete still => ?_,
      fun complete begins => ?_⟩, fun s l => ⟨fun begins => ?_, fun still => ?_⟩⟩
  · obtain ⟨running, due⟩ := pollDue_some due
    obtain ⟨candidate, lowest⟩ := dueStation_some due
    exact ⟨running, (dueAbove_iff s l ix).1 candidate, fun other h => lowest other ((dueAbove_iff s l other).2 h)⟩
  · rw [pollDue_running running] at none'
    exact dueStation_none none' ix ((dueAbove_iff s l ix).2 candidate)
  · exact takePoll_eq l (fun _ => rfl) (if_pos online) (if_pos online)
  · exact takePoll_eq l (fun _ => rfl) (if_neg other) (if_neg other)
  · exact advanceCycle_running_due running due turns
  · rw [advanceCycle_running_done running none', advanceCycle_complete (by rw [engine_completeCycle]; rfl), if_neg]
    · rfl
    · rw [engine_completeCycle]
      exact fun ⟨floor, ix, on⟩ => still ⟨floor, ix, on⟩
  · rw [advanceCycle_running_done running none', advanceCycle_complete (by rw [engine_completeCycle]; rfl), if_pos, onEngine_onEngine]
    · rfl
    · rw [engine_completeCycle]
      exact begins
  · rw [advanceCycle_complete complete, if_neg still]
  · rw [advanceCycle_complete complete, if_pos begins]; rfl
  · rw [pollListJoined_eq, if_pos begins]; rfl
  · rw [pollListJoined_eq, if_neg still]

/-! ### Work selection (R38, R39) -/

/-- What a search of the poll cycle leaves as it was: all that dispatching an entry reads, and the engine's previous work. -/
structure SameWork (l : LineNo) (s t : State) : Prop where
  orders : t.orders = s.orders
  deliveries : t.deliveries = s.deliveries
  stations : t.stations = s.stations
  previousPoll : (t.engine l).previousPoll = (s.engine l).previousPoll

theorem sameWork_onEngine (s : State) (l : LineNo) (f : LineEngine → LineEngine) (h : ∀ e, (f e).previousPoll = e.previousPoll) :
    SameWork l s (s.onEngine l f) :=
  ⟨rfl, rfl, rfl, by simp [h]⟩

theorem SameWork.trans {l : LineNo} {s t u : State} (h : SameWork l s t) (k : SameWork l t u) : SameWork l s u :=
  ⟨k.orders.trans h.orders, k.deliveries.trans h.deliveries, k.stations.trans h.stations, k.previousPoll.trans h.previousPoll⟩

theorem sameWork_advanceCycle (l : LineNo) : ∀ (n : Nat) (s : State), SameWork l s (State.advanceCycle l n s)
  | 0, _ => ⟨rfl, rfl, rfl, rfl⟩
  | n + 1, s => by
    unfold State.advanceCycle
    split
    · split
      · exact ⟨rfl, rfl, rfl, rfl⟩
      · exact (sameWork_onEngine s l LineEngine.completeCycle fun _ => rfl).trans (sameWork_advanceCycle l n _)
    · split
      · exact (sameWork_onEngine s l (fun e => e.nextCycle s.partTime) fun _ => rfl).trans (sameWork_advanceCycle l n _)
      · exact ⟨rfl, rfl, rfl, rfl⟩

theorem SameWork.oldestDispatchable {l : LineNo} {s t : State} (h : SameWork l s t) (p : Priority) :
    t.oldestDispatchable l p = s.oldestDispatchable l p := by
  unfold State.oldestDispatchable State.queue State.dispatchable State.findDelivery State.station
  rw [h.orders, h.deliveries, h.stations]

theorem waiting_iff (e : LineEngine) : e.waiting = true ↔ e.state = .idle ∧ e.tx = none ∧ e.guardRunning = false := by
  simp [LineEngine.waiting, and_assoc]

theorem selectWork_of_not_waiting {s : State} {l : LineNo} (h : ¬ (s.engine l).waiting = true) : s.selectWork l = s := if_neg h

/-- Work selection where the engine waits and the poll cycle has been looked at. -/
theorem selectWork_of_waiting {s t : State} {l : LineNo} (waiting : (s.engine l).waiting = true) (h : s.cycleAtSelection l = t) :
    s.selectWork l = match t.chooseWork l with
      | .entry r => t.takeEntry l r
      | .poll ix => t.takePoll l ix
      | .nothing => t := by
  rw [State.selectWork, if_pos waiting, h] <;> rfl

theorem cycleAtSelection_polls {s : State} {l : LineNo} (h : s.comesToPoll l = true) : s.cycleAtSelection l = State.advanceCycle l 40 s :=
  if_pos h

/-- A selection that takes queued work ahead of the poll lets a cycle floor that has passed take effect, and no more. -/
theorem cycleAtSelection_queued {s passed : State} {l : LineNo} (h : s.comesToPoll l = false)
    (next : s.cycleMayBegin l = true → passed = s.onEngine l fun e => e.nextCycle s.partTime)
    (same : ¬ s.cycleMayBegin l = true → passed = s) : s.cycleAtSelection l = passed ∧ SameWork l s passed := by
  rw [State.cycleAtSelection, if_neg (by simp [h])]
  by_cases begins : s.cycleMayBegin l = true
  · rw [if_pos begins, next begins]; exact ⟨rfl, sameWork_onEngine s l _ fun _ => rfl⟩
  · rw [if_neg begins, same begins]; exact ⟨rfl, rfl, rfl, rfl, rfl⟩

theorem chooseWork_urgent {s : State} {l : LineNo} {r : OrderRecord} (h : s.oldestDispatchable l .urgent = some r) :
    s.chooseWork l = .entry r := by
  simp only [State.chooseWork, h]

/-- After a poll step the normal queue goes first (R38). -/
theorem chooseWork_normal {s : State} {l : LineNo} {r : OrderRecord} (urgent : s.oldestDispatchable l .urgent = none)
    (normal : s.oldestDispatchable l .normal = some r) (previous : (s.engine l).previousPoll = true) : s.chooseWork l = .entry r := by
  cases due : s.pollDue l <;> simp only [State.chooseWork, urgent, normal, due, previous, if_true]

theorem chooseWork_due {s : State} {l : LineNo} {ix : StationIx} (urgent : s.oldestDispatchable l .urgent = none)
    (due : s.pollDue l = some ix) (h : (s.engine l).previousPoll = false ∨ s.oldestDispatchable l .normal = none) :
    s.chooseWork l = .poll ix := by
  cases normal : s.oldestDispatchable l .normal with
  | none => simp only [State.chooseWork, urgent, normal, due]
  | some r =>
    have previous : (s.engine l).previousPoll = false := by simpa [normal] using h
    simp only [State.chooseWork, urgent, normal, due, previous, Bool.false_eq_true, if_false]

theorem chooseWork_not_due {s : State} {l : LineNo} (urgent : s.oldestDispatchable l .urgent = none) (due : s.pollDue l = none) :
    s.chooseWork l = match s.oldestDispatchable l .normal with
      | some r => .entry r
      | none => .nothing := by
  cases normal : s.oldestDispatchable l .normal <;> simp only [State.chooseWork, urgent, normal, due]

/-- The first element of a list that satisfies a predicate, with its place. -/
theorem zipIdx_find?_eq_some_iff {α : Type} (p : α → Bool) (l : List α) (place : Nat) (a : α) :
    l.zipIdx.find? (fun q => p q.1) = some (a, place) ↔
      l[place]? = some a ∧ p a = true ∧ ∀ k b, k < place → l[k]? = some b → p b = false := by
  rw [List.find?_eq_some_iff_getElem]
  simp only [List.length_zipIdx, List.getElem_zipIdx, Nat.zero_add, Prod.mk.injEq, Bool.not_eq_true']
  constructor
  · rintro ⟨holds, i, bound, ⟨rfl, rfl⟩, ahead⟩
    refine ⟨List.getElem?_eq_getElem bound, holds, fun k b before h => ?_⟩
    obtain ⟨-, rfl⟩ := List.getElem?_eq_some_iff.mp h
    exact ahead k before
  · rintro ⟨h, holds, ahead⟩
    obtain ⟨bound, rfl⟩ := List.getElem?_eq_some_iff.mp h
    exact ⟨holds, place, bound, ⟨rfl, rfl⟩, fun k before => ahead k _ before (List.getElem?_eq_getElem (before.trans bound))⟩

/-- The current member of a pass: the first of its line that is not terminal (R120). -/
theorem current_eq_some_iff (d : Delivery) (l : LineNo) (place : Nat) (m : DeliveryMember) :
    d.current l = some (place, m) ↔
      d.snapshot[place]? = some m ∧ m.station.line = l ∧ m.state.terminal = false ∧
      ∀ k q, k < place → d.snapshot[k]? = some q → q.station.line = l → q.state.terminal = true := by
  have found : d.current l = some (place, m) ↔ d.snapshot.zipIdx.find? (fun p => p.1.unsettledOn l) = some (m, place) := by
    simp only [Delivery.current, Option.map_eq_some_iff, Prod.mk.injEq]
    constructor
    · rintro ⟨⟨q, k⟩, h, rfl, rfl⟩; exact h
    · intro h; exact ⟨_, h, rfl, rfl⟩
  refine found.trans ((zipIdx_find?_eq_some_iff (fun q => q.unsettledOn l) d.snapshot place m).trans ?_)
  simp [DeliveryMember.unsettledOn, imp_iff_not_or, and_assoc]

theorem oldestDispatchable_iff (s : State) (l : LineNo) (p : Priority) (r : OrderRecord) :
    s.oldestDispatchable l p = some r ↔
      ∃ ahead behind, s.queue l p = ahead ++ r :: behind ∧ s.dispatchable r = true ∧ ∀ q ∈ ahead, s.dispatchable q = false := by
  simp only [State.oldestDispatchable, List.find?_eq_some_iff_append, Bool.not_eq_true']
  constructor
  · rintro ⟨h, ahead, behind, split', before⟩; exact ⟨ahead, behind, split', h, before⟩
  · rintro ⟨ahead, behind, split', h, before⟩; exact ⟨h, ahead, behind, split', before⟩

theorem dispatchable_order {s : State} {r : OrderRecord} {station : StationRef} (order : r.kind ≠ .groupPass)
    (named : r.station = some station) :
    s.dispatchable r = true ↔ r.state = .queued ∧ (s.station station.index).state = .online := by
  simp [State.dispatchable, order, named]

theorem dispatchable_pass {s : State} {r : OrderRecord} {d : Delivery} (pass : r.kind = .groupPass)
    (found : s.findDelivery r.number = some d) :
    s.dispatchable r = true ↔ r.state = .queued ∧
      (r.nextStep = .groupData ∨ ∃ place m, d.current r.line = some (place, m) ∧ (s.station m.station.index).state = .online) := by
  cases current : d.current r.line with
  | none => simp [State.dispatchable, pass, found, current]
  | some member =>
    obtain ⟨place, m⟩ := member
    simp [State.dispatchable, pass, found, current]

/-- Settles O32. -/
theorem workSelectedInOrder : Obligations.WorkSelectedInOrder := by
  refine ⟨fun s l => ⟨fun h => ?_, fun idle free guard => ?select⟩, oldestDispatchable_iff,
    fun s r station order named => dispatchable_order order named,
    fun s r d pass found => ⟨dispatchable_pass pass found, fun queued listed dispatchable => ?_⟩, current_eq_some_iff⟩
  · refine selectWork_of_not_waiting fun waiting => ?_
    obtain ⟨idle, free, guard⟩ := (waiting_iff _).1 waiting
    simp [idle, free, guard] at h
  case select =>
    intro urgent normal looked begins passed next same
    have waiting := (waiting_iff (s.engine l)).2 ⟨idle, free, guard⟩
    have mayBegin : s.cycleMayBegin l = true ↔ begins := cycleMayBegin_iff s l
    have queued (h : s.comesToPoll l = false) := cycleAtSelection_queued h (fun b => next (mayBegin.1 b)) fun b => same fun c => b (mayBegin.2 c)
    have look : SameWork l s looked := sameWork_advanceCycle l 40 s
    have polls (h : s.comesToPoll l = true) := selectWork_of_waiting waiting (cycleAtSelection_polls h)
    refine ⟨fun r first => ?_, fun none' previous => ?_, fun none' previous => ⟨fun r first => ?_, fun ix empty due => ?_, fun empty due => ?_⟩⟩
    · obtain ⟨at', work⟩ := queued (by simp only [State.comesToPoll, urgent] at first ⊢; simp [first])
      rw [selectWork_of_waiting waiting at', chooseWork_urgent ((work.oldestDispatchable _).trans first)]
    · have comes : s.comesToPoll l = true := by simp only [State.comesToPoll, urgent] at none' ⊢; simp [none', previous]
      rw [polls comes]
      have none'' : looked.oldestDispatchable l .urgent = none := (look.oldestDispatchable _).trans none'
      refine ⟨fun ix due => ?_, fun r due first => ?_, fun due empty => ?_⟩
      · rw [chooseWork_due none'' due (.inl (look.previousPoll.trans previous))]
      · rw [chooseWork_not_due none'' due, (look.oldestDispatchable _).trans first]
      · rw [chooseWork_not_due none'' due, (look.oldestDispatchable _).trans empty]
    · obtain ⟨at', work⟩ := queued (by simp only [State.comesToPoll, urgent, normal] at none' first ⊢; simp [none', first, previous])
      rw [selectWork_of_waiting waiting at', chooseWork_normal ((work.oldestDispatchable _).trans none') ((work.oldestDispatchable _).trans first)
        (work.previousPoll.trans previous)]
    · have comes : s.comesToPoll l = true := by simp only [State.comesToPoll, urgent, normal] at none' empty ⊢; simp [none', empty]
      rw [polls comes, chooseWork_due ((look.oldestDispatchable _).trans none') due (.inr ((look.oldestDispatchable _).trans empty))]
    · have comes : s.comesToPoll l = true := by simp only [State.comesToPoll, urgent, normal] at none' empty ⊢; simp [none', empty]
      rw [polls comes, chooseWork_not_due ((look.oldestDispatchable _).trans none') due, (look.oldestDispatchable _).trans empty]
  · exact (queued r listed pass).1 ((dispatchable_pass pass found).1 dispatchable).1

/-! ### An order taken (R30, R40, R89), and a frame driven (R1, R5, R6) -/

theorem controlOctet_eq_add (t : FrameType) (bit : Bool) : controlOctet t bit = t.code * 16 + (if bit then 1 else 0) := by
  cases t <;> cases bit <;> rfl

/-- The header alone has its mark bit set (R1). -/
theorem mapIdx_header (o : Octet) (rest : List Octet) :
    ((o :: rest).mapIdx fun place o => ((o, decide (place = 0)) : Octet × Bool)) = (o, true) :: rest.map fun o => (o, false) := by
  rw [List.mapIdx_cons, List.mapIdx_eq_iff.mpr]
  · rfl
  · intro i
    simp

theorem dataOut_silent {e : LineEngine} (h : e.state ∉ [LineState.sending, .starting, .stopping]) (time : Nat) : e.dataOut time = true := by
  simp only [List.mem_cons, List.not_mem_nil, or_false, not_or] at h
  obtain ⟨sending, starting, stopping⟩ := h
  have nothing : e.driveBits = [] := by
    unfold LineEngine.driveBits
    split
    next state _ => exact absurd state sending
    next state => exact absurd state starting
    next state => exact absurd state stopping
    next => rfl
  rw [LineEngine.dataOut, nothing]; rfl

theorem takeEntry_order {s : State} (l : LineNo) {r : OrderRecord} {station : StationRef} (named : r.station = some station)
    (order : r.kind ≠ .groupPass) :
    s.takeEntry l r = (s.updateOrder r.number fun r => { r with state := .active }).onEngine l fun e =>
      e.take (e.transaction (s.orderFrame r station).1 (.order r.number) (some station.index) station.address (s.orderFrame r station).2) false := by
  rw [State.takeEntry, if_neg order]
  simp only [State.takeOrder, named]

/-- Settles O33. -/
theorem orderTaken : Obligations.OrderTaken := by
  refine ⟨fun f => ?octets, rfl, fun f e t time => ⟨rfl, fun sending tx => ?_, fun silent => dataOut_silent silent time⟩,
    fun s l cause rate time => ⟨dataOut_silent ?_ time, dataOut_silent ?_ time⟩,
    fun s l r station named => ⟨fun kind => ?_, fun kind => ?_, fun g group kind => ?_, fun g group kind => ?_⟩⟩
  case octets =>
    intro control inner rest
    have octets : f.octets = inner ++ wordOctets (crc inner) := by
      simp only [DropFrame.octets, controlOctet_eq_add]; rfl
    exact ⟨octets, by rw [DropFrame.characters, octets]; exact mapIdx_header f.address rest⟩
  · simp only [LineEngine.dataOut, LineEngine.driveBits, sending, tx]
  · rw [engine_reset]; decide
  · rw [engine_freshStart]; simp [LineEngine.reset]
  · rw [takeEntry_order l named (by simp [kind])]; simp only [State.orderFrame, kind]; rfl
  · rw [takeEntry_order l named (by simp [kind])]; simp only [State.orderFrame, kind]; rfl
  · rw [takeEntry_order l named (by simp [kind])]; simp only [State.orderFrame, kind, group]; rfl
  · rw [takeEntry_order l named (by simp [kind])]; simp only [State.orderFrame, kind, group]; rfl

end Machine

end Sys2Proof

/-! ## Stations (O34 to O39) -/

namespace Sys2Proof

namespace Machine

/-! ### Requests that name a station (R55, R70) -/

/-- A request that names a station, once taken: the checks on its line and address in their order, then what its rule makes of the entry. -/
theorem exec_withStation {i : Instr} {f : HostFrame} {s u : State} {owner : State → State × Answer} {line address : Octet}
    {next : StationIx → State × Answer} (served : exec i s = .next (s.serve f owner)) (hf : i.frame = some f) (taken : Taken i s u)
    (named : owner u = u.withStation line address next) :
    (3 < line.toNat ∨ address.toNat = 0 ∨ 239 < address.toNat → exec i s = .next (u.answering i .badValue [])) ∧
    ∀ l : LineNo, line.toNat = l.val → 1 ≤ address.toNat → address.toNat ≤ 239 →
      (u.findStation l address = none → exec i s = .next (u.answering i .noSuch [])) ∧
      ∀ ix, u.findStation l address = some ix → ∀ v code data, next ix = (v, { code := code, data := data, rate := none }) →
        exec i s = .next (v.answering i code data) := by
  refine ⟨fun bad => ?_, fun l hl h1 h2 => ⟨fun absent => ?_, fun ix found v code data answered => ?_⟩⟩
  · exact exec_eq_refused served hf taken (named.trans (withStation_bad u line address next bad))
  · exact exec_eq_refused served hf taken (named.trans (withStation_none u line address l next hl h1 h2 absent))
  · exact exec_eq_answering_of_changed served hf taken
      (named.trans ((withStation_some u line address l ix next hl h1 h2 found).trans answered))

theorem pollClassOf_code (c : PollClass) : pollClassOf c.code = some c := by cases c <;> rfl

theorem exists_pollClassOf {o : Octet} (h : o.toNat ≤ 2) : ∃ c, pollClassOf o = some c := by
  have named : ∀ o : Octet, o.toNat ≤ 2 → (pollClassOf o).isSome = true := by decide +kernel
  exact Option.isSome_iff_exists.mp (named o h)

theorem exists_truthOf {o : Octet} (h : o.toNat ≤ 1) : ∃ k, truthOf o = some k := by
  have named : ∀ o : Octet, o.toNat ≤ 1 → (truthOf o).isSome = true := by decide +kernel
  exact Option.isSome_iff_exists.mp (named o h)

theorem stationSetOwner_eq {pollClass collect : Octet} {c : PollClass} {k : Bool} (hc : pollClassOf pollClass = some c)
    (hk : truthOf collect = some k) (line address : Octet) (u : State) :
    stationSetOwner [line, address, pollClass, collect] u = u.withStation line address fun ix =>
      if (u.station ix).state = .retiring then (u, refuse .state)
      else (u.onStation ix fun st => st.withOptions c k, accept []) := by
  simp only [stationSetOwner, hc, hk]

/-- Settles O34. -/
theorem stationChecksInOrder : Obligations.StationChecksInOrder := by
  refine ⟨fun s l a => ⟨fun ix found => findStation_some found, fun absent ix => findStation_none absent ix⟩,
    fun tag line address pollClass collect s u i listed taken => ?_⟩
  intro settable
  simp only [List.mem_cons, List.not_mem_nil, or_false] at listed
  obtain rfl | rfl | rfl | rfl | rfl := listed
  case inl =>
    obtain ⟨bad, named⟩ := exec_withStation rfl rfl taken rfl
    refine ⟨bad, fun _ other => (nomatch other), fun l _ hl h1 h2 => ⟨(named l hl h1 h2).1, fun ix found =>
      ⟨fun retiring _ => (named l hl h1 h2).2 ix found _ _ _ (if_pos retiring), fun other => (nomatch other), fun _ other => (nomatch other)⟩⟩⟩
  case inr.inl =>
    obtain ⟨bad, named⟩ := exec_withStation rfl rfl taken rfl
    refine ⟨bad, fun _ other => (nomatch other), fun l _ hl h1 h2 => ⟨(named l hl h1 h2).1, fun ix found =>
      ⟨fun retiring _ => (named l hl h1 h2).2 ix found _ _ _ (if_pos retiring), fun other => (nomatch other), fun _ other => (nomatch other)⟩⟩⟩
  case inr.inr.inl =>
    obtain ⟨bad, named⟩ := exec_withStation rfl rfl taken rfl
    have refused (l : LineNo) hl h1 h2 (ix : StationIx) (found : u.findStation l address = some ix)
        (h : (u.station ix).state ≠ .suspended) := (named l hl h1 h2).2 ix found _ _ _ (if_pos (by simpa using h))
    refine ⟨bad, fun _ other => (nomatch other), fun l _ hl h1 h2 => ⟨(named l hl h1 h2).1, fun ix found =>
      ⟨fun retiring _ => refused l hl h1 h2 ix found (by simp [retiring]), fun other => (nomatch other),
        fun other _ => refused l hl h1 h2 ix found other⟩⟩⟩
  case inr.inr.inr.inl =>
    obtain ⟨bad, named⟩ := exec_withStation rfl rfl taken rfl
    refine ⟨bad, fun _ other => (nomatch other), fun l _ hl h1 h2 => ⟨(named l hl h1 h2).1, fun ix found =>
      ⟨fun _ other => absurd rfl other, fun _ => ⟨_, (named l hl h1 h2).2 ix found _ _ _ rfl⟩, fun _ other => (nomatch other)⟩⟩⟩
  case inr.inr.inr.inr =>
    have unsettable (h : ¬ settable) := exec_eq_refused (i := .stationSet tag [line, address, pollClass, collect]) rfl rfl taken
      (stationSetOwner_of_options (by simp only [settable] at h; omega) line address u)
    have accepted (h : settable) : ∃ c k, pollClassOf pollClass = some c ∧ truthOf collect = some k := by
      obtain ⟨c, hc⟩ := exists_pollClassOf h.1
      obtain ⟨k, hk⟩ := exists_truthOf h.2
      exact ⟨c, k, hc, hk⟩
    refine ⟨fun bad => ?_, fun other _ => unsettable other, fun l options hl h1 h2 => ?_⟩
    · by_cases options : settable
      · obtain ⟨c, k, hc, hk⟩ := accepted options
        exact (exec_withStation rfl rfl taken (stationSetOwner_eq hc hk line address u)).1 bad
      · exact unsettable options
    · obtain ⟨c, k, hc, hk⟩ := accepted options
      obtain ⟨-, named⟩ := exec_withStation rfl rfl taken (stationSetOwner_eq hc hk line address u)
      exact ⟨(named l hl h1 h2).1, fun ix found =>
        ⟨fun retiring _ => (named l hl h1 h2).2 ix found _ _ _ (if_pos retiring), fun other => (nomatch other), fun _ other => (nomatch other)⟩⟩

/-! ### STATION ADD (R71) -/

theorem stationAddOwner_eq {line address pollClass collect : Octet} {l : LineNo} {a : Octet} {c : PollClass} {k : Bool}
    (hl : lineOf line = some l) (ha : addressOf address = some a) (hc : pollClassOf pollClass = some c) (hk : truthOf collect = some k) (u : State) :
    stationAddOwner [line, address, pollClass, collect] u = match u.findStation l a, u.freeStation with
      | some _, _ => (u, refuse .duplicate)
      | none, none => (u, refuse .tableFull)
      | none, some ix => (((u.setStation ix (addedStation l a c k)).pollListJoined l).selectWork l, accept [octet ix.val]) := by
  simp only [stationAddOwner, hl, ha, hc, hk] <;> rfl

theorem stationAddOwner_bad {line address pollClass collect : Octet}
    (h : lineOf line = none ∨ addressOf address = none ∨ pollClassOf pollClass = none ∨ truthOf collect = none) (u : State) :
    stationAddOwner [line, address, pollClass, collect] u = (u, refuse .badValue) := by
  unfold stationAddOwner
  dsimp only
  split
  next hl ha hc hk => simp [hl, ha, hc, hk] at h
  next => rfl

theorem freeStation_eq_some {s : State} {ix : StationIx} (free : (s.station ix).state = .free)
    (lowest : ∀ j : StationIx, j.val < ix.val → (s.station j).state ≠ .free) : s.freeStation = some ix := by
  unfold State.freeStation
  rw [List.find?_eq_some_iff_getElem]
  refine ⟨by simpa using free, ix.val, by simp [allStations], by simp [allStations], fun j before => ?_⟩
  simpa [allStations] using lowest ⟨j, before.trans ix.isLt⟩ before

theorem freeStation_eq_none {s : State} (full : ∀ ix, (s.station ix).state ≠ .free) : s.freeStation = none :=
  List.find?_eq_none.mpr fun ix _ => by simpa using full ix

/-- Settles O35. -/
theorem stationAdded : Obligations.StationAdded := by
  intro tag line address pollClass collect s u i taken
  refine ⟨fun bad => ?_, fun l c k hl h1 h2 hc hk => ?_⟩
  · refine exec_eq_refused rfl rfl taken (stationAddOwner_bad ?_ u)
    obtain h | h | h | h | h := bad
    · exact .inl (lineOf_none line h)
    · exact .inr (.inl (addressOf_none address (by omega)))
    · exact .inr (.inl (addressOf_none address (by omega)))
    · exact .inr (.inr (.inl (pollClassOf_none h)))
    · exact .inr (.inr (.inr (truthOf_none collect h)))
  · have added := stationAddOwner_eq (lineOf_eq line l hl) (addressOf_eq address h1 h2) (hc ▸ pollClassOf_code c) (hk ▸ truthOf_truth k) u
    refine ⟨fun ix found => ?_, fun absent full => ?_, fun ix absent free lowest => ?_⟩
    · exact exec_eq_refused rfl rfl taken (by rw [added, found])
    · exact exec_eq_refused rfl rfl taken (by rw [added, absent, freeStation_eq_none full])
    · exact exec_eq_answering_of_changed rfl rfl taken (by rw [added, absent, freeStation_eq_some free lowest]; rfl)

/-! ### Entering a state (R57) -/

/-- Entering a state that is neither PROBING nor ONLINE changes the state, and leaving ONLINE clears collect-due. -/
theorem enter_eq {next : StationState} (h : next ≠ .probing) (k : next ≠ .online) (st : Station) :
    st.enter next = { st with state := next, collectDue := if st.state = .online then false else st.collectDue } := by
  simp [Station.enter, h, k]

theorem enter_probing_of_ne {st : Station} (h : st.state ≠ .online) : st.enter .probing = { st with state := .probing, missCount := 0 } := by
  simp [Station.enter, h]

theorem enter_online (st : Station) : st.enter .online = { st with state := .online, missCount := 0, lastStatus := none } := by
  simp [Station.enter]

theorem onStation_enter {next : StationState} (h : next ≠ .probing) (k : next ≠ .online) (s : State) (ix : StationIx) :
    (s.onStation ix fun st => st.enter next) =
      s.onStation ix fun st => { st with state := next, collectDue := if st.state = .online then false else st.collectDue } :=
  onStation_congr s ix _ _ (enter_eq h k _)

theorem present_iff (n : StationState) : n.present = true ↔ n = .online ∨ n = .resync := by cases n <;> decide

/-! ### STATION SUSPEND, RESUME and SET (R74, R76, R77) -/

theorem suspendStation_suspended {s : State} {ix : StationIx} (h : (s.station ix).state = .suspended) : s.suspendStation ix = s := if_pos h

theorem suspendStation_eq {s : State} {ix : StationIx} (h : (s.station ix).state ≠ .suspended) :
    s.suspendStation ix = (s.takeOutOfUse ix).selectWork (s.station ix).line := if_neg h

theorem takeOutOfUse_eq (s : State) (ix : StationIx) :
    s.takeOutOfUse ix =
      let t := ((s.onStation ix fun st =>
        { st with state := .suspended, collectDue := if st.state = .online then false else st.collectDue }).endStationOrders ix
          .suspended).deliveriesStationDown ix
      if (s.station ix).state = .online ∨ (s.station ix).state = .resync then t.latchPresence ix .down false else t := by
  simp only [State.takeOutOfUse, onStation_enter (next := .suspended) (by decide) (by decide), present_iff]

theorem resumeStation_eq {s : State} {ix : StationIx} (h : (s.station ix).state = .suspended) :
    s.resumeStation ix = ((s.onStation ix fun st => { st with state := .probing, missCount := 0 }).pollListJoined
      (s.station ix).line).selectWork (s.station ix).line := by
  have entered : (s.onStation ix fun st => st.enter .probing) = s.onStation ix fun st => { st with state := .probing, missCount := 0 } :=
    onStation_congr s ix _ _ (enter_probing_of_ne (by simp [h]))
  simp only [State.resumeStation, entered]

/-- Settles O37. -/
theorem stationSuspendResumeSet : Obligations.StationSuspendResumeSet := by
  intro tag line address s u l ix hl ⟨h1, h2, found⟩
  obtain ⟨-, onLine, -⟩ := findStation_some found
  refine ⟨?suspend, ?resume, fun c k => ?set⟩
  case suspend =>
    intro i taken
    obtain ⟨-, named⟩ := exec_withStation (i := i) rfl rfl taken rfl
    have answered := (named l hl h1 h2).2 ix found
    refine ⟨fun suspended => ?_, fun listed => ?_⟩
    · exact answered _ _ _ ((if_neg (by simp [suspended])).trans (by rw [suspendStation_suspended suspended]; rfl))
    · have other : (u.station ix).state ≠ .suspended ∧ (u.station ix).state ≠ .retiring := by
        constructor <;> intro h <;> simp [h] at listed
      exact answered _ _ _ ((if_neg other.2).trans (by rw [suspendStation_eq other.1, takeOutOfUse_eq, onLine]; rfl))
  case resume =>
    intro i taken suspended
    obtain ⟨-, named⟩ := exec_withStation (i := i) rfl rfl taken rfl
    exact (named l hl h1 h2).2 ix found _ _ _ ((if_neg (by simp [suspended])).trans (by rw [resumeStation_eq suspended, onLine]; rfl))
  case set =>
    intro i taken other
    obtain ⟨-, named⟩ := exec_withStation (i := i) rfl rfl taken (stationSetOwner_eq (pollClassOf_code c) (truthOf_truth k) line address u)
    exact (named l hl h1 h2).2 ix found _ _ _ (if_neg other)

/-! ### STATION REMOVE (R72, R73, R97, R113, R126, R146) -/

theorem stripStation_groups (s : State) (ix : StationIx) (g : GroupNo) :
    (s.stripStation ix).group g = (((s.endStationOrders ix .removed).group g).without ix) := by
  have left := leaveGroups_effect ix allGroups (s.endStationOrders ix .removed) g (List.nodup_finRange 16)
  rw [if_pos (show g ∈ allGroups from List.mem_finRange g)] at left
  have kept := freeWatches_groups ix allWatches ((s.endStationOrders ix .removed).leaveAllGroups ix)
  calc (s.stripStation ix).group g
      = (((s.endStationOrders ix .removed).leaveAllGroups ix).freeWatches ix).group g := by
        rw [State.stripStation, onStation_group, dropSource_group]
    _ = ((s.endStationOrders ix .removed).leaveAllGroups ix).group g := congrArg (fun gs : Vector Group 16 => gs[g]) kept
    _ = _ := left

theorem stripStation_watches (s : State) (ix : StationIx) (w : WatchNo) : ((s.stripStation ix).watch w).watches ix = false := by
  have freed := freeWatches_effect ix allWatches ((s.endStationOrders ix .removed).leaveAllGroups ix) w
    (.inl (show w ∈ allWatches from List.mem_finRange w))
  calc ((s.stripStation ix).watch w).watches ix
      = (((((s.endStationOrders ix .removed).leaveAllGroups ix).freeWatches ix)).watch w).watches ix := by
        rw [State.stripStation, onStation_watch, dropSource_watch]
    _ = false := freed

theorem stripStation_sources (s : State) (ix : StationIx) : Source.station ix ∉ (s.stripStation ix).sources := by
  simp [State.stripStation, State.dropSource]

/-- What a removal leaves of its entry, by whether a transaction is in flight. -/
theorem removeStation_eq (s : State) (ix : StationIx) :
    s.removeStation ix =
      if s.inFlight ix then (s.stripStation ix).onStation ix fun st =>
        { st with state := .retiring, collectDue := if st.state = .online then false else st.collectDue }
      else (s.stripStation ix).setStation ix Station.cleared := by
  rw [State.removeStation, onStation_enter (by decide) (by decide)]

theorem removeStation_tables (s : State) (ix : StationIx) :
    (s.removeStation ix).groups = (s.stripStation ix).groups ∧ (s.removeStation ix).watches = (s.stripStation ix).watches ∧
      (s.removeStation ix).sources = (s.stripStation ix).sources := by
  unfold State.removeStation
  split
  · exact ⟨onStation_groups _ ix _, onStation_watches _ ix _, onStation_sources _ ix _⟩
  · exact ⟨setStation_groups _ ix _, setStation_watches _ ix _, setStation_sources _ ix _⟩

/-- Settles O36. -/
theorem stationRemoved : Obligations.StationRemoved := by
  intro tag line address s u l ix i taken hl ⟨h1, h2, found⟩ standing left freed bare t
  obtain ⟨-, onLine, -⟩ := findStation_some found
  obtain ⟨-, named⟩ := exec_withStation (i := i) rfl rfl taken rfl
  have hleft : left = (u.endStationOrders ix .removed).leaveAllGroups ix := rfl
  have hfreed : freed = left.freeWatches ix := rfl
  have hbare : bare = u.stripStation ix := by rw [State.stripStation, ← hleft, ← hfreed]; rfl
  have removed : t = (u.removeStation ix).selectWork l := by rw [removeStation_eq, ← hbare]
  obtain ⟨stations, groups, watches, sources⟩ := unmoved_selectWork (u.removeStation ix) l
  obtain ⟨groups', watches', sources'⟩ := removeStation_tables u ix
  have entry : t.station ix = (u.removeStation ix).station ix := by rw [removed]; exact congrArg (·[ix]) stations
  refine ⟨?answer, fun idle => ?cleared, fun busy => ?retiring, fun g m mem => ?members, fun w => ?watches, ?sources⟩
  case answer =>
    refine (named l hl h1 h2).2 ix found _ _ _ ((if_neg standing).trans ?_)
    rw [removed, onLine]
    cases u.inFlight ix <;> rfl
  case cleared => rw [entry, removeStation_eq, if_neg (by simp [idle])]; simp
  case retiring =>
    rw [entry, removeStation_eq, if_pos busy, state_onStation]
    simp only [stripStation_latch, and_self]
  case members =>
    have kept : t.group g = (u.stripStation ix).group g := by
      rw [removed]; exact congrArg (fun gs : Vector Group 16 => gs[g]) (groups.trans groups')
    rw [kept, stripStation_groups] at mem
    simpa [Group.without] using (List.mem_filter.mp mem).2
  case watches =>
    have kept : t.watch w = (u.stripStation ix).watch w := by
      rw [removed]; exact congrArg (fun ws : Vector Watch 32 => ws[w]) (watches.trans watches')
    rw [kept]; exact stripStation_watches u ix w
  case sources =>
    rw [removed, sources.trans sources']; exact stripStation_sources u ix

/-! ### A result reaches its station (R60 to R62, R73) -/

theorem setStation_setStation (s : State) (ix : StationIx) (a b : Station) : (s.setStation ix a).setStation ix b = s.setStation ix b := by
  simp [State.setStation]

theorem onStation_setStation (s : State) (ix : StationIx) (st : Station) (f : Station → Station) :
    (s.setStation ix st).onStation ix f = s.setStation ix (f st) := by
  simp [State.onStation, setStation_setStation]

theorem stationResult_live {s : State} {ix : StationIx} (h : (s.station ix).state ∈ [StationState.probing, .online, .resync, .missing])
    (r : TxResult) :
    s.stationResult ix r =
      let st := (s.station ix).afterResult r
      if r.unanswered && (s.engine st.line).params.missLimit.toNat ≤ st.missCount && st.state.canMiss then
        (s.setStation ix st).becomeMissing ix
      else (s.setStation ix st).applyResult ix r := by
  have taken : (s.onStation ix fun st => st.afterResult r) = s.setStation ix ((s.station ix).afterResult r) := rfl
  have entry : (s.setStation ix ((s.station ix).afterResult r)).station ix = (s.station ix).afterResult r := by simp
  unfold State.stationResult
  split
  next free => simp [free] at h
  next suspended => simp [suspended] at h
  next retiring => simp [retiring] at h
  next => simp only [taken, entry, setStation_engine]

theorem becomeMissing_setStation (s : State) (ix : StationIx) (st : Station) :
    (s.setStation ix st).becomeMissing ix =
      let t := ((s.setStation ix
        { st with state := .missing, collectDue := if st.state = .online then false else st.collectDue }).endStationOrders ix
          .stationDown).deliveriesStationDown ix
      if st.state = .online ∨ st.state = .resync then t.latchPresence ix .down false else t := by
  have entry : (s.setStation ix st).station ix = st := by simp
  simp only [State.becomeMissing, onStation_enter (next := .missing) (by decide) (by decide), entry, onStation_setStation, present_iff]

/-- The miss count and the last heard time after a result (R61). -/
theorem afterResult_eq {st after : Station} {r : TxResult} (heard : r.heard = true → after = { st with missCount := 0, lastHeard := r.lastHeard })
    (missed : r.heard = false → r.unanswered = true → after = { st with missCount := min (st.missCount + 1) 15 })
    (uncounted : r.heard = false → r.unanswered = false → after = st) : st.afterResult r = after := by
  unfold Station.afterResult
  cases h : r.heard with
  | true => exact (heard h).symm
  | false =>
    cases k : r.unanswered with
    | true => exact (missed h k).symm
    | false => exact (uncounted h k).symm

theorem canMiss_iff {n : StationState} (h : n ∈ [StationState.probing, .online, .resync, .missing]) : n.canMiss = true ↔ n ≠ .missing := by
  cases n <;> revert h <;> decide

/-- Settles O38. -/
theorem missesCounted : Obligations.MissesCounted := by
  intro s ix r
  refine ⟨fun gone => ?_, fun retiring => ?_, fun live st heard missed uncounted => ?_⟩
  · obtain free | suspended := gone
    · simp only [State.stationResult, free]
    · simp only [State.stationResult, suspended]
  · simp only [State.stationResult, retiring]
  · intro misses
    have after : (s.station ix).afterResult r = st := afterResult_eq heard missed uncounted
    have state : st.state = (s.station ix).state := after ▸ (afterResult_same (s.station ix) r).2.2.2
    have rule : s.stationResult ix r = if misses then (s.setStation ix st).becomeMissing ix else (s.setStation ix st).applyResult ix r := by
      rw [stationResult_live live, after]
      refine if_congr ?_ rfl rfl
      simp only [Bool.and_eq_true, decide_eq_true_eq, canMiss_iff (state ▸ live), and_assoc, misses]
    refine ⟨fun h => ?_, fun h => by rw [rule, if_neg h]⟩
    rw [rule, if_pos h, becomeMissing_setStation]
    exact ⟨fun probing => if_neg (by simp [probing]), fun present => if_pos present⟩

/-! ### What a result changes in its entry (R63 to R67, R57) -/

/-- A result that is no STATUS of a poll, no ACK of a CLEAR or a SEND and no DATA of a FETCH changes its entry by the rule for doubt alone. -/
theorem applyResult_of_other {s : State} {ix : StationIx} {r : TxResult}
    (poll : r.kind = .poll → ∀ word d t, r.outcome ≠ .good (.status word d t)) (clear : r.kind = .clear → ∀ b, r.outcome ≠ .good (.ack b))
    (send : r.kind = .send → ∀ b, r.outcome ≠ .good (.ack b)) (fetch : r.kind = .fetch → ∀ b p, r.outcome ≠ .good (.data b p)) :
    s.applyResult ix r =
      if r.inDoubt && (s.station ix).state = .online then
        s.onStation ix fun st => { st.enter .resync with resyncCause := some .doubt }
      else s := by
  unfold State.applyResult
  split
  next k o => exact absurd o (poll k _ _ _)
  next k o => exact absurd o (clear k _)
  next k o => exact absurd o (send k _)
  next k o => exact absurd o (fetch k _ _)
  next => rfl

/-- In doubt: a SEND wholly sent at least once that ended with no verdict (R66). -/
theorem inDoubt_iff (r : TxResult) :
    r.inDoubt = true ↔ r.kind = .send ∧ 0 < r.whollySent ∧
      (r.outcome = .noReply ∨ r.outcome = .aborted ∨ ∃ cause, r.outcome = .corrupt cause) := by
  cases h : r.outcome <;> simp [TxResult.inDoubt, h]

theorem enter_resync_online {st : Station} (h : st.state = .online) (cause : ResyncCause) :
    ({ st.enter .resync with resyncCause := some cause } : Station) =
      { st with state := .resync, collectDue := false, resyncCause := some cause } := by
  simp [Station.enter, h]

theorem hasActiveMembership_iff (s : State) (ix : StationIx) :
    s.hasActiveMembership ix = true ↔ ∃ g : GroupNo, ∃ m ∈ (s.group g).members, m.station.index = ix ∧ m.state = .active := by
  simp only [State.hasActiveMembership, List.any_eq_true, Bool.and_eq_true, decide_eq_true_eq]
  exact ⟨fun ⟨g, _, m, h⟩ => ⟨g, m, h⟩, fun ⟨g, m, h⟩ => ⟨g, List.mem_finRange g, m, h⟩⟩

/-- What a CLEAR's ACK makes of its station, by the presence it latches (R67). -/
theorem clearAcknowledged_eq (s : State) (ix : StationIx) :
    s.clearAcknowledged ix =
      let t := ((s.onStation ix fun st => { st with sendBit := false, fetchBit := false }).lapse ix).onStation ix fun st =>
        { st with state := .online, missCount := 0, lastStatus := none }
      let u := match clearPresence (s.station ix) (s.hasActiveMembership ix) with
        | some restarted => t.latchPresence ix .up restarted
        | none => t
      u.onStation ix fun st => { st with resyncCause := none } := by
  simp only [State.clearAcknowledged, enter_online] <;> rfl

theorem applyResult_clear {s : State} {ix : StationIx} {r : TxResult} {b : Bool} (kind : r.kind = .clear) (ack : r.outcome = .good (.ack b)) :
    s.applyResult ix r = s.clearAcknowledged ix := by
  simp only [State.applyResult, kind, ack]

theorem clearPresence_down {st : Station} (h : st.state = .probing ∨ st.state = .missing) (lapsed : Bool) :
    clearPresence st lapsed = some (decide (st.resyncCause = some .restart)) := by
  obtain h | h := h <;> (unfold clearPresence; rw [h]; cases st.resyncCause with
    | none => rfl
    | some cause => cases cause <;> rfl)

/-- Settles O39. -/
theorem resultsTaken : Obligations.ResultsTaken := by
  refine ⟨fun s ix r => ⟨fun b kind ack => ?sendAck, fun b p kind data => ?fetchData, fun kind sent online doubt => ?doubt,
    fun word dataWaiting restarted kind status online => ?status, fun kind => ?otherKind, fun notGood kind => ?notGood,
    fun kind listed => ?settled, fun kind empty => ?empty⟩, fun s ix r b kind ack => ?clear⟩
  case sendAck => simp only [State.applyResult, kind, ack]
  case fetchData => simp only [State.applyResult, kind, data]
  case doubt =>
    have unacknowledged : ∀ reply, r.outcome ≠ .good reply := by
      intro reply good
      simp [good] at doubt
    rw [applyResult_of_other (by simp [kind]) (by simp [kind]) (fun _ b => unacknowledged _) (by simp [kind]),
      if_pos (by rw [(inDoubt_iff r).2 ⟨kind, sent, doubt⟩]; simp [online])]
    exact onStation_congr s ix _ _ (enter_resync_online online .doubt)
  case status =>
    intro before
    have restart : (s.onStation ix fun st => { st.enter .resync with resyncCause := some .restart }) =
        s.onStation ix fun st => { st with state := .resync, collectDue := false, resyncCause := some .restart } :=
      onStation_congr s ix _ _ (enter_resync_online online .restart)
    simp only [State.applyResult, kind, status, online, if_true, State.takeStatus, State.stationRestarted, restart, before]
  case otherKind =>
    simp only [List.mem_cons, List.not_mem_nil, or_false, not_or] at kind
    obtain ⟨poll, clear, send, fetch⟩ := kind
    rw [applyResult_of_other (fun k => absurd k poll) (fun k => absurd k clear) (fun k => absurd k send) (fun k => absurd k fetch),
      if_neg (by simp [inDoubt_iff, send])]
  case notGood =>
    rw [applyResult_of_other (fun _ _ _ _ => notGood _) (fun _ _ => notGood _) (fun _ _ => notGood _) (fun _ _ _ => notGood _),
      if_neg (by simp [inDoubt_iff, kind])]
  case settled =>
    simp only [List.mem_cons, List.not_mem_nil, or_false] at listed
    rw [applyResult_of_other (by simp [kind]) (by simp [kind]) (fun _ b ack => by simp [ack] at listed) (by simp [kind]), if_neg]
    obtain h | h | h | h := listed <;> simp [inDoubt_iff, h]
  case empty =>
    rw [applyResult_of_other (by simp [kind]) (by simp [kind]) (by simp [kind]) (by simp [empty]), if_neg (by simp [inDoubt_iff, kind])]
  case clear =>
    intro before t settle lapses
    have cleared : s.applyResult ix r = settle (match clearPresence before (s.hasActiveMembership ix) with
        | some restarted => t.latchPresence ix .up restarted
        | none => t) := (applyResult_clear kind ack).trans (clearAcknowledged_eq s ix)
    refine ⟨fun down => ?_, fun resync restart => ?_, fun resync doubt lapse => ?_, fun resync doubt none' => ?_⟩
    · rw [cleared, clearPresence_down down]
    · have presence : clearPresence before (s.hasActiveMembership ix) = some true := by simp only [clearPresence, resync, restart]
      rw [cleared, presence]
    · have presence : clearPresence before (s.hasActiveMembership ix) = some false := by
        simp only [clearPresence, resync, doubt, (hasActiveMembership_iff s ix).2 lapse, if_true]
      rw [cleared, presence]
    · have unlapsed : s.hasActiveMembership ix = false := by
        rw [← Bool.not_eq_true, hasActiveMembership_iff]; exact none'
      have presence : clearPresence before (s.hasActiveMembership ix) = none := by
        simp only [clearPresence, resync, doubt, unlapsed, Bool.false_eq_true, if_false]
      rw [cleared, presence]

end Machine

end Sys2Proof

/-! ## Orders (O40 to O44) -/

namespace Sys2Proof

namespace Machine

/-! ### Acceptance (R81, R83, R85 to R87) -/

/-- Every check on an order for a station, in its order (R85). -/
theorem orderRefusal_eq (s : State) (ix : StationIx) (blocks : Nat) :
    s.orderRefusal ix blocks = (s.stationRefusal ix).or (s.resourceRefusal 1 blocks) := by
  unfold State.orderRefusal
  cases s.stationRefusal ix <;> rfl

theorem orderRefusal_of_found {s : State} {l : LineNo} {a : Octet} {ix : StationIx} (found : s.findStation l a = some ix) (blocks : Nat) :
    s.orderRefusal ix blocks =
      if (s.station ix).state = .suspended ∨ (s.station ix).state = .retiring then some .state
      else if (s.station ix).state = .missing then some .stationDown
      else if (s.engine l).state = .off ∨ (s.engine l).state = .stopping then some .lineOff
      else if 40 ≤ s.orders.length then some .noRecord
      else if s.freeBlocks.length < blocks then some .noBuffer
      else if 40 ≤ s.slotsInUse then some .reportFull
      else none := by
  rw [orderRefusal_eq, stationRefusal_eq found, resourceRefusal_eq]
  split_ifs <;> rfl

/-- What SEND and FETCH answer once their formats are right. -/
def orderOwner (line address priority : Octet) (kind : OrderKind) (data : List Octet) (needed : Nat) (u : State) : State × Answer :=
  match priorityOf priority with
  | none => (u, refuse .badValue)
  | some p => u.withStation line address fun ix => u.takeHostOrder ix kind p data needed

theorem sendOwner_eq {n : Octet} {payload : List Octet} (agree : payload.length = n.toNat) (limit : n.toNat ≤ 120)
    (line address priority : Octet) (u : State) :
    sendOwner (line :: address :: priority :: 0 :: n :: payload) u =
      orderOwner line address priority .send payload ((payload.length + 31) / 32) u := by
  have below : ¬ 120 < n.toNat := Nat.not_lt.mpr limit
  simp only [sendOwner, orderOwner, agree, below, bne_self_eq_false, Bool.or_self, Bool.false_eq_true, if_false, blocksFor] <;> rfl

theorem fetchOwner_eq (line address priority : Octet) (u : State) :
    fetchOwner [line, address, priority, 0] u = orderOwner line address priority .fetch [] 4 u := by
  simp only [fetchOwner, orderOwner, bne_self_eq_false, Bool.false_eq_true, if_false] <;> rfl

/-- An order accepted (R86, R87): what the act of acceptance makes, and the engine told of it. -/
theorem takeHostOrder_accepted {u : State} {l : LineNo} {address : Octet} {ix : StationIx} (found : u.findStation l address = some ix)
    {needed : Nat} (accepted : u.orderRefusal ix needed = none) (kind : OrderKind) (p : Priority) (data : List Octet) :
    u.takeHostOrder ix kind p data needed =
      (({ u with
        orderCounter := nextNumber u.numberToGive
        reserved := u.reserved + 1
        pool := writePayload u.pool (u.freeBlocks.take needed) data
        orders := u.orders ++
          [{ number := u.numberToGive, kind := kind, source := .host, priority := p, line := l
             station := some { index := ix, line := l, address := address }, group := none, state := .queued
             cancelFlag := false, length := data.length, blocks := u.freeBlocks.take needed, nextStep := .groupData
             passStep := none }] } : State).selectWork l, accept (wordOctets u.numberToGive)) := by
  obtain ⟨-, onLine, -⟩ := findStation_some found
  simp only [State.takeHostOrder, accepted, State.acceptOrder, State.hostOrder, stationRef_eq found, onLine]

theorem takeHostOrder_refused {u : State} {ix : StationIx} {needed : Nat} {code : ResultCode} (refused : u.orderRefusal ix needed = some code)
    (kind : OrderKind) (p : Priority) (data : List Octet) : u.takeHostOrder ix kind p data needed = (u, refuse code) := by
  simp only [State.takeHostOrder, refused]

/-- Settles O40. -/
theorem orderChecksAndAcceptance : Obligations.OrderChecksAndAcceptance := by
  intro tag line address priority n payload data i kind needed s u request taken
  obtain ⟨f, owner, served, hf, judged⟩ : ∃ f owner, exec i s = .next (s.serve f owner) ∧ i.frame = some f ∧
      owner u = orderOwner line address priority kind data needed u := by
    obtain ⟨rfl, agree, limit, rfl, rfl, rfl⟩ | ⟨rfl, rfl, rfl, rfl⟩ := request
    · exact ⟨_, _, rfl, rfl, sendOwner_eq agree limit line address priority u⟩
    · exact ⟨_, _, rfl, rfl, fetchOwner_eq line address priority u⟩
  have byPriority (p : Priority) (hp : priorityOf priority = some p) := exec_withStation served hf taken
    (judged.trans (by simp only [orderOwner, hp] : _ = u.withStation line address fun ix => u.takeHostOrder ix kind p data needed))
  refine ⟨fun bad => ?_, fun l p hp hl h1 h2 => ⟨?_, fun ix found => ?_⟩⟩
  · cases hp : priorityOf priority with
    | none => exact exec_eq_refused served hf taken (judged.trans (by simp only [orderOwner, hp]))
    | some p =>
      refine (byPriority p hp).1 (bad.resolve_left fun high => ?_)
      simp [priorityOf_none priority high] at hp
  · exact ((byPriority p (hp ▸ priorityOf_code p)).2 l hl h1 h2).1
  · intro refusal
    have named := ((byPriority p (hp ▸ priorityOf_code p)).2 l hl h1 h2).2 ix found
    have checks : u.orderRefusal ix needed = refusal := orderRefusal_of_found found needed
    exact ⟨fun code refused => named _ _ _ (takeHostOrder_refused (checks.trans refused) kind p data),
      fun accepted => named _ _ _ (takeHostOrder_accepted found (checks.trans accepted) kind p data)⟩

/-! ### Blocks and payloads (R151 to R153) -/

theorem pairwise_freeBlocks (s : State) : s.freeBlocks.Pairwise (· < ·) :=
  List.pairwise_lt_range.sublist List.filter_sublist

theorem freeBlocks_add_heldBlocks {s : State} (h : s.BlocksAccounted) : s.freeBlocks.length + s.heldBlocks.length = 160 := by
  obtain ⟨distinct, inPool⟩ := h
  have held : s.heldBlocks.Perm ((List.range 160).filter fun b => s.heldBlocks.contains b) := by
    refine (List.perm_ext_iff_of_nodup distinct (List.nodup_range.filter _)).2 fun b => ?_
    simp only [List.mem_filter, List.mem_range, List.contains_iff_mem]
    exact ⟨fun mem => ⟨inPool b mem, mem⟩, fun mem => mem.2⟩
  have total := List.length_eq_length_filter_add (l := List.range 160) fun b => s.heldBlocks.contains b
  rw [List.length_range, ← held.length_eq] at total
  have free : s.freeBlocks.length = ((List.range 160).filter fun b => !s.heldBlocks.contains b).length := rfl
  omega

theorem readOctet_writePayload_other {m : Memory} {blocks : List Nat} {payload : List Octet} {a : Nat} (hm : m.wf = true)
    (h : a ∉ (blockAddresses blocks).take payload.length) : readOctet (writePayload m blocks payload) a = readOctet m a :=
  readOctet_foldl_other _ m a hm (by rwa [map_fst_zip])

theorem blockAddresses_cons (b : Nat) (rest : List Nat) :
    blockAddresses (b :: rest) = (List.range 32).map (fun k => 32 * b + k) ++ blockAddresses rest := rfl

theorem getElem?_blockAddresses : ∀ (blocks : List Nat) (k : Nat), k < 32 * blocks.length →
    (blockAddresses blocks)[k]? = (blocks[k / 32]?).map fun b => 32 * b + k % 32
  | [], k, h => by simp at h
  | b :: rest, k, h => by
    rw [blockAddresses_cons]
    by_cases first : k < 32
    · rw [List.getElem?_append_left (by simpa using first), Nat.div_eq_of_lt first, Nat.mod_eq_of_lt first]
      simp [first]
    · have next : k / 32 = (k - 32) / 32 + 1 := by omega
      have within : (k - 32) % 32 = k % 32 := by omega
      rw [List.getElem?_append_right (by simpa using first), List.length_map, List.length_range,
        getElem?_blockAddresses rest (k - 32) (by simp only [List.length_cons] at h; omega), next, within, List.getElem?_cons_succ]

/-- Settles O41. -/
theorem payloadStoredInBlocks : Obligations.PayloadStoredInBlocks :=
  ⟨mem_freeBlocks, pairwise_freeBlocks, fun _ => freeBlocks_add_heldBlocks, fun _ _ _ _ => readOctet_writePayload_other,
    readPayload_writePayload, getElem?_blockAddresses⟩

/-! ### Numbers (R81) -/

/-- With at most 44 numbers in use, one of the first 45 from a number on is free. -/
theorem exists_number_free {used : List Word} (few : used.length ≤ 44) {n : Word} (h : n ≠ 0) : ∃ k, k < 45 ∧ nextNumber^[k] n ∉ used := by
  by_contra none'
  push Not at none'
  have distinct : ((List.range 45).map fun k => nextNumber^[k] n).Nodup := by
    refine List.nodup_range.map_on fun i hi j hj same => ?_
    rw [List.mem_range] at hi hj
    exact next_iter_inj n h i j (by omega) (by omega) same
  have inUse : ((List.range 45).map fun k => nextNumber^[k] n) ⊆ used := by
    intro m mem
    obtain ⟨k, hk, rfl⟩ := List.mem_map.mp mem
    exact none' k (List.mem_range.mp hk)
  have := (distinct.subperm inUse).length_le
  simp only [List.length_map, List.length_range] at this
  omega

theorem numbersInUse_length {s : State} (h : s.RecordsBounded) : s.numbersInUse.length ≤ 44 := by
  obtain ⟨orders, deliveries⟩ := h
  simp only [Config.orderRecords, Config.deliveryRecords] at orders deliveries
  simp only [State.numbersInUse, List.length_append, List.length_map]
  omega

/-- Settles O42. -/
theorem numbersGiven : Obligations.NumbersGiven := by
  refine ⟨fun n => ⟨nextNumber_ne n, fun h => if_pos h, fun h => if_neg h⟩, fun s bounded counter => ?_⟩
  obtain ⟨nonzero, fresh⟩ := numberToGive_fresh s bounded counter
  obtain ⟨k, hk, found, -, ahead⟩ := search_spec s.numbersInUse 45 s.orderCounter (exists_number_free (numbersInUse_length bounded) counter)
  exact ⟨nonzero, fresh, k, by omega, found, ahead⟩

/-! ### CANCEL (R82, R100, R101, R131, R132) -/

theorem findOrder_some {s : State} {n : Word} {r : OrderRecord} (h : s.findOrder n = some r) :
    r ∈ s.orders ∧ r.number = n ∧ r.kind ≠ .groupPass := by
  refine ⟨List.mem_of_find?_eq_some h, ?_⟩
  simpa [OrderRecord.named] using List.find?_some h

theorem findDelivery_some {s : State} {n : Word} {d : Delivery} (h : s.findDelivery n = some d) : d ∈ s.deliveries ∧ d.number = n :=
  ⟨List.mem_of_find?_eq_some h, by simpa using List.find?_some h⟩

theorem cancelOwner_order {u : State} {high low : Octet} {r : OrderRecord} (h : u.findOrder (wordOf high low) = some r) :
    cancelOwner [high, low] u = u.cancelOrder r := by
  simp only [cancelOwner, h]

theorem cancelOwner_delivery {u : State} {high low : Octet} {d : Delivery} (none' : u.findOrder (wordOf high low) = none)
    (h : u.findDelivery (wordOf high low) = some d) : cancelOwner [high, low] u = u.cancelNumberedDelivery d := by
  simp only [cancelOwner, none', h]

theorem cancelOrder_queued {s : State} {r : OrderRecord} (h : r.state = .queued) :
    s.cancelOrder r = ((s.completeOrder r.number (.unsent .cancelled)).selectWork r.line, accept [r.kind.code, 1]) := if_pos h

theorem cancelOrder_onDrop {s : State} {r : OrderRecord} (h : r.state ≠ .queued)
    (onDrop : (s.engine r.line).state = .sending ∨ (s.engine r.line).state = .awaiting) :
    s.cancelOrder r = (s.updateOrder r.number fun r => { r with cancelFlag := true }, accept [r.kind.code, 2]) := by
  rw [State.cancelOrder, if_neg h, if_pos (by simpa using onDrop)]; rfl

theorem cancelOrder_atOnce {s t : State} {r : OrderRecord} (h : r.state ≠ .queued)
    (onDrop : ¬ ((s.engine r.line).state = .sending ∨ (s.engine r.line).state = .awaiting))
    (stopped : s.onEngine r.line LineEngine.cancelledAtOnce = t) :
    s.cancelOrder r = ((t.endTransaction r.line .cancelled false false).selectWork r.line, accept [r.kind.code, 1]) := by
  rw [State.cancelOrder, if_neg h, if_neg (by simpa using onDrop), stopped]; rfl

/-- Settles O43. -/
theorem cancelByState : Obligations.CancelByState := by
  intro tag high low s u i n taken
  refine ⟨fun order delivery => ?_, fun r found => ?_, fun d order found => ?_⟩
  · exact exec_eq_refused rfl rfl taken (by simp only [cancelOwner]; rw [order, delivery])
  · have answered (v : State) (data : List Octet) (h : u.cancelOrder r = (v, accept data)) : exec i s = .next (v.answering i .ok data) :=
      exec_eq_answering_of_changed rfl rfl taken ((cancelOwner_order found).trans h)
    obtain ⟨-, number, -⟩ := findOrder_some found
    refine ⟨fun queued => ?_, fun active onDrop => ?_, fun active backoff => ?_, fun active listed => ?_⟩
    · exact answered _ _ (number ▸ cancelOrder_queued queued)
    · exact answered _ _ (number ▸ cancelOrder_onDrop (by simp [active]) onDrop)
    · exact answered _ _ (cancelOrder_atOnce (by simp [active]) (by simp [backoff]) (onEngine_congr u r.line _ _ (if_pos backoff)))
    · simp only [List.mem_cons, List.not_mem_nil, or_false] at listed
      have onDrop : ¬ ((u.engine r.line).state = .sending ∨ (u.engine r.line).state = .awaiting) := by
        obtain h | h | h := listed <;> simp [h]
      have backoff : (u.engine r.line).state ≠ .backoff := by obtain h | h | h := listed <;> simp [h]
      exact answered _ _ (cancelOrder_atOnce (by simp [active]) onDrop (onEngine_id u r.line _ (if_neg backoff)))
  · obtain ⟨-, number⟩ := findDelivery_some found
    have judged := cancelOwner_delivery order found
    refine ⟨fun cancelling => ?_, fun running => ?_⟩
    · exact exec_eq_answering rfl rfl taken (judged.trans (if_pos cancelling))
    · refine exec_eq_answering_of_changed rfl rfl taken (judged.trans ((if_neg (by simp [running])).trans ?_))
      rw [number, State.selectAll]
      cases u.anyStep n <;> rfl

/-! ### Completion (R90, R91, R93 to R95) -/

theorem handOff_reports (s : State) (r : OrderRecord) (o : OrderOutcome) : (s.handOff r o).reports = s.reports := by
  have join (g : GroupNo) (ix : StationIx) : (s.joinCompleted g ix o).reports = s.reports := by
    unfold State.joinCompleted; split <;> rfl
  have leave (g : GroupNo) (ix : StationIx) : (s.leaveCompleted g ix).reports = s.reports := by
    unfold State.leaveCompleted; split <;> rfl
  have collect (st : StationRef) : (s.collectDone st).reports = s.reports := by
    unfold State.collectDone; split <;> rfl
  unfold State.handOff
  split
  · exact join _ _
  · exact leave _ _
  · split
    · exact collect _
    · rfl
  · rfl

/-- An order's completion, with the blocks its slot keeps and the octets in them. -/
theorem completeOrder_eq {s : State} {n : Word} {r : OrderRecord} {c : Completion} {kept : List Nat} {length : Nat}
    (found : s.findOrder n = some r)
    (hkept : (if c.outcome = OrderOutcome.data then r.blocks.take (blocksFor c.payload.length) else []) = kept)
    (hlength : (if c.outcome = OrderOutcome.data then c.payload.length else 0) = length) :
    s.completeOrder n c =
      let u := s.handOff { r with state := .done } c.outcome
      { u with
        orders := u.orders.eraseP fun r => r.named n
        pool := writePayload u.pool kept c.payload
        reserved := u.reserved - 1
        reportCounter := u.reportCounter + 1
        reports := u.reports ++
          [{ number := u.reportCounter, blocks := kept, length := length, sent := false
             items := .orderDone
              { number := r.number, kind := r.kind, source := r.source, station := r.station, group := r.group
                outcome := c.outcome, attempts := c.attempts, uncertain := c.uncertain, lateCancel := c.lateCancel
                time := s.partTime } }] } := by
  simp only [State.completeOrder, found, hkept, hlength]
  rfl

theorem writePayload_nil (m : Memory) (payload : List Octet) : writePayload m [] payload = m := by
  simp [writePayload, blockAddresses]

theorem completeOrder_orders {s : State} {n : Word} {r : OrderRecord} (found : s.findOrder n = some r) (c : Completion) :
    (s.completeOrder n c).orders = s.orders.eraseP (fun r => r.named n) ∧
      (s.completeOrder n c).reports.length = s.reports.length + 1 := by
  rw [completeOrder_eq found rfl rfl]
  simp [handOff_orders, handOff_reports]

/-! ### Orders ended in their queues (R97) -/

theorem eraseP_eq_filter {α : Type} {p : α → Bool} : ∀ {l : List α}, l.Pairwise (fun a b => ¬ (p a = true ∧ p b = true)) →
    l.eraseP p = l.filter fun a => !p a
  | [], _ => rfl
  | a :: rest, h => by
    obtain ⟨first, distinct⟩ := List.pairwise_cons.mp h
    by_cases ha : p a = true
    · have others : rest.filter (fun b => !p b) = rest :=
        List.filter_eq_self.mpr fun b mem => by simpa using fun hb => first b mem ⟨ha, hb⟩
      rw [List.eraseP_cons_of_pos ha, List.filter_cons_of_neg (by simp [ha]), others]
    · rw [List.eraseP_cons_of_neg ha, List.filter_cons_of_pos (by simpa using ha), eraseP_eq_filter distinct]

theorem named_iff (r : OrderRecord) (n : Word) : r.named n = true ↔ r.number = n ∧ r.kind ≠ .groupPass := by
  simp [OrderRecord.named]

/-- Orders are told apart by their numbers. -/
theorem order_eq_of_number {s : State} (distinct : s.orderNumbers.Nodup) {q r : OrderRecord} (hq : q ∈ s.orders) (hr : r ∈ s.orders)
    (kq : q.kind ≠ .groupPass) (kr : r.kind ≠ .groupPass) (same : q.number = r.number) : q = r :=
  List.inj_on_of_nodup_map distinct (List.mem_filter.mpr ⟨hq, by simpa using kq⟩) (List.mem_filter.mpr ⟨hr, by simpa using kr⟩) same

theorem findOrder_of_mem {s : State} (distinct : s.orderNumbers.Nodup) {r : OrderRecord} (mem : r ∈ s.orders) (order : r.kind ≠ .groupPass) :
    s.findOrder r.number = some r := by
  cases found : s.findOrder r.number with
  | none => exact absurd ((named_iff r r.number).2 ⟨rfl, order⟩) (List.find?_eq_none.mp found r mem)
  | some q =>
    obtain ⟨hq, number, kind⟩ := findOrder_some found
    rw [order_eq_of_number distinct hq mem kind order number]

theorem eraseP_named {s : State} (distinct : s.orderNumbers.Nodup) (n : Word) :
    (s.orders.eraseP fun r => r.named n) = s.orders.filter fun r => !r.named n := by
  refine eraseP_eq_filter ?_
  have apart : (s.orders.filter fun r => r.kind != .groupPass).Pairwise fun a b => a.number ≠ b.number := List.pairwise_map.mp distinct
  rw [List.pairwise_filter] at apart
  refine apart.imp fun {a b} h ⟨ha, hb⟩ => ?_
  obtain ⟨na, ka⟩ := (named_iff a n).1 ha
  obtain ⟨nb, kb⟩ := (named_iff b n).1 hb
  exact h (by simpa using ka) (by simpa using kb) (na.trans nb.symm)

/-- Orders completed one after the other: their records go, and each leaves a report. -/
theorem foldl_completeOrder (o : OrderOutcome) : ∀ (ended : List OrderRecord) (s : State), s.orderNumbers.Nodup →
    (∀ r ∈ ended, r ∈ s.orders ∧ r.kind ≠ .groupPass) → (ended.map OrderRecord.number).Nodup →
    (ended.foldl (fun t r => t.completeOrder r.number (.unsent o)) s).orders =
        s.orders.filter (fun q => !ended.any fun r => q.named r.number) ∧
      (ended.foldl (fun t r => t.completeOrder r.number (.unsent o)) s).reports.length = s.reports.length + ended.length
  | [], s, _, _, _ => by simp
  | r :: rest, s, distinct, listed, apart => by
    obtain ⟨mem, order⟩ := listed r List.mem_cons_self
    obtain ⟨erased, reported⟩ := completeOrder_orders (findOrder_of_mem distinct mem order) (.unsent o)
    rw [eraseP_named distinct] at erased
    rw [List.map_cons, List.nodup_cons] at apart
    obtain ⟨notAgain, apart⟩ := apart
    have distinct' : (s.completeOrder r.number (.unsent o)).orderNumbers.Nodup := by
      unfold State.orderNumbers
      rw [erased]
      exact distinct.sublist ((List.filter_sublist.filter _).map _)
    have listed' : ∀ q ∈ rest, q ∈ (s.completeOrder r.number (.unsent o)).orders ∧ q.kind ≠ .groupPass := by
      intro q hq
      obtain ⟨hs, kind⟩ := listed q (List.mem_cons_of_mem _ hq)
      refine ⟨erased ▸ List.mem_filter.mpr ⟨hs, ?_⟩, kind⟩
      have other : q.number ≠ r.number := fun same => notAgain (same ▸ List.mem_map.mpr ⟨q, hq, rfl⟩)
      simp [OrderRecord.named, other]
    obtain ⟨orders, reports⟩ := foldl_completeOrder o rest _ distinct' listed' apart
    refine ⟨?_, ?_⟩
    · rw [List.foldl_cons, orders, erased, List.filter_filter]
      simp only [List.any_cons, Bool.not_or, Bool.and_comm]
    · rw [List.foldl_cons, reports, reported, List.length_cons]
      omega

/-- The queued orders of a station on its line (R83, R97). -/
def State.queuedOrder (s : State) (ix : StationIx) (r : OrderRecord) : Bool :=
  r.kind != .groupPass && r.state = .queued && r.line = (s.station ix).line && r.station.any fun st => st.index = ix

/-- Those orders in the order they end in: the urgent queue, then the normal one (R97). -/
def State.ordersToEnd (s : State) (ix : StationIx) : List OrderRecord :=
  (s.orders.filter fun r => s.queuedOrder ix r && r.priority = .urgent) ++ s.orders.filter fun r => s.queuedOrder ix r && r.priority = .normal

theorem queuedFor_iff (r : OrderRecord) (ix : StationIx) :
    r.queuedFor ix = true ↔ r.kind ≠ .groupPass ∧ r.state = .queued ∧ (r.station.any fun st => st.index = ix) = true := by
  cases station : r.station <;> simp [OrderRecord.queuedFor, station, and_assoc]

theorem filter_queue (s : State) (ix : StationIx) (p : Priority) :
    ((s.queue (s.station ix).line p).filter fun r => r.queuedFor ix) = s.orders.filter fun r => s.queuedOrder ix r && r.priority = p := by
  rw [State.queue, List.filter_filter]
  refine List.filter_congr fun r _ => Bool.eq_iff_iff.mpr ?_
  simp only [State.queuedOrder, Bool.and_eq_true, queuedFor_iff, Bool.or_eq_true, decide_eq_true_eq, bne_iff_ne]
  constructor
  · rintro ⟨⟨kind, queued, station⟩, ⟨line, priority⟩, -⟩; exact ⟨⟨⟨⟨kind, queued⟩, line⟩, station⟩, priority⟩
  · rintro ⟨⟨⟨⟨kind, queued⟩, line⟩, station⟩, priority⟩; exact ⟨⟨kind, queued, station⟩, ⟨line, priority⟩, .inl queued⟩

theorem endStationOrders_eq (s : State) (ix : StationIx) (o : OrderOutcome) :
    s.endStationOrders ix o = (s.ordersToEnd ix).foldl (fun t r => t.completeOrder r.number (.unsent o)) s := by
  simp only [State.endStationOrders, List.filter_append, filter_queue, State.ordersToEnd]

theorem ordersToEnd_perm (s : State) (ix : StationIx) : (s.ordersToEnd ix).Perm (s.orders.filter (s.queuedOrder ix)) := by
  have split' := List.filter_append_perm (fun r : OrderRecord => decide (r.priority = .urgent)) (s.orders.filter (s.queuedOrder ix))
  rw [List.filter_filter, List.filter_filter] at split'
  have urgent (r : OrderRecord) : (decide (r.priority = .urgent) && s.queuedOrder ix r) = (s.queuedOrder ix r && decide (r.priority = .urgent)) :=
    Bool.and_comm _ _
  have normal (r : OrderRecord) : (!decide (r.priority = .urgent) && s.queuedOrder ix r) = (s.queuedOrder ix r && decide (r.priority = .normal)) := by
    rw [Bool.and_comm]; cases r.priority <;> rfl
  simpa only [urgent, normal, State.ordersToEnd] using split'

theorem mem_ordersToEnd {s : State} {ix : StationIx} {r : OrderRecord} : r ∈ s.ordersToEnd ix ↔ r ∈ s.orders ∧ s.queuedOrder ix r = true :=
  (ordersToEnd_perm s ix).mem_iff.trans List.mem_filter

theorem queuedOrder_kind {s : State} {ix : StationIx} {r : OrderRecord} (h : s.queuedOrder ix r = true) : r.kind ≠ .groupPass := by
  simp only [State.queuedOrder, Bool.and_eq_true, bne_iff_ne] at h
  exact h.1.1.1

/-- With numbers of their own, the orders that remain are those that were not queued for the station, and each that ended leaves a report. -/
theorem endStationOrders_effect {s : State} (distinct : s.orderNumbers.Nodup) (ix : StationIx) (o : OrderOutcome) :
    (s.endStationOrders ix o).orders = s.orders.filter (fun r => !s.queuedOrder ix r) ∧
      (s.endStationOrders ix o).reports.length = s.reports.length + (s.ordersToEnd ix).length := by
  have listed : ∀ r ∈ s.ordersToEnd ix, r ∈ s.orders ∧ r.kind ≠ .groupPass := fun r mem =>
    ⟨(mem_ordersToEnd.mp mem).1, queuedOrder_kind (mem_ordersToEnd.mp mem).2⟩
  have apart : ((s.ordersToEnd ix).map OrderRecord.number).Nodup := by
    refine ((ordersToEnd_perm s ix).map _).nodup_iff.mpr (distinct.sublist (List.Sublist.map _ ?_))
    refine List.monotone_filter_right s.orders fun r queued => ?_
    simpa using queuedOrder_kind queued
  obtain ⟨orders, reports⟩ := foldl_completeOrder o (s.ordersToEnd ix) s distinct listed apart
  rw [endStationOrders_eq]
  refine ⟨orders.trans (List.filter_congr fun q hq => ?_), reports⟩
  congr 1
  rw [Bool.eq_iff_iff, List.any_eq_true]
  constructor
  · rintro ⟨r, mem, same⟩
    obtain ⟨number, kind⟩ := (named_iff q r.number).1 same
    obtain ⟨hr, order⟩ := listed r mem
    rw [order_eq_of_number distinct hq hr kind order number]
    exact (mem_ordersToEnd.mp mem).2
  · intro queued
    exact ⟨q, mem_ordersToEnd.mpr ⟨hq, queued⟩, (named_iff q q.number).2 ⟨rfl, queuedOrder_kind queued⟩⟩

/-! ### Results of orders (R90, R95) -/

theorem uncertainFlag_eq_true (kind : TxKind) (o : OrderOutcome) (whollySent : Nat) :
    uncertainFlag kind o whollySent = true ↔ kind = .send ∧ 0 < whollySent ∧
      (o ∈ [OrderOutcome.noReply, .aborted, .cancelled, .lineFault] ∨ ∃ cause, o = .corrupt cause) := by
  cases o <;> simp [uncertainFlag]

/-- An order that ended with no good reply is uncertain when it was a SEND sent whole at least once (R95). -/
theorem uncertainFlag_iff {outcome : TxOutcome} (sent : outcome ≠ .sent) (status : ∀ word d t, outcome ≠ .good (.status word d t))
    (missed : outcome ≠ .good (.nak .missed)) (full : outcome ≠ .good (.nak .full)) (kind : TxKind) (whollySent : Nat) :
    uncertainFlag kind (orderOutcome outcome) whollySent = true ↔ kind = .send ∧ 0 < whollySent ∧
      (outcome ∈ [TxOutcome.noReply, .aborted, .cancelled, .lineFault] ∨ ∃ cause, outcome = .corrupt cause) := by
  rw [uncertainFlag_eq_true]
  refine and_congr_right fun _ => and_congr_right fun _ => ?_
  cases outcome with
  | good reply =>
    cases reply with
    | status word d t => exact absurd rfl (status word d t)
    | nak reason =>
      cases reason with
      | missed => exact absurd rfl missed
      | full => exact absurd rfl full
      | _ => simp [orderOutcome]
    | ack b => simp [orderOutcome]
    | data b p => simp [orderOutcome]
  | sent => exact absurd rfl sent
  | _ => simp [orderOutcome]

theorem handOff_collect {s : State} {r : OrderRecord} {st : StationRef} (kind : r.kind = .fetch) (source : r.source = .collect)
    (station : r.station = some st) (o : OrderOutcome) : s.handOff r o = s.collectDone st := by
  simp only [State.handOff, kind, station, source, if_true]

/-- Settles O44. -/
theorem orderCompletes : Obligations.OrderCompletes := by
  refine ⟨fun s ix o => ?ended, fun s n r c found => ?completed,
    fun s r o => ⟨fun kind => ?send, fun kind host => ?fetch, fun st g station group => ⟨fun kind => ?join, fun kind => ?leave⟩,
      fun st kind collect station => ⟨fun free => ?gone, fun used => ?collected⟩⟩, fun s n r => ?result⟩
  case ended =>
    exact ⟨endStationOrders_eq s ix o, fun distinct => endStationOrders_effect (List.Nodup.of_append_left distinct.1) ix o⟩
  case completed =>
    intro u filled
    refine ⟨fun other => ?_, fun data => ?_⟩
    · exact (completeOrder_eq found (if_neg other) (if_neg other)).trans
        (congrArg (filled [] 0) (writePayload_nil u.pool c.payload))
    · intro kept
      rw [completeOrder_eq found (if_pos data) (if_pos data)]
      rfl
  case send => simp only [State.handOff, kind]
  case fetch => cases station : r.station <;> simp [State.handOff, kind, host, station]
  case join => simp only [State.handOff, kind, station, group]
  case leave => simp only [State.handOff, kind, station, group]
  case gone => rw [handOff_collect kind collect station]; exact if_pos free
  case collected => rw [handOff_collect kind collect station]; exact if_neg used
  case result =>
    refine ⟨_, rfl, rfl, rfl, fun b h => ?_, fun h => ?_, fun b p h => ?_, fun h => ?_, fun h => ?_, fun cause h => ?_, fun h => ?_, fun h => ?_,
      fun h => ?_, fun h => ?_, fun sent status missed full => uncertainFlag_iff sent status missed full _ _⟩
    case refine_3 => rw [h]; exact ⟨rfl, rfl⟩
    all_goals rw [h]; rfl

end Machine

end Sys2Proof

/-! ## Groups and deliveries (O45 to O49) -/

namespace Sys2Proof

namespace Machine

/-! ### Requests about members (R108, R109, R111) -/

/-- What MEMBER ADD and MEMBER DROP answer: the group is named first, then the station. -/
def memberOwner (group line address : Octet) (take : State → GroupNo → StationIx → State × Answer) (u : State) : State × Answer :=
  match groupOf group with
  | some g => u.withStation line address fun ix => take u g ix
  | none => (u, refuse .badValue)

theorem memberAddOwner_eq (group line address : Octet) (u : State) :
    memberAddOwner [group, line, address] u = memberOwner group line address State.addMember u := by
  cases h : groupOf group <;> simp only [memberAddOwner, memberOwner, h]

theorem memberDropOwner_eq (group line address : Octet) (u : State) :
    memberDropOwner [group, line, address] u = memberOwner group line address State.dropMember u := by
  cases h : groupOf group <;> simp only [memberDropOwner, memberOwner, h]

/-- A request about a member, once taken: the checks on its operands, then what its rule makes of the group and the station. -/
theorem exec_memberOwner {i : Instr} {f : HostFrame} {s u : State} {owner : State → State × Answer} {group line address : Octet}
    {take : State → GroupNo → StationIx → State × Answer} (served : exec i s = .next (s.serve f owner)) (hf : i.frame = some f)
    (taken : Taken i s u) (judged : owner u = memberOwner group line address take u) :
    (15 < group.toNat ∨ 3 < line.toNat ∨ address.toNat = 0 ∨ 239 < address.toNat → exec i s = .next (u.answering i .badValue [])) ∧
    ∀ (g : GroupNo) (l : LineNo), group.toNat = g.val → line.toNat = l.val → 1 ≤ address.toNat → address.toNat ≤ 239 →
      (u.findStation l address = none → exec i s = .next (u.answering i .noSuch [])) ∧
      ∀ ix, u.findStation l address = some ix → ∀ v code data, take u g ix = (v, { code := code, data := data, rate := none }) →
        exec i s = .next (v.answering i code data) := by
  have byGroup (g : GroupNo) (hg : groupOf group = some g) := exec_withStation served hf taken
    (judged.trans (by simp only [memberOwner, hg] : _ = u.withStation line address fun ix => take u g ix))
  refine ⟨fun bad => ?_, fun g l hg hl h1 h2 => (byGroup g (groupOf_eq group g hg)).2 l hl h1 h2⟩
  cases hg : groupOf group with
  | none => exact exec_eq_refused served hf taken (judged.trans (by simp only [memberOwner, hg]))
  | some g =>
    refine (byGroup g hg).1 (bad.resolve_left fun high => ?_)
    simp [groupOf_none group high] at hg

/-- The order of a member accepted (R109, R111): no blocks are taken, and the group stands as it was made. -/
theorem takeMemberOrder_eq {u : State} {l : LineNo} {address : Octet} {ix : StationIx} (found : u.findStation l address = some ix)
    (g : GroupNo) (gr : Group) (kind : OrderKind) :
    (u.setGroup g gr).takeMemberOrder ix g kind =
      (({ u with
        groups := u.groups.set g.val gr g.isLt
        orderCounter := nextNumber u.numberToGive
        reserved := u.reserved + 1
        orders := u.orders ++
          [{ number := u.numberToGive, kind := kind, source := .host, priority := .normal, line := l
             station := some { index := ix, line := l, address := address }, group := some g, state := .queued
             cancelFlag := false, length := 0, blocks := [], nextStep := .groupData, passStep := none }] } : State).selectWork l,
       accept (wordOctets u.numberToGive)) := by
  obtain ⟨-, onLine, onAddress⟩ := findStation_some found
  subst onLine onAddress
  rfl

/-- The refusals of MEMBER ADD that come from the group and its delivery (R108). -/
theorem addRefusal_eq (gr : Group) (ix : StationIx) :
    gr.addRefusal ix =
      if ∃ m, gr.memberOf ix = some m ∧ m.state ≠ .lapsed then some .duplicate
      else if gr.memberOf ix = none ∧ 24 ≤ gr.members.length then some .tableFull
      else none := by
  unfold Group.addRefusal
  cases member : gr.memberOf ix with
  | none => by_cases full : gr.members.length < 24 <;> simp [Config.membersPerGroup, full, Nat.not_le.mpr, Nat.le_of_not_lt]
  | some m => by_cases lapsed : m.state = .lapsed <;> simp [lapsed]

theorem joining_absent {gr : Group} {station : StationRef} (h : gr.memberOf station.index = none) :
    gr.joining station = { gr with members := gr.members ++ [{ station := station, state := .joining }] } := by
  simp only [Group.joining, h]

theorem joining_present {gr : Group} {station : StationRef} (h : gr.memberOf station.index ≠ none) :
    gr.joining station = gr.withState station.index .joining := by
  obtain ⟨m, standing⟩ := Option.ne_none_iff_exists'.mp h
  simp only [Group.joining, standing]

theorem addMember_eq (s : State) (g : GroupNo) (ix : StationIx) :
    s.addMember g ix =
      match (s.stationRefusal ix).or (if (s.deliveryOf g).isSome then some .groupBusy
        else ((s.group g).addRefusal ix).or (s.resourceRefusal 1 0)) with
      | some code => (s, refuse code)
      | none => (s.setGroup g ((s.group g).joining (s.stationRef ix))).takeMemberOrder ix g .join := by
  unfold State.addMember
  cases s.stationRefusal ix with
  | some code => rfl
  | none =>
    cases s.deliveryOf g with
    | some d => rfl
    | none =>
      cases (s.group g).addRefusal ix with
      | some code => rfl
      | none => cases s.resourceRefusal 1 0 <;> rfl

theorem dropMember_busy {s : State} {g : GroupNo} (h : (s.deliveryOf g).isSome = true) (ix : StationIx) :
    s.dropMember g ix = (s, refuse .groupBusy) := by
  obtain ⟨d, h⟩ := Option.isSome_iff_exists.mp h
  simp only [State.dropMember, h]

theorem dropMember_absent {s : State} {g : GroupNo} {ix : StationIx} (idle : s.deliveryOf g = none) (h : (s.group g).memberOf ix = none) :
    s.dropMember g ix = (s, refuse .noSuch) := by
  simp only [State.dropMember, idle, h]

theorem dropMember_changing {s : State} {g : GroupNo} {ix : StationIx} {m : Member} (idle : s.deliveryOf g = none)
    (h : (s.group g).memberOf ix = some m) (changing : m.state = .joining ∨ m.state = .leaving) :
    s.dropMember g ix = (s, refuse .state) := by
  obtain k | k := changing <;> simp only [State.dropMember, idle, h, k]

theorem dropMember_lapsed {s : State} {g : GroupNo} {ix : StationIx} {m : Member} (idle : s.deliveryOf g = none)
    (h : (s.group g).memberOf ix = some m) (lapsed : m.state = .lapsed) :
    s.dropMember g ix = ((s.setGroup g ((s.group g).without ix)).clearLapsed ix g, accept (wordOctets 0)) := by
  simp only [State.dropMember, idle, h, lapsed]

theorem dropMember_active {s : State} {g : GroupNo} {ix : StationIx} {m : Member} (idle : s.deliveryOf g = none)
    (h : (s.group g).memberOf ix = some m) (active : m.state = .active) :
    s.dropMember g ix =
      match s.orderRefusal ix 0 with
      | some code => (s, refuse code)
      | none => (s.setGroup g ((s.group g).withState ix .leaving)).takeMemberOrder ix g .leave := by
  simp only [State.dropMember, idle, h, active] <;> rfl

/-- The checks on record and reservation for an order that takes no blocks (R108, R111). -/
theorem resourceRefusal_no_blocks (s : State) :
    s.resourceRefusal 1 0 = if 40 ≤ s.orders.length then some .noRecord else if 40 ≤ s.slotsInUse then some .reportFull else none := by
  simp only [resourceRefusal_eq, Nat.not_lt_zero, if_false]

/-- Settles O45. -/
theorem memberRequests : Obligations.MemberRequests := by
  intro tag group line address s u i request taken
  obtain ⟨f, owner, take, served, hf, judged, adds, drops⟩ : ∃ f owner take, exec i s = .next (s.serve f owner) ∧ i.frame = some f ∧
      owner u = memberOwner group line address take u ∧ (i = .memberAdd tag [group, line, address] → take = State.addMember) ∧
      (i = .memberDrop tag [group, line, address] → take = State.dropMember) := by
    obtain rfl | rfl := request
    · exact ⟨_, _, _, rfl, rfl, memberAddOwner_eq group line address u, fun _ => rfl, fun other => (nomatch other)⟩
    · exact ⟨_, _, _, rfl, rfl, memberDropOwner_eq group line address u, fun other => (nomatch other), fun _ => rfl⟩
  obtain ⟨bad, named⟩ := exec_memberOwner served hf taken judged
  refine ⟨bad, fun g l hg hl h1 h2 => ⟨(named g l hg hl h1 h2).1, fun ix found => ?_⟩⟩
  intro member station stationRefusal resourceRefusal ordered become
  have answered := (named g l hg hl h1 h2).2 ix found
  have stationChecks : u.stationRefusal ix = stationRefusal := stationRefusal_eq found
  have resourceChecks : u.resourceRefusal 1 0 = resourceRefusal := resourceRefusal_no_blocks u
  refine ⟨fun add => ?add, fun drop => ?drop⟩
  case add =>
    intro refusal
    rw [adds add] at answered
    have judge : u.addMember g ix = match refusal with
        | some code => (u, refuse code)
        | none => (u.setGroup g ((u.group g).joining (u.stationRef ix))).takeMemberOrder ix g .join := by
      have checks : (u.stationRefusal ix).or (if (u.deliveryOf g).isSome then some .groupBusy
          else ((u.group g).addRefusal ix).or (u.resourceRefusal 1 0)) = refusal := by
        rw [stationChecks, resourceChecks, addRefusal_eq]
        simp only [refusal, member]
        congr 1
        split_ifs <;> rfl
      rw [addMember_eq, checks]
    refine ⟨fun code refused => answered _ _ _ (by rw [judge, refused]; rfl), fun accepted absent => ?_, fun accepted present => ?_⟩
    · refine answered _ _ _ ?_
      rw [judge, accepted]
      dsimp only
      rw [joining_absent absent, stationRef_eq found]
      exact takeMemberOrder_eq found g _ .join
    · refine answered _ _ _ ?_
      rw [judge, accepted]
      dsimp only
      rw [joining_present present]
      exact takeMemberOrder_eq found g _ .join
  case drop =>
    rw [drops drop] at answered
    refine ⟨fun busy => answered _ _ _ (dropMember_busy busy ix), fun idle => ⟨fun absent => answered _ _ _ (dropMember_absent idle absent),
      fun m standing => ⟨fun changing => answered _ _ _ (dropMember_changing idle standing changing),
        fun lapsed => answered _ _ _ (dropMember_lapsed idle standing lapsed), fun active => ?_⟩⟩⟩
    have judge := dropMember_active idle standing active
    rw [orderRefusal_eq, stationChecks, resourceChecks] at judge
    refine ⟨fun code refused => answered _ _ _ (by rw [judge, refused]; rfl), fun accepted => answered _ _ _ ?_⟩
    rw [judge, accepted]
    exact takeMemberOrder_eq found g _ .leave

end Machine

end Sys2Proof

/-! ## Deliveries and their passes (O46 to O49) -/

namespace Sys2Proof

namespace Machine

/-! ### GROUP SEND (R115 to R120) -/

theorem groupSendOwner_eq {group priority n : Octet} {payload : List Octet} (agree : payload.length = n.toNat) (limit : n.toNat ≤ 119)
    {g : GroupNo} {p : Priority} (hg : groupOf group = some g) (hp : priorityOf priority = some p) (u : State) :
    groupSendOwner (group :: priority :: 0 :: n :: payload) u = u.takeDelivery g p payload := by
  have below : ¬ 119 < n.toNat := Nat.not_lt.mpr limit
  simp only [groupSendOwner, agree, hg, hp, below, bne_self_eq_false, Bool.or_self, Bool.false_eq_true, if_false]

theorem groupSendOwner_bad {group priority n : Octet} {payload : List Octet} (agree : payload.length = n.toNat)
    (h : groupOf group = none ∨ priorityOf priority = none) (u : State) :
    groupSendOwner (group :: priority :: 0 :: n :: payload) u = (u, refuse .badValue) := by
  simp only [groupSendOwner, agree, bne_self_eq_false, Bool.or_self, Bool.false_eq_true, if_false]
  split
  next hg hp => simp [hg, hp] at h
  next => rfl

theorem startingState_eq (s : State) (station : StationRef) :
    s.startingState station =
      if ((s.station station.index).state = .online ∨ (s.station station.index).state = .resync) ∧
        (s.engine station.line).state ≠ .off ∧ (s.engine station.line).state ≠ .stopping then .waiting else .unreached := by
  unfold State.startingState
  refine if_congr ?_ rfl rfl
  simp only [Bool.and_eq_true, present_iff, LineEngine.running, bne_iff_ne]

/-- GROUP SEND's checks from its third on, in their order (R116). -/
theorem groupRefusal_eq (s : State) (g : GroupNo) (n : Nat) :
    s.groupRefusal g n =
      if (s.deliveryOf g).isSome then some .groupBusy
      else if 4 ≤ s.deliveries.length then some .noDelivery
      else if s.snapshotOf g = [] then some .state
      else if waitingLines (s.snapshotOf g) = [] then some .stationDown
      else if 40 < s.orders.length + (waitingLines (s.snapshotOf g)).length then some .noRecord
      else if s.freeBlocks.length < blocksFor n then some .noBuffer
      else if 40 ≤ s.slotsInUse then some .reportFull
      else none := by
  unfold State.groupRefusal
  have deliveries : s.freeDeliveries = 0 ↔ 4 ≤ s.deliveries.length := by
    simp only [State.freeDeliveries, Config.deliveryRecords]; omega
  refine if_congr Iff.rfl rfl (if_congr deliveries rfl (if_congr List.isEmpty_iff rfl ?_))
  by_cases silent : waitingLines (s.snapshotOf g) = []
  · simp only [silent, List.isEmpty_nil, if_true]
  · have some' : 0 < (waitingLines (s.snapshotOf g)).length := List.length_pos_iff.mpr silent
    have records : s.freeRecords < (waitingLines (s.snapshotOf g)).length ↔
        40 < s.orders.length + (waitingLines (s.snapshotOf g)).length := by
      simp only [State.freeRecords, Config.orderRecords]; omega
    have slots : (!s.grantable) = true ↔ 40 ≤ s.slotsInUse := by
      rw [Bool.not_eq_true', State.grantable]
      exact decide_eq_false_iff_not.trans Nat.not_lt
    rw [if_neg (by simpa using silent), if_neg silent]
    exact if_congr records rfl (if_congr Iff.rfl rfl (if_congr slots rfl rfl))

theorem takeDelivery_refused {s : State} {g : GroupNo} {payload : List Octet} {code : ResultCode}
    (h : s.groupRefusal g payload.length = some code) (p : Priority) : s.takeDelivery g p payload = (s, refuse code) := by
  simp only [State.takeDelivery, h]

theorem takeDelivery_accepted {s : State} {g : GroupNo} {payload : List Octet} (h : s.groupRefusal g payload.length = none) (p : Priority) :
    s.takeDelivery g p payload =
      ((s.acceptDelivery (s.newDelivery g p payload) payload).selectLines (waitingLines (s.snapshotOf g)),
        accept (sentOctets (s.newDelivery g p payload))) := by
  simp only [State.takeDelivery, h]
  rfl

/-- Settles O46. -/
theorem groupSendRules : Obligations.GroupSendRules := by
  intro tag group priority n payload s u agree limit i taken
  refine ⟨fun bad => ?_, fun g p hg hp => ?_⟩
  · refine exec_eq_refused rfl rfl taken (groupSendOwner_bad agree ?_ u)
    exact bad.imp (groupOf_none group) (priorityOf_none priority)
  · intro snapshot lines needed refusal
    have judged := groupSendOwner_eq agree limit (groupOf_eq group g hg) (hp ▸ priorityOf_code p) u
    have taken' : u.snapshotOf g = snapshot := by simp only [State.snapshotOf, startingState_eq, snapshot]
    have waiting : waitingLines (u.snapshotOf g) = lines := by rw [taken']; rfl
    have checks : u.groupRefusal g payload.length = refusal := by rw [groupRefusal_eq, waiting, taken']; rfl
    refine ⟨fun code refused => ?_, fun accepted => ?_⟩
    · exact exec_eq_refused rfl rfl taken (judged.trans (takeDelivery_refused (checks.trans refused) p))
    · intro number seq excluded
      have made : u.newDelivery g p payload =
          { number := number, group := g, seq := seq, priority := p, cancelling := false, length := payload.length
            blocks := u.freeBlocks.take needed, excluded := excluded, outstanding := lines.length, snapshot := snapshot
            roster := (u.group g).members.map Member.station } := by
        rw [State.newDelivery, waiting, taken']; rfl
      refine exec_eq_answering_of_changed rfl rfl taken (judged.trans ((takeDelivery_accepted (checks.trans accepted) p).trans ?_))
      rw [made, waiting]
      rfl

/-! ### Pass steps (R7, R120 to R125) -/

theorem takeEntry_pass {s : State} {r : OrderRecord} {d : Delivery} (pass : r.kind = .groupPass) (found : s.findDelivery r.number = some d)
    (l : LineNo) : s.takeEntry l r = s.takePass l r d := by
  simp only [State.takeEntry, pass, found, if_true]

theorem takePass_groupData {s : State} {l : LineNo} {r : OrderRecord} {d : Delivery} (next : r.nextStep = .groupData) :
    s.takePass l r d =
      (s.updatePass d.number l fun r => { r with state := .active, passStep := some .groupData }).onEngine l fun e =>
        e.take (e.transaction .groupData (.pass d.number .groupData) none (groupOctetOf d.group)
          { address := groupAddress d.group, type := .groupData, bit := false
            payload := groupSeqOctet d.group d.seq :: s.deliveryData d }) false := by
  simp only [State.takePass, next]
  rfl

theorem takePass_check {s : State} {l : LineNo} {r : OrderRecord} {d : Delivery} {place : Nat} {m : DeliveryMember}
    (next : r.nextStep = .members) (current : d.current l = some (place, m)) (h : m.state ≠ .repairing) :
    s.takePass l r d =
      ((s.setMember d.number place fun m => { m with state := .checking }).updatePass d.number l fun r =>
        { r with state := .active, passStep := some (.member place) }).onEngine l fun e =>
          e.take (e.transaction .groupCheck (.pass d.number (.member place)) (some m.station.index) m.station.address
            { address := m.station.address, type := .groupCheck, bit := false, payload := [groupSeqOctet d.group d.seq] }) false := by
  simp only [State.takePass, next, current, h, if_false]
  rfl

theorem takePass_repair {s : State} {l : LineNo} {r : OrderRecord} {d : Delivery} {place : Nat} {m : DeliveryMember}
    (next : r.nextStep = .members) (current : d.current l = some (place, m)) (h : m.state = .repairing) :
    s.takePass l r d =
      ((s.setMember d.number place id).updatePass d.number l fun r =>
        { r with state := .active, passStep := some (.member place) }).onEngine l fun e =>
          e.take (e.transaction .groupRepair (.pass d.number (.member place)) (some m.station.index) m.station.address
            { address := m.station.address, type := .groupRepair, bit := false
              payload := groupSeqOctet d.group d.seq :: s.deliveryData d }) false := by
  simp only [State.takePass, next, current, h, if_true]
  rfl

/-- The state of a member as its step's result leaves it: that of the reply when it settles the member, else its pending fate, else CANCELLED where
its delivery is cancelling (R122, R123, R125, R131). -/
theorem afterStep_state_settled {m : DeliveryMember} {kind : TxKind} {o : TxOutcome} {state : DeliveryMemberState}
    (h : (if kind = .groupRepair then repairedState o else checkedState o) = state) (settled : state.terminal = true)
    (attempts : Nat) (cancelling : Bool) :
    (m.afterStep kind o attempts cancelling).state = state := by
  simp [DeliveryMember.afterStep, h, settled]

theorem afterStep_state_open {m : DeliveryMember} {kind : TxKind} {o : TxOutcome}
    (h : (if kind = .groupRepair then repairedState o else checkedState o) = .repairing) (attempts : Nat) (cancelling : Bool) :
    (m.afterStep kind o attempts cancelling).state =
      match m.fate with
      | some fate => fate.state
      | none => if cancelling then .cancelled else .repairing := by
  cases fate : m.fate with
  | none => simp [DeliveryMember.afterStep, h, fate, DeliveryMemberState.terminal]
  | some f => cases f <;> simp [DeliveryMember.afterStep, h, fate, DeliveryMemberState.terminal, Fate.state]

/-- Where a GROUP CHECK and a GROUP REPAIR judge an outcome alike, so does the step. -/
theorem judged_alike {o : TxOutcome} {state : DeliveryMemberState} (checked : checkedState o = state) (repaired : repairedState o = state)
    (kind : TxKind) : (if kind = .groupRepair then repairedState o else checkedState o) = state := by
  rw [checked, repaired, ite_self]

theorem cancelling_eq {s : State} {n : Word} {cancelling : Bool} (h : cancelling = true ↔ ∃ d, s.findDelivery n = some d ∧ d.cancelling = true) :
    (match s.findDelivery n with
      | some d => d.cancelling
      | none => false) = cancelling := by
  rw [Bool.eq_iff_iff, h]
  cases s.findDelivery n <;> simp

theorem lineStopped_iff (o : TxOutcome) : o.lineStopped = true ↔ o = .aborted ∨ o = .lineFault := by
  cases o <;> simp [TxOutcome.lineStopped]

theorem stepResult_groupData {s : State} {l : LineNo} {n : Word} {r : TxResult} {next : OrderRecord → PassNext}
    (h : ∀ p, (if r.outcome = .sent then PassNext.members else p.nextStep) = next p) :
    s.stepResult l n .groupData r =
      let t := s.updatePass n l fun p => { p with state := .queued, passStep := none, nextStep := next p }
      if r.outcome.lineStopped then t.deliveryLineStop n l else t.reviewPass n l := by
  simp only [State.stepResult, h]

theorem stepResult_member {s : State} {l : LineNo} {n : Word} {r : TxResult} {cancelling : Bool}
    (h : cancelling = true ↔ ∃ d, s.findDelivery n = some d ∧ d.cancelling = true) (place : Nat) :
    s.stepResult l n (.member place) r =
      let t := (s.setMember n place fun m => m.afterStep r.kind r.outcome r.attemptsUsed cancelling).updatePass n l fun p =>
        { p with state := .queued, passStep := none }
      if r.outcome.lineStopped then t.deliveryLineStop n l else t.reviewPass n l := by
  rw [← cancelling_eq h]
  rfl

/-- Settles O47. -/
theorem passSteps : Obligations.PassSteps := by
  refine ⟨fun s l r d pass found => ?frames, fun m kind o attempts cancelling => ?members,
    fun s l n r => ⟨fun place cancelling same => ?member, fun sent => ?sent, fun stopped => ?stopped⟩⟩
  case frames =>
    intro header data step
    rw [takeEntry_pass pass found]
    exact ⟨fun next => takePass_groupData next,
      fun place m next current => ⟨fun check => takePass_check next current check, fun repair => takePass_repair next current repair⟩⟩
  case members =>
    refine ⟨rfl, rfl, rfl, fun b ack => ?_, fun refused => ?_, fun missed check => ?_, fun unreached => ?_⟩
    · subst ack
      refine ⟨afterStep_state_settled (judged_alike rfl rfl kind) rfl attempts cancelling, ?_⟩
      simp [DeliveryMember.afterStep, repairedState, checkedState]
    · subst refused
      exact afterStep_state_settled (judged_alike rfl rfl kind) rfl attempts cancelling
    · subst missed check
      exact afterStep_state_open rfl attempts cancelling
    · have judged : checkedState o = .unreached ∧ repairedState o = .unreached := by
        obtain listed | ⟨cause, rfl⟩ := unreached
        · simp only [List.mem_cons, List.not_mem_nil, or_false] at listed
          obtain rfl | rfl | rfl | rfl := listed <;> exact ⟨rfl, rfl⟩
        · exact ⟨rfl, rfl⟩
      exact afterStep_state_settled (judged_alike judged.1 judged.2 kind) rfl attempts cancelling
  case member =>
    intro t
    rw [stepResult_member same place]
    exact ⟨fun stopped => if_pos ((lineStopped_iff _).2 stopped),
      fun aborted fault => if_neg fun stopped => ((lineStopped_iff _).1 stopped).elim aborted fault⟩
  case sent =>
    rw [stepResult_groupData (next := fun _ => .members) fun p => if_pos sent]
    exact if_neg (by simp [sent, TxOutcome.lineStopped])
  case stopped =>
    have unsent : r.outcome ≠ .sent := by obtain h | h := stopped <;> simp [h]
    rw [stepResult_groupData (next := OrderRecord.nextStep) fun p => if_neg unsent]
    exact if_pos ((lineStopped_iff _).2 stopped)

/-! ### A delivery's end (R124, R127, R129 to R131) -/

theorem checkDelivery_settled {s : State} {n : Word} {d : Delivery} (found : s.findDelivery n = some d)
    (h : d.outstanding = 0 ∧ ∀ m ∈ d.snapshot, m.state.terminal = true) :
    s.checkDelivery n = { s with deliveries := s.deliveries.eraseP fun e => e.number = n }.fillReservation
      (.deliveryDone (d.report s.partTime)) [] 0 := by
  simp only [State.checkDelivery, found]
  exact if_pos (by simpa using h)

theorem checkDelivery_open {s : State} {n : Word} {d : Delivery} (found : s.findDelivery n = some d)
    (h : ¬ (d.outstanding = 0 ∧ ∀ m ∈ d.snapshot, m.state.terminal = true)) : s.checkDelivery n = s := by
  simp only [State.checkDelivery, found]
  exact if_neg (by simpa using h)

/-- The outcome of a delivery that is not cancelling, by its members (R130). -/
theorem outcome_eq {d : Delivery} (h : d.cancelling = false) :
    d.outcome =
      if ∀ m ∈ d.snapshot, m.state = .accepted then .complete
      else if ∃ m ∈ d.snapshot, m.state = .accepted then .partly else .failed := by
  unfold Delivery.outcome
  rw [if_neg (by simp [h])]
  exact if_congr (by simp) rfl (if_congr (by simp) rfl rfl)

theorem unsettledOn_iff (m : DeliveryMember) (l : LineNo) : m.unsettledOn l = true ↔ m.station.line = l ∧ m.state.terminal = false := by
  simp [DeliveryMember.unsettledOn]

theorem reviewPass_eq {s : State} {n : Word} {l : LineNo} {d : Delivery} {p : OrderRecord} (found : s.findDelivery n = some d)
    (pass : s.findPass n l = some p) :
    s.reviewPass n l =
      if p.passStep ≠ none ∨ ∃ m ∈ d.snapshot, m.station.line = l ∧ m.state.terminal = false then s else s.freePass n l := by
  simp only [State.reviewPass, found, pass]
  refine if_congr ?_ rfl rfl
  simp only [Bool.or_eq_true, Option.isSome_iff_ne_none, List.any_eq_true, unsettledOn_iff]

/-- Settles O48. -/
theorem deliveryCompletes : Obligations.DeliveryCompletes := by
  refine ⟨fun s n d found => ?check, fun d => ⟨fun cancelling => if_pos cancelling, fun running => ?outcome⟩, fun state => ?terminal,
    fun s n l => ⟨rfl, fun d p found pass => ?review⟩, fun s n l => ?lineStop, fun s n => rfl⟩
  case check =>
    intro settled
    exact ⟨fun h => checkDelivery_open found h, fun h => checkDelivery_settled found h⟩
  case outcome =>
    rw [outcome_eq running]
    refine ⟨fun all => if_pos all, fun some' other => ?_, fun listed none' => ?_⟩
    · obtain ⟨m, mem, h⟩ := other
      exact (if_neg fun all => h (all m mem)).trans (if_pos some')
    · obtain ⟨m, mem⟩ := List.exists_mem_of_ne_nil _ listed
      exact (if_neg fun all => none' m mem (all m mem)).trans (if_neg fun ⟨m, mem, h⟩ => none' m mem h)
  case terminal => cases state <;> decide
  case review =>
    rw [reviewPass_eq found pass]
    refine ⟨fun idle settled => if_neg ?_, fun h => if_pos h⟩
    rintro (step | ⟨m, mem, line, unsettled⟩)
    · exact step idle
    · simp [settled m mem line] at unsettled
  case lineStop =>
    intro step
    have stopped : (fun (place : Nat) (m : DeliveryMember) =>
          if m.unsettledOn l && !s.stepOn n place then { m with state := .unreached } else m) =
        fun place m => if m.station.line = l ∧ m.state.terminal = false ∧ step place = false then { m with state := .unreached } else m := by
      funext place m
      refine if_congr ?_ rfl rfl
      rw [Bool.and_eq_true, unsettledOn_iff, Bool.not_eq_true', and_assoc]
      rfl
    rw [State.deliveryLineStop, stopped]
    rfl

/-! ### Members settled (R68, R106, R107, R110, R112, R125, R126) -/

theorem lapseGroup_active {s : State} {ix : StationIx} {g : GroupNo} {m : Member} (h : (s.group g).memberOf ix = some m)
    (active : m.state = .active) :
    s.lapseGroup ix g = ((s.setGroup g ((s.group g).withState ix .lapsed)).onStation ix fun st =>
      { st with lapsed := st.lapsed ||| groupBit g }).settleMember ix .dropped g := by
  obtain ⟨station, state⟩ := m
  subst active
  simp only [State.lapseGroup, h]

theorem lapseGroup_other {s : State} {ix : StationIx} {g : GroupNo} (h : ∀ m, (s.group g).memberOf ix = some m → m.state ≠ .active) :
    s.lapseGroup ix g = s.settleMember ix .dropped g := by
  unfold State.lapseGroup
  split
  next station active => exact absurd rfl (h _ active)
  next => rfl

/-- The member of a delivery that a station's event reaches: the first of the station's that is not terminal. -/
theorem settleMember_eq {s : State} {g : GroupNo} {d : Delivery} (found : s.deliveryOf g = some d) {ix : StationIx} {place : Nat}
    {m : DeliveryMember} (h : d.snapshot[place]? = some m) (station : m.station.index = ix) (unsettled : m.state.terminal = false)
    (first : ∀ k q, k < place → d.snapshot[k]? = some q → q.station.index = ix → q.state.terminal = true) (fate : Fate) :
    s.settleMember ix fate g =
      if s.stepOn d.number place then s.setMember d.number place fun m => { m with fate := some (m.fate.getD fate) }
      else (s.setMember d.number place fun m => { m with state := fate.state }).reviewPass d.number m.station.line := by
  have reached : d.snapshot.zipIdx.find? (fun p => p.1.station.index = ix && !p.1.state.terminal) = some (m, place) := by
    refine (zipIdx_find?_eq_some_iff (fun q => q.station.index = ix && !q.state.terminal) d.snapshot place m).2
      ⟨h, by simp [station, unsettled], fun k q before at' => ?_⟩
    have settled := first k q before at'
    simpa [imp_iff_not_or] using settled
  simp only [State.settleMember, found, reached]

theorem settleMember_settled {s : State} {g : GroupNo} {d : Delivery} (found : s.deliveryOf g = some d) {ix : StationIx}
    (h : ∀ m ∈ d.snapshot, m.station.index = ix → m.state.terminal = true) (fate : Fate) : s.settleMember ix fate g = s := by
  have none' : d.snapshot.zipIdx.find? (fun p => p.1.station.index = ix && !p.1.state.terminal) = none := by
    refine List.find?_eq_none.mpr fun ⟨m, place⟩ mem => ?_
    have settled := h m (List.fst_mem_of_mem_zipIdx mem)
    simpa [imp_iff_not_or] using settled
  simp only [State.settleMember, found, none']

theorem joinCompleted_joining {s : State} {g : GroupNo} {ix : StationIx} {m : Member} (h : (s.group g).memberOf ix = some m)
    (joining : m.state = .joining) (o : OrderOutcome) :
    s.joinCompleted g ix o =
      (s.setGroup g (if o = .accepted then (s.group g).withState ix .active else (s.group g).without ix)).clearLapsed ix g := by
  obtain ⟨station, state⟩ := m
  subst joining
  simp only [State.joinCompleted, h]

theorem leaveCompleted_leaving {s : State} {g : GroupNo} {ix : StationIx} {m : Member} (h : (s.group g).memberOf ix = some m)
    (leaving : m.state = .leaving) : s.leaveCompleted g ix = (s.setGroup g ((s.group g).without ix)).clearLapsed ix g := by
  obtain ⟨station, state⟩ := m
  subst leaving
  simp only [State.leaveCompleted, h]

/-- Settles O49. -/
theorem membersSettled : Obligations.MembersSettled := by
  refine ⟨fun s ix => ⟨rfl, rfl, fun g => ⟨fun ⟨m, h, active⟩ => lapseGroup_active h active, lapseGroup_other⟩⟩,
    fun s ix fate g => ⟨fun idle => ?_, fun d found => ⟨fun settled => settleMember_settled found settled fate,
      fun place m h station unsettled first => ?reached⟩⟩, fun s ix g => ?lapse, fun s g ix => ?completed⟩
  · simp only [State.settleMember, idle]
  case reached =>
    intro step settled
    rw [settleMember_eq found h station unsettled first]
    refine ⟨fun h => (if_pos h).trans ?_, fun h => (if_neg (ne_true_of_eq_false h)).trans ?_⟩
    · have kept : (fun m : DeliveryMember => { m with fate := some (m.fate.getD fate) }) = fun m =>
          { m with fate := match m.fate with
              | some old => some old
              | none => some fate } := by
        funext m
        cases m.fate <;> rfl
      rw [kept]
      rfl
    · cases fate <;> rfl
  case lapse =>
    intro lapses
    obtain ⟨group, lapsed⟩ := lapse_effect ix allGroups s g (List.nodup_finRange 16)
    simp only [show g ∈ allGroups from List.mem_finRange g, true_and] at group lapsed
    exact ⟨fun h => group.trans (if_pos h), fun h => group.trans (if_neg h), lapsed⟩
  case completed =>
    intro left removed
    refine ⟨fun m h joining => ⟨?_, fun o other => ?_⟩, fun m h leaving => leaveCompleted_leaving h leaving, fun absent => ⟨?_, fun o => ?_⟩⟩
    · rw [joinCompleted_joining h joining, if_pos rfl]; rfl
    · rw [joinCompleted_joining h joining, if_neg other]; rfl
    · simp only [State.leaveCompleted, absent]
    · simp only [State.joinCompleted, absent]

end Machine

end Sys2Proof

/-! ## Watches, collection and reports (O51 to O54) -/

namespace Sys2Proof

namespace Machine

/-! ### WATCH SET (R135) -/

/-- WATCH SET with its eighteen octets after the station (R194). -/
theorem watchSetOwner_eq {codes : List Octet} (length : codes.length = 16) (line address combine oneShot : Octet) (u : State) :
    watchSetOwner (line :: address :: codes ++ [combine, oneShot]) u =
      match conditionsOf codes, combineOf combine, truthOf oneShot with
      | some conditions, some combine, some oneShot =>
          u.withStation line address fun ix => u.setWatchOn ix conditions combine oneShot
      | _, _, _ => (u, refuse .badValue) := by
  have total : (codes ++ [combine, oneShot]).length = 18 := by simp [length]
  have conditions : (codes ++ [combine, oneShot]).take 16 = codes := List.take_left' length
  have mode : (codes ++ [combine, oneShot]).getD 16 0 = combine := by
    rw [List.getD_append_right _ _ _ _ (by omega), length]; rfl
  have flag : (codes ++ [combine, oneShot]).getD 17 0 = oneShot := by
    rw [List.getD_append_right _ _ _ _ (by omega), length]; rfl
  simp only [List.cons_append, watchSetOwner, total, conditions, mode, flag, bne_self_eq_false, Bool.false_eq_true, if_false] <;> rfl

theorem freeWatchEntry_eq_some {s : State} {w : WatchNo} (free : (s.watch w).state = .free)
    (lowest : ∀ v : WatchNo, v.val < w.val → (s.watch v).state ≠ .free) : s.freeWatchEntry = some w := by
  unfold State.freeWatchEntry
  rw [List.find?_eq_some_iff_getElem]
  refine ⟨by simpa using free, w.val, by simp [allWatches], by simp [allWatches], fun j before => ?_⟩
  simpa [allWatches] using lowest ⟨j, before.trans w.isLt⟩ before

theorem freeWatchEntry_eq_none {s : State} (full : ∀ w, (s.watch w).state ≠ .free) : s.freeWatchEntry = none :=
  List.find?_eq_none.mpr fun w _ => by simpa using full w

theorem setWatchOn_retiring {s : State} {ix : StationIx} (h : (s.station ix).state = .retiring) (cs : Vector Condition 16) (mode : Combine)
    (oneShot : Bool) : s.setWatchOn ix cs mode oneShot = (s, refuse .state) := if_pos h

theorem setWatchOn_full {s : State} {ix : StationIx} (h : (s.station ix).state ≠ .retiring) (full : ∀ w, (s.watch w).state ≠ .free)
    (cs : Vector Condition 16) (mode : Combine) (oneShot : Bool) : s.setWatchOn ix cs mode oneShot = (s, refuse .tableFull) := by
  rw [State.setWatchOn, if_neg h, freeWatchEntry_eq_none full]

theorem setWatchOn_armed {s : State} {l : LineNo} {address : Octet} {ix : StationIx} {w : WatchNo}
    (found : s.findStation l address = some ix) (h : (s.station ix).state ≠ .retiring) (free : (s.watch w).state = .free)
    (lowest : ∀ v : WatchNo, v.val < w.val → (s.watch v).state ≠ .free) (cs : Vector Condition 16) (mode : Combine) (oneShot : Bool) :
    s.setWatchOn ix cs mode oneShot =
      (s.setWatch w { state := .armed, station := some { index := ix, line := l, address := address }, conditions := cs
                      combine := mode, oneShot := oneShot, hit := none }, accept [octet w.val]) := by
  rw [State.setWatchOn, if_neg h, freeWatchEntry_eq_some free lowest, stationRef_eq found]
  rfl

/-! ### WATCH REARM and WATCH CLEAR (R143, R144) -/

/-- What a request about a watch answers: its entry must be in use. -/
def watchOwner (number : Octet) (take : State → WatchNo → State × Answer) (u : State) : State × Answer :=
  match watchOf number with
  | none => (u, refuse .badValue)
  | some w => if (u.watch w).state = .free then (u, refuse .noSuch) else take u w

theorem exec_watchOwner {i : Instr} {f : HostFrame} {s u : State} {owner : State → State × Answer} {number : Octet}
    {take : State → WatchNo → State × Answer} (served : exec i s = .next (s.serve f owner)) (hf : i.frame = some f) (taken : Taken i s u)
    (judged : owner u = watchOwner number take u) :
    (31 < number.toNat → exec i s = .next (u.answering i .badValue [])) ∧
    ∀ w : WatchNo, number.toNat = w.val →
      ((u.watch w).state = .free → exec i s = .next (u.answering i .noSuch [])) ∧
      ((u.watch w).state ≠ .free → ∀ v code data, take u w = (v, { code := code, data := data, rate := none }) →
        exec i s = .next (v.answering i code data)) := by
  refine ⟨fun high => ?_, fun w hw => ⟨fun free => ?_, fun used v code data answered => ?_⟩⟩
  · exact exec_eq_refused served hf taken (judged.trans (by simp only [watchOwner, watchOf_none number high]))
  · exact exec_eq_refused served hf taken (judged.trans (by simp only [watchOwner, watchOf_eq number w hw, free, if_true]))
  · exact exec_eq_answering_of_changed served hf taken
      (judged.trans (by simp only [watchOwner, watchOf_eq number w hw, used, if_false, answered]))

theorem watchRearmOwner_eq (number : Octet) (u : State) :
    watchRearmOwner [number] u =
      watchOwner number (fun u w => (u.rearmWatch w, accept [(u.watch w).state.code])) u := by
  cases h : watchOf number <;> simp only [watchRearmOwner, watchOwner, h]

theorem watchClearOwner_eq (number : Octet) (u : State) :
    watchClearOwner [number] u =
      watchOwner number (fun u w => (u.freeWatch w, accept [(u.watch w).state.code])) u := by
  cases h : watchOf number <;> simp only [watchClearOwner, watchOwner, h]

/-- Settles O51. -/
theorem watchRequests : Obligations.WatchRequests := by
  refine ⟨fun tag line address combine oneShot codes s u length => ?set, fun tag number s u i request taken => ?entry⟩
  case set =>
    intro i taken
    have judged := watchSetOwner_eq length line address combine oneShot u
    refine ⟨fun bad => ?_, fun l cs mode flag hl h1 h2 hcs hmode hflag => ?_⟩
    · refine exec_eq_refused rfl rfl taken (judged.trans ?_)
      split
      next conditions mode flag hcs hmode hflag =>
        refine withStation_bad u line address _ ?_
        obtain h | h | h | h | h | h := bad
        · exact .inl h
        · exact .inr (.inl h)
        · exact .inr (.inr h)
        · simp [conditionsOf_none codes h] at hcs
        · simp [combineOf_none combine h] at hmode
        · simp [truthOf_none oneShot h] at hflag
      next => rfl
    · have named : watchSetOwner (line :: address :: codes ++ [combine, oneShot]) u =
          u.withStation line address fun ix => u.setWatchOn ix cs mode flag := by
        rw [judged, hcs, hmode, hflag, conditionsOf_codes, combineOf_code, truthOf_truth]
      obtain ⟨-, station⟩ := exec_withStation (i := i) rfl rfl taken named
      obtain ⟨absent, answered⟩ := station l hl h1 h2
      refine ⟨absent, fun ix found => ⟨fun retiring => ?_, fun standing full => ?_, fun w standing free lowest => ?_⟩⟩
      · exact answered ix found _ _ _ (setWatchOn_retiring retiring cs mode flag)
      · exact answered ix found _ _ _ (setWatchOn_full standing full cs mode flag)
      · exact answered ix found _ _ _ (setWatchOn_armed found standing free lowest cs mode flag)
  case entry =>
    obtain rfl | rfl := request
    · obtain ⟨high, entry⟩ := exec_watchOwner rfl rfl taken (watchRearmOwner_eq number u)
      refine ⟨high, fun w hw => ⟨(entry w hw).1, fun _ => ⟨fun armed => ?_, fun used => ?_⟩, fun other => nomatch other⟩⟩
      · refine (entry w hw).2 (by simp [armed]) _ _ _ ?_
        rw [State.rearmWatch, if_pos armed, armed]
        rfl
      · have other : (u.watch w).state ≠ .free ∧ (u.watch w).state ≠ .armed := by obtain h | h := used <;> simp [h]
        refine (entry w hw).2 other.1 _ _ _ ?_
        rw [State.rearmWatch, if_neg other.2]
        rfl
    · obtain ⟨high, entry⟩ := exec_watchOwner rfl rfl taken (watchClearOwner_eq number u)
      exact ⟨high, fun w hw => ⟨(entry w hw).1, fun other => (nomatch other), fun _ used => (entry w hw).2 used _ _ _ rfl⟩⟩

/-! ### Hits (R136, R139, R140) -/

theorem judges_iff (w : Watch) (ix : StationIx) :
    w.judges ix = true ↔ (w.state = .armed ∨ w.state = .pending) ∧ ∃ station, w.station = some station ∧ station.index = ix := by
  cases station : w.station <;> simp [Watch.judges, station]

theorem judgeWatch_first {s : State} {ix : StationIx} {w : WatchNo} {baseline : Option Word} {word : Word}
    (judged : (s.watch w).judges ix = true) (hit : (s.watch w).hit = none) (found : (s.watch w).matches baseline word = true) (time : PartTime) :
    s.judgeWatch ix baseline word time w =
      (s.setWatch w { s.watch w with
        state := .pending
        hit := some { previous := baseline, matching := word, latest := word, repeats := 0, time := time } }).joinSources (.watch w) := by
  simp only [State.judgeWatch, judged, found, hit, Bool.and_self, if_true]

theorem judgeWatch_again {s : State} {ix : StationIx} {w : WatchNo} {baseline : Option Word} {word : Word} {hit : Hit}
    (judged : (s.watch w).judges ix = true) (latched : (s.watch w).hit = some hit) (found : (s.watch w).matches baseline word = true)
    (time : PartTime) :
    s.judgeWatch ix baseline word time w =
      s.setWatch w { s.watch w with hit := some { hit with repeats := min (hit.repeats + 1) 255, latest := word } } := by
  simp only [State.judgeWatch, judged, found, latched, Bool.and_self, if_true, stepUpTo]

theorem judgeWatch_unmoved {s : State} {ix : StationIx} {w : WatchNo} {baseline : Option Word} {word : Word}
    (h : ¬ ((s.watch w).judges ix = true ∧ (s.watch w).matches baseline word = true)) (time : PartTime) :
    s.judgeWatch ix baseline word time w = s :=
  if_neg (by simpa using h)

/-! ### Collection (R147, R148) -/

theorem applyCollect_off {s : State} {ix : StationIx} (h : (s.station ix).collect = false ∨ (s.station ix).state ≠ .online) (d : Bool) :
    s.applyCollect ix d = s := by
  unfold State.applyCollect
  obtain h | h := h
  · simp [h]
  · cases (s.station ix).collect <;> simp [h]

theorem applyCollect_nothing {s : State} {ix : StationIx} (collect : (s.station ix).collect = true) (online : (s.station ix).state = .online) :
    s.applyCollect ix false = s.onStation ix fun st => { st with collectDue := false } := by
  simp [State.applyCollect, collect, online]

theorem applyCollect_waiting {s : State} {ix : StationIx} (collect : (s.station ix).collect = true) (online : (s.station ix).state = .online) :
    s.applyCollect ix true = if (s.station ix).collectOutstanding then s else s.claimCollect ix := by
  simp [State.applyCollect, collect, online]

theorem claimCollect_refused {s : State} {code : ResultCode} (h : s.resourceRefusal 1 4 = some code) (ix : StationIx) :
    s.claimCollect ix = s.onStation ix fun st => { st with collectDue := true } := by
  simp only [State.claimCollect, h]

theorem claimCollect_accepted {s : State} (h : s.resourceRefusal 1 4 = none) (ix : StationIx) :
    s.claimCollect ix =
      ({ s with
        orderCounter := nextNumber s.numberToGive
        reserved := s.reserved + 1
        orders := s.orders ++
          [{ number := s.numberToGive, kind := .fetch, source := .collect, priority := .normal, line := (s.station ix).line
             station := some { index := ix, line := (s.station ix).line, address := (s.station ix).address }, group := none
             state := .queued, cancelFlag := false, length := 0, blocks := s.freeBlocks.take 4, nextStep := .groupData
             passStep := none }] } : State).onStation ix fun st => { st with collectOutstanding := true, collectDue := false } := by
  have unwritten : writePayload s.pool (s.freeBlocks.take 4) [] = s.pool := by simp [writePayload]
  simp only [State.claimCollect, h, State.acceptOrder, State.collectOrder, unwritten]
  rfl

/-- Settles O52. -/
theorem watchHitsAndCollection : Obligations.WatchHitsAndCollection := by
  refine ⟨fun s ix baseline word time w => ?hits, fun s ix => ?collect⟩
  case hits =>
    intro e watching
    refine ⟨fun watches armed hit found => judgeWatch_first ((judges_iff e ix).2 ⟨.inl armed, watches⟩) hit found time,
      fun hit watches pending latched found => judgeWatch_again ((judges_iff e ix).2 ⟨.inr pending, watches⟩) latched found time,
      fun other => judgeWatch_unmoved (fun ⟨judged, found⟩ => ?_) time⟩
    obtain ⟨state, watches⟩ := (judges_iff e ix).1 judged
    obtain h | h | h | h := other
    · exact h watches
    · simp [h] at state
    · simp [h] at state
    · exact absurd found (ne_true_of_eq_false h)
  case collect =>
    intro st
    refine ⟨fun d off => applyCollect_off off d, fun collect online => ⟨applyCollect_nothing collect online, fun outstanding => ?_,
      fun idle => ⟨fun short => ?_, fun records blocks slots => ?_⟩⟩⟩
    · exact (applyCollect_waiting collect online).trans (if_pos outstanding)
    · have refused : ∃ code, s.resourceRefusal 1 4 = some code := by
        rw [← Option.ne_none_iff_exists', resourceRefusal_eq]
        split_ifs with records blocks slots
        · simp
        · simp
        · simp
        · exact absurd short (by simp only [records, blocks, slots, or_self, not_false_eq_true])
      obtain ⟨code, refused⟩ := refused
      exact (applyCollect_waiting collect online).trans ((if_neg (ne_true_of_eq_false idle)).trans (claimCollect_refused refused ix))
    · have accepted : s.resourceRefusal 1 4 = none := by
        rw [resourceRefusal_eq, if_neg (Nat.not_le.mpr records), if_neg (Nat.not_lt.mpr blocks), if_neg (Nat.not_le.mpr slots)]
      exact (applyCollect_waiting collect online).trans ((if_neg (ne_true_of_eq_false idle)).trans (claimCollect_accepted accepted ix))

/-! ### REPORT CONFIRM and REPORT RESEND (R165, R166) -/

theorem confirmedCount_eq_none {reports : List Report} {n : Octet} (h : ∀ r ∈ reports, r.number = n → r.sent = false) :
    confirmedCount reports n = none := by
  rw [confirmedCount, Option.map_eq_none_iff, List.findIdx?_eq_none_iff]
  intro r mem
  by_cases number : r.number = n <;> simp [number, h r mem]

theorem confirmedCount_eq_some {n : Octet} {r : Report} (number : r.number = n) (sent : r.sent = true) (behind : List Report) :
    ∀ ahead : List Report, (∀ q ∈ ahead, ¬ (q.number = n ∧ q.sent = true)) →
      confirmedCount (ahead ++ r :: behind) n = some (ahead.length + 1) := by
  intro ahead others
  have unmatched : ahead.findIdx? (fun r => r.number = n && r.sent) = none :=
    List.findIdx?_eq_none_iff.mpr fun q mem => by simpa using others q mem
  rw [confirmedCount, List.findIdx?_append, unmatched, List.findIdx?_cons, if_pos (by simp [number, sent])]
  simp

theorem withoutConfirmed_append {r : Report} (sent : r.sent = true) (ahead behind : List Report) :
    withoutConfirmed (ahead ++ r :: behind) (ahead.length + 1) = (ahead.filter fun q => !q.sent) ++ behind := by
  have taken : (ahead ++ r :: behind).take (ahead.length + 1) = ahead ++ [r] := by
    rw [List.take_append, List.take_of_length_le (Nat.le_succ _)]; simp
  have left : (ahead ++ r :: behind).drop (ahead.length + 1) = behind := by
    rw [List.drop_append, List.drop_of_length_le (Nat.le_succ _)]; simp
  rw [withoutConfirmed, taken, left, List.filter_append, List.filter_singleton]
  simp [sent]

theorem countP_confirmed {r : Report} (sent : r.sent = true) (ahead behind : List Report) :
    ((ahead ++ r :: behind).take (ahead.length + 1)).countP Report.sent = ahead.countP Report.sent + 1 := by
  have taken : (ahead ++ r :: behind).take (ahead.length + 1) = ahead ++ [r] := by
    rw [List.take_append, List.take_of_length_le (Nat.le_succ _)]; simp
  rw [taken, List.countP_append, List.countP_singleton, if_pos sent]

theorem reportResendOwner_eq {u : State} {tx : Option Transmission} (resent : u.tx.map Transmission.resend = tx) :
    reportResendOwner [] u =
      ({ u with reports := u.reports.map fun r => { r with sent := false }, tx := tx }, accept [octet (u.reports.countP Report.sent)]) := by
  subst resent
  rfl

/-- Settles O53. -/
theorem reportConfirmAndResend : Obligations.ReportConfirmAndResend := by
  refine ⟨fun tag n s u => ?confirm, fun tag s u => ?resend⟩
  case confirm =>
    intro i taken
    refine ⟨fun unsent => ?_, fun ahead r behind reports number sent others => ?_⟩
    · exact exec_eq_refused rfl rfl taken (by simp only [reportConfirmOwner, confirmedCount_eq_none unsent])
    · intro kept
      refine exec_eq_answering_of_changed rfl rfl taken ?_
      have count : confirmedCount u.reports n = some (ahead.length + 1) :=
        reports ▸ confirmedCount_eq_some number sent behind ahead others
      have left : withoutConfirmed u.reports (ahead.length + 1) = kept := reports ▸ withoutConfirmed_append sent ahead behind
      have freed : (u.reports.take (ahead.length + 1)).countP Report.sent = ahead.countP Report.sent + 1 :=
        reports ▸ countP_confirmed sent ahead behind
      simp only [reportConfirmOwner, count, State.confirm, left, freed]
      rfl
  case resend =>
    intro i taken
    have resent : u.tx.map Transmission.resend = match u.tx with
        | some (.report n _) => some (.report n true)
        | other => other := by
      cases u.tx with
      | none => rfl
      | some t => cases t <;> rfl
    exact exec_eq_answering_of_changed rfl rfl taken (reportResendOwner_eq resent)

/-! ### Latches and draws (R53, R58, R59, R141, R159, R161) -/

theorem latchLine_empty {s : State} {l : LineNo} (h : (s.engine l).latch = none) (condition : LineCondition) (cause : LineCause) :
    s.latchLine l condition cause =
      (s.onEngine l fun e =>
        { e with latch := some { condition := condition, cause := cause, time := s.partTime, changeCount := 1 } }).joinSources (.line l) := by
  simp only [State.latchLine, h]

theorem latchLine_full {s : State} {l : LineNo} {old : LineLatch} (h : (s.engine l).latch = some old) (condition : LineCondition)
    (cause : LineCause) :
    s.latchLine l condition cause = s.onEngine l fun e =>
      { e with
        latch := some { condition := condition, cause := cause, time := s.partTime, changeCount := min (old.changeCount + 1) 255 } } := by
  simp only [State.latchLine, h, stepUpTo]

theorem latchPresence_empty {s : State} {ix : StationIx} (h : (s.station ix).latch = none) (presence : Presence) (restarted : Bool) :
    s.latchPresence ix presence restarted =
      (s.onStation ix fun st =>
        { st with latch := some { presence := presence, changeCount := 1, restarted := restarted, time := s.partTime } }).joinSources
          (.station ix) := by
  simp only [State.latchPresence, h]

theorem latchPresence_full {s : State} {ix : StationIx} {old : PresenceLatch} (h : (s.station ix).latch = some old) (presence : Presence)
    (restarted : Bool) :
    s.latchPresence ix presence restarted = s.onStation ix fun st =>
      { st with
        latch := some
          { presence := presence, changeCount := min (old.changeCount + 1) 255, restarted := old.restarted || restarted
            time := s.partTime } } := by
  simp only [State.latchPresence, h, stepUpTo]

theorem draw_settled {s : State} (h : s.sources = [] ∨ s.freeSlots = 0) : s.draw = s := by
  rw [State.draw]
  cases sources : s.sources with
  | nil => rfl
  | cons source rest => exact if_pos (h.resolve_left (by simp [sources]))

/-- A draw takes the head of the pending list, and goes on with the rest of it. -/
theorem draw_head {s t : State} {source : Source} {rest : List Source} (sources : s.sources = source :: rest) (free : s.freeSlots ≠ 0)
    (drawn : { s with sources := rest }.drawSource source = t) (left : t.sources = rest) : s.draw = t.draw := by
  rw [State.draw, sources, State.drawFrom, if_neg free, drawn, State.draw, left]

/-- Settles O54. -/
theorem latchesAndDraws : Obligations.LatchesAndDraws := by
  refine ⟨fun s l condition cause => ⟨fun empty => ?_, fun old full => latchLine_full full condition cause⟩,
    fun s ix presence restarted => ⟨fun empty => ?_, fun old full => latchPresence_full full presence restarted⟩, fun s => ?draws⟩
  · exact latchLine_empty empty condition cause
  · exact latchPresence_empty empty presence restarted
  case draws =>
    intro reported
    refine ⟨draw_settled, fun l rest latch sources free latched => draw_head sources free ?_ rfl,
      fun ix rest latch sources free latched => draw_head sources free ?_ rfl,
      fun w rest hit sources free latched => draw_head sources free ?_ rfl⟩
    · have latched' : (({ s with sources := rest } : State).engine l).latch = some latch := latched
      simp only [State.drawSource, latched']
      rfl
    · have latched' : (({ s with sources := rest } : State).station ix).latch = some latch := latched
      simp only [State.drawSource, latched']
      rfl
    · have latched' : (({ s with sources := rest } : State).watch w).hit = some hit := latched
      simp only [State.drawSource, latched']
      rfl

end Machine

end Sys2Proof

/-! ## Queries (O55) -/

namespace Sys2Proof

namespace Machine

/-! ### PART STATUS and LINE STATUS (R51, R185) -/

theorem length_queue (s : State) (l : LineNo) (p : Priority) :
    (s.queue l p).length = s.orders.countP fun r => r.line = l && r.priority = p && (r.state = .queued || r.kind = .groupPass) :=
  List.countP_eq_length_filter.symm

/-- An octet of at most 1 has no bit set above its lowest (R190). -/
theorem and_fe_eq_zero {o : Octet} (h : o.toNat ≤ 1) : o &&& 0xFE = 0 := by
  revert o; decide +kernel

theorem lineStatusOwner_eq {line options : Octet} {l : LineNo} (named : options.toNat ≤ 1) (hl : lineOf line = some l) (u : State) :
    lineStatusOwner [line, options] u =
      (if options.getLsbD 0 then u.onEngine l fun e => { e with stats := LineStats.zero } else u, accept (u.lineStatusOctets l)) := by
  simp only [lineStatusOwner, and_fe_eq_zero named, hl, bne_self_eq_false, Bool.false_eq_true, if_false]

theorem lineStatusOwner_bad {line options : Octet} (named : options.toNat ≤ 1) (hl : lineOf line = none) (u : State) :
    lineStatusOwner [line, options] u = (u, refuse .badValue) := by
  simp only [lineStatusOwner, and_fe_eq_zero named, hl, bne_self_eq_false, Bool.false_eq_true, if_false]

theorem length_wordOctets (w : Word) : (wordOctets w).length = 2 := rfl

theorem length_timeOctets (t : PartTime) : (timeOctets t).length = 4 := rfl

theorem length_optionalWord (w : Option Word) : (optionalWord w).length = 3 := by cases w <;> rfl

theorem length_optionalTime (t : Option PartTime) : (optionalTime t).length = 5 := by cases t <;> rfl

theorem length_transactionOctets (t : Option Transaction) : (transactionOctets t).length = 4 := by cases t <;> rfl

theorem length_latchOctets (latch : Option PresenceLatch) : (latchOctets latch).length = 3 := by cases latch <;> rfl

theorem length_lineStatusOctets (s : State) (l : LineNo) : (s.lineStatusOctets l).length = 35 := by
  simp [State.lineStatusOctets, paramOctets, LineStats.octets, countOctets, length_wordOctets, length_transactionOctets]

/-! ### STATION QUERY (R78) -/

theorem length_stationOctets (s : State) (ix : StationIx) : (s.stationOctets ix).length = 24 := by
  simp [State.stationOctets, StationRef.octets, length_wordOctets, length_optionalWord, length_optionalTime, length_latchOctets]

theorem octet_of_toNat {o : Octet} {n : Nat} (h : o.toNat = n) : octet n = o := by
  subst h
  simp [octet]

/-! ### ORDER QUERY (R103) -/

theorem takeWhile_append_cons {α : Type} {p : α → Bool} {a : α} (stop : p a = false) (behind : List α) :
    ∀ ahead : List α, (∀ b ∈ ahead, p b = true) → (ahead ++ a :: behind).takeWhile p = ahead := by
  intro ahead all
  rw [List.takeWhile_append_of_pos all, List.takeWhile_cons_of_neg (by simp [stop]), List.append_nil]

/-- The entries ahead of a queued order in its queue (R103). -/
theorem queuePosition_eq {s : State} {r : OrderRecord} {ahead behind : List OrderRecord} (queued : r.state = .queued)
    (order : r.kind ≠ .groupPass) (orders : s.orders = ahead ++ r :: behind) (others : ∀ q ∈ ahead, q.named r.number = false) :
    s.queuePosition r = ahead.countP fun q => q.line = r.line && q.priority = r.priority && q.state = .queued := by
  have inQueue : s.queue r.line r.priority = (ahead.filter fun q =>
        q.line = r.line && q.priority = r.priority && (q.state = .queued || q.kind = .groupPass)) ++
      r :: behind.filter fun q => q.line = r.line && q.priority = r.priority && (q.state = .queued || q.kind = .groupPass) := by
    rw [State.queue, orders, List.filter_append, List.filter_cons_of_pos (by simp [queued])]
  rw [State.queuePosition, inQueue, takeWhile_append_cons (by simp [OrderRecord.named, order]) _ _ fun q mem => by
    simpa using others q (List.mem_of_mem_filter mem), List.countP_filter]
  refine List.countP_congr fun q _ => ?_
  simp only [Bool.and_eq_true, Bool.or_eq_true, decide_eq_true_eq]
  constructor
  · rintro ⟨state, placed, -⟩; exact ⟨placed, state⟩
  · rintro ⟨placed, state⟩; exact ⟨state, placed, .inl state⟩

theorem orderQueryOwner_order {u : State} {high low : Octet} {r : OrderRecord} (found : u.findOrder (wordOf high low) = some r) :
    orderQueryOwner [high, low] u = (u, accept (u.orderOctets r)) := by
  simp only [orderQueryOwner, found]

theorem orderQueryOwner_delivery {u : State} {high low : Octet} {d : Delivery} (order : u.findOrder (wordOf high low) = none)
    (found : u.findDelivery (wordOf high low) = some d) : orderQueryOwner [high, low] u = (u, accept (deliveryNumberOctets d)) := by
  simp only [orderQueryOwner, order, found]

theorem orderQueryOwner_none {u : State} {high low : Octet} (order : u.findOrder (wordOf high low) = none)
    (delivery : u.findDelivery (wordOf high low) = none) : orderQueryOwner [high, low] u = (u, refuse .noSuch) := by
  simp only [orderQueryOwner, order, delivery]

/-! ### GROUP QUERY (R114) -/

/-- A member's two states in one octet: the group's above, the delivery's below (section 9.3). -/
theorem memberStates_eq_add (k : MemberState) (m : DeliveryMemberState) : (k.code <<< 4) ||| m.code = 16 * k.code + m.code := by
  cases k <;> cases m <;> rfl

theorem memberState_eq_mul (k : MemberState) : k.code <<< 4 = 16 * k.code := by cases k <;> rfl

theorem filter_map_nonempty {α β : Type} {f : α → List β} {f' : α → Option (List β)}
    (h : ∀ a, f' a = if (f a).isEmpty then none else some (f a)) : ∀ l : List α, (l.map f).filter (fun e => !e.isEmpty) = l.filterMap f'
  | [] => rfl
  | a :: rest => by
    rw [List.map_cons, List.filterMap_cons, h a, ← filter_map_nonempty h rest]
    cases empty : (f a).isEmpty <;> simp [empty]

/-- One station's entry in GROUP QUERY: its identity, its states and its attempts (section 9.3). -/
def entryOctets (st : StationRef) (states attempts : Octet) : List Octet :=
  [octet st.index.val, octet st.line.val, st.address, states, attempts]

theorem groupEntry_standing (k : Member) : groupEntry (some k) none = entryOctets k.station (16 * k.state.code) 0 := by
  rw [← memberState_eq_mul]; rfl

theorem groupEntry_delivered (k : Member) (m : DeliveryMember) :
    groupEntry (some k) (some m) = entryOctets k.station (16 * k.state.code + m.state.code) (attemptsOctet m.attempts m.repaired) := by
  rw [← memberStates_eq_add]; rfl

theorem groupEntry_gone (m : DeliveryMember) :
    groupEntry none (some m) = entryOctets m.station m.state.code (attemptsOctet m.attempts m.repaired) := rfl

theorem groupEntries_idle (gr : Group) :
    groupEntries gr none = gr.members.map fun m => entryOctets m.station (16 * m.state.code) 0 :=
  List.map_congr_left fun m _ => groupEntry_standing m

/-- The entry of a station on a delivery's roster; none when it is neither in the group nor in the snapshot. -/
def rosterEntry (gr : Group) (d : Delivery) (station : StationRef) : Option (List Octet) :=
  match gr.memberOf station.index, d.snapshot.find? fun m => m.station.index = station.index with
  | some k, some m => some (entryOctets k.station (16 * k.state.code + m.state.code) (attemptsOctet m.attempts m.repaired))
  | none, some m => some (entryOctets m.station m.state.code (attemptsOctet m.attempts m.repaired))
  | some k, none => some (entryOctets k.station (16 * k.state.code) 0)
  | none, none => none

theorem groupEntries_delivering (gr : Group) (d : Delivery) : groupEntries gr (some d) = d.roster.filterMap (rosterEntry gr d) := by
  refine filter_map_nonempty (fun station => ?_) d.roster
  unfold rosterEntry
  cases gr.memberOf station.index with
  | none => cases d.snapshot.find? fun m => m.station.index = station.index <;> rfl
  | some k =>
    cases d.snapshot.find? fun m => m.station.index = station.index with
    | none => rw [groupEntry_standing]; rfl
    | some m => rw [groupEntry_delivered]; rfl

theorem groupOctets_idle {s : State} {g : GroupNo} (idle : s.deliveryOf g = none) :
    s.groupOctets g =
      [octet g.val, (s.group g).seq.zeroExtend 8, octet (s.group g).members.length, 0xFF, 0, 0, 0xFF, 0, 0,
        octet (s.group g).members.length] ++
      (s.group g).members.flatMap fun m => entryOctets m.station (16 * m.state.code) 0 := by
  simp only [State.groupOctets, idle, groupEntries_idle, List.length_map, List.flatMap]
  rfl

theorem groupOctets_delivering {s : State} {g : GroupNo} {d : Delivery} (found : s.deliveryOf g = some d) :
    s.groupOctets g =
      [octet g.val, (s.group g).seq.zeroExtend 8, octet (s.group g).members.length, if d.cancelling then 2 else 1] ++
      wordOctets d.number ++ [d.priority.code, octet d.outstanding, octet d.snapshot.length,
        octet (d.roster.filterMap (rosterEntry (s.group g) d)).length] ++
      (d.roster.filterMap (rosterEntry (s.group g) d)).flatten := by
  simp only [State.groupOctets, found, groupEntries_delivering]
  rfl

/-! ### WATCH QUERY (R145) -/

theorem watchOctets_free {s : State} {w : WatchNo} (free : (s.watch w).state = .free) : s.watchOctets w = [octet w.val, 0] := by
  simp only [State.watchOctets, free, if_true]
  rfl

theorem watchOctets_used {s : State} {w : WatchNo} (used : (s.watch w).state ≠ .free) :
    s.watchOctets w = [octet w.val, (s.watch w).state.code] ++
      (identityOctets (s.watch w).station ++ conditionOctets (s.watch w).conditions ++ [(s.watch w).combine.code, truth (s.watch w).oneShot] ++
        hitOctets (s.watch w).hit) := by
  simp only [State.watchOctets, used, if_false]

/-- Settles O55. -/
theorem queriesAnswered : Obligations.QueriesAnswered := by
  refine ⟨fun tag s u => ?part, fun tag line options s u => ?line, fun tag line address s u l ix => ?station,
    fun tag high low s u => ?order, fun tag group s u => ?group, fun tag number s u => ?watch⟩
  case part => exact fun taken => exec_eq_answering rfl rfl taken rfl
  case line =>
    intro i taken named
    refine ⟨fun high => exec_eq_refused rfl rfl taken (lineStatusOwner_bad named (lineOf_none line high) u), fun l hl => ?_⟩
    intro e waits octets
    have judged := lineStatusOwner_eq named (lineOf_eq line l hl) u
    have shown : u.lineStatusOctets l = octets := by
      simp only [State.lineStatusOctets, length_queue, octets, e, waits]
      cases (u.engine l).tx <;> rfl
    rw [shown] at judged
    refine ⟨shown ▸ length_lineStatusOctets u l, fun keep => ?_, fun clear => ?_⟩
    · exact exec_eq_answering rfl rfl taken (judged.trans (by rw [keep]; rfl))
    · exact exec_eq_answering_of_changed rfl rfl taken (judged.trans (by rw [clear]; rfl))
  case station =>
    intro i taken hl ⟨h1, h2, found⟩ st octets
    have shown : u.stationOctets ix = octets := by
      simp only [State.stationOctets, stationRef_eq found, StationRef.octets, lineOctet, octet_of_toNat hl, octets, st]
      cases (u.station ix).latch <;> rfl
    obtain ⟨-, named⟩ := exec_withStation (i := i) rfl rfl taken rfl
    exact ⟨shown ▸ length_stationOctets u ix, shown ▸ (named l hl h1 h2).2 ix found _ _ _ rfl⟩
  case order =>
    intro i n taken
    refine ⟨fun order delivery => ?_, fun r found => ?_, fun d order found => ?_⟩
    · exact exec_eq_refused rfl rfl taken (orderQueryOwner_none order delivery)
    · intro identity known
      obtain ⟨-, number, kind⟩ := findOrder_some found
      have answered (octets : List Octet) (h : u.orderOctets r = octets) : exec i s = .next (u.answering i .ok octets) :=
        exec_eq_answering rfl rfl taken ((orderQueryOwner_order found).trans (by rw [h]; rfl))
      have spelled : wordOctets r.number = [high, low] := by rw [number]; exact octets_word high low
      have named : identityOctets r.station = identity := identityOctets_eq r.station
      refine ⟨fun ahead behind queued orders others => ?_, fun active => ?_⟩
      · intro position
        have placed : u.queuePosition r = position := queuePosition_eq queued kind orders (number ▸ others)
        refine answered _ ?_
        simp only [State.orderOctets, queued, if_true, spelled, named, placed, known, List.append_assoc, List.cons_append,
          List.nil_append]
        rfl
      · intro phase used
        have phased : enginePhase (u.engine r.line).state = phase := by
          cases state : (u.engine r.line).state <;> simp only [phase, state] <;> rfl
        have tried : u.attemptsInFlight r.line = used := by
          cases tx : (u.engine r.line).tx <;> simp only [State.attemptsInFlight, used, tx]
        refine answered _ ?_
        simp only [State.orderOctets, active, if_false, spelled, named, phased, tried, known,
          List.append_assoc, List.cons_append, List.nil_append]
        rfl
    · obtain ⟨-, number⟩ := findDelivery_some found
      have spelled : wordOctets d.number = [high, low] := by rw [number]; exact octets_word high low
      refine exec_eq_answering rfl rfl taken ((orderQueryOwner_delivery order found).trans ?_)
      simp only [deliveryNumberOctets, spelled]
      rfl
  case group =>
    intro i taken
    refine ⟨fun high => ?_, fun g hg => ⟨?_, fun idle => ?_, fun d found => ?_⟩⟩
    · exact exec_eq_refused rfl rfl taken (by simp only [groupQueryOwner, groupOf_none group high])
    · exact exec_eq_answering rfl rfl taken (by simp only [groupQueryOwner, groupOf_eq group g hg]; rfl)
    · rw [groupOctets_idle idle, octet_of_toNat hg]
      rfl
    · intro line tried entries
      have listed : d.roster.filterMap (rosterEntry (u.group g) d) = entries := by
        refine List.filterMap_congr fun station _ => ?_
        unfold rosterEntry
        simp only [attemptsOctet_eq_add]
        rfl
      rw [groupOctets_delivering found, octet_of_toNat hg, listed]
  case watch =>
    intro i taken
    refine ⟨fun high => ?_, fun w hw => ?_⟩
    · exact exec_eq_refused rfl rfl taken (by simp only [watchQueryOwner, watchOf_none number high])
    · have answered (octets : List Octet) (h : u.watchOctets w = octets) : exec i s = .next (u.answering i .ok octets) :=
        exec_eq_answering rfl rfl taken (by simp only [watchQueryOwner, watchOf_eq number w hw, h]; rfl)
      intro e
      refine ⟨fun free => answered _ ?_, fun used => answered _ ?_⟩
      · rw [watchOctets_free free, octet_of_toNat hw]
      · rw [watchOctets_used used, octet_of_toNat hw, identityOctets_eq]
        cases (u.watch w).hit <;> simp only [e, hitOctets, List.append_assoc] <;> rfl

end Machine

end Sys2Proof

/-! ## The request unit (O2) -/

namespace Sys2Proof

namespace Machine

/-! ### Answers that refuse change nothing (R179) -/

/-- An answer with any code but OK carries the code alone and leaves the part as it was. -/
def RefusesCleanly (s : State) (p : State × Answer) : Prop :=
  p.2.code ≠ .ok → p.1 = s ∧ p.2.data = [] ∧ p.2.rate = none

@[simp] theorem refusesCleanly_refuse (s : State) (code : ResultCode) : RefusesCleanly s (s, refuse code) := fun _ => ⟨rfl, rfl, rfl⟩

@[simp] theorem refusesCleanly_ok (s t : State) (data : List Octet) (rate : Option Octet) :
    RefusesCleanly s (t, { code := .ok, data := data, rate := rate }) := fun h => absurd rfl h

@[simp] theorem refusesCleanly_accept (s t : State) (data : List Octet) : RefusesCleanly s (t, accept data) := fun h => absurd rfl h

theorem refusesCleanly_withStation {s : State} {next : StationIx → State × Answer} (h : ∀ ix, RefusesCleanly s (next ix)) (line address : Octet) :
    RefusesCleanly s (s.withStation line address next) := by
  unfold State.withStation
  split
  · split
    · exact h _
    · exact refusesCleanly_refuse s _
  · exact refusesCleanly_refuse s _

/-! ### The requests about the part and its lines -/

theorem refusesCleanly_identifyOwner (b : List Octet) (s : State) : RefusesCleanly s (identifyOwner b s) := by
  unfold identifyOwner; split <;> simp

theorem refusesCleanly_partStatusOwner (b : List Octet) (s : State) : RefusesCleanly s (partStatusOwner b s) := by
  unfold partStatusOwner; split <;> simp

theorem refusesCleanly_setLinkRateOwner (b : List Octet) (s : State) : RefusesCleanly s (setLinkRateOwner b s) := by
  unfold setLinkRateOwner; repeat' split
  all_goals simp

theorem refusesCleanly_restartOwner (b : List Octet) (s : State) : RefusesCleanly s (restartOwner b s) := by
  unfold restartOwner; repeat' split
  all_goals simp

theorem refusesCleanly_lineSetOwner (b : List Octet) (s : State) : RefusesCleanly s (lineSetOwner b s) := by
  unfold lineSetOwner; dsimp only; repeat' split
  all_goals simp

theorem refusesCleanly_lineStartOwner (b : List Octet) (s : State) : RefusesCleanly s (lineStartOwner b s) := by
  unfold lineStartOwner; repeat' split
  all_goals simp

theorem refusesCleanly_lineStopOwner (b : List Octet) (s : State) : RefusesCleanly s (lineStopOwner b s) := by
  unfold lineStopOwner; repeat' split
  all_goals simp

theorem refusesCleanly_lineStatusOwner (b : List Octet) (s : State) : RefusesCleanly s (lineStatusOwner b s) := by
  unfold lineStatusOwner; repeat' split
  all_goals simp

/-! ### The requests about stations -/

theorem refusesCleanly_stationAddOwner (b : List Octet) (s : State) : RefusesCleanly s (stationAddOwner b s) := by
  unfold stationAddOwner; repeat' split
  all_goals simp

theorem refusesCleanly_stationRemoveOwner (b : List Octet) (s : State) : RefusesCleanly s (stationRemoveOwner b s) := by
  unfold stationRemoveOwner
  split
  · exact refusesCleanly_withStation (fun ix => by split <;> simp) _ _
  · exact refusesCleanly_refuse s _

theorem refusesCleanly_stationSuspendOwner (b : List Octet) (s : State) : RefusesCleanly s (stationSuspendOwner b s) := by
  unfold stationSuspendOwner
  split
  · exact refusesCleanly_withStation (fun ix => by split <;> simp) _ _
  · exact refusesCleanly_refuse s _

theorem refusesCleanly_stationResumeOwner (b : List Octet) (s : State) : RefusesCleanly s (stationResumeOwner b s) := by
  unfold stationResumeOwner
  split
  · exact refusesCleanly_withStation (fun ix => by split <;> simp) _ _
  · exact refusesCleanly_refuse s _

theorem refusesCleanly_stationSetOwner (b : List Octet) (s : State) : RefusesCleanly s (stationSetOwner b s) := by
  unfold stationSetOwner
  split
  · split
    · exact refusesCleanly_withStation (fun ix => by split <;> simp) _ _
    · exact refusesCleanly_refuse s _
  · exact refusesCleanly_refuse s _

theorem refusesCleanly_stationQueryOwner (b : List Octet) (s : State) : RefusesCleanly s (stationQueryOwner b s) := by
  unfold stationQueryOwner
  split
  · exact refusesCleanly_withStation (fun ix => refusesCleanly_accept s s _) _ _
  · exact refusesCleanly_refuse s _

/-! ### The requests about orders -/

theorem refusesCleanly_takeHostOrder (s : State) (ix : StationIx) (kind : OrderKind) (p : Priority) (data : List Octet) (blocks : Nat) :
    RefusesCleanly s (s.takeHostOrder ix kind p data blocks) := by
  unfold State.takeHostOrder; split <;> simp

theorem refusesCleanly_sendOwner (b : List Octet) (s : State) : RefusesCleanly s (sendOwner b s) := by
  unfold sendOwner
  split
  · split
    · exact refusesCleanly_refuse s _
    · split
      · exact refusesCleanly_refuse s _
      · split
        · exact refusesCleanly_refuse s _
        · exact refusesCleanly_withStation (fun ix => refusesCleanly_takeHostOrder s ix _ _ _ _) _ _
  · exact refusesCleanly_refuse s _

theorem refusesCleanly_fetchOwner (b : List Octet) (s : State) : RefusesCleanly s (fetchOwner b s) := by
  unfold fetchOwner
  split
  · split
    · exact refusesCleanly_refuse s _
    · split
      · exact refusesCleanly_refuse s _
      · exact refusesCleanly_withStation (fun ix => refusesCleanly_takeHostOrder s ix _ _ _ _) _ _
  · exact refusesCleanly_refuse s _

theorem refusesCleanly_cancelOrder (s : State) (r : OrderRecord) : RefusesCleanly s (s.cancelOrder r) := by
  unfold State.cancelOrder; repeat' split
  all_goals simp

theorem refusesCleanly_cancelNumberedDelivery (s : State) (d : Delivery) : RefusesCleanly s (s.cancelNumberedDelivery d) := by
  unfold State.cancelNumberedDelivery; split <;> simp

theorem refusesCleanly_cancelOwner (b : List Octet) (s : State) : RefusesCleanly s (cancelOwner b s) := by
  unfold cancelOwner
  split
  · split
    · exact refusesCleanly_cancelOrder s _
    · exact refusesCleanly_cancelNumberedDelivery s _
    · exact refusesCleanly_refuse s _
  · exact refusesCleanly_refuse s _

theorem refusesCleanly_orderQueryOwner (b : List Octet) (s : State) : RefusesCleanly s (orderQueryOwner b s) := by
  unfold orderQueryOwner; repeat' split
  all_goals simp

/-! ### The requests about groups -/

theorem refusesCleanly_addMember (s : State) (g : GroupNo) (ix : StationIx) : RefusesCleanly s (s.addMember g ix) := by
  unfold State.addMember State.takeMemberOrder; split <;> simp

theorem refusesCleanly_dropMember (s : State) (g : GroupNo) (ix : StationIx) : RefusesCleanly s (s.dropMember g ix) := by
  unfold State.dropMember State.takeMemberOrder; repeat' split
  all_goals simp

theorem refusesCleanly_memberAddOwner (b : List Octet) (s : State) : RefusesCleanly s (memberAddOwner b s) := by
  unfold memberAddOwner
  split
  · split
    · exact refusesCleanly_withStation (fun ix => refusesCleanly_addMember s _ ix) _ _
    · exact refusesCleanly_refuse s _
  · exact refusesCleanly_refuse s _

theorem refusesCleanly_memberDropOwner (b : List Octet) (s : State) : RefusesCleanly s (memberDropOwner b s) := by
  unfold memberDropOwner
  split
  · split
    · exact refusesCleanly_withStation (fun ix => refusesCleanly_dropMember s _ ix) _ _
    · exact refusesCleanly_refuse s _
  · exact refusesCleanly_refuse s _

theorem refusesCleanly_takeDelivery (s : State) (g : GroupNo) (p : Priority) (data : List Octet) : RefusesCleanly s (s.takeDelivery g p data) := by
  unfold State.takeDelivery; split <;> simp

theorem refusesCleanly_groupSendOwner (b : List Octet) (s : State) : RefusesCleanly s (groupSendOwner b s) := by
  unfold groupSendOwner
  split
  · split
    · exact refusesCleanly_refuse s _
    · split
      · split
        · exact refusesCleanly_refuse s _
        · exact refusesCleanly_takeDelivery s _ _ _
      · exact refusesCleanly_refuse s _
  · exact refusesCleanly_refuse s _

theorem refusesCleanly_groupQueryOwner (b : List Octet) (s : State) : RefusesCleanly s (groupQueryOwner b s) := by
  unfold groupQueryOwner; repeat' split
  all_goals simp

/-! ### The requests about watches and reports -/

theorem refusesCleanly_setWatchOn (s : State) (ix : StationIx) (cs : Vector Condition 16) (mode : Combine) (oneShot : Bool) :
    RefusesCleanly s (s.setWatchOn ix cs mode oneShot) := by
  unfold State.setWatchOn; repeat' split
  all_goals simp

theorem refusesCleanly_watchSetOwner (b : List Octet) (s : State) : RefusesCleanly s (watchSetOwner b s) := by
  unfold watchSetOwner
  split
  · split
    · exact refusesCleanly_refuse s _
    · split
      · exact refusesCleanly_withStation (fun ix => refusesCleanly_setWatchOn s ix _ _ _) _ _
      · exact refusesCleanly_refuse s _
  · exact refusesCleanly_refuse s _

theorem refusesCleanly_watchClearOwner (b : List Octet) (s : State) : RefusesCleanly s (watchClearOwner b s) := by
  unfold watchClearOwner; repeat' split
  all_goals simp

theorem refusesCleanly_watchRearmOwner (b : List Octet) (s : State) : RefusesCleanly s (watchRearmOwner b s) := by
  unfold watchRearmOwner; repeat' split
  all_goals simp

theorem refusesCleanly_watchQueryOwner (b : List Octet) (s : State) : RefusesCleanly s (watchQueryOwner b s) := by
  unfold watchQueryOwner; repeat' split
  all_goals simp

theorem refusesCleanly_reportConfirmOwner (b : List Octet) (s : State) : RefusesCleanly s (reportConfirmOwner b s) := by
  unfold reportConfirmOwner; repeat' split
  all_goals simp

theorem refusesCleanly_reportResendOwner (b : List Octet) (s : State) : RefusesCleanly s (reportResendOwner b s) := by
  unfold reportResendOwner; split <;> simp

/-! ### Every request is served by its owner (R178, R179, R186) -/

/-- What every request's owner does: it leaves the link side as it is, and a refusal changes nothing. -/
def Serves (owner : State → State × Answer) : Prop :=
  (∀ t, Owned t (owner t).1) ∧ ∀ t, RefusesCleanly t (owner t)

theorem exec_served {i : Instr} {f : HostFrame} (hf : i.frame = some f) (wf : i.wellFormed = true) :
    ∃ owner, (∀ s, exec i s = .next (s.serve f owner)) ∧ Serves owner := by
  cases i <;> cases hf
  case identify tag b => exact ⟨_, fun _ => rfl, owned_identifyOwner b, refusesCleanly_identifyOwner b⟩
  case partStatus tag b => exact ⟨_, fun _ => rfl, owned_partStatusOwner b, refusesCleanly_partStatusOwner b⟩
  case setLinkRate tag b => exact ⟨_, fun _ => rfl, owned_setLinkRateOwner b, refusesCleanly_setLinkRateOwner b⟩
  case restart tag b => exact ⟨_, fun _ => rfl, owned_restartOwner b, refusesCleanly_restartOwner b⟩
  case lineSet tag b => exact ⟨_, fun _ => rfl, owned_lineSetOwner b, refusesCleanly_lineSetOwner b⟩
  case lineStart tag b => exact ⟨_, fun _ => rfl, owned_lineStartOwner b, refusesCleanly_lineStartOwner b⟩
  case lineStop tag b => exact ⟨_, fun _ => rfl, owned_lineStopOwner b, refusesCleanly_lineStopOwner b⟩
  case lineStatus tag b => exact ⟨_, fun _ => rfl, owned_lineStatusOwner b, refusesCleanly_lineStatusOwner b⟩
  case stationAdd tag b => exact ⟨_, fun _ => rfl, owned_stationAddOwner b, refusesCleanly_stationAddOwner b⟩
  case stationRemove tag b => exact ⟨_, fun _ => rfl, owned_stationRemoveOwner b, refusesCleanly_stationRemoveOwner b⟩
  case stationSuspend tag b => exact ⟨_, fun _ => rfl, owned_stationSuspendOwner b, refusesCleanly_stationSuspendOwner b⟩
  case stationResume tag b => exact ⟨_, fun _ => rfl, owned_stationResumeOwner b, refusesCleanly_stationResumeOwner b⟩
  case stationSet tag b => exact ⟨_, fun _ => rfl, owned_stationSetOwner b, refusesCleanly_stationSetOwner b⟩
  case stationQuery tag b => exact ⟨_, fun _ => rfl, owned_stationQueryOwner b, refusesCleanly_stationQueryOwner b⟩
  case send tag b => exact ⟨_, fun _ => rfl, owned_sendOwner b, refusesCleanly_sendOwner b⟩
  case fetch tag b => exact ⟨_, fun _ => rfl, owned_fetchOwner b, refusesCleanly_fetchOwner b⟩
  case cancel tag b => exact ⟨_, fun _ => rfl, owned_cancelOwner b, refusesCleanly_cancelOwner b⟩
  case orderQuery tag b => exact ⟨_, fun _ => rfl, owned_orderQueryOwner b, refusesCleanly_orderQueryOwner b⟩
  case memberAdd tag b => exact ⟨_, fun _ => rfl, owned_memberAddOwner b, refusesCleanly_memberAddOwner b⟩
  case memberDrop tag b => exact ⟨_, fun _ => rfl, owned_memberDropOwner b, refusesCleanly_memberDropOwner b⟩
  case groupSend tag b => exact ⟨_, fun _ => rfl, owned_groupSendOwner b, refusesCleanly_groupSendOwner b⟩
  case groupQuery tag b => exact ⟨_, fun _ => rfl, owned_groupQueryOwner b, refusesCleanly_groupQueryOwner b⟩
  case watchSet tag b => exact ⟨_, fun _ => rfl, owned_watchSetOwner b, refusesCleanly_watchSetOwner b⟩
  case watchClear tag b => exact ⟨_, fun _ => rfl, owned_watchClearOwner b, refusesCleanly_watchClearOwner b⟩
  case watchRearm tag b => exact ⟨_, fun _ => rfl, owned_watchRearmOwner b, refusesCleanly_watchRearmOwner b⟩
  case watchQuery tag b => exact ⟨_, fun _ => rfl, owned_watchQueryOwner b, refusesCleanly_watchQueryOwner b⟩
  case reportConfirm tag b => exact ⟨_, fun _ => rfl, owned_reportConfirmOwner b, refusesCleanly_reportConfirmOwner b⟩
  case reportResend tag b => exact ⟨_, fun _ => rfl, owned_reportResendOwner b, refusesCleanly_reportResendOwner b⟩
  case unknownKind kind tag b =>
    have unknown : kind ∉ requestKinds := by simpa [Instr.wellFormed] using (Bool.and_eq_true_iff.mp wf).2
    exact ⟨_, exec_unknownKind_of_not_mem unknown tag b, fun t => Owned.refl t, fun t => refusesCleanly_refuse t .unknownKind⟩

theorem replyQueue_owned {s t : State} (h : Owned s t) : t.replyQueue = s.replyQueue := congrArg LinkSide.replyQueue h.link

theorem takeFrame_queued {s : State} {f : HostFrame} {rest : List HostFrame} (released : s.resetAsserted = false)
    (queue : s.inputQueue = f :: rest) (g : HostFrame) :
    s.takeFrame g = if 4 ≤ s.replyPlacesInUse then none else if f = g then some { s with inputQueue := rest } else none := by
  have full : (s.resetAsserted || Config.replyPlaces ≤ s.replyPlacesInUse) = true ↔ 4 ≤ s.replyPlacesInUse := by
    rw [released, Bool.false_or]
    exact decide_eq_true_iff
  rw [State.takeFrame, queue]
  exact if_congr full rfl rfl

/-- Settles O2. -/
theorem requestsTakenAndAnswered : Obligations.RequestsTakenAndAnswered := by
  refine ⟨fun s f rest released queue => ?_, fun i f s u hf wf taken restarting => ?_, fun i f s u hf wf taken => ?_⟩
  · have take := takeFrame_queued released queue
    refine ⟨fun room => ?_, fun full => ?_, fun g other => ?_⟩
    · rw [take, if_neg (Nat.not_le.mpr room), if_pos rfl]
    · rw [take, if_pos full]
    · rw [take, if_neg (Ne.symm other), ite_self]
  · obtain ⟨owner, served, -⟩ := exec_served hf wf
    rw [served, serve_restarting taken restarting, State.answering, hf]
    rfl
  · obtain ⟨owner, served, owned, clean⟩ := exec_served hf wf
    cases restarting : u.restarting with
    | true =>
      exact ⟨u, refuse .state, by rw [served, serve_restarting taken restarting], rfl, refusesCleanly_refuse u .state⟩
    | false =>
      exact ⟨(owner u).1, (owner u).2, by rw [served, serve_taken taken restarting], replyQueue_owned (owned u), clean u⟩

end Machine

end Sys2Proof
